-- ==== Sys2Proof/Word.lean ====
section
/-! DEFINITION. The fixed-width words of the core (R8, R21, R102). -/

namespace Sys2Proof

/-- One byte: a PHV byte, a command byte, a next-table value (R44, R107, R113). -/
abbrev Byte := BitVec 8

/-- One word of the register store, or a 32-bit match address (R21, R34). -/
abbrev Word := BitVec 32

/-- The per-packet generation key that hash results are cached under (R102, R131). -/
abbrev CacheId := BitVec 64

end Sys2Proof
end

