-- ==== Sys2Proof/Config.lean ====
section
/-! DEFINITION. What one implementation fixes: the parameters of R6, the register layout (R22), the validation
flags (R31), and the free values, which nothing in Lean can evaluate. -/

namespace Sys2Proof

/-- Logical tables of a stage (R6, NLT). -/
abbrev nlt : Nat := 16

/-- Predication threads: 0 ingress, 1 egress, 2 ghost (R6, NTHR). -/
abbrev nthr : Nat := 3

/-- Stash entries of a row (R6, NS). -/
abbrev ns : Nat := 4

/-- Capacity of the atomic-write buffer (R6, ATOMIC_CAP). -/
abbrev atomicCap : Nat := 64

/-- One SRAM entry (R32). `value` and `mask` are EW bits, `vv` is VVW bits; a width that is a parameter is held
as the number the bits form (assumption 16). -/
structure SramEntry where
  valid : Bool
  value : Nat
  mask  : Nat
  vv    : Nat
deriving DecidableEq, Repr

/-- One TCAM entry, stored as two TW-bit words (R33, R105). -/
structure TcamEntry where
  valid : Bool
  word0 : Nat
  word1 : Nat
deriving DecidableEq, Repr

/-- One stash entry (R34); `addr` is the match address a hit produces. -/
structure StashEntry where
  valid : Bool
  value : Nat
  mask  : Nat
  vv    : Nat
  addr  : Word
deriving DecidableEq, Repr

/-- Bits `lo` to `lo + len - 1` of the register word at offset `word` (R22). -/
structure Seg where
  word : Nat
  lo   : Nat
  len  : Nat
deriving DecidableEq, Repr

/-- Where a configuration field lies: its segments, the least significant first (R22). -/
abbrev Place := List Seg

/-- Places of a field record `en` and one value (R26 to R29). -/
structure GatedPlace where
  en  : Place
  val : Place
deriving DecidableEq, Repr

/-- Places of a version-substitution slot (R26). -/
structure SlotPlace where
  en   : Place
  pos  : Place
  vs   : Place
  vbit : Place
deriving DecidableEq, Repr

/-- Places of a hash-address select (R27). -/
structure HashSelPlace where
  group  : Place
  offset : Place
deriving DecidableEq, Repr

/-- Places of a table's predication record (R30). -/
structure PredPlace where
  thr         : Place
  hasCounters : Place
  powered     : Place
deriving DecidableEq, Repr

/-- REG_LAYOUT: for every configuration field of R25 to R30, where its bits lie. A list is indexed as the rule
indexes the field; an index that a list does not reach names a field without bits, which reads 0. -/
structure Layout where
  matrix      : List (List Place)
  validMatrix : List (List Place)
  enable      : List Place
  seed        : List Place
  mx          : List (List GatedPlace)
  mxv         : List (List SlotPlace)
  hx          : List GatedPlace
  tx          : List (List GatedPlace)
  txv         : List (List SlotPlace)
  rowOwner    : List (List GatedPlace)
  matchMask   : List (List (List Place))
  byteMask    : List (List (List Place))
  hitmap      : List (List (List GatedPlace))
  hashAddrSel : List (List HashSelPlace)
  tcamStart   : List Place
  tcamLtcam   : List GatedPlace
  matchReg    : List GatedPlace
  tindReg     : List GatedPlace
  ltcamReg    : List GatedPlace
  predCfg     : List PredPlace
  startTable  : List Place
  runMode     : Place
deriving DecidableEq, Repr

/-- VERSION_MATCH (R181), as data: its default, or any other total function written out as a table whose entry
number is `vv * 2 ^ VER_BITS + ver`. -/
inductive VersionTest where
  | versionSet
  | table (rows : List Bool)
deriving DecidableEq, Repr

/-- PRED_SC_READING (R270). -/
inductive ShortCircuit where
  | skip
  | stop
deriving DecidableEq, Repr

/-- ATOMIC_OVERFLOW_POLICY (R321). -/
inductive OverflowPolicy where
  | discard
  | applyImmediately
deriving DecidableEq, Repr

/-- The two paths a logical table's hit can come from (R246, R247). -/
inductive HitKind where
  | exact
  | ternary
deriving DecidableEq, Repr, Inhabited

/-- What the entries hold before anything is written to them, listed by entry number; the rules leave it
unspecified (R380, assumption 8). The `valid` bits given here are not used. -/
structure Unwritten where
  sram  : List SramEntry
  tcam  : List TcamEntry
  stash : List StashEntry
deriving DecidableEq, Repr

/-- The parameters of R6 and the validation flags of R31: the arguments of the step relation. -/
structure Params where
  /-- HG, hash groups. -/
  hg : Nat
  /-- HS, first stages of a hash input. -/
  hs : Nat
  /-- SB, bytes of a first stage. -/
  sb : Nat
  /-- OW, hash output bits. -/
  ow : Nat
  /-- PHV_BYTES. -/
  phvBytes : Nat
  /-- VER_BITS. -/
  verBits : Nat
  /-- NR, physical rows. -/
  nr : Nat
  /-- NC, physical columns. -/
  nc : Nat
  /-- SD, words of an SRAM unit. -/
  sd : Nat
  /-- NE, entry slots of an SRAM word. -/
  ne : Nat
  /-- VVW, bits of a version-valid field. -/
  vvw : Nat
  /-- NMB, match result buses. -/
  nmb : Nat
  /-- NTB, TIND result buses. -/
  ntb : Nat
  /-- NTU, TCAM units. -/
  ntu : Nat
  /-- NT, entries of a TCAM unit. -/
  nt : Nat
  /-- TW, bits of a TCAM word. -/
  tw : Nat
  /-- NLTC, logical TCAMs. -/
  nltc : Nat
  /-- NMC, mapram columns of a row. -/
  nmc : Nat
  /-- NALU, meter ALUs of a row. -/
  nalu : Nat
  /-- CW, bits of a color bus. -/
  cw : Nat
  /-- OVW, bits of an overflow bus. -/
  ovw : Nat
  /-- XO, match-crossbar output bytes of a row. -/
  xo : Nat
  /-- SELW, bits of a byte selector. -/
  selw : Nat
  /-- XBAR_HASH_THRESHOLD. -/
  hashThreshold : Nat
  /-- NVS, version-substitution slots of a crossbar. -/
  nvs : Nat
  /-- REG_WORDS. -/
  regWords : Nat
  /-- REG_LAYOUT. -/
  layout : Layout
  /-- REG_RESET; a word the list does not reach is 0. -/
  regReset : List Word
  /-- VERSION_MATCH. -/
  versionMatch : VersionTest
  /-- PRED_ORDER. -/
  predOrder : List Nat
  /-- PRED_SC_READING. -/
  scReading : ShortCircuit
  /-- SRAM_TCAM_PRIORITY, by logical table. -/
  priority : List HitKind
  /-- HASH_CACHE_ENABLED. -/
  hashCacheEnabled : Bool
  /-- ATOMIC_OVERFLOW_POLICY. -/
  overflowPolicy : OverflowPolicy
  /-- VALIDATION.relaxMultiHit. -/
  relaxMultiHit : Bool
  /-- VALIDATION.relaxColorBus. -/
  relaxColorBus : Bool
  /-- Power-on contents of the entry arrays. -/
  unwritten : Unwritten
deriving DecidableEq, Repr

/-- EW, bits of a match key: always 8 * XO (R6). -/
abbrev Params.ew (p : Params) : Nat := 8 * p.xo

/-- The draw that PRED_GET returns in bits 4 to 7 outside a pass (R275, R276; assumption 10). -/
opaque Config.freeByte : Nat → Byte

/-- Which of two records with equal column, row and entry a relaxed match bus keeps (R188; assumption 12). -/
opaque Config.freeChoice : Nat → Bool

/-- SRAM_TCAM_PRIORITY of the machine behind State.reset: no default exists (R247; assumption 11). -/
opaque Config.sramTcamPriority : Nat → HitKind

end Sys2Proof
end

