-- ==== Sys2Proof/Syntax.lean ====
section
/-! DEFINITION. The commands of the core: one constructor per row of the operation map R101. -/

namespace Sys2Proof

/-- A PHV record as a command carries it and as the lookup context keeps it (R44, R113): the data bytes, the
number formed by the valid bits (bit k is `valid(k)`), and the two versions. -/
structure Phv where
  bytes   : List Byte
  valid   : Nat
  ingress : Nat
  egress  : Nat
deriving DecidableEq, Repr

/-- One command (R100, R101), operands in the order of R101. An operand is the number its bytes form, which can
lie outside its field (R113): the bounds of R102 are checked when the command steps. The operand `L` of R101
is written `lt`. -/
inductive Instr where
  | lookupBegin (phv : Phv) (cid : CacheId)
  | lookupEnd
  | hashBit (g o : Nat)
  | hashGroup (g : Nat)
  | xbarMatch (r : Nat)
  | xbarHash
  | xbarTcam (u : Nat)
  | sramEntryWrite (r c a e value mask vv : Nat)
  | sramEntryClear (r c a e : Nat)
  | sramLookup (c lt vs : Nat)
  | tcamSetValueMask (u idx v m : Nat)
  | tcamClear (u idx : Nat)
  | tcamGet (u idx : Nat)
  | tcamLookup (u : Nat)
  | tcamLookupRaw (u s1 s0 : Nat)
  | ltcamLookup (l : Nat)
  | stashWrite (r w value mask vv : Nat) (addr : Word)
  | stashClear (r w : Nat)
  | stashLookup (r vs : Nat)
  | stashInhibit (r w : Nat) (addr : Word)
  | stashHitInhibited (r w : Nat) (addr : Word)
  | rbMatchCb (k b : Nat)
  | rbTcamCb (l : Nat)
  | rbBusOwner (k b : Nat)
  | rbLtBuses (k lt : Nat)
  | rbLtcamOwner (l : Nat)
  | rbArbitrate (lt : Nat)
  | predStart (flags : Nat)
  | predGw (lt inhibit nextValid : Nat) (next : Byte)
  | predFirst (th : Nat)
  | predNext (th : Nat) (nt : Byte)
  | predEnd
  | predGet (lt th : Nat)
  | colorReset
  | colorSetRight (r col alu v : Nat)
  | ovfSetRight (r col alu v : Nat)
  | colorRead (r : Nat)
  | cfgRead (off : Nat)
  | cfgWrite (off : Nat) (data : Word)
  | atomicBegin (buffering : Nat)
  | atomicEnd
  | atomicQuery
deriving DecidableEq, Repr

end Sys2Proof
end

