-- ==== Sys2Proof/Machine/Encoding.lean ====
section
/-! DEFINITION. The encoding tables of 30_encoding: operation codes (R101), operand widths (R102), and the
operands of a command in the order they are carried. -/

namespace Sys2Proof.Machine

/-- Bytes that an operand of width `w` takes, B(w) = ceil(w / 8) (R113). -/
def bytesFor (w : Nat) : Nat := (w + 7) / 8

/-- The operation code of a command (R101). -/
def opcode : Instr → Nat
  | .lookupBegin .. => 0x01
  | .lookupEnd => 0x02
  | .hashBit .. => 0x10
  | .hashGroup .. => 0x11
  | .xbarMatch .. => 0x18
  | .xbarHash => 0x19
  | .xbarTcam .. => 0x1A
  | .sramEntryWrite .. => 0x20
  | .sramEntryClear .. => 0x21
  | .sramLookup .. => 0x22
  | .tcamSetValueMask .. => 0x28
  | .tcamClear .. => 0x29
  | .tcamGet .. => 0x2A
  | .tcamLookup .. => 0x2B
  | .tcamLookupRaw .. => 0x2C
  | .ltcamLookup .. => 0x2D
  | .stashWrite .. => 0x30
  | .stashClear .. => 0x31
  | .stashLookup .. => 0x32
  | .stashInhibit .. => 0x33
  | .stashHitInhibited .. => 0x34
  | .rbMatchCb .. => 0x38
  | .rbTcamCb .. => 0x39
  | .rbBusOwner .. => 0x3A
  | .rbLtBuses .. => 0x3B
  | .rbLtcamOwner .. => 0x3C
  | .rbArbitrate .. => 0x3D
  | .predStart .. => 0x40
  | .predGw .. => 0x41
  | .predFirst .. => 0x42
  | .predNext .. => 0x43
  | .predEnd => 0x44
  | .predGet .. => 0x45
  | .colorReset => 0x48
  | .colorSetRight .. => 0x49
  | .ovfSetRight .. => 0x4A
  | .colorRead .. => 0x4B
  | .cfgRead .. => 0x50
  | .cfgWrite .. => 0x51
  | .atomicBegin .. => 0x52
  | .atomicEnd => 0x53
  | .atomicQuery => 0x54

/-- The operand widths of an operation code, in record order (R101, R102); none for an illegal code (R108). A
PHV record is its data bytes, its valid bits and its two versions (R113). -/
def operandWidths (p : Params) : Nat → Option (List Nat)
  | 0x01 => some (List.replicate p.phvBytes 8 ++ [p.phvBytes, p.verBits, p.verBits, 64])
  | 0x02 => some []
  | 0x10 => some [16, 16]
  | 0x11 => some [16]
  | 0x18 => some [16]
  | 0x19 => some []
  | 0x1A => some [16]
  | 0x20 => some [16, 16, 16, 16, p.ew, p.ew, p.vvw]
  | 0x21 => some [16, 16, 16, 16]
  | 0x22 => some [16, 16, 1]
  | 0x28 => some [16, 16, p.tw, p.tw]
  | 0x29 => some [16, 16]
  | 0x2A => some [16, 16]
  | 0x2B => some [16]
  | 0x2C => some [16, p.tw, p.tw]
  | 0x2D => some [16]
  | 0x30 => some [16, 16, p.ew, p.ew, p.vvw, 32]
  | 0x31 => some [16, 16]
  | 0x32 => some [16, 1]
  | 0x33 => some [16, 16, 32]
  | 0x34 => some [16, 16, 32]
  | 0x38 => some [1, 16]
  | 0x39 => some [16]
  | 0x3A => some [1, 16]
  | 0x3B => some [1, 16]
  | 0x3C => some [16]
  | 0x3D => some [16]
  | 0x40 => some [3]
  | 0x41 => some [16, 1, 1, 8]
  | 0x42 => some [16]
  | 0x43 => some [16, 8]
  | 0x44 => some []
  | 0x45 => some [16, 16]
  | 0x48 => some []
  | 0x49 => some [16, 16, 16, p.cw]
  | 0x4A => some [16, 16, 16, p.ovw]
  | 0x4B => some [16]
  | 0x50 => some [32]
  | 0x51 => some [32, 32]
  | 0x52 => some [1]
  | 0x53 => some []
  | 0x54 => some []
  | _ => none

/-- The operands of a command as numbers, in record order (R101, R113). -/
def operands : Instr → List Nat
  | .lookupBegin phv cid =>
      phv.bytes.map BitVec.toNat ++ [phv.valid, phv.ingress, phv.egress, cid.toNat]
  | .lookupEnd => []
  | .hashBit g o => [g, o]
  | .hashGroup g => [g]
  | .xbarMatch r => [r]
  | .xbarHash => []
  | .xbarTcam u => [u]
  | .sramEntryWrite r c a e value mask vv => [r, c, a, e, value, mask, vv]
  | .sramEntryClear r c a e => [r, c, a, e]
  | .sramLookup c lt vs => [c, lt, vs]
  | .tcamSetValueMask u idx v m => [u, idx, v, m]
  | .tcamClear u idx => [u, idx]
  | .tcamGet u idx => [u, idx]
  | .tcamLookup u => [u]
  | .tcamLookupRaw u s1 s0 => [u, s1, s0]
  | .ltcamLookup l => [l]
  | .stashWrite r w value mask vv addr => [r, w, value, mask, vv, addr.toNat]
  | .stashClear r w => [r, w]
  | .stashLookup r vs => [r, vs]
  | .stashInhibit r w addr => [r, w, addr.toNat]
  | .stashHitInhibited r w addr => [r, w, addr.toNat]
  | .rbMatchCb k b => [k, b]
  | .rbTcamCb l => [l]
  | .rbBusOwner k b => [k, b]
  | .rbLtBuses k lt => [k, lt]
  | .rbLtcamOwner l => [l]
  | .rbArbitrate lt => [lt]
  | .predStart flags => [flags]
  | .predGw lt inhibit nextValid next => [lt, inhibit, nextValid, next.toNat]
  | .predFirst th => [th]
  | .predNext th nt => [th, nt.toNat]
  | .predEnd => []
  | .predGet lt th => [lt, th]
  | .colorReset => []
  | .colorSetRight r col alu v => [r, col, alu, v]
  | .ovfSetRight r col alu v => [r, col, alu, v]
  | .colorRead r => [r]
  | .cfgRead off => [off]
  | .cfgWrite off data => [off, data.toNat]
  | .atomicBegin buffering => [buffering]
  | .atomicEnd => []
  | .atomicQuery => []

end Sys2Proof.Machine
end

