-- ==== Sys2Proof/Machine/Bits.lean ====
section
/-! DEFINITION. Bit vectors whose width is a parameter, held as the numbers their bits form (R8, R9). Bit i of v
is `v.testBit i`; AND, OR and XOR are those of Nat. -/

namespace Sys2Proof.Machine

/-- `ones(n)` of R8. -/
def ones (n : Nat) : Nat := 2 ^ n - 1

/-- `~v` at the declared width `n` of v (R8). -/
def notBits (n v : Nat) : Nat := ones n ^^^ (v % 2 ^ n)

/-- The XOR of bits 0 to `n - 1` of v (R8, `parity`). -/
def parity : Nat → Nat → Bool
  | 0, _ => false
  | n + 1, v => Bool.xor (v.testBit n) (parity n v)

/-- `v` with bit `k` replaced by `b`. -/
def putBit (v k : Nat) (b : Bool) : Nat :=
  if v.testBit k = b then v else v ^^^ 2 ^ k

/-- Concatenation of values of `w` bits, the first lowest (R8, R9). -/
def assemble (w : Nat) : List Nat → Nat
  | [] => 0
  | x :: xs => x + 2 ^ w * assemble w xs

/-- Concatenation of bits, the first lowest. -/
def assembleBits (bs : List Bool) : Nat := assemble 1 (bs.map Bool.toNat)

/-- `expand(bm)` of R180 for `n` bytes: byte k is 0xFF where bit k of bm is 1, else 0x00. -/
def expandMask (n bm : Nat) : Nat :=
  assemble 8 ((List.range n).map fun k => if bm.testBit k then 0xFF else 0x00)

/-- The `n` bytes of a number, the least significant first (R9, R113). -/
def leBytes : Nat → Nat → List Byte
  | 0, _ => []
  | n + 1, v => BitVec.ofNat 8 v :: leBytes n (v / 256)

/-- The number that bytes form, the first least significant (R9). -/
def leNat : List Byte → Nat
  | [] => 0
  | b :: bs => b.toNat + 256 * leNat bs

end Sys2Proof.Machine
end

