-- ==== Sys2Proof/Machine/Cells.lean ====
section
/-! DEFINITION. Sparse indexed state: lists of (index, value) pairs in one canonical form, strictly rising indices
and no entry equal to what an unlisted index reads as, so that equal contents are equal lists. -/

namespace Sys2Proof.Machine

/-- An array held sparsely; what an unlisted index reads as is an argument of each operation. -/
abbrev Cells (α : Type) := List (Nat × α)

/-- The value at index k. -/
def Cells.read {α : Type} (dflt : Nat → α) : Cells α → Nat → α
  | [], k => dflt k
  | (a, v) :: m, k => if k = a then v else Cells.read dflt m k

/-- Puts a listed value at index k, keeping the indices rising. -/
def Cells.insert {α : Type} (m : Cells α) (k : Nat) (v : α) : Cells α :=
  match m with
  | [] => [(k, v)]
  | (a, w) :: m => if k < a then (k, v) :: (a, w) :: m else if k = a then (k, v) :: m else (a, w) :: Cells.insert m k v

/-- Takes index k off the list. -/
def Cells.erase {α : Type} (m : Cells α) (k : Nat) : Cells α := m.filter fun e => e.1 ≠ k

/-- Writes index k: the entry goes when it is what an unlisted index reads as. -/
def Cells.write {α : Type} [DecidableEq α] (dflt : Nat → α) (m : Cells α) (k : Nat) (v : α) : Cells α :=
  if v = dflt k then Cells.erase m k else Cells.insert m k v

/-- Applies f, which keeps what an unlisted index reads as, to every value. -/
def Cells.update {α : Type} [DecidableEq α] (dflt : Nat → α) (f : α → α) : Cells α → Cells α
  | [] => []
  | (a, v) :: m => if f v = dflt a then Cells.erase (Cells.update dflt f m) a else (a, f v) :: Cells.update dflt f m

/-- The canonical form. -/
def Cells.wf {α : Type} [DecidableEq α] (dflt : Nat → α) : Cells α → Bool
  | [] => true
  | (k, v) :: m => decide (v ≠ dflt k) && m.all (fun e => decide (k < e.1)) && Cells.wf dflt m

end Sys2Proof.Machine
end

