-- ==== Sys2Proof/Machine/Cfg.lean ====
section
/-! DEFINITION. The configuration as a pure function of the register store, `cfg = Decode(REG_LAYOUT, regs)`
(R22), field by field (R25 to R30). A field whose rule states a width is read at that width; an index field is as
wide as REG_LAYOUT makes it, and its range is checked where it is used (R26, R109). -/

namespace Sys2Proof.Machine

/-- REG_RESET[o] (R21): what a word that no write has reached reads as. -/
def regDefault (p : Params) (o : Nat) : Word := p.regReset.getD o 0

/-- Register word o (R310). -/
def regWord (p : Params) (regs : Cells Word) (o : Nat) : Word := Cells.read (regDefault p) regs o

/-- The value of the bits at a place (R22). -/
def readPlace (p : Params) (regs : Cells Word) : Place → Nat
  | [] => 0
  | g :: gs => ((regWord p regs g.word).toNat >>> g.lo) % 2 ^ g.len + 2 ^ g.len * readPlace p regs gs

/-- A field of w bits. -/
def readWidth (p : Params) (regs : Cells Word) (w : Nat) (pl : Place) : Nat := readPlace p regs pl % 2 ^ w

/-- A field of one bit. -/
def readFlag (p : Params) (regs : Cells Word) (pl : Place) : Bool := (readPlace p regs pl).testBit 0

/-- Whether a place has at least one bit in word o (R311, FieldsIn). -/
def placeTouches (o : Nat) (pl : Place) : Bool := pl.any fun g => g.word == o && decide (0 < g.len)

/-- Whether a gated field has at least one bit in word o (R311, FieldsIn). -/
def gatedTouches (o : Nat) (g : GatedPlace) : Bool := placeTouches o g.en || placeTouches o g.val

/-- A decoded field record: its enable and its value. -/
structure Gated where
  en  : Bool
  val : Nat
deriving DecidableEq, Repr

/-- A decoded version-substitution slot (R26). -/
structure Slot where
  en   : Bool
  pos  : Nat
  vs   : Nat
  vbit : Nat
deriving DecidableEq, Repr

/-- A gated field's places; a field the layout does not reach has none. -/
def gatedAt (l : List GatedPlace) (k : Nat) : GatedPlace := l.getD k ⟨[], []⟩

/-- A gated field whose value has w bits. -/
def readGated (p : Params) (regs : Cells Word) (w : Nat) (g : GatedPlace) : Gated :=
  { en := readFlag p regs g.en, val := readWidth p regs w g.val }

/-- A gated field whose value is an index as wide as the layout makes it. -/
def readIndexed (p : Params) (regs : Cells Word) (g : GatedPlace) : Gated :=
  { en := readFlag p regs g.en, val := readPlace p regs g.val }

/-- A version-substitution slot. -/
def readSlot (p : Params) (regs : Cells Word) (g : SlotPlace) : Slot :=
  { en := readFlag p regs g.en, pos := readPlace p regs g.pos
    vs := readWidth p regs 1 g.vs, vbit := readPlace p regs g.vbit }

/-- `cfg.M[s][o]`, 8*SB bits (R25). -/
def cfgMatrix (p : Params) (regs : Cells Word) (s o : Nat) : Nat :=
  readWidth p regs (8 * p.sb) ((p.layout.matrix.getD s []).getD o [])

/-- `cfg.V[s][o]`, SB bits (R25). -/
def cfgValidMatrix (p : Params) (regs : Cells Word) (s o : Nat) : Nat :=
  readWidth p regs p.sb ((p.layout.validMatrix.getD s []).getD o [])

/-- `cfg.En[g]`, HS bits (R25). -/
def cfgEnable (p : Params) (regs : Cells Word) (g : Nat) : Nat :=
  readWidth p regs p.hs (p.layout.enable.getD g [])

/-- `cfg.Seed[g]`, OW bits (R25). -/
def cfgSeed (p : Params) (regs : Cells Word) (g : Nat) : Nat :=
  readWidth p regs p.ow (p.layout.seed.getD g [])

/-- `cfg.mx[r][j]` (R26). -/
def cfgMx (p : Params) (regs : Cells Word) (r j : Nat) : Gated :=
  readGated p regs p.selw (gatedAt (p.layout.mx.getD r []) j)

/-- `cfg.mxv[r]`, its NVS slots in order (R26). -/
def cfgMxv (p : Params) (regs : Cells Word) (r : Nat) : List Slot :=
  (List.range p.nvs).map fun k => readSlot p regs ((p.layout.mxv.getD r []).getD k ⟨[], [], [], []⟩)

/-- `cfg.hx[j]` (R26). -/
def cfgHx (p : Params) (regs : Cells Word) (j : Nat) : Gated :=
  readGated p regs p.selw (gatedAt p.layout.hx j)

/-- `cfg.tx[u][i]` (R26). -/
def cfgTx (p : Params) (regs : Cells Word) (u k : Nat) : Gated :=
  readIndexed p regs (gatedAt (p.layout.tx.getD u []) k)

/-- `cfg.txv[u]`, its NVS slots in order (R26). -/
def cfgTxv (p : Params) (regs : Cells Word) (u : Nat) : List Slot :=
  (List.range p.nvs).map fun k => readSlot p regs ((p.layout.txv.getD u []).getD k ⟨[], [], [], []⟩)

/-- The places of `cfg.rowOwner[r][c]`. -/
def rowOwnerPlace (p : Params) (r c : Nat) : GatedPlace := gatedAt (p.layout.rowOwner.getD r []) c

/-- `cfg.rowOwner[r][c]` (R27). -/
def cfgRowOwner (p : Params) (regs : Cells Word) (r c : Nat) : Gated :=
  readGated p regs 4 (rowOwnerPlace p r c)

/-- `cfg.matchMask[r][c][e]`, EW bits (R27). -/
def cfgMatchMask (p : Params) (regs : Cells Word) (r c e : Nat) : Nat :=
  readWidth p regs p.ew (((p.layout.matchMask.getD r []).getD c []).getD e [])

/-- `cfg.byteMask[r][c][e]`, EW/8 bits (R27). -/
def cfgByteMask (p : Params) (regs : Cells Word) (r c e : Nat) : Nat :=
  readWidth p regs p.xo (((p.layout.byteMask.getD r []).getD c []).getD e [])

/-- `cfg.hitmap[r][c][e]` (R27). -/
def cfgHitmap (p : Params) (regs : Cells Word) (r c e : Nat) : Gated :=
  readIndexed p regs (gatedAt ((p.layout.hitmap.getD r []).getD c []) e)

/-- The places of `cfg.hashAddrSel[r][c]`. -/
def hashSelPlace (p : Params) (r c : Nat) : HashSelPlace := (p.layout.hashAddrSel.getD r []).getD c ⟨[], []⟩

/-- `cfg.hashAddrSel[r][c].group` (R27). -/
def cfgHashGroup (p : Params) (regs : Cells Word) (r c : Nat) : Nat := readPlace p regs (hashSelPlace p r c).group

/-- `cfg.hashAddrSel[r][c].offset` (R27). -/
def cfgHashOffset (p : Params) (regs : Cells Word) (r c : Nat) : Nat := readPlace p regs (hashSelPlace p r c).offset

/-- `cfg.tcamStart[u]` (R28). -/
def cfgTcamStart (p : Params) (regs : Cells Word) (u : Nat) : Nat := readPlace p regs (p.layout.tcamStart.getD u [])

/-- `cfg.tcamLtcam[u]` (R28). -/
def cfgTcamLtcam (p : Params) (regs : Cells Word) (u : Nat) : Gated := readIndexed p regs (gatedAt p.layout.tcamLtcam u)

/-- `cfg.busReg[0][b]` (R29). -/
def cfgMatchReg (p : Params) (regs : Cells Word) (b : Nat) : Gated := readGated p regs 4 (gatedAt p.layout.matchReg b)

/-- `cfg.busReg[1][b]` (R29). -/
def cfgTindReg (p : Params) (regs : Cells Word) (b : Nat) : Gated := readGated p regs 4 (gatedAt p.layout.tindReg b)

/-- `cfg.ltcamReg[l]` (R29). -/
def cfgLtcamReg (p : Params) (regs : Cells Word) (l : Nat) : Gated := readGated p regs 4 (gatedAt p.layout.ltcamReg l)

/-- The places of `cfg.predCfg[L]`. -/
def predPlace (p : Params) (lt : Nat) : PredPlace := p.layout.predCfg.getD lt ⟨[], [], []⟩

/-- `cfg.predCfg[L].thr`, 3 bits (R30). -/
def cfgPredThr (p : Params) (regs : Cells Word) (lt : Nat) : Nat := readWidth p regs 3 (predPlace p lt).thr

/-- `cfg.predCfg[L].hasCounters` (R30). -/
def cfgPredCounters (p : Params) (regs : Cells Word) (lt : Nat) : Bool := readFlag p regs (predPlace p lt).hasCounters

/-- `cfg.predCfg[L].powered` (R30, R363). -/
def cfgPredPowered (p : Params) (regs : Cells Word) (lt : Nat) : Bool := readFlag p regs (predPlace p lt).powered

/-- `cfg.startTable[th]`, 8 bits (R30). -/
def cfgStartTable (p : Params) (regs : Cells Word) (th : Nat) : Nat := readWidth p regs 8 (p.layout.startTable.getD th [])

/-- `cfg.runMode`: false is kModeEvaluateAll, true is kModeShortCircuit (R30). -/
def cfgRunMode (p : Params) (regs : Cells Word) : Bool := readFlag p regs p.layout.runMode

end Sys2Proof.Machine
end

