-- ==== Sys2Proof/Machine/BusMap.lean ====
section
/-! DEFINITION. The result-bus maps (R38) and their recompute from the crossbar registers (R241, R242). -/

namespace Sys2Proof.Machine

/-- The two kinds of result bus (R29): k = 0 match, k = 1 tind. -/
inductive BusKind where
  | matchBus
  | tindBus
deriving DecidableEq, Repr

/-- One map and its reverse: who owns bus b, and the mask of the buses that table L uses. The match buses, the
TIND buses and the logical TCAMs each have one (R38). -/
structure OwnerMap where
  owner : Cells (Option Nat)
  uses  : Cells Nat
deriving DecidableEq, Repr

/-- `busMap` (R38): `bus2lt` and `lt2bus` for k = 0 and k = 1, and `ltc2lt` with `lt2ltc`. -/
structure BusMap where
  matchBus : OwnerMap
  tindBus  : OwnerMap
  ltcam    : OwnerMap
deriving DecidableEq, Repr

/-- `bus2lt[b]`, or `ltc2lt[l]`. -/
def OwnerMap.ownerOf (m : OwnerMap) (b : Nat) : Option Nat := Cells.read (fun _ => none) m.owner b

/-- `lt2bus[L]`, or `lt2ltc[L]`. -/
def OwnerMap.mask (m : OwnerMap) (lt : Nat) : Nat := Cells.read (fun _ => 0) m.uses lt

/-- Sets bit b of table L's mask. -/
def OwnerMap.putUse (m : OwnerMap) (lt b : Nat) (on : Bool) : OwnerMap :=
  { m with uses := Cells.write (fun _ => 0) m.uses lt (putBit (m.mask lt) b on) }

/-- Sets the owner of bus b. -/
def OwnerMap.putOwner (m : OwnerMap) (b : Nat) (x : Option Nat) : OwnerMap :=
  { m with owner := Cells.write (fun _ => none) m.owner b x }

/-- Takes bus b out of its old owner's mask (R241, first lines). -/
def OwnerMap.release (m : OwnerMap) (b : Nat) : OwnerMap :=
  match m.ownerOf b with
  | some old => m.putUse old b false
  | none => m

/-- Gives bus b to the table that register value `x` names, or to none (R241, R242). -/
def OwnerMap.recompute (m : OwnerMap) (b : Nat) (x : Gated) : OwnerMap :=
  if x.en then ((m.release b).putOwner b (some x.val)).putUse x.val b true
  else (m.release b).putOwner b none

/-- The recompute of RB_MATCH_CB on bus b of a kind (R241). -/
def BusMap.recomputeBus (p : Params) (regs : Cells Word) (m : BusMap) (k : BusKind) (b : Nat) : BusMap :=
  match k with
  | .matchBus => { m with matchBus := m.matchBus.recompute b (cfgMatchReg p regs b) }
  | .tindBus => { m with tindBus := m.tindBus.recompute b (cfgTindReg p regs b) }

/-- The recompute of RB_TCAM_CB on logical TCAM l (R242). -/
def BusMap.recomputeLtcam (p : Params) (regs : Cells Word) (m : BusMap) (l : Nat) : BusMap :=
  { m with ltcam := m.ltcam.recompute l (cfgLtcamReg p regs l) }

/-- The map of one side of `busMap`. -/
def BusMap.side (m : BusMap) : BusKind → OwnerMap
  | .matchBus => m.matchBus
  | .tindBus => m.tindBus

/-- The number of buses of a kind: NMB or NTB (R102). -/
def busCount (p : Params) : BusKind → Nat
  | .matchBus => p.nmb
  | .tindBus => p.ntb

/-- The kind that operand k names (R102). -/
def busKind (k : Nat) : BusKind := if k = 0 then .matchBus else .tindBus

/-- Recomputes the buses and logical TCAMs that `bus k b` and `ltcam l` select, in ascending order (R311). -/
def BusMap.recomputeWhere (p : Params) (regs : Cells Word) (bus : BusKind → Nat → Bool) (ltcam : Nat → Bool)
    (m : BusMap) : BusMap :=
  let m1 := ((List.range p.nmb).filter (bus .matchBus)).foldl (fun m b => BusMap.recomputeBus p regs m .matchBus b) m
  let m2 := ((List.range p.ntb).filter (bus .tindBus)).foldl (fun m b => BusMap.recomputeBus p regs m .tindBus b) m1
  ((List.range p.nltc).filter ltcam).foldl (fun m l => BusMap.recomputeLtcam p regs m l) m2

/-- No bus and no logical TCAM owned. -/
def BusMap.empty : BusMap := { matchBus := ⟨[], []⟩, tindBus := ⟨[], []⟩, ltcam := ⟨[], []⟩ }

/-- The maps of a configuration, by R241 and R242 on every bus and every logical TCAM (R38, R380). -/
def BusMap.ofConfig (p : Params) (regs : Cells Word) : BusMap :=
  BusMap.recomputeWhere p regs (fun _ _ => true) (fun _ => true) BusMap.empty

end Sys2Proof.Machine
end

