-- ==== Sys2Proof/Machine/Reference.lean ====
section
/-! DEFINITION. The reference configuration of decision D50: the parameters of the machine behind State.reset
(assumption 1). Every rule, and every statement, is about any parameters. -/

namespace Sys2Proof.Machine

/-- The field at bits `[hi:lo]` of word w. -/
def fieldAt (w hi lo : Nat) : Place := [{ word := w, lo := lo, len := hi + 1 - lo }]

/-- A record with its value at `[hi:lo]` and its enable at bit `en` of one word. -/
def gatedField (w hi lo en : Nat) : GatedPlace := { en := fieldAt w en en, val := fieldAt w hi lo }

/-- A substitution slot in the byte at bit `at0` of word w: pos [2:0], vs [3], vbit [4], en [7]. -/
def slotField (w at0 : Nat) : SlotPlace :=
  { en := fieldAt w (at0 + 7) (at0 + 7), pos := fieldAt w (at0 + 2) at0
    vs := fieldAt w (at0 + 3) (at0 + 3), vbit := fieldAt w (at0 + 4) (at0 + 4) }

/-- An owner byte at bit `at0` of word w: lt [3:0], en [7]. -/
def ownerField (w at0 : Nat) : GatedPlace := gatedField w (at0 + 3) at0 (at0 + 7)

/-- `f 0` to `f (n - 1)`. -/
def tabulate {α : Type} (n : Nat) (f : Nat → α) : List α := (List.range n).map f

/-- The reference REG_LAYOUT (D50). -/
def referenceLayout : Layout where
  matrix := tabulate 2 fun s => tabulate 4 fun o => fieldAt s (8 * o + 7) (8 * o)
  validMatrix := tabulate 2 fun s => tabulate 4 fun o => fieldAt 2 (4 * s + o) (4 * s + o)
  enable := [fieldAt 2 9 8, fieldAt 2 11 10]
  seed := [fieldAt 2 15 12, fieldAt 2 19 16]
  mx := tabulate 2 fun r => [gatedField 3 (8 + 4 * r + 2) (8 + 4 * r) (8 + 4 * r + 3)]
  mxv := tabulate 2 fun r => [slotField 3 (16 + 8 * r)]
  hx := tabulate 2 fun j => gatedField 3 (4 * j + 2) (4 * j) (4 * j + 3)
  tx := tabulate 2 fun u => tabulate 8 fun k =>
    gatedField (4 + 2 * u + k / 4) (8 * (k % 4) + 4) (8 * (k % 4)) (8 * (k % 4) + 7)
  txv := tabulate 2 fun u => [slotField 8 (8 * u)]
  rowOwner := tabulate 2 fun r => tabulate 2 fun c => ownerField 9 (8 * (2 * r + c))
  matchMask := tabulate 2 fun r => tabulate 2 fun c => tabulate 2 fun e =>
    fieldAt (10 + r) (8 * (2 * c + e) + 7) (8 * (2 * c + e))
  byteMask := tabulate 2 fun r => tabulate 2 fun c => tabulate 2 fun e =>
    fieldAt 12 (4 * r + 2 * c + e) (4 * r + 2 * c + e)
  hitmap := tabulate 2 fun r => tabulate 2 fun c => tabulate 2 fun e =>
    gatedField 13 (4 * (4 * r + 2 * c + e) + 1) (4 * (4 * r + 2 * c + e)) (4 * (4 * r + 2 * c + e) + 3)
  hashAddrSel := tabulate 2 fun r => tabulate 2 fun c =>
    { group := fieldAt 12 (8 + 4 * (2 * r + c) + 2) (8 + 4 * (2 * r + c) + 2)
      offset := fieldAt 12 (8 + 4 * (2 * r + c) + 1) (8 + 4 * (2 * r + c)) }
  tcamStart := tabulate 2 fun u => fieldAt 8 (16 + 4 * u + 2) (16 + 4 * u)
  tcamLtcam := tabulate 2 fun u => gatedField 8 (24 + 4 * u) (24 + 4 * u) (24 + 4 * u + 3)
  matchReg := tabulate 4 fun b => ownerField 14 (8 * b)
  tindReg := tabulate 2 fun b => ownerField 15 (8 * b)
  ltcamReg := tabulate 2 fun l => ownerField 15 (8 * (2 + l))
  predCfg := tabulate 16 fun lt =>
    { thr := fieldAt (16 + lt / 4) (8 * (lt % 4) + 2) (8 * (lt % 4))
      hasCounters := fieldAt (16 + lt / 4) (8 * (lt % 4) + 3) (8 * (lt % 4) + 3)
      powered := fieldAt (16 + lt / 4) (8 * (lt % 4) + 4) (8 * (lt % 4) + 4) }
  startTable := tabulate 3 fun th => fieldAt 20 (8 * th + 7) (8 * th)
  runMode := fieldAt 20 24 24

/-- The reference parameters (D50), REG_RESET all zero. SRAM_TCAM_PRIORITY has no default and stays free. -/
def referenceParams : Params where
  hg := 2
  hs := 2
  sb := 1
  ow := 4
  phvBytes := 4
  verBits := 2
  nr := 2
  nc := 2
  sd := 4
  ne := 2
  vvw := 4
  nmb := 4
  ntb := 2
  ntu := 2
  nt := 8
  tw := 8
  nltc := 2
  nmc := 2
  nalu := 2
  cw := 8
  ovw := 1
  xo := 1
  selw := 3
  hashThreshold := 4
  nvs := 1
  regWords := 24
  layout := referenceLayout
  regReset := []
  versionMatch := .versionSet
  predOrder := List.range 16
  scReading := .skip
  priority := tabulate 16 Config.sramTcamPriority
  hashCacheEnabled := true
  overflowPolicy := .discard
  relaxMultiHit := false
  relaxColorBus := false
  unwritten := { sram := [], tcam := [], stash := [] }

end Sys2Proof.Machine
end

