-- ==== Sys2Proof/Machine/State.lean ====
section
/-! DEFINITION. The state of the core (10_state), plain data, with the responses, the fault and warning records,
the reasons a step can stop, and the machine after reset (R380). -/

namespace Sys2Proof.Machine

/-- The register store and the entry arrays (R70, spaces 1 and 2), each a sparse array in canonical form. An
entry's index is its number in the array (`sramKey`, `tcamKey`, `stashKey`). -/
structure Memory where
  regs  : Cells Word
  sram  : Cells SramEntry
  tcam  : Cells TcamEntry
  stash : Cells StashEntry
deriving DecidableEq, Repr

/-- What an SRAM entry that nothing has written reads as: invalid, its contents a parameter (R32, R380). -/
def sramDefault (p : Params) (k : Nat) : SramEntry :=
  let e := p.unwritten.sram.getD k ⟨false, 0, 0, 0⟩
  { valid := false, value := e.value % 2 ^ p.ew, mask := e.mask % 2 ^ p.ew, vv := e.vv % 2 ^ p.vvw }

/-- What a TCAM entry that nothing has written reads as (R33, R380). -/
def tcamDefault (p : Params) (k : Nat) : TcamEntry :=
  let e := p.unwritten.tcam.getD k ⟨false, 0, 0⟩
  { valid := false, word0 := e.word0 % 2 ^ p.tw, word1 := e.word1 % 2 ^ p.tw }

/-- What a stash entry that nothing has written reads as (R34, R380). -/
def stashDefault (p : Params) (k : Nat) : StashEntry :=
  let e := p.unwritten.stash.getD k ⟨false, 0, 0, 0, 0⟩
  { valid := false, value := e.value % 2 ^ p.ew, mask := e.mask % 2 ^ p.ew, vv := e.vv % 2 ^ p.vvw, addr := e.addr }

/-- The canonical form of the memory: strictly rising indices, and no entry equal to what an unlisted index
reads as. -/
def Memory.wf (p : Params) (m : Memory) : Bool :=
  Cells.wf (regDefault p) m.regs && Cells.wf (sramDefault p) m.sram && Cells.wf (tcamDefault p) m.tcam
    && Cells.wf (stashDefault p) m.stash

/-- `stashInh[r][w]` (R35). -/
structure Inhibit where
  on   : Bool
  addr : Word
deriving DecidableEq, Repr

/-- `pred.pass` (R39). -/
inductive Pass where
  | idle
  | started
  | ended
deriving DecidableEq, Repr

/-- `pred.cursor[th]` (R39): BEFORE, a walk position, or DONE. -/
inductive Cursor where
  | before
  | pos (q : Nat)
  | done
deriving DecidableEq, Repr

/-- `pred.gw[L]` (R39, R265). -/
structure Gateway where
  inhibit : Bool
  next    : Option Byte
deriving DecidableEq, Repr

/-- Predication state (R39). `bits` is indexed by `predKey`, `active`, `cursor` and `target` by thread, `gw` by
table; a target `none` is END. -/
structure Pred where
  bits   : Cells Byte
  pass   : Pass
  active : Cells Bool
  cursor : Cells Cursor
  target : Cells (Option Nat)
  gw     : Cells Gateway
deriving DecidableEq, Repr

/-- One row's right color and overflow buses and their first contributors, (mapram column, ALU) (R40). -/
structure ColorRow where
  acc  : Nat
  ovf  : Nat
  whoC : Option (Nat × Nat)
  whoO : Option (Nat × Nat)
deriving DecidableEq, Repr

/-- `atomic.state` (R41). -/
inductive AtomicState where
  | reset
  | begun
  | ending
  | ended
deriving DecidableEq, Repr

/-- Atomic-write state (R41). -/
structure Atomic where
  state     : AtomicState
  buffering : Bool
  buf       : List (Nat × Word)
  nWrites   : Word
  ovfCount  : Word
deriving DecidableEq, Repr

/-- An SRAM hit on a match bus, `{col, row, entry, addr}` (R42, R188). -/
structure BusHit where
  col   : Nat
  row   : Nat
  entry : Nat
  addr  : Nat
deriving DecidableEq, Repr

/-- A logical TCAM's result, `{unit, index}` (R42, R207). -/
structure LtcHit where
  unit  : Nat
  index : Nat
deriving DecidableEq, Repr

/-- The lookup context (R42). `isOpen` is `ctx.open`. -/
structure Context where
  isOpen : Bool
  phv    : Phv
  cid    : CacheId
  busHit : Cells (Option BusHit)
  ltcHit : Cells (Option LtcHit)
deriving DecidableEq, Repr

/-- The eight faults of R344; the warnings W02 and W07 carry the codes of F02 and F07 (R343). -/
inductive FaultCode where
  /-- F01 BOUNDS (R341). -/
  | bounds
  /-- F02 COLOR_BUS_MIX (R342). -/
  | colorBusMix
  /-- F03 PRED_BRACKET (R346). -/
  | predBracket
  /-- F04 ATOMIC_PROTOCOL (R347). -/
  | atomicProtocol
  /-- F05 ILLEGAL_OP (R348). -/
  | illegalOp
  /-- F06 NO_LOOKUP_CONTEXT (R349). -/
  | noLookupContext
  /-- F07 BUS_CONTENTION (R350). -/
  | busContention
  /-- F08 NEXT_TABLE_ORDER (R351). -/
  | nextTableOrder
deriving DecidableEq, Repr

/-- The indices that F01 names (R341): the operands of R102, then the configuration fields of R26 to R28 and the
hash byte of R162. -/
inductive IndexName where
  | r | c | a | e | u | idx | w | g | o | b | k | l | lt | th | vs | col | alu | value | mask | vv | v | m | s1 | s0
  | off | flags | inhibit | nextValid | buffering | phvBytes | phvValid | phvIngress | phvEgress
  | hxSel | mxSel | hashByte | substPos | substBit | txSrc | hashGroup | hashOffset | hitmapBus | tcamStart | tcamLtcam
deriving DecidableEq, Repr

/-- The cause strings of F03, F04 and F06 (R131, R132, R268, R269, R272 to R274, R322, R323, R346, R349). -/
inductive Cause where
  /-- "nested" (R131). -/
  | nested
  /-- "end without begin" (R132, R323). -/
  | endWithoutBegin
  /-- An operation of R133 with no context open. -/
  | noContext
  /-- "begin inside window" (R322). -/
  | beginInsideWindow
  /-- "start inside pass" (R268). -/
  | startInsidePass
  /-- "gw outside pass" (R269). -/
  | gwOutsidePass
  /-- "first outside pass" (R272). -/
  | firstOutsidePass
  /-- "first called twice" (R272). -/
  | firstTwice
  /-- "next outside pass" (R273). -/
  | nextOutsidePass
  /-- "next before first" (R273). -/
  | nextBeforeFirst
  /-- "end outside pass" (R274). -/
  | endOutsidePass
deriving DecidableEq, Repr

/-- The row bus a color violation names (R291): C or O. -/
inductive RowBus where
  | color
  | overflow
deriving DecidableEq, Repr

/-- What a fault or warning reports beside its code (R341 to R351). -/
inductive Info where
  /-- F01: the name of the index and its value (R341). -/
  | index (name : IndexName) (value : Nat)
  /-- F02, W02: row, bus, first contributor, current contributor (R342). -/
  | mix (row : Nat) (bus : RowBus) (first now : Nat × Nat)
  /-- F03: a cause, and the thread where one applies (R346, assumption 18). -/
  | bracket (cause : Cause) (th : Option Nat)
  /-- F04: a cause (R322, R323) and the state (R347). -/
  | atomicState (cause : Cause) (state : AtomicState)
  /-- F05: the code (R348). -/
  | code (op : Nat)
  /-- F06: a cause (R349). -/
  | context (cause : Cause)
  /-- F07, W07: the bus and the two hit records (R350). -/
  | contention (bus : Nat) (first now : BusHit)
  /-- F08: the value and the position (R351). -/
  | order (value position : Nat)
deriving DecidableEq, Repr

/-- What an operation raises: a code and its info (R340). -/
structure Violation where
  code : FaultCode
  info : Info
deriving DecidableEq, Repr

/-- A fault or warning record, `{code, op, operands, info}` (R43, R340, R343). Its code is held by name;
`FaultCode.number` is the number that R344 records for it (assumption 18). -/
structure EventRecord where
  code     : FaultCode
  op       : Nat
  operands : List Nat
  info     : Info
deriving DecidableEq, Repr

/-- One reported hit of an SRAM lookup, `{row, entry, addr, bus}` (R186). -/
structure HitReport where
  row   : Nat
  entry : Nat
  addr  : Nat
  bus   : Option Nat
deriving DecidableEq, Repr

/-- The winner of an arbitration (R246). -/
inductive Winner where
  | exact (bus : Nat) (hit : BusHit)
  | ternary (ltcam : Nat) (hit : LtcHit)
deriving DecidableEq, Repr

/-- A response record (R103). Where a record has a hit or owned bit and fields present only with it, `none` is
the record with that bit 0. -/
inductive Response where
  /-- `{}`. -/
  | empty
  /-- HASH_BIT (R143). -/
  | bit (b : Bool)
  /-- HASH_GROUP (R144). -/
  | value (v : Nat)
  /-- XBAR_MATCH (R165). -/
  | key (k : Nat)
  /-- XBAR_HASH (R166). -/
  | hashInput (bytes : List Byte) (valid : List Bool)
  /-- XBAR_TCAM (R167). -/
  | word (w : Nat)
  /-- SRAM_LOOKUP (R186). -/
  | sramHits (hit : Bool) (hits : List HitReport)
  /-- TCAM_GET (R203). -/
  | tcamEntry (valid : Bool) (word1 word0 : Nat)
  /-- TCAM_LOOKUP and TCAM_LOOKUP_RAW (R205, R206). -/
  | tcamIndex (index : Option Nat)
  /-- LTCAM_LOOKUP (R207). -/
  | ltcamHit (hit : Option LtcHit)
  /-- STASH_LOOKUP, `which` and `addr` (R224). -/
  | stashHit (hit : Option (Nat × Word))
  /-- STASH_HIT_INHIBITED (R226). -/
  | inhibited (b : Bool)
  /-- RB_BUS_OWNER and RB_LTCAM_OWNER (R243, R245). -/
  | owner (lt : Option Nat)
  /-- RB_LT_BUSES (R244). -/
  | busMask (mask : Nat)
  /-- RB_ARBITRATE (R246). -/
  | arbitration (winner : Option Winner)
  /-- PRED_FIRST and PRED_NEXT (R272, R273). -/
  | table (t : Byte)
  /-- PRED_GET (R275). -/
  | predBits (bits : Byte)
  /-- COLOR_READ (R294). -/
  | color (color ovf : Nat)
  /-- CFG_READ (R320). -/
  | data (d : Word)
  /-- ATOMIC_QUERY (R324). -/
  | atomic (state : Nat) (nWrites : Word) (nCsrWrites : Nat) (overflowed : Bool) (ovfCount : Word)
deriving DecidableEq, Repr

/-- Why the machine stops outside the spec's own fault record. -/
inductive Fault where
  /-- Raised by `step` when the command bytes end inside a command: the host's duty of R358 is broken, and the
  model has no step. Safe: nothing is claimed of such a run. -/
  | truncatedCommand
deriving DecidableEq, Repr

/-- Why the model has no meaning. -/
inductive Refusal where
  /-- Raised by `exec` for an instruction that has no meaning yet. Safe: the run stops. -/
  | notModelled (mnemonic : String)
  /-- Raised by `State.construct` for parameters that no machine has, such as a PRED_ORDER that is no permutation
  (R267). Safe: no machine is built. -/
  | illFormedParameters
deriving DecidableEq, Repr

/-- The state of the core. `params` holds the arguments of the step relation (R6, R20, R31) and no step writes it;
`inbox`, `response` and `freeCount` are the model's own (assumptions 1, 2, 3, 10); the rest is the state of R20. -/
structure State where
  /-- The parameters and the validation flags (R6, R31). -/
  params : Params
  /-- The register store and the entry arrays (R21, R32 to R34). -/
  mem : Memory
  /-- Stash inhibits, indexed by `stashKey` (R35). -/
  stashInh : Cells Inhibit
  /-- The hash cache, indexed by `hashKey` (R36). -/
  hashCache : Cells (Option Nat)
  /-- The mapping token (R37). -/
  mapSeq : Nat
  /-- The token each column's row cache was computed at (R37). -/
  pendingMapSeq : Cells (Option Nat)
  /-- The cached rows of a column and table, indexed by `rowsKey` (R37). -/
  rowsCache : Cells (List Nat)
  /-- The result-bus maps (R38). -/
  busMap : BusMap
  /-- Predication (R39). -/
  pred : Pred
  /-- The color switchbox, indexed by row (R40). -/
  color : Cells ColorRow
  /-- Atomic writes (R41). -/
  atomic : Atomic
  /-- The lookup context (R42). -/
  ctx : Context
  /-- The recorded fault (R43). -/
  fault : Option EventRecord
  /-- The warning log, oldest first (R43). -/
  warnLog : List EventRecord
  /-- The command bytes the host has issued and the core has not taken (R78, R113). -/
  inbox : List Byte
  /-- The response of the last command (R103). -/
  response : Option Response
  /-- How many free values have been drawn. -/
  freeCount : Nat
deriving DecidableEq, Repr

/-- The PHV a closed context holds at reset: unspecified, zero here (R380, assumption 9). -/
def zeroPhv (p : Params) : Phv := { bytes := List.replicate p.phvBytes 0, valid := 0, ingress := 0, egress := 0 }

/-- Every state element of R20 at the reset value of R380, for any parameters. -/
def State.resetWith (p : Params) : State where
  params := p
  mem := { regs := [], sram := [], tcam := [], stash := [] }
  stashInh := []
  hashCache := []
  mapSeq := 0
  pendingMapSeq := []
  rowsCache := []
  busMap := BusMap.ofConfig p []
  pred := { bits := [], pass := .idle, active := [], cursor := [], target := [], gw := [] }
  color := []
  atomic := { state := .reset, buffering := false, buf := [], nWrites := 0, ovfCount := 0 }
  ctx := { isOpen := false, phv := zeroPhv p, cid := 0, busHit := [], ltcHit := [] }
  fault := none
  warnLog := []
  inbox := []
  response := none
  freeCount := 0

/-- The machine right after reset, in the reference configuration (R380, D50). -/
def State.reset : State := State.resetWith referenceParams

end Sys2Proof.Machine
end

