-- ==== Sys2Proof/Machine/Ops.lean ====
section
/-! DEFINITION. The shared operations over the state: raising a fault and refusing a command (R340), running a
command (R345), warnings (R343), the entry arrays (R71), the register store (R310, R311), free values. -/

namespace Sys2Proof.Machine

/-- What an operation body computes: a result, or the violation it raises. -/
abbrev Op (α : Type) := Except Violation α

/-- Goes on if c holds, else raises v. -/
def require (c : Bool) (v : Violation) : Op Unit := if c then .ok () else .error v

/-- f on every element in order, stopping at the first violation. -/
def mapOp {α β : Type} (f : α → Op β) : List α → Op (List β)
  | [] => .ok []
  | x :: xs =>
    match f x with
    | .error v => .error v
    | .ok y =>
      match mapOp f xs with
      | .error v => .error v
      | .ok ys => .ok (y :: ys)

/-- A loop over a list, in order, stopping at the first violation. -/
def foldOp {α σ : Type} (f : σ → α → Op σ) : σ → List α → Op σ
  | s, [] => .ok s
  | s, x :: xs =>
    match f s x with
    | .error v => .error v
    | .ok s' => foldOp f s' xs

/-! ## Faults, refusals and responses -/

/-- A command to a stopped block: no state changes and no response is returned (R340, R345 check 1). -/
def State.refuse (s : State) : State := { s with response := none }

/-- The number that `fault.code` records for a fault (R344), and a warning's record for its fault's (R343). -/
def FaultCode.number : FaultCode → Nat
  | .bounds => 1
  | .colorBusMix => 2
  | .predBracket => 3
  | .atomicProtocol => 4
  | .illegalOp => 5
  | .noLookupContext => 6
  | .busContention => 7
  | .nextTableOrder => 8

/-- The record of a violation by a command (R340, R343). -/
def eventOf (v : Violation) (op : Nat) (args : List Nat) : EventRecord :=
  { code := v.code, op := op, operands := args, info := v.info }

/-- Raising a fault (R340, R354): on the state before the operation, the fault is recorded and no response is
returned. Nothing else changes: the core has no mode, no mask, no vector and no handler. -/
def State.takeFault (s : State) (v : Violation) (op : Nat) (args : List Nat) : State :=
  { s with fault := some (eventOf v op args), response := none }

/-- The one way out of a fault (R355, R380): reset, which gives every element of R20 its reset value and keeps the
parameters. It is a host action, not a command. R380 speaks of the elements of R20 alone: the model's own fields stay
as they are, the command bytes not yet taken (assumption 2), the last response (assumption 3) and the count of free
values drawn (assumption 10). -/
def State.hostReset (s : State) : State :=
  { State.resetWith s.params with inbox := s.inbox, response := s.response, freeCount := s.freeCount }

/-- Completing an operation with a response (R103). -/
def State.respond (s : State) (r : Response) : State := { s with response := some r }

/-- The state after an operation body ran from s: its effect and response, or the fault it raised, in which case
every change of the body is undone (R340). -/
def State.finish (s : State) (i : Instr) (body : Op (State × Response)) : State :=
  match body with
  | .ok (s', r) => s'.respond r
  | .error v => s.takeFault v (opcode i) (operands i)

/-- Runs a command: a stopped block refuses it, another runs its body (R340, R345). -/
def runCommand (i : Instr) (s : State) (body : Op (State × Response)) : Host.Outcome State Fault Refusal :=
  .next (if s.fault.isSome then s.refuse else s.finish i body)

/-- `warn Wnn(info)` (R343). -/
def State.warn (s : State) (v : Violation) (i : Instr) : State :=
  { s with warnLog := s.warnLog ++ [eventOf v (opcode i) (operands i)] }

/-- `require ctx.open` (R133, R345 check 3). -/
def requireContext (s : State) : Op Unit := require s.ctx.isOpen ⟨.noLookupContext, .context .noContext⟩

/-! ## Entry arrays (R71) -/

/-- The number of SRAM entry (r, c, a, e). -/
def sramKey (p : Params) (r c a e : Nat) : Nat := ((r * p.nc + c) * p.sd + a) * p.ne + e

/-- The number of TCAM entry (u, i). -/
def tcamKey (p : Params) (u idx : Nat) : Nat := u * p.nt + idx

/-- The number of stash entry (r, w). -/
def stashKey (r w : Nat) : Nat := r * ns + w

/-- `MemRead(Sram, (r, c, a, e))`. -/
def State.sramAt (s : State) (r c a e : Nat) : SramEntry :=
  Cells.read (sramDefault s.params) s.mem.sram (sramKey s.params r c a e)

/-- `MemWrite(Sram, (r, c, a, e), x)`. -/
def State.putSram (s : State) (r c a e : Nat) (x : SramEntry) : State :=
  { s with mem := { s.mem with
      sram := Cells.write (sramDefault s.params) s.mem.sram (sramKey s.params r c a e) x } }

/-- `MemRead(Tcam, (u, i))`. -/
def State.tcamAt (s : State) (u idx : Nat) : TcamEntry :=
  Cells.read (tcamDefault s.params) s.mem.tcam (tcamKey s.params u idx)

/-- `MemWrite(Tcam, (u, i), x)`. -/
def State.putTcam (s : State) (u idx : Nat) (x : TcamEntry) : State :=
  { s with mem := { s.mem with
      tcam := Cells.write (tcamDefault s.params) s.mem.tcam (tcamKey s.params u idx) x } }

/-- `MemRead(Stash, (r, w))`. -/
def State.stashAt (s : State) (r w : Nat) : StashEntry :=
  Cells.read (stashDefault s.params) s.mem.stash (stashKey r w)

/-- `MemWrite(Stash, (r, w), x)`. -/
def State.putStash (s : State) (r w : Nat) (x : StashEntry) : State :=
  { s with mem := { s.mem with stash := Cells.write (stashDefault s.params) s.mem.stash (stashKey r w) x } }

/-- No inhibit (R35). -/
def noInhibit : Inhibit := { on := false, addr := 0 }

/-- `stashInh[r][w]`. -/
def State.inhibitAt (s : State) (r w : Nat) : Inhibit := Cells.read (fun _ => noInhibit) s.stashInh (stashKey r w)

/-- Writes `stashInh[r][w]`. -/
def State.putInhibit (s : State) (r w : Nat) (x : Inhibit) : State :=
  { s with stashInh := Cells.write (fun _ => noInhibit) s.stashInh (stashKey r w) x }

/-! ## The register store (R310 to R312) -/

/-- `RegRead(o)` (R310). -/
def State.regRead (s : State) (o : Nat) : Word := regWord s.params s.mem.regs o

/-- Whether word o holds a bit of some `cfg.rowOwner` field (R311). -/
def touchesRowOwner (p : Params) (o : Nat) : Bool :=
  (List.range p.nr).any fun r => (List.range p.nc).any fun c => gatedTouches o (rowOwnerPlace p r c)

/-- Whether word o holds a bit of `cfg.busReg[k][b]` (R311). -/
def touchesBus (p : Params) (o : Nat) (k : BusKind) (b : Nat) : Bool :=
  match k with
  | .matchBus => gatedTouches o (gatedAt p.layout.matchReg b)
  | .tindBus => gatedTouches o (gatedAt p.layout.tindReg b)

/-- Whether word o holds a bit of `cfg.ltcamReg[l]` (R311). -/
def touchesLtcam (p : Params) (o l : Nat) : Bool := gatedTouches o (gatedAt p.layout.ltcamReg l)

/-- `RegApply(o, d)`: writes the word, then runs its notifications on the new configuration (R311). -/
def State.regApply (s : State) (o : Nat) (d : Word) : State :=
  let regs := Cells.write (regDefault s.params) s.mem.regs o d
  { s with
    mem := { s.mem with regs := regs }
    mapSeq := if touchesRowOwner s.params o then s.mapSeq + 1 else s.mapSeq
    busMap := BusMap.recomputeWhere s.params regs (touchesBus s.params o) (touchesLtcam s.params o) s.busMap }

/-! ## Result buses, color rows, predication state, free values -/

/-- `ctx.busHit[b]`. -/
def State.busHitAt (s : State) (b : Nat) : Option BusHit := Cells.read (fun _ => none) s.ctx.busHit b

/-- Writes `ctx.busHit[b]`. -/
def State.putBusHit (s : State) (b : Nat) (x : Option BusHit) : State :=
  { s with ctx := { s.ctx with busHit := Cells.write (fun _ => none) s.ctx.busHit b x } }

/-- `ctx.ltcHit[l]`. -/
def State.ltcHitAt (s : State) (l : Nat) : Option LtcHit := Cells.read (fun _ => none) s.ctx.ltcHit l

/-- Writes `ctx.ltcHit[l]`. -/
def State.putLtcHit (s : State) (l : Nat) (x : Option LtcHit) : State :=
  { s with ctx := { s.ctx with ltcHit := Cells.write (fun _ => none) s.ctx.ltcHit l x } }

/-- A row that nothing has contributed to in this evaluation (R40). -/
def clearRow : ColorRow := { acc := 0, ovf := 0, whoC := none, whoO := none }

/-- Row r of the color switchbox. -/
def State.colorAt (s : State) (r : Nat) : ColorRow := Cells.read (fun _ => clearRow) s.color r

/-- Writes row r of the color switchbox. -/
def State.putColor (s : State) (r : Nat) (x : ColorRow) : State :=
  { s with color := Cells.write (fun _ => clearRow) s.color r x }

/-- Starts a new evaluation: every row cleared (R290). -/
def State.clearColor (s : State) : State := { s with color := [] }

/-- The number of Pred value (L, th). -/
def predKey (lt th : Nat) : Nat := lt * nthr + th

/-- `pred.bits[L][th]`. -/
def State.predBitsAt (s : State) (lt th : Nat) : Byte := Cells.read (fun _ => 0) s.pred.bits (predKey lt th)

/-- Writes `pred.bits[L][th]`. -/
def State.putPredBits (s : State) (lt th : Nat) (x : Byte) : State :=
  { s with pred := { s.pred with bits := Cells.write (fun _ => 0) s.pred.bits (predKey lt th) x } }

/-- `pred.thrActive[th]`. -/
def State.activeAt (s : State) (th : Nat) : Bool := Cells.read (fun _ => false) s.pred.active th

/-- Writes `pred.thrActive[th]`. -/
def State.putActive (s : State) (th : Nat) (x : Bool) : State :=
  { s with pred := { s.pred with active := Cells.write (fun _ => false) s.pred.active th x } }

/-- `pred.cursor[th]`. -/
def State.cursorAt (s : State) (th : Nat) : Cursor := Cells.read (fun _ => .before) s.pred.cursor th

/-- Writes `pred.cursor[th]`. -/
def State.putCursor (s : State) (th : Nat) (x : Cursor) : State :=
  { s with pred := { s.pred with cursor := Cells.write (fun _ => .before) s.pred.cursor th x } }

/-- `pred.target[th]`, none for END. -/
def State.targetAt (s : State) (th : Nat) : Option Nat := Cells.read (fun _ => none) s.pred.target th

/-- Writes `pred.target[th]`. -/
def State.putTarget (s : State) (th : Nat) (x : Option Nat) : State :=
  { s with pred := { s.pred with target := Cells.write (fun _ => none) s.pred.target th x } }

/-- A gateway that said nothing (R39). -/
def noGateway : Gateway := { inhibit := false, next := none }

/-- `pred.gw[L]`. -/
def State.gwAt (s : State) (lt : Nat) : Gateway := Cells.read (fun _ => noGateway) s.pred.gw lt

/-- Writes `pred.gw[L]`. -/
def State.putGw (s : State) (lt : Nat) (x : Gateway) : State :=
  { s with pred := { s.pred with gw := Cells.write (fun _ => noGateway) s.pred.gw lt x } }

/-- One more free value drawn. -/
def State.draw (s : State) : State := { s with freeCount := s.freeCount + 1 }

/-- The PHV's version for `vs`: 0 ingress, 1 egress (R130). -/
def phvVersion (phv : Phv) (vs : Nat) : Nat := if vs = 0 then phv.ingress else phv.egress

end Sys2Proof.Machine
end

