-- ==== Sys2Proof/Machine/Flags.lean ====
section
/-! DEFINITION. The program-visible flags of R45: the Pred bits (R106, R260 to R264), `overflowed` (R324) and the
stash inhibit test (R221). The hit bits are fields of the responses, and `fault` is a field of the state. -/

namespace Sys2Proof.Machine

/-- The Pred value of its eight bits, in the layout of R106: CFG, CNT, PWR, USED, LKP, CTB, ACT, RUN. -/
def packPred (cfg cnt pwr used lkp ctb act run : Bool) : Byte :=
  BitVec.ofNat 8 (assembleBits [cfg, cnt, pwr, used, lkp, ctb, act, run])

/-- CFG, configured for the thread. -/
def predCfgBit (b : Byte) : Bool := b.getLsbD 0
/-- CNT, has counters. -/
def predCntBit (b : Byte) : Bool := b.getLsbD 1
/-- PWR, powered. -/
def predPwrBit (b : Byte) : Bool := b.getLsbD 2
/-- USED, powered and configured for some thread. -/
def predUsedBit (b : Byte) : Bool := b.getLsbD 3
/-- LKP, lookupable. -/
def predLkpBit (b : Byte) : Bool := b.getLsbD 4
/-- CTB, countable. -/
def predCtbBit (b : Byte) : Bool := b.getLsbD 5
/-- ACT, active. -/
def predActBit (b : Byte) : Bool := b.getLsbD 6
/-- RUN, runnable. -/
def predRunBit (b : Byte) : Bool := b.getLsbD 7

/-- kActiveMask (R106). -/
def activeMask : Byte := 0xF0

/-- `static(L, th)`: the bits that PRED_START sets (R260). -/
def staticBits (p : Params) (regs : Cells Word) (lt th : Nat) : Byte :=
  let thr := cfgPredThr p regs lt
  let powered := cfgPredPowered p regs lt
  packPred (thr.testBit th) (cfgPredCounters p regs lt) powered (powered && decide (thr ≠ 0)) false false false false

/-- The bits of a visited table (R261 to R264): b is its Pred value, `active` whether the thread is active in the
pass, `isTarget` whether the thread's target is the table, `inhibit` the table's gateway inhibit. -/
def visitBits (b : Byte) (active isTarget inhibit : Bool) : Byte :=
  let lkp := predPwrBit b && predCfgBit b && active
  let ctb := lkp && predCntBit b
  let act := lkp && isTarget
  let run := act && !inhibit
  packPred (predCfgBit b) (predCntBit b) (predPwrBit b) (predUsedBit b) lkp ctb act run

/-- `overflowed` (R45, R324). -/
def Atomic.overflowed (a : Atomic) : Bool := decide (0 < a.ovfCount.toNat)

/-- `hitInhibited(r, w, a)` (R221). -/
def State.hitInhibited (s : State) (r w : Nat) (addr : Word) : Bool :=
  (s.inhibitAt r w).on && decide ((s.inhibitAt r w).addr = addr)

end Sys2Proof.Machine
end

