-- ==== Sys2Proof/Machine/Operands.lean ====
section
/-! DEFINITION. The operand checks (R7, R102, R109, R345 check 5): every operand form of R102. An operand outside
its field or outside its bound raises F01 BOUNDS with its name and value (R341). R102 and R345 give no order among
the operands of one command: where two are out of range, F01 names the first in record order, the width of a field
and the bound of an index alike (assumption 22). -/

namespace Sys2Proof.Machine

/-- Raises F01 for an index (R341). -/
def raiseBounds {α : Type} (name : IndexName) (v : Nat) : Op α := .error ⟨.bounds, .index name v⟩

/-- An operand of `width` bits whose meaning has a bound: r, c, a, e, u, i, w, g, o, b, l, L, th, col, alu, off. -/
def checkIndex (name : IndexName) (width bound v : Nat) : Op Unit :=
  if v < 2 ^ width ∧ v < bound then .ok () else raiseBounds name v

/-- An operand whose every value of `width` bits is legal: value, mask, vv, v, m, s1, s0, and the fields of one
and three bits. -/
def checkWidth (name : IndexName) (width v : Nat) : Op Unit :=
  if v < 2 ^ width then .ok () else raiseBounds name v

/-- r < NR. -/
def checkRow (p : Params) (r : Nat) : Op Unit := checkIndex .r 16 p.nr r

/-- c < NC. -/
def checkCol (p : Params) (c : Nat) : Op Unit := checkIndex .c 16 p.nc c

/-- u < NTU. -/
def checkUnit (p : Params) (u : Nat) : Op Unit := checkIndex .u 16 p.ntu u

/-- i < NT. -/
def checkEntry (p : Params) (idx : Nat) : Op Unit := checkIndex .idx 16 p.nt idx

/-- w < NS. -/
def checkStash (w : Nat) : Op Unit := checkIndex .w 16 ns w

/-- g < HG. -/
def checkGroup (p : Params) (g : Nat) : Op Unit := checkIndex .g 16 p.hg g

/-- l < NLTC. -/
def checkLtcam (p : Params) (l : Nat) : Op Unit := checkIndex .l 16 p.nltc l

/-- L < 16. -/
def checkTable (lt : Nat) : Op Unit := checkIndex .lt 16 nlt lt

/-- th < 3. -/
def checkThread (th : Nat) : Op Unit := checkIndex .th 16 nthr th

/-- vs is 0 or 1. -/
def checkVs (vs : Nat) : Op Unit := checkWidth .vs 1 vs

/-- k is 0 or 1, and b is below the number of buses of that kind; k is named first (assumption 22). -/
def checkBus (p : Params) (k b : Nat) : Op Unit := do
  checkWidth .k 1 k
  checkIndex .b 16 (busCount p (busKind k)) b

/-- off < REG_WORDS. -/
def checkOffset (p : Params) (off : Nat) : Op Unit := checkIndex .off 32 p.regWords off

/-- r, c, a and e of one SRAM entry; the first out of range is named (assumption 22). -/
def checkSramEntry (p : Params) (r c a e : Nat) : Op Unit := do
  checkRow p r
  checkCol p c
  checkIndex .a 16 p.sd a
  checkIndex .e 16 p.ne e

/-- u and i of one TCAM entry; the first out of range is named (assumption 22). -/
def checkTcamEntry (p : Params) (u idx : Nat) : Op Unit := do
  checkUnit p u
  checkEntry p idx

/-- r and w of one stash entry; the first out of range is named (assumption 22). -/
def checkStashEntry (p : Params) (r w : Nat) : Op Unit := do
  checkRow p r
  checkStash w

/-- A PHV record: PHV_BYTES bytes, valid bits below PHV_BYTES, versions of VER_BITS bits (R113). The first field out
of range is named (assumption 22); the number of bytes is assumption 20's. -/
def checkPhv (p : Params) (phv : Phv) : Op Unit := do
  require (phv.bytes.length = p.phvBytes) ⟨.bounds, .index .phvBytes phv.bytes.length⟩
  checkWidth .phvValid p.phvBytes phv.valid
  checkWidth .phvIngress p.verBits phv.ingress
  checkWidth .phvEgress p.verBits phv.egress

end Sys2Proof.Machine
end

