-- ==== Sys2Proof/Machine/AtomicConfig.lean ====
section
/-! DEFINITION. CFG_READ, CFG_WRITE, ATOMIC_BEGIN, ATOMIC_END and ATOMIC_QUERY (49_atomic_config). -/

namespace Sys2Proof.Machine

/-- `nWrites <- nWrites + 1`, wrapping (R321). -/
def State.countWrite (s : State) : State :=
  { s with atomic := { s.atomic with nWrites := s.atomic.nWrites + 1 } }

/-- `ovfCount <- ovfCount + 1`, wrapping (R321). -/
def State.countOverflow (s : State) : State :=
  { s with atomic := { s.atomic with ovfCount := s.atomic.ovfCount + 1 } }

/-- Appends to the buffer (R321). -/
def State.bufferWrite (s : State) (off : Nat) (data : Word) : State :=
  { s with atomic := { s.atomic with buf := s.atomic.buf ++ [(off, data)] } }

/-- A write past the buffer's capacity: counted, and applied only under ApplyImmediately (R321). -/
def State.overflowWrite (s : State) (off : Nat) (data : Word) : State :=
  match s.params.overflowPolicy with
  | .discard => s.countOverflow
  | .applyImmediately => s.countOverflow.regApply off data

/-- The gate in front of the register store (R321). -/
def State.gatedWrite (s : State) (off : Nat) (data : Word) : State :=
  if s.atomic.state = .begun then
    if s.atomic.buffering then
      if s.atomic.buf.length < atomicCap then s.countWrite.bufferWrite off data
      else s.countWrite.overflowWrite off data
    else s.countWrite.regApply off data
  else s.regApply off data

/-- `atomic.state <- x`. -/
def State.setAtomic (s : State) (x : AtomicState) : State := { s with atomic := { s.atomic with state := x } }

/-- The replay of buffered writes, in their order (R323). -/
def State.replay (s : State) (buf : List (Nat × Word)) : State := buf.foldl (fun s w => s.regApply w.1 w.2) s

/-- The number ATOMIC_QUERY reports for a state (R324). -/
def AtomicState.number : AtomicState → Nat
  | .reset => 0
  | .begun => 1
  | .ending => 2
  | .ended => 3

/-- What F04 reports: the cause (R322, R323) and the state (R347). -/
def atomicViolation (cause : Cause) (s : State) : Violation := ⟨.atomicProtocol, .atomicState cause s.atomic.state⟩

/-- CFG_READ (R320). -/
def execCfgRead (off : Nat) (s : State) : Host.Outcome State Fault Refusal :=
  runCommand (.cfgRead off) s do
    checkOffset s.params off
    .ok (s, .data (s.regRead off))

/-- CFG_WRITE (R321). -/
def execCfgWrite (off : Nat) (data : Word) (s : State) : Host.Outcome State Fault Refusal :=
  runCommand (.cfgWrite off data) s do
    checkOffset s.params off
    .ok (s.gatedWrite off data, .empty)

/-- ATOMIC_BEGIN (R322). -/
def execAtomicBegin (buffering : Nat) (s : State) : Host.Outcome State Fault Refusal :=
  runCommand (.atomicBegin buffering) s do
    require (s.atomic.state ≠ .begun) (atomicViolation .beginInsideWindow s)
    checkWidth .buffering 1 buffering
    .ok ({ s with atomic := { state := .begun, buffering := decide (buffering = 1), buf := []
                              nWrites := 0, ovfCount := 0 } }, .empty)

/-- ATOMIC_END (R323): Begun, Ending, Ended within the one step. -/
def execAtomicEnd (s : State) : Host.Outcome State Fault Refusal :=
  runCommand .atomicEnd s do
    require (s.atomic.state = .begun) (atomicViolation .endWithoutBegin s)
    .ok (((s.setAtomic .ending).replay s.atomic.buf).setAtomic .ended, .empty)

/-- ATOMIC_QUERY (R324). -/
def execAtomicQuery (s : State) : Host.Outcome State Fault Refusal :=
  runCommand .atomicQuery s (.ok (s, .atomic s.atomic.state.number s.atomic.nWrites s.atomic.buf.length
    s.atomic.overflowed s.atomic.ovfCount))

end Sys2Proof.Machine
end

