-- ==== Sys2Proof/Machine/Color.lean ====
section
/-! DEFINITION. COLOR_RESET, COLOR_SET_RIGHT, OVF_SET_RIGHT and COLOR_READ (48_color_switchbox). -/

namespace Sys2Proof.Machine

/-- The recorded first contributor of a row bus. -/
def ColorRow.who (x : ColorRow) : RowBus → Option (Nat × Nat)
  | .color => x.whoC
  | .overflow => x.whoO

/-- ORs v into a row bus, recording the first contributor (R291, last lines). -/
def ColorRow.contribute (x : ColorRow) (bus : RowBus) (pair : Nat × Nat) (v : Nat) : ColorRow :=
  match bus with
  | .color => { x with acc := x.acc ||| v, whoC := some (x.whoC.getD pair) }
  | .overflow => { x with ovf := x.ovf ||| v, whoO := some (x.whoO.getD pair) }

/-- `Contribute(bus, r, col, alu, v)` (R291, R342, R343). -/
def contribute (i : Instr) (s : State) (bus : RowBus) (r : Nat) (pair : Nat × Nat) (v : Nat) : Op State :=
  let row := s.colorAt r
  match row.who bus with
  | none => .ok (s.putColor r (row.contribute bus pair v))
  | some first =>
    if first = pair then .ok (s.putColor r (row.contribute bus pair v))
    else if s.params.relaxColorBus then
      .ok ((s.warn ⟨.colorBusMix, .mix r bus first pair⟩ i).putColor r (row.contribute bus pair v))
    else .error ⟨.colorBusMix, .mix r bus first pair⟩

/-- COLOR_RESET (R290). -/
def execColorReset (s : State) : Host.Outcome State Fault Refusal :=
  runCommand .colorReset s (.ok (s.clearColor, .empty))

/-- r < NR, col < NMC, alu < NALU (R292); the first out of range is named (assumption 22). -/
def checkContributor (p : Params) (r col alu : Nat) : Op Unit := do
  checkRow p r
  checkIndex .col 16 p.nmc col
  checkIndex .alu 16 p.nalu alu

/-- COLOR_SET_RIGHT (R292). -/
def execColorSetRight (r col alu v : Nat) (s : State) : Host.Outcome State Fault Refusal :=
  runCommand (.colorSetRight r col alu v) s do
    checkContributor s.params r col alu
    checkWidth .v s.params.cw v
    let s' ← contribute (.colorSetRight r col alu v) s .color r (col, alu) v
    .ok (s', .empty)

/-- OVF_SET_RIGHT (R293). -/
def execOvfSetRight (r col alu v : Nat) (s : State) : Host.Outcome State Fault Refusal :=
  runCommand (.ovfSetRight r col alu v) s do
    checkContributor s.params r col alu
    checkWidth .v s.params.ovw v
    let s' ← contribute (.ovfSetRight r col alu v) s .overflow r (col, alu) v
    .ok (s', .empty)

/-- COLOR_READ (R294). -/
def execColorRead (r : Nat) (s : State) : Host.Outcome State Fault Refusal :=
  runCommand (.colorRead r) s do
    checkRow s.params r
    .ok (s, .color (s.colorAt r).acc (s.colorAt r).ovf)

end Sys2Proof.Machine
end

