-- ==== Sys2Proof/Machine/Context.lean ====
section
/-! DEFINITION. LOOKUP_BEGIN and LOOKUP_END (40_lookup_context). -/

namespace Sys2Proof.Machine

/-- `stashInh[r][w].on <- 0` for every row and entry (R131); the address stays. -/
def State.clearInhibits (s : State) : State :=
  { s with stashInh := Cells.update (fun _ => noInhibit) (fun x => { x with on := false }) s.stashInh }

/-- Opens a context: the PHV snapshot, the CacheId, and no hit recorded (R131). -/
def State.openContext (s : State) (phv : Phv) (cid : CacheId) : State :=
  { s with ctx := { isOpen := true, phv := phv, cid := cid, busHit := [], ltcHit := [] } }

/-- Empties the hash cache (R131). -/
def State.clearHashCache (s : State) : State := { s with hashCache := [] }

/-- LOOKUP_BEGIN (R131). -/
def execLookupBegin (phv : Phv) (cid : CacheId) (s : State) : Host.Outcome State Fault Refusal :=
  runCommand (.lookupBegin phv cid) s do
    require (!s.ctx.isOpen) ⟨.noLookupContext, .context .nested⟩
    checkPhv s.params phv
    .ok ((((s.openContext phv cid).clearHashCache).clearInhibits).clearColor, .empty)

/-- LOOKUP_END (R132). -/
def execLookupEnd (s : State) : Host.Outcome State Fault Refusal :=
  runCommand .lookupEnd s do
    require s.ctx.isOpen ⟨.noLookupContext, .context .endWithoutBegin⟩
    .ok ({ s with ctx := { s.ctx with isOpen := false } }, .empty)

end Sys2Proof.Machine
end

