-- ==== Sys2Proof/Machine/Datapath.lean ====
section
/-! DEFINITION. What the lookups share: the hash-address crossbar (R160), the hash function (R140 to R142, R144),
the match-data and TCAM-row crossbars (R161 to R164), the version test (R181). -/

namespace Sys2Proof.Machine

/-! ## Hash-address crossbar and hash function -/

/-- One byte of `HashXbar()` with its valid bit (R160). -/
def hashXbarByte (s : State) (j : Nat) : Op (Byte × Bool) :=
  let x := cfgHx s.params s.mem.regs j
  if x.en then
    if x.val < s.params.phvBytes then .ok (s.ctx.phv.bytes.getD x.val 0, s.ctx.phv.valid.testBit x.val)
    else raiseBounds .hxSel x.val
  else .ok (0, false)

/-- `HashXbar()` (R160): the hash-input bytes, each with its valid bit. Of several selectors out of range F01 names the
lowest byte's (assumption 22). -/
def hashXbar (s : State) : Op (List (Byte × Bool)) :=
  mapOp (hashXbarByte s) (List.range (s.params.hs * s.params.sb))

/-- `stageData(s)` (R140). -/
def stageData (p : Params) (input : List (Byte × Bool)) (st : Nat) : Nat :=
  assemble 8 ((List.range p.sb).map fun j => (input.getD (st * p.sb + j) (0, false)).1.toNat)

/-- `stageValid(s)` (R140). -/
def stageValid (p : Params) (input : List (Byte × Bool)) (st : Nat) : Nat :=
  assembleBits ((List.range p.sb).map fun j => (input.getD (st * p.sb + j) (0, false)).2)

/-- What stage st contributes to output bit o when it is enabled (R141). -/
def stageBit (p : Params) (regs : Cells Word) (input : List (Byte × Bool)) (st o : Nat) : Bool :=
  Bool.xor (parity (8 * p.sb) (stageData p input st &&& cfgMatrix p regs st o))
    (parity p.sb (stageValid p input st &&& cfgValidMatrix p regs st o))

/-- `ComputeBit` (R141). -/
def computeBit (p : Params) (regs : Cells Word) (input : List (Byte × Bool)) (g o : Nat) : Bool :=
  ((List.range p.hs).filter fun st => (cfgEnable p regs g).testBit st).foldl
    (fun acc st => Bool.xor acc (stageBit p regs input st o)) ((cfgSeed p regs g).testBit o)

/-- `HashOut(g)` (R142). -/
def hashOut (p : Params) (regs : Cells Word) (input : List (Byte × Bool)) (g : Nat) : Nat :=
  assembleBits ((List.range p.ow).map fun o => computeBit p regs input g o)

/-- The number of cache entry (g, cid) (R36). -/
def hashKey (g : Nat) (cid : CacheId) : Nat := g * 2 ^ 64 + cid.toNat

/-- `hashCache[(g, cid)]`, none when the key is absent. -/
def State.cachedHash (s : State) (g : Nat) (cid : CacheId) : Option Nat :=
  Cells.read (fun _ => none) s.hashCache (hashKey g cid)

/-- `hashCache[(g, cid)] <- v`. -/
def State.putHash (s : State) (g : Nat) (cid : CacheId) (v : Nat) : State :=
  { s with hashCache := Cells.write (fun _ => none) s.hashCache (hashKey g cid) (some v) }

/-- `HG_value(g)`: what HASH_GROUP g returns at this step, with its cache effect (R144, R162). -/
def hashValue (s : State) (g : Nat) : Op (Nat × State) :=
  if s.params.hashCacheEnabled then
    match s.cachedHash g s.ctx.cid with
    | some v => .ok (v, s)
    | none => do
      let input ← hashXbar s
      let v := hashOut s.params s.mem.regs input g
      .ok (v, s.putHash g s.ctx.cid v)
  else do
    let input ← hashXbar s
    .ok (hashOut s.params s.mem.regs input g, s)

/-- `HashByte(n)` (R162): byte n of the concatenation of every group's value, group 0 in the low OW bits. The
values are read in ascending order of groups, with the cache effect of each (assumption 13). -/
def hashByte (s : State) (n : Nat) : Op (Nat × State) :=
  if 8 * n < s.params.hg * s.params.ow then do
    let (all, s') ← foldOp (fun (acc : Nat × State) g => do
        let (v, s') ← hashValue acc.2 g
        .ok (acc.1 + v * 2 ^ (g * s.params.ow), s')) (0, s) (List.range s.params.hg)
    .ok ((all >>> (8 * n)) % 256, s')
  else raiseBounds .hashByte n

/-! ## Match-data and TCAM-row crossbars -/

/-- One step of `VersionSubst` (R163). Of a position and a version bit both out of range F01 names the position
(assumption 22). -/
def substStep (p : Params) (phv : Phv) (width word : Nat) (x : Slot) : Op Nat :=
  if x.en then
    if x.pos < width then
      if x.vbit < p.verBits then .ok (putBit word x.pos ((phvVersion phv x.vs).testBit x.vbit))
      else raiseBounds .substBit x.vbit
    else raiseBounds .substPos x.pos
  else .ok word

/-- `VersionSubst(word, slots, width)`: the slots in ascending order (R163). -/
def versionSubst (p : Params) (phv : Phv) (slots : List Slot) (width word : Nat) : Op Nat :=
  foldOp (substStep p phv width) word slots

/-- Byte j of `MatchXbar(r)` before version substitution (R161, R104). -/
def matchXbarByte (s : State) (r j : Nat) : Op (Nat × State) :=
  let x := cfgMx s.params s.mem.regs r j
  if x.en then
    if s.params.hashThreshold ≤ x.val then hashByte s (x.val - s.params.hashThreshold)
    else if x.val < s.params.phvBytes then .ok ((s.ctx.phv.bytes.getD x.val 0).toNat, s)
    else raiseBounds .mxSel x.val
  else .ok (0, s)

/-- `MatchXbar(r)`: row r's search key (R161). The state changes only where a hash byte fills the cache (R162).
Of several selectors out of range F01 names the lowest byte's (assumption 22). -/
def matchXbar (s : State) (r : Nat) : Op (Nat × State) := do
  let (key, s') ← foldOp (fun (acc : Nat × State) j => do
      let (b, s') ← matchXbarByte acc.2 r j
      .ok (acc.1 + b * 2 ^ (8 * j), s')) (0, s) (List.range s.params.xo)
  let key' ← versionSubst s.params s.ctx.phv (cfgMxv s.params s.mem.regs r) s.params.ew key
  .ok (key', s')

/-- `phvBit(p)` (R130, R44). -/
def phvBit (phv : Phv) (k : Nat) : Bool := (phv.bytes.getD (k / 8) 0).getLsbD (k % 8)

/-- Bit i of `TcamXbar(u)` before version substitution (R164). -/
def tcamXbarBit (s : State) (u k : Nat) : Op Bool :=
  let x := cfgTx s.params s.mem.regs u k
  if x.en then
    if x.val < 8 * s.params.phvBytes then .ok (phvBit s.ctx.phv x.val) else raiseBounds .txSrc x.val
  else .ok false

/-- `TcamXbar(u)`: unit u's search word (R164). Of several sources out of range F01 names the lowest bit's
(assumption 22). -/
def tcamXbar (s : State) (u : Nat) : Op Nat := do
  let bits ← mapOp (tcamXbarBit s u) (List.range s.params.tw)
  versionSubst s.params s.ctx.phv (cfgTxv s.params s.mem.regs u) s.params.tw (assembleBits bits)

/-! ## Version test -/

/-- `VERSION_MATCH(vv, ver)` (R181). -/
def versionMatch (p : Params) (vv ver : Nat) : Bool :=
  match p.versionMatch with
  | .versionSet => decide (ver < p.vvw) && vv.testBit ver
  | .table rows => rows.getD (vv * 2 ^ p.verBits + ver) false

end Sys2Proof.Machine
end

