-- ==== Sys2Proof/Machine/Crossbar.lean ====
section
/-! DEFINITION. XBAR_MATCH, XBAR_HASH and XBAR_TCAM (42_crossbar). -/

namespace Sys2Proof.Machine

/-- XBAR_MATCH (R165). -/
def execXbarMatch (r : Nat) (s : State) : Host.Outcome State Fault Refusal :=
  runCommand (.xbarMatch r) s do
    requireContext s
    checkRow s.params r
    let (key, s') ← matchXbar s r
    .ok (s', .key key)

/-- XBAR_HASH (R166). -/
def execXbarHash (s : State) : Host.Outcome State Fault Refusal :=
  runCommand .xbarHash s do
    requireContext s
    let input ← hashXbar s
    .ok (s, .hashInput (input.map Prod.fst) (input.map Prod.snd))

/-- XBAR_TCAM (R167). -/
def execXbarTcam (u : Nat) (s : State) : Host.Outcome State Fault Refusal :=
  runCommand (.xbarTcam u) s do
    requireContext s
    checkUnit s.params u
    let w ← tcamXbar s u
    .ok (s, .word w)

end Sys2Proof.Machine
end

