-- ==== Sys2Proof/Machine/Hash.lean ====
section
/-! DEFINITION. HASH_BIT and HASH_GROUP (41_hash). -/

namespace Sys2Proof.Machine

/-- HASH_BIT (R143): always from the current configuration, never from the cache. Of g and o both out of range F01
names g (assumption 22). -/
def execHashBit (g o : Nat) (s : State) : Host.Outcome State Fault Refusal :=
  runCommand (.hashBit g o) s do
    requireContext s
    checkGroup s.params g
    checkIndex .o 16 s.params.ow o
    let input ← hashXbar s
    .ok (s, .bit (computeBit s.params s.mem.regs input g o))

/-- HASH_GROUP (R144). -/
def execHashGroup (g : Nat) (s : State) : Host.Outcome State Fault Refusal :=
  runCommand (.hashGroup g) s do
    requireContext s
    checkGroup s.params g
    let (v, s') ← hashValue s g
    .ok (s', .value v)

end Sys2Proof.Machine
end

