-- ==== Sys2Proof/Machine/Predication.lean ====
section
/-! DEFINITION. PRED_START, PRED_GW, PRED_FIRST, PRED_NEXT, PRED_END and PRED_GET (47_predication). -/

namespace Sys2Proof.Machine

/-- Position of table n in a list of tables; the length when it is absent. -/
def indexIn (n : Nat) : List Nat → Nat
  | [] => 0
  | x :: xs => if x = n then 0 else indexIn n xs + 1

/-- `PosOf(L)` (R267). -/
def posOf (p : Params) (lt : Nat) : Nat := indexIn lt p.predOrder

/-- `PRED_ORDER[q]` (R267). -/
def tableAt (p : Params) (q : Nat) : Nat := p.predOrder.getD q 0

/-- What F03 reports (R346). -/
def bracketViolation (cause : Cause) (th : Option Nat) : Violation := ⟨.predBracket, .bracket cause th⟩

/-- `Resolve(n, q)` (R266): the target of a next-table value, none for END. -/
def resolve (p : Params) (n : Byte) (q : Nat) : Op (Option Nat) :=
  if 16 ≤ n.toNat then .ok none
  else if posOf p n.toNat ≤ q then .error ⟨.nextTableOrder, .order n.toNat q⟩
  else .ok (some n.toNat)

/-- One visit of the walk: the table's bits, and the redirect of a table that is active and inhibited (R271). -/
def visitTable (s : State) (th q : Nat) : Op State :=
  let lt := tableAt s.params q
  let b := visitBits (s.predBitsAt lt th) (s.activeAt th) (decide (s.targetAt th = some lt)) (s.gwAt lt).inhibit
  let s1 := s.putPredBits lt th b
  if predActBit b && !predRunBit b then do
    let t ← resolve s.params ((s.gwAt lt).next.getD 0xFF) q
    .ok (s1.putTarget th t)
  else .ok s1

/-- `Walk(th, p)` over the positions left (R271): the table to evaluate, none for END. -/
def walk (th : Nat) : State → List Nat → Op (Option Nat × State)
  | s, [] => .ok (none, s.putCursor th .done)
  | s, q :: qs =>
    match visitTable s th q with
    | .error v => .error v
    | .ok s1 =>
      let lt := tableAt s.params q
      let b := s1.predBitsAt lt th
      if cfgRunMode s.params s.mem.regs then
        if predRunBit b then .ok (some lt, s1.putCursor th (.pos q))
        else if s.params.scReading = .stop ∧ predLkpBit b then .ok (none, s1.putCursor th .done)
        else walk th s1 qs
      else
        if predLkpBit b then .ok (some lt, s1.putCursor th (.pos q))
        else walk th s1 qs

/-- The positions p to 15 (R271). -/
def positionsFrom (q : Nat) : List Nat := (List.range nlt).drop q

/-- The table byte of a walk's answer: 0xFF for END (R107, R272). -/
def tableByte : Option Nat → Byte
  | none => 0xFF
  | some lt => BitVec.ofNat 8 lt

/-- Fails unless a pass is started (R277). R346 has th in the info "where one applies": here, where no operand has been
checked yet, the model records none, for PRED_FIRST and PRED_NEXT too (assumption 18). -/
def requirePass (s : State) (cause : Cause) : Op Unit :=
  require (s.pred.pass = .started) (bracketViolation cause none)

/-- The target a thread starts with (R268). -/
def startTarget (p : Params) (regs : Cells Word) (flags th : Nat) : Option Nat :=
  if flags.testBit th ∧ cfgStartTable p regs th < nlt then some (cfgStartTable p regs th) else none

/-- The static bits of every table and thread (R260, R268). -/
def State.setStaticBits (s : State) : State :=
  (List.range nlt).foldl (fun s lt => (List.range nthr).foldl (fun s th =>
    s.putPredBits lt th (staticBits s.params s.mem.regs lt th)) s) s

/-- Every thread at the start of a pass (R268). -/
def State.startThreads (s : State) (flags : Nat) : State :=
  (List.range nthr).foldl (fun s th =>
    ((s.putActive th (flags.testBit th)).putTarget th (startTarget s.params s.mem.regs flags th)).putCursor th
      .before) s

/-- `pred.pass <- x`. -/
def State.setPass (s : State) (x : Pass) : State := { s with pred := { s.pred with pass := x } }

/-- Every gateway as if it said nothing (R268). -/
def State.clearGateways (s : State) : State := { s with pred := { s.pred with gw := [] } }

/-- The state of a started pass (R268). -/
def State.startPass (s : State) (flags : Nat) : State :=
  ((s.setStaticBits.startThreads flags).clearGateways).setPass .started

/-- PRED_NEXT's retarget: a runnable current table hands on its next table, or its gateway's override (R273). -/
def retarget (s : State) (th c : Nat) (nt : Byte) : Op State :=
  let lt := tableAt s.params c
  if predRunBit (s.predBitsAt lt th) then do
    let t ← resolve s.params ((s.gwAt lt).next.getD nt) c
    .ok (s.putTarget th t)
  else .ok s

/-- PRED_START (R268). -/
def execPredStart (flags : Nat) (s : State) : Host.Outcome State Fault Refusal :=
  runCommand (.predStart flags) s do
    require (s.pred.pass ≠ .started) (bracketViolation .startInsidePass none)
    checkWidth .flags 3 flags
    .ok (s.startPass flags, .empty)

/-- PRED_GW (R269). Of L, inhibit and nextValid out of range F01 names the first in record order (assumption 22). -/
def execPredGw (lt inhibit nextValid : Nat) (next : Byte) (s : State) : Host.Outcome State Fault Refusal :=
  runCommand (.predGw lt inhibit nextValid next) s do
    requirePass s .gwOutsidePass
    checkTable lt
    checkWidth .inhibit 1 inhibit
    checkWidth .nextValid 1 nextValid
    .ok (s.putGw lt { inhibit := decide (inhibit = 1), next := if nextValid = 1 then some next else none }, .empty)

/-- PRED_FIRST (R272). -/
def execPredFirst (th : Nat) (s : State) : Host.Outcome State Fault Refusal :=
  runCommand (.predFirst th) s do
    requirePass s .firstOutsidePass
    checkThread th
    require (s.cursorAt th = .before) (bracketViolation .firstTwice (some th))
    let (t, s') ← walk th s (positionsFrom 0)
    .ok (s', .table (tableByte t))

/-- PRED_NEXT (R273). -/
def execPredNext (th : Nat) (nt : Byte) (s : State) : Host.Outcome State Fault Refusal :=
  runCommand (.predNext th nt) s do
    requirePass s .nextOutsidePass
    checkThread th
    match s.cursorAt th with
    | .before => .error (bracketViolation .nextBeforeFirst (some th))
    | .done => .ok (s, .table (tableByte none))
    | .pos c => do
      let s1 ← retarget s th c nt
      let (t, s') ← walk th s1 (positionsFrom (c + 1))
      .ok (s', .table (tableByte t))

/-- PRED_END (R274). -/
def execPredEnd (s : State) : Host.Outcome State Fault Refusal :=
  runCommand .predEnd s do
    requirePass s .endOutsidePass
    .ok (s.setPass .ended, .empty)

/-- PRED_GET (R275). Outside a pass bits 4 to 7 are a free value (R276). F01 names the first operand out of range in
record order (assumption 22). -/
def execPredGet (lt th : Nat) (s : State) : Host.Outcome State Fault Refusal :=
  runCommand (.predGet lt th) s do
    checkTable lt
    checkThread th
    let b := s.predBitsAt lt th
    if s.pred.pass = .started then .ok (s, .predBits b)
    else .ok (s.draw, .predBits ((b &&& ~~~activeMask) ||| (Config.freeByte s.freeCount &&& activeMask)))

end Sys2Proof.Machine
end

