-- ==== Sys2Proof/Machine/ResultBus.lean ====
section
/-! DEFINITION. RB_MATCH_CB, RB_TCAM_CB, RB_BUS_OWNER, RB_LT_BUSES, RB_LTCAM_OWNER and RB_ARBITRATE
(46_result_bus). -/

namespace Sys2Proof.Machine

/-- The exact path of table lt: the lowest match bus it owns that carries a hit (R246). -/
def exactHit (s : State) (lt : Nat) : Option Winner :=
  (List.range s.params.nmb).findSome? fun b =>
    if (s.busMap.matchBus.mask lt).testBit b then (s.busHitAt b).map (Winner.exact b) else none

/-- The ternary path of table lt: the lowest logical TCAM that feeds it and has a hit (R246). -/
def ternaryHit (s : State) (lt : Nat) : Option Winner :=
  (List.range s.params.nltc).findSome? fun l =>
    if (s.busMap.ltcam.mask lt).testBit l then (s.ltcHitAt l).map (Winner.ternary l) else none

/-- `SRAM_TCAM_PRIORITY(L)` (R247). -/
def priorityOf (p : Params) (lt : Nat) : HitKind := p.priority.getD lt .exact

/-- The hit of table lt (R246). -/
def arbitrate (s : State) (lt : Nat) : Option Winner :=
  match exactHit s lt, ternaryHit s lt with
  | none, none => none
  | some ex, none => some ex
  | none, some tn => some tn
  | some ex, some tn =>
    match priorityOf s.params lt with
    | .exact => some ex
    | .ternary => some tn

/-- RB_MATCH_CB (R241). -/
def execRbMatchCb (k b : Nat) (s : State) : Host.Outcome State Fault Refusal :=
  runCommand (.rbMatchCb k b) s do
    checkBus s.params k b
    .ok ({ s with busMap := BusMap.recomputeBus s.params s.mem.regs s.busMap (busKind k) b }, .empty)

/-- RB_TCAM_CB (R242). -/
def execRbTcamCb (l : Nat) (s : State) : Host.Outcome State Fault Refusal :=
  runCommand (.rbTcamCb l) s do
    checkLtcam s.params l
    .ok ({ s with busMap := BusMap.recomputeLtcam s.params s.mem.regs s.busMap l }, .empty)

/-- RB_BUS_OWNER (R243). -/
def execRbBusOwner (k b : Nat) (s : State) : Host.Outcome State Fault Refusal :=
  runCommand (.rbBusOwner k b) s do
    checkBus s.params k b
    .ok (s, .owner ((s.busMap.side (busKind k)).ownerOf b))

/-- RB_LT_BUSES (R244). F01 names the first operand out of range in record order (assumption 22). -/
def execRbLtBuses (k lt : Nat) (s : State) : Host.Outcome State Fault Refusal :=
  runCommand (.rbLtBuses k lt) s do
    checkWidth .k 1 k
    checkTable lt
    .ok (s, .busMask ((s.busMap.side (busKind k)).mask lt))

/-- RB_LTCAM_OWNER (R245). -/
def execRbLtcamOwner (l : Nat) (s : State) : Host.Outcome State Fault Refusal :=
  runCommand (.rbLtcamOwner l) s do
    checkLtcam s.params l
    .ok (s, .owner (s.busMap.ltcam.ownerOf l))

/-- RB_ARBITRATE (R246). -/
def execRbArbitrate (lt : Nat) (s : State) : Host.Outcome State Fault Refusal :=
  runCommand (.rbArbitrate lt) s do
    requireContext s
    checkTable lt
    .ok (s, .arbitration (arbitrate s lt))

end Sys2Proof.Machine
end

