-- ==== Sys2Proof/Machine/Sram.lean ====
section
/-! DEFINITION. SRAM_ENTRY_WRITE, SRAM_ENTRY_CLEAR and SRAM_LOOKUP (43_sram_match). -/

namespace Sys2Proof.Machine

/-- `effMask(r, c, e, ent)` (R180). -/
def effMask (p : Params) (regs : Cells Word) (r c e : Nat) (ent : SramEntry) : Nat :=
  ent.mask &&& cfgMatchMask p regs r c e &&& expandMask p.xo (cfgByteMask p regs r c e)

/-- `entryHit(ent, key, ver, r, c, e)` (R182). -/
def entryHit (p : Params) (regs : Cells Word) (ent : SramEntry) (key ver r c e : Nat) : Bool :=
  ent.valid && decide ((key ^^^ ent.value) &&& effMask p regs r c e ent = 0) && versionMatch p ent.vv ver

/-- The rows of column c that table lt owns, ascending, from the current configuration (R183). -/
def rowsOfConfig (p : Params) (regs : Cells Word) (c lt : Nat) : List Nat :=
  (List.range p.nr).filter fun r =>
    (cfgRowOwner p regs r c).en && decide ((cfgRowOwner p regs r c).val = lt)

/-- The number of row-cache entry (c, L). -/
def rowsKey (c lt : Nat) : Nat := c * nlt + lt

/-- `rowsCache[c][L]`. -/
def State.cachedRows (s : State) (c lt : Nat) : List Nat := Cells.read (fun _ => []) s.rowsCache (rowsKey c lt)

/-- `rowsCache[c][L] <- rows`. -/
def State.putRows (s : State) (c lt : Nat) (rows : List Nat) : State :=
  { s with rowsCache := Cells.write (fun _ => []) s.rowsCache (rowsKey c lt) rows }

/-- `pendingMapSeq[c]`. -/
def State.pendingAt (s : State) (c : Nat) : Option Nat := Cells.read (fun _ => none) s.pendingMapSeq c

/-- `pendingMapSeq[c] <- x`. -/
def State.putPending (s : State) (c : Nat) (x : Option Nat) : State :=
  { s with pendingMapSeq := Cells.write (fun _ => none) s.pendingMapSeq c x }

/-- The lazy recompute of column c's row cache, done when the token has moved (R183). -/
def State.refreshRows (s : State) (c : Nat) : State :=
  if s.pendingAt c = some s.mapSeq then s
  else
    ((List.range nlt).foldl (fun s lt => s.putRows c lt (rowsOfConfig s.params s.mem.regs c lt)) s).putPending c
      (some s.mapSeq)

/-- Whether record x comes before y by (col, row, entry) (R188). -/
def hitBefore (x y : BusHit) : Bool :=
  decide (x.col < y.col ∨ (x.col = y.col ∧ (x.row < y.row ∨ (x.row = y.row ∧ x.entry < y.entry))))

/-- The record a relaxed bus keeps of two: the lowest (col, row, entry). Of two records equal in all three the
rules do not say which; a free value decides (R188, assumption 12). -/
def keepLowest (prev h : BusHit) (n : Nat) : BusHit :=
  if hitBefore prev h then prev
  else if hitBefore h prev then h
  else if Config.freeChoice n then prev else h

/-- `DriveBus(b, rec)` (R188). -/
def driveBus (i : Instr) (s : State) (b : Nat) (h : BusHit) : Op State :=
  match s.busHitAt b with
  | none => .ok (s.putBusHit b (some h))
  | some prev =>
    if prev = h then .ok s
    else if s.params.relaxMultiHit then
      let s1 := s.warn ⟨.busContention, .contention b prev h⟩ i
      let s2 := if hitBefore prev h || hitBefore h prev then s1 else s1.draw
      .ok (s2.putBusHit b (some (keepLowest prev h s.freeCount)))
    else .error ⟨.busContention, .contention b prev h⟩

/-- A raw hit of an SRAM lookup (R186). -/
structure RawHit where
  row   : Nat
  entry : Nat
  addr  : Nat
deriving DecidableEq, Repr

/-- The hits of the entry slots of word a of unit (r, c), ascending (R186). -/
def slotHits (s : State) (r c a key ver : Nat) : List RawHit :=
  ((List.range s.params.ne).filter fun e =>
    entryHit s.params s.mem.regs (s.sramAt r c a e) key ver r c e).map fun e => ⟨r, e, a⟩

/-- The word address of unit (r, c) (R186): a hash output shifted right, reduced mod SD. Of a group and an offset both
out of range F01 names the group (assumption 22). -/
def sramAddress (s : State) (r c : Nat) : Op (Nat × State) :=
  let g := cfgHashGroup s.params s.mem.regs r c
  let o := cfgHashOffset s.params s.mem.regs r c
  if g < s.params.hg then
    if o < s.params.ow then do
      let (v, s') ← hashValue s g
      .ok ((v >>> o) % s.params.sd, s')
    else raiseBounds .hashOffset o
  else raiseBounds .hashGroup g

/-- One row of an SRAM lookup: its key, its word address, its hits (R186). -/
def lookupRow (c ver : Nat) (acc : List RawHit × State) (r : Nat) : Op (List RawHit × State) := do
  let (key, s1) ← matchXbar acc.2 r
  let (a, s2) ← sramAddress s1 r c
  .ok (acc.1 ++ slotHits s2 r c a key ver, s2)

/-- One reported hit: routed by the hitmap, it drives its bus (R186). -/
def reportHit (i : Instr) (c : Nat) (acc : List HitReport × State) (h : RawHit) : Op (List HitReport × State) :=
  let hm := cfgHitmap acc.2.params acc.2.mem.regs h.row c h.entry
  if hm.en then
    if hm.val < acc.2.params.nmb then do
      let s' ← driveBus i acc.2 hm.val ⟨c, h.row, h.entry, h.addr⟩
      .ok (acc.1 ++ [⟨h.row, h.entry, h.addr, some hm.val⟩], s')
    else raiseBounds .hitmapBus hm.val
  else .ok (acc.1 ++ [⟨h.row, h.entry, h.addr, none⟩], acc.2)

/-- The hits that are reported: all with relaxMultiHit, else the first (R187). -/
def reportedHits (p : Params) (hits : List RawHit) : List RawHit :=
  if p.relaxMultiHit then hits else hits.take 1

/-- SRAM_ENTRY_WRITE (R184). Of several operands out of range F01 names the first in record order (assumption 22). -/
def execSramEntryWrite (r c a e value mask vv : Nat) (s : State) : Host.Outcome State Fault Refusal :=
  runCommand (.sramEntryWrite r c a e value mask vv) s do
    checkSramEntry s.params r c a e
    checkWidth .value s.params.ew value
    checkWidth .mask s.params.ew mask
    checkWidth .vv s.params.vvw vv
    .ok (s.putSram r c a e { valid := true, value := value, mask := mask, vv := vv }, .empty)

/-- SRAM_ENTRY_CLEAR (R185). -/
def execSramEntryClear (r c a e : Nat) (s : State) : Host.Outcome State Fault Refusal :=
  runCommand (.sramEntryClear r c a e) s do
    checkSramEntry s.params r c a e
    .ok (s.putSram r c a e { s.sramAt r c a e with valid := false }, .empty)

/-- SRAM_LOOKUP (R186). Of several operands out of range F01 names the first in record order (assumption 22). -/
def execSramLookup (c lt vs : Nat) (s : State) : Host.Outcome State Fault Refusal :=
  runCommand (.sramLookup c lt vs) s do
    requireContext s
    checkCol s.params c
    checkTable lt
    checkVs vs
    let s1 := s.refreshRows c
    let (hits, s2) ← foldOp (lookupRow c (phvVersion s.ctx.phv vs)) ([], s1) (s1.cachedRows c lt)
    let (reports, s3) ← foldOp (reportHit (.sramLookup c lt vs) c) ([], s2) (reportedHits s.params hits)
    .ok (s3, .sramHits (!hits.isEmpty) reports)

end Sys2Proof.Machine
end

