-- ==== Sys2Proof/Machine/Stash.lean ====
section
/-! DEFINITION. STASH_WRITE, STASH_CLEAR, STASH_LOOKUP, STASH_INHIBIT and STASH_HIT_INHIBITED (45_stash). -/

namespace Sys2Proof.Machine

/-- `stashRaw(se, key, ver)` (R220). -/
def stashRaw (p : Params) (se : StashEntry) (key ver : Nat) : Bool :=
  se.valid && decide ((key ^^^ se.value) &&& se.mask = 0) && versionMatch p se.vv ver

/-- Whether entry w of row r hits: its raw hit, not inhibited (R224). -/
def stashHits (s : State) (r key ver w : Nat) : Bool :=
  stashRaw s.params (s.stashAt r w) key ver && !s.hitInhibited r w (s.stashAt r w).addr

/-- STASH_WRITE (R222). F01 names the first operand out of range in record order (assumption 22). -/
def execStashWrite (r w value mask vv : Nat) (addr : Word) (s : State) : Host.Outcome State Fault Refusal :=
  runCommand (.stashWrite r w value mask vv addr) s do
    checkStashEntry s.params r w
    checkWidth .value s.params.ew value
    checkWidth .mask s.params.ew mask
    checkWidth .vv s.params.vvw vv
    .ok (s.putStash r w { valid := true, value := value, mask := mask, vv := vv, addr := addr }, .empty)

/-- STASH_CLEAR (R223). -/
def execStashClear (r w : Nat) (s : State) : Host.Outcome State Fault Refusal :=
  runCommand (.stashClear r w) s do
    checkStashEntry s.params r w
    .ok (s.putStash r w { s.stashAt r w with valid := false }, .empty)

/-- STASH_LOOKUP (R224): the lowest entry that hits and is not inhibited. F01 names the first operand out of range in
record order (assumption 22). -/
def execStashLookup (r vs : Nat) (s : State) : Host.Outcome State Fault Refusal :=
  runCommand (.stashLookup r vs) s do
    requireContext s
    checkRow s.params r
    checkVs vs
    let (key, s') ← matchXbar s r
    let hit := (List.range ns).find? (stashHits s' r key (phvVersion s.ctx.phv vs))
    .ok (s', .stashHit (hit.map fun w => (w, (s'.stashAt r w).addr)))

/-- STASH_INHIBIT (R225). -/
def execStashInhibit (r w : Nat) (addr : Word) (s : State) : Host.Outcome State Fault Refusal :=
  runCommand (.stashInhibit r w addr) s do
    checkStashEntry s.params r w
    .ok (s.putInhibit r w { on := true, addr := addr }, .empty)

/-- STASH_HIT_INHIBITED (R226). -/
def execStashHitInhibited (r w : Nat) (addr : Word) (s : State) : Host.Outcome State Fault Refusal :=
  runCommand (.stashHitInhibited r w addr) s do
    checkStashEntry s.params r w
    .ok (s, .inhibited (s.hitInhibited r w addr))

end Sys2Proof.Machine
end

