-- ==== Sys2Proof/Machine/Tcam.lean ====
section
/-! DEFINITION. TCAM_SET_VALUE_MASK, TCAM_CLEAR, TCAM_GET, TCAM_LOOKUP, TCAM_LOOKUP_RAW and LTCAM_LOOKUP
(44_tcam). -/

namespace Sys2Proof.Machine

/-- `word1 = (v & m) | ~m` (R105). -/
def ternaryWord1 (tw v m : Nat) : Nat := (v &&& m) ||| notBits tw m

/-- `word0 = (~v & m) | ~m` (R105). -/
def ternaryWord0 (tw v m : Nat) : Nat := (notBits tw v &&& m) ||| notBits tw m

/-- `tcamMatch(ent, s1, s0)` (R200). -/
def tcamMatch (tw : Nat) (ent : TcamEntry) (s1 s0 : Nat) : Bool :=
  ent.valid && decide ((ent.word0 ||| s1) &&& (ent.word1 ||| s0) = ones tw)

/-- The mask that stored words stand for (R208). -/
def ternaryMask (ent : TcamEntry) : Nat := ent.word1 ^^^ ent.word0

/-- The value that stored words stand for (R208). -/
def ternaryValue (tw : Nat) (ent : TcamEntry) : Nat := ent.word1 &&& notBits tw ent.word0

/-- The physical indices in scan order: `(start + k) mod NT` for k = 0 to NT - 1 (R204). -/
def scanOrder (p : Params) (start : Nat) : List Nat := (List.range p.nt).map fun k => (start + k) % p.nt

/-- `TcamScan(u, s1, s0)` (R204). -/
def tcamScan (s : State) (u s1 s0 : Nat) : Op (Option Nat) :=
  let start := cfgTcamStart s.params s.mem.regs u
  if start < s.params.nt then
    .ok ((scanOrder s.params start).find? fun idx => tcamMatch s.params.tw (s.tcamAt u idx) s1 s0)
  else raiseBounds .tcamStart start

/-- The scan of unit u for its crossbar word (R205, R207). -/
def tcamXbarScan (s : State) (u : Nat) : Op (Option Nat) := do
  let w ← tcamXbar s u
  tcamScan s u w (notBits s.params.tw w)

/-- One unit of LTCAM_LOOKUP's loop (R207). -/
def ltcamStep (s : State) (l : Nat) (res : Option LtcHit) (u : Nat) : Op (Option LtcHit) :=
  let t := cfgTcamLtcam s.params s.mem.regs u
  if t.en && decide (s.params.nltc ≤ t.val) then raiseBounds .tcamLtcam t.val
  else if t.en && decide (t.val = l) && res.isNone then do
    let hit ← tcamXbarScan s u
    .ok (hit.map fun idx => ⟨u, idx⟩)
  else .ok res

/-- TCAM_SET_VALUE_MASK (R201). F01 names the first operand out of range in record order (assumption 22). -/
def execTcamSetValueMask (u idx v m : Nat) (s : State) : Host.Outcome State Fault Refusal :=
  runCommand (.tcamSetValueMask u idx v m) s do
    checkTcamEntry s.params u idx
    checkWidth .v s.params.tw v
    checkWidth .m s.params.tw m
    .ok (s.putTcam u idx { valid := true, word0 := ternaryWord0 s.params.tw v m
                           word1 := ternaryWord1 s.params.tw v m }, .empty)

/-- TCAM_CLEAR (R202). -/
def execTcamClear (u idx : Nat) (s : State) : Host.Outcome State Fault Refusal :=
  runCommand (.tcamClear u idx) s do
    checkTcamEntry s.params u idx
    .ok (s.putTcam u idx { s.tcamAt u idx with valid := false }, .empty)

/-- TCAM_GET (R203). -/
def execTcamGet (u idx : Nat) (s : State) : Host.Outcome State Fault Refusal :=
  runCommand (.tcamGet u idx) s do
    checkTcamEntry s.params u idx
    .ok (s, .tcamEntry (s.tcamAt u idx).valid (s.tcamAt u idx).word1 (s.tcamAt u idx).word0)

/-- TCAM_LOOKUP (R205). -/
def execTcamLookup (u : Nat) (s : State) : Host.Outcome State Fault Refusal :=
  runCommand (.tcamLookup u) s do
    requireContext s
    checkUnit s.params u
    let hit ← tcamXbarScan s u
    .ok (s, .tcamIndex hit)

/-- TCAM_LOOKUP_RAW (R206): no lookup context is needed.
F01 names the first operand out of range in record order (assumption 22). -/
def execTcamLookupRaw (u s1 s0 : Nat) (s : State) : Host.Outcome State Fault Refusal :=
  runCommand (.tcamLookupRaw u s1 s0) s do
    checkUnit s.params u
    checkWidth .s1 s.params.tw s1
    checkWidth .s0 s.params.tw s0
    let hit ← tcamScan s u s1 s0
    .ok (s, .tcamIndex hit)

/-- LTCAM_LOOKUP (R207). -/
def execLtcamLookup (l : Nat) (s : State) : Host.Outcome State Fault Refusal :=
  runCommand (.ltcamLookup l) s do
    requireContext s
    checkLtcam s.params l
    let res ← foldOp (ltcamStep s l) none (List.range s.params.ntu)
    .ok (s.putLtcHit l res, .ltcamHit res)

end Sys2Proof.Machine
end

