-- ==== Sys2Proof/Machine/Dispatch.lean ====
section
/-! DEFINITION. One arm for each operation of R101. -/

namespace Sys2Proof.Machine

def exec (i : Instr) (s : State) : Host.Outcome State Fault Refusal :=
  match i with
  | .lookupBegin phv cid => Sys2Proof.Machine.execLookupBegin phv cid s
  | .lookupEnd => Sys2Proof.Machine.execLookupEnd s
  | .hashBit g o => Sys2Proof.Machine.execHashBit g o s
  | .hashGroup g => Sys2Proof.Machine.execHashGroup g s
  | .xbarMatch r => Sys2Proof.Machine.execXbarMatch r s
  | .xbarHash => Sys2Proof.Machine.execXbarHash s
  | .xbarTcam u => Sys2Proof.Machine.execXbarTcam u s
  | .sramEntryWrite r c a e value mask vv => Sys2Proof.Machine.execSramEntryWrite r c a e value mask vv s
  | .sramEntryClear r c a e => Sys2Proof.Machine.execSramEntryClear r c a e s
  | .sramLookup c lt vs => Sys2Proof.Machine.execSramLookup c lt vs s
  | .tcamSetValueMask u idx v m => Sys2Proof.Machine.execTcamSetValueMask u idx v m s
  | .tcamClear u idx => Sys2Proof.Machine.execTcamClear u idx s
  | .tcamGet u idx => Sys2Proof.Machine.execTcamGet u idx s
  | .tcamLookup u => Sys2Proof.Machine.execTcamLookup u s
  | .tcamLookupRaw u s1 s0 => Sys2Proof.Machine.execTcamLookupRaw u s1 s0 s
  | .ltcamLookup l => Sys2Proof.Machine.execLtcamLookup l s
  | .stashWrite r w value mask vv addr => Sys2Proof.Machine.execStashWrite r w value mask vv addr s
  | .stashClear r w => Sys2Proof.Machine.execStashClear r w s
  | .stashLookup r vs => Sys2Proof.Machine.execStashLookup r vs s
  | .stashInhibit r w addr => Sys2Proof.Machine.execStashInhibit r w addr s
  | .stashHitInhibited r w addr => Sys2Proof.Machine.execStashHitInhibited r w addr s
  | .rbMatchCb k b => Sys2Proof.Machine.execRbMatchCb k b s
  | .rbTcamCb l => Sys2Proof.Machine.execRbTcamCb l s
  | .rbBusOwner k b => Sys2Proof.Machine.execRbBusOwner k b s
  | .rbLtBuses k lt => Sys2Proof.Machine.execRbLtBuses k lt s
  | .rbLtcamOwner l => Sys2Proof.Machine.execRbLtcamOwner l s
  | .rbArbitrate lt => Sys2Proof.Machine.execRbArbitrate lt s
  | .predStart flags => Sys2Proof.Machine.execPredStart flags s
  | .predGw lt inhibit nextValid next => Sys2Proof.Machine.execPredGw lt inhibit nextValid next s
  | .predFirst th => Sys2Proof.Machine.execPredFirst th s
  | .predNext th nt => Sys2Proof.Machine.execPredNext th nt s
  | .predEnd => Sys2Proof.Machine.execPredEnd s
  | .predGet lt th => Sys2Proof.Machine.execPredGet lt th s
  | .colorReset => Sys2Proof.Machine.execColorReset s
  | .colorSetRight r col alu v => Sys2Proof.Machine.execColorSetRight r col alu v s
  | .ovfSetRight r col alu v => Sys2Proof.Machine.execOvfSetRight r col alu v s
  | .colorRead r => Sys2Proof.Machine.execColorRead r s
  | .cfgRead off => Sys2Proof.Machine.execCfgRead off s
  | .cfgWrite off data => Sys2Proof.Machine.execCfgWrite off data s
  | .atomicBegin buffering => Sys2Proof.Machine.execAtomicBegin buffering s
  | .atomicEnd => Sys2Proof.Machine.execAtomicEnd s
  | .atomicQuery => Sys2Proof.Machine.execAtomicQuery s

end Sys2Proof.Machine
end

