-- ==== Sys2Proof/WellFormed.lean ====
section
/-! DEFINITION. Which commands have a byte string (R113): every operand fits the bytes that its field takes. An
operand that fits its bytes but not its field, or not its bound, is well formed; R102 makes it fault F01. -/

namespace Sys2Proof

/-- Every operand fits the bytes of its field: the list of values against the list of widths. -/
def operandsFit : List Nat → List Nat → Bool
  | [], [] => true
  | w :: ws, v :: vs => decide (v < 256 ^ Machine.bytesFor w) && operandsFit ws vs
  | _, _ => false

/-- A command is well formed for the parameters when some byte string carries it (R113). -/
def Instr.wellFormed (p : Params) (i : Instr) : Bool :=
  match Machine.operandWidths p (Machine.opcode i) with
  | some ws => operandsFit ws (Machine.operands i)
  | none => false

end Sys2Proof
end

