-- ==== Sys2Proof/Decode.lean ====
section
/-! DEFINITION. The decoder of the byte serialization (R110, R113), total on any bytes, and the encoder written
from the same tables (R101, R102). -/

namespace Sys2Proof

/-- What the decoder answers. -/
inductive Decoded where
  /-- One whole command, and the bytes after it. -/
  | command (i : Instr) (rest : List Byte)
  /-- An operation code that R101 does not list (R108), and the bytes after it. -/
  | illegal (op : Byte) (rest : List Byte)
  /-- The bytes end before the command does (R113, R358). -/
  | truncated
deriving DecidableEq, Repr

/-- Reads one operand of width w: its B(w) bytes, the least significant first (R113). -/
def takeOperand (w : Nat) (bs : List Byte) : Option (Nat × List Byte) :=
  let n := Machine.bytesFor w
  if n ≤ bs.length then some (Machine.leNat (bs.take n), bs.drop n) else none

/-- Reads the operands of the listed widths, in order. -/
def takeOperands : List Nat → List Byte → Option (List Nat × List Byte)
  | [], bs => some ([], bs)
  | w :: ws, bs =>
    match takeOperand w bs with
    | none => none
    | some (v, bs) =>
      match takeOperands ws bs with
      | none => none
      | some (vs, bs) => some (v :: vs, bs)

/-- LOOKUP_BEGIN from its operands: n data bytes, valid bits, two versions, CacheId (R113). -/
def buildLookupBegin (n : Nat) (vs : List Nat) : Option Instr :=
  match vs.drop n with
  | [valid, ingress, egress, cid] =>
      some (.lookupBegin ⟨(vs.take n).map (BitVec.ofNat 8), valid, ingress, egress⟩ (BitVec.ofNat 64 cid))
  | _ => none

/-- The command of an operation code and its operands (R101). -/
def build (p : Params) (op : Nat) (vs : List Nat) : Option Instr :=
  match op with
  | 0x01 => buildLookupBegin p.phvBytes vs
  | 0x02 => match vs with
    | [] => some .lookupEnd
    | _ => none
  | 0x10 => match vs with
    | [g, o] => some (.hashBit g o)
    | _ => none
  | 0x11 => match vs with
    | [g] => some (.hashGroup g)
    | _ => none
  | 0x18 => match vs with
    | [r] => some (.xbarMatch r)
    | _ => none
  | 0x19 => match vs with
    | [] => some .xbarHash
    | _ => none
  | 0x1A => match vs with
    | [u] => some (.xbarTcam u)
    | _ => none
  | 0x20 => match vs with
    | [r, c, a, e, value, mask, vv] => some (.sramEntryWrite r c a e value mask vv)
    | _ => none
  | 0x21 => match vs with
    | [r, c, a, e] => some (.sramEntryClear r c a e)
    | _ => none
  | 0x22 => match vs with
    | [c, lt, v] => some (.sramLookup c lt v)
    | _ => none
  | 0x28 => match vs with
    | [u, idx, v, m] => some (.tcamSetValueMask u idx v m)
    | _ => none
  | 0x29 => match vs with
    | [u, idx] => some (.tcamClear u idx)
    | _ => none
  | 0x2A => match vs with
    | [u, idx] => some (.tcamGet u idx)
    | _ => none
  | 0x2B => match vs with
    | [u] => some (.tcamLookup u)
    | _ => none
  | 0x2C => match vs with
    | [u, s1, s0] => some (.tcamLookupRaw u s1 s0)
    | _ => none
  | 0x2D => match vs with
    | [l] => some (.ltcamLookup l)
    | _ => none
  | 0x30 => match vs with
    | [r, w, value, mask, vv, addr] => some (.stashWrite r w value mask vv (BitVec.ofNat 32 addr))
    | _ => none
  | 0x31 => match vs with
    | [r, w] => some (.stashClear r w)
    | _ => none
  | 0x32 => match vs with
    | [r, v] => some (.stashLookup r v)
    | _ => none
  | 0x33 => match vs with
    | [r, w, addr] => some (.stashInhibit r w (BitVec.ofNat 32 addr))
    | _ => none
  | 0x34 => match vs with
    | [r, w, addr] => some (.stashHitInhibited r w (BitVec.ofNat 32 addr))
    | _ => none
  | 0x38 => match vs with
    | [k, b] => some (.rbMatchCb k b)
    | _ => none
  | 0x39 => match vs with
    | [l] => some (.rbTcamCb l)
    | _ => none
  | 0x3A => match vs with
    | [k, b] => some (.rbBusOwner k b)
    | _ => none
  | 0x3B => match vs with
    | [k, lt] => some (.rbLtBuses k lt)
    | _ => none
  | 0x3C => match vs with
    | [l] => some (.rbLtcamOwner l)
    | _ => none
  | 0x3D => match vs with
    | [lt] => some (.rbArbitrate lt)
    | _ => none
  | 0x40 => match vs with
    | [flags] => some (.predStart flags)
    | _ => none
  | 0x41 => match vs with
    | [lt, inhibit, nextValid, next] => some (.predGw lt inhibit nextValid (BitVec.ofNat 8 next))
    | _ => none
  | 0x42 => match vs with
    | [th] => some (.predFirst th)
    | _ => none
  | 0x43 => match vs with
    | [th, nt] => some (.predNext th (BitVec.ofNat 8 nt))
    | _ => none
  | 0x44 => match vs with
    | [] => some .predEnd
    | _ => none
  | 0x45 => match vs with
    | [lt, th] => some (.predGet lt th)
    | _ => none
  | 0x48 => match vs with
    | [] => some .colorReset
    | _ => none
  | 0x49 => match vs with
    | [r, col, alu, v] => some (.colorSetRight r col alu v)
    | _ => none
  | 0x4A => match vs with
    | [r, col, alu, v] => some (.ovfSetRight r col alu v)
    | _ => none
  | 0x4B => match vs with
    | [r] => some (.colorRead r)
    | _ => none
  | 0x50 => match vs with
    | [off] => some (.cfgRead off)
    | _ => none
  | 0x51 => match vs with
    | [off, data] => some (.cfgWrite off (BitVec.ofNat 32 data))
    | _ => none
  | 0x52 => match vs with
    | [buffering] => some (.atomicBegin buffering)
    | _ => none
  | 0x53 => match vs with
    | [] => some .atomicEnd
    | _ => none
  | 0x54 => match vs with
    | [] => some .atomicQuery
    | _ => none
  | _ => none

/-- Decodes the first command of a byte string: byte 0 is the operation code, R101 gives the operand list, and
exactly those operands are read (R110, R113). -/
def decode (p : Params) : List Byte → Decoded
  | [] => .truncated
  | op :: bs =>
    match Machine.operandWidths p op.toNat with
    | none => .illegal op bs
    | some ws =>
      match takeOperands ws bs with
      | none => .truncated
      | some (vs, rest) =>
        match build p op.toNat vs with
        | some i => .command i rest
        | none => .illegal op bs

/-- The bytes of the operands, each in the bytes of its width (R113). -/
def encodeOperands : List Nat → List Nat → List Byte
  | w :: ws, v :: vs => Machine.leBytes (Machine.bytesFor w) v ++ encodeOperands ws vs
  | _, _ => []

/-- The byte string of a command (R113). -/
def encode (p : Params) (i : Instr) : List Byte :=
  BitVec.ofNat 8 (Machine.opcode i) ::
    encodeOperands ((Machine.operandWidths p (Machine.opcode i)).getD []) (Machine.operands i)

/-- The length in bytes of a command with operation code `op`, fixed by op and the parameters (R100, R113);
an illegal code is one byte, since R101 lists no operands for it. -/
def commandLength (p : Params) (op : Nat) : Nat :=
  1 + (((Machine.operandWidths p op).getD []).map Machine.bytesFor).sum

/-- The byte string of the command whose bits are w: the bytes of w, lowest first, cut or filled with zero
bytes to the length of the command (a bit at or above nbits is 0). -/
def commandBytes (p : Params) (nbits w : Nat) : List Byte :=
  Machine.leBytes (commandLength p (w % 2 ^ nbits % 256)) (w % 2 ^ nbits)

/-- The instruction the decoder reads from a row's bits, in the reference configuration, in which the opcode
table gives its lengths (D50). -/
def decodeTableWord (nbits w : Nat) : Option Instr :=
  match decode Machine.referenceParams (commandBytes Machine.referenceParams nbits w) with
  | .command i _ => some i
  | _ => none

end Sys2Proof
end

