-- ==== Sys2Proof/Machine/Fetch.lean ====
section
/-! DEFINITION. Taking the next command from the host's command bytes (R78, R100, R113), and the meaning of an
illegal code (R108). -/

namespace Sys2Proof.Machine

/-- What the core finds at the head of `inbox`. -/
inductive Fetched where
  /-- No command: the core waits (R381). -/
  | idle
  /-- A command, and the state with its bytes taken. -/
  | command (i : Instr) (s : State)
  /-- An illegal code, and the state with its byte taken. -/
  | illegal (op : Byte) (s : State)
  /-- The bytes end inside a command (R358). -/
  | truncated
deriving DecidableEq, Repr

/-- The state with `inbox` replaced. -/
def State.withInbox (s : State) (bytes : List Byte) : State := { s with inbox := bytes }

/-- Reads the next command (R113). -/
def fetch (s : State) : Fetched :=
  match s.inbox with
  | [] => .idle
  | b :: bs =>
    match decode s.params (b :: bs) with
    | .command i rest => .command i (s.withInbox rest)
    | .illegal op rest => .illegal op (s.withInbox rest)
    | .truncated => .truncated

/-- An illegal code raises F05 with the code as its information, unless the block is stopped (R108, R345, R348). -/
def takeIllegal (op : Byte) (s : State) : State :=
  if s.fault.isSome then s.refuse else s.takeFault ⟨.illegalOp, .code op.toNat⟩ op.toNat []

/-- The state whose next command is the one whose bits are w (assumption 2). -/
def State.placeCommand (s : State) (nbits w : Nat) : State := s.withInbox (commandBytes s.params nbits w)

end Sys2Proof.Machine
end

