-- ==== Sys2Proof/Machine/Parameters.lean ====
section
/-! DEFINITION. Which parameters a machine can be built with (R267, R6), and building one. -/

namespace Sys2Proof.Machine

/-- The places of gated fields. -/
def gatedPlaces (l : List GatedPlace) : List Place := l.flatMap fun g => [g.en, g.val]

/-- The places of substitution slots. -/
def slotPlaces (l : List SlotPlace) : List Place := l.flatMap fun g => [g.en, g.pos, g.vs, g.vbit]

/-- Every place of a layout (R22). -/
def layoutPlaces (l : Layout) : List Place :=
  l.matrix.flatten ++ l.validMatrix.flatten ++ l.enable ++ l.seed
    ++ gatedPlaces l.mx.flatten ++ slotPlaces l.mxv.flatten ++ gatedPlaces l.hx
    ++ gatedPlaces l.tx.flatten ++ slotPlaces l.txv.flatten
    ++ gatedPlaces l.rowOwner.flatten ++ l.matchMask.flatten.flatten ++ l.byteMask.flatten.flatten
    ++ gatedPlaces l.hitmap.flatten.flatten ++ l.hashAddrSel.flatten.flatMap (fun h => [h.group, h.offset])
    ++ l.tcamStart ++ gatedPlaces l.tcamLtcam
    ++ gatedPlaces l.matchReg ++ gatedPlaces l.tindReg ++ gatedPlaces l.ltcamReg
    ++ l.predCfg.flatMap (fun q => [q.thr, q.hasCounters, q.powered]) ++ l.startTable ++ [l.runMode]

/-- The parameters of a machine: PRED_ORDER is a permutation of 0..15 (R267), SRAM_TCAM_PRIORITY names a winner
for every table (R247), SRAM units have words (R186), and REG_LAYOUT places fields inside the register store
(R21, R22). -/
def paramsWf (p : Params) : Bool :=
  decide (p.predOrder.length = nlt) && (List.range nlt).all (fun lt => p.predOrder.contains lt)
    && decide (p.priority.length = nlt) && decide (0 < p.sd)
    && (layoutPlaces p.layout).all fun pl => pl.all fun g => decide (g.word < p.regWords ∧ g.lo + g.len ≤ 32)

/-- Building a machine: parameters that no machine has are refused (R267); the machine begins at reset (R380). -/
def State.construct (p : Params) : Host.Outcome State Fault Refusal :=
  if paramsWf p then .next (State.resetWith p) else .refused .illFormedParameters

end Sys2Proof.Machine
end

