-- ==== Sys2Proof/Machine/Step.lean ====
section
/-! DEFINITION. One step: the next command of the host's stream is taken and executed (R4, R75, R78). -/

namespace Sys2Proof.Machine

/-- One step of the core. With no command to take it waits. -/
def step (s : State) : Host.Outcome State Fault Refusal :=
  match fetch s with
  | .idle => .next s
  | .command i s' => exec i s'
  | .illegal op s' => .next (takeIllegal op s')
  | .truncated => .fault .truncatedCommand

/-- The state whose next step runs the command with the given bits. -/
def State.withFetchWord (s : State) (nbits w : Nat) : State := s.placeCommand nbits w

end Sys2Proof.Machine
end

