-- ==== Sys2Proof/Safety.lean ====
section
/-! DEFINITION. The terms that statements about the core use: when a command is accepted (R345), what a fault leaves
(R340), what the lookups read of a state as plain values, and the invariants of the state. -/

namespace Sys2Proof.Machine

/-! ## Acceptance of a command: the checks of R345 that come before an operation's own pseudocode -/

/-- Check 1: the block is not stopped (R340). -/
abbrev State.running (s : State) : Bool := s.fault.isNone

/-- The operations of R133, by their codes. -/
def needsContext (i : Instr) : Bool :=
  [0x10, 0x11, 0x18, 0x19, 0x1A, 0x22, 0x2B, 0x2D, 0x32, 0x3D].contains (opcode i)

/-- Check 3: the lookup context is as the command needs it (R131 to R133). -/
def contextOk (s : State) (i : Instr) : Bool :=
  if opcode i = 0x01 then !s.ctx.isOpen
  else if opcode i = 0x02 ∨ needsContext i then s.ctx.isOpen
  else true

/-- Check 4: the predication pass and the atomic window are as the command needs them (R277, R322, R323). -/
def protocolOk (s : State) (i : Instr) : Bool :=
  if opcode i = 0x40 then decide (s.pred.pass ≠ .started)
  else if [0x41, 0x42, 0x43, 0x44].contains (opcode i) then decide (s.pred.pass = .started)
  else if opcode i = 0x52 then decide (s.atomic.state ≠ .begun)
  else if opcode i = 0x53 then decide (s.atomic.state = .begun)
  else true

/-- An operand of R102: its name, the bound that it must stay below, its value. -/
structure Operand where
  name  : IndexName
  bound : Nat
  value : Nat
deriving DecidableEq, Repr

/-- A 16-bit operand with a parameter bound. -/
def index16 (name : IndexName) (bound value : Nat) : Operand := ⟨name, min (2 ^ 16) bound, value⟩

/-- The bounded operands of a command in record order, by the table of R102. An operand that is a BitVec of its
full width has no value out of range and is not listed. -/
def operandTable (p : Params) : Instr → List Operand
  | .lookupBegin phv _ =>
      [⟨.phvValid, 2 ^ p.phvBytes, phv.valid⟩, ⟨.phvIngress, 2 ^ p.verBits, phv.ingress⟩,
       ⟨.phvEgress, 2 ^ p.verBits, phv.egress⟩]
  | .lookupEnd => []
  | .hashBit g o => [index16 .g p.hg g, index16 .o p.ow o]
  | .hashGroup g => [index16 .g p.hg g]
  | .xbarMatch r => [index16 .r p.nr r]
  | .xbarHash => []
  | .xbarTcam u => [index16 .u p.ntu u]
  | .sramEntryWrite r c a e value mask vv =>
      [index16 .r p.nr r, index16 .c p.nc c, index16 .a p.sd a, index16 .e p.ne e,
       ⟨.value, 2 ^ p.ew, value⟩, ⟨.mask, 2 ^ p.ew, mask⟩, ⟨.vv, 2 ^ p.vvw, vv⟩]
  | .sramEntryClear r c a e => [index16 .r p.nr r, index16 .c p.nc c, index16 .a p.sd a, index16 .e p.ne e]
  | .sramLookup c lt vs => [index16 .c p.nc c, index16 .lt 16 lt, ⟨.vs, 2, vs⟩]
  | .tcamSetValueMask u idx v m =>
      [index16 .u p.ntu u, index16 .idx p.nt idx, ⟨.v, 2 ^ p.tw, v⟩, ⟨.m, 2 ^ p.tw, m⟩]
  | .tcamClear u idx => [index16 .u p.ntu u, index16 .idx p.nt idx]
  | .tcamGet u idx => [index16 .u p.ntu u, index16 .idx p.nt idx]
  | .tcamLookup u => [index16 .u p.ntu u]
  | .tcamLookupRaw u s1 s0 => [index16 .u p.ntu u, ⟨.s1, 2 ^ p.tw, s1⟩, ⟨.s0, 2 ^ p.tw, s0⟩]
  | .ltcamLookup l => [index16 .l p.nltc l]
  | .stashWrite r w value mask vv _ =>
      [index16 .r p.nr r, index16 .w 4 w, ⟨.value, 2 ^ p.ew, value⟩, ⟨.mask, 2 ^ p.ew, mask⟩, ⟨.vv, 2 ^ p.vvw, vv⟩]
  | .stashClear r w => [index16 .r p.nr r, index16 .w 4 w]
  | .stashLookup r vs => [index16 .r p.nr r, ⟨.vs, 2, vs⟩]
  | .stashInhibit r w _ => [index16 .r p.nr r, index16 .w 4 w]
  | .stashHitInhibited r w _ => [index16 .r p.nr r, index16 .w 4 w]
  | .rbMatchCb k b => [⟨.k, 2, k⟩, index16 .b (if k = 0 then p.nmb else p.ntb) b]
  | .rbTcamCb l => [index16 .l p.nltc l]
  | .rbBusOwner k b => [⟨.k, 2, k⟩, index16 .b (if k = 0 then p.nmb else p.ntb) b]
  | .rbLtBuses k lt => [⟨.k, 2, k⟩, index16 .lt 16 lt]
  | .rbLtcamOwner l => [index16 .l p.nltc l]
  | .rbArbitrate lt => [index16 .lt 16 lt]
  | .predStart flags => [⟨.flags, 8, flags⟩]
  | .predGw lt inhibit nextValid _ => [index16 .lt 16 lt, ⟨.inhibit, 2, inhibit⟩, ⟨.nextValid, 2, nextValid⟩]
  | .predFirst th => [index16 .th 3 th]
  | .predNext th _ => [index16 .th 3 th]
  | .predEnd => []
  | .predGet lt th => [index16 .lt 16 lt, index16 .th 3 th]
  | .colorReset => []
  | .colorSetRight r col alu v =>
      [index16 .r p.nr r, index16 .col p.nmc col, index16 .alu p.nalu alu, ⟨.v, 2 ^ p.cw, v⟩]
  | .ovfSetRight r col alu v =>
      [index16 .r p.nr r, index16 .col p.nmc col, index16 .alu p.nalu alu, ⟨.v, 2 ^ p.ovw, v⟩]
  | .colorRead r => [index16 .r p.nr r]
  | .cfgRead off => [⟨.off, min (2 ^ 32) p.regWords, off⟩]
  | .cfgWrite off _ => [⟨.off, min (2 ^ 32) p.regWords, off⟩]
  | .atomicBegin buffering => [⟨.buffering, 2, buffering⟩]
  | .atomicEnd => []
  | .atomicQuery => []

/-- A PHV operand has PHV_BYTES data bytes, as every decoded one has (R113). -/
def phvSized (p : Params) : Instr → Bool
  | .lookupBegin phv _ => decide (phv.bytes.length = p.phvBytes)
  | _ => true

/-- The operand that F01 names: the first out of range in record order. R102 and R345 check 5 raise F01 when one is out
of range; that the first is named is the model's choice (assumption 22). -/
def badOperand (p : Params) (i : Instr) : Option Operand :=
  (operandTable p i).find? fun x => decide (x.bound ≤ x.value)

/-- Checks 1 to 5 of R345 pass. -/
def accepts (s : State) (i : Instr) : Bool :=
  s.running && contextOk s i && protocolOk s i && phvSized s.params i && (badOperand s.params i).isNone

/-! ## What a command leaves -/

/-- A completed operation: the state it made, with its response (R103). -/
def State.answering (t : State) (r : Response) : State := { t with response := some r }

/-- What R340 leaves of a command that raises a fault: the state before it, the record, no response. -/
def State.faulted (s : State) (i : Instr) (code : FaultCode) (info : Info) : State :=
  { s with fault := some ⟨code, opcode i, operands i, info⟩, response := none }

/-- The state after a command to a stopped block: as before, and no response (R340). -/
def State.refused (s : State) : State := { s with response := none }

/-- The codes whose commands may raise each fault, by the table of R344; F01 belongs to every operation with an
index or a field (R102), F05 to no listed operation. -/
def raisedBy : FaultCode → Nat → Bool
  | .bounds, op => !([0x02, 0x44, 0x48, 0x53, 0x54].contains op)
  | .colorBusMix, op => [0x49, 0x4A].contains op
  | .predBracket, op => [0x40, 0x41, 0x42, 0x43, 0x44].contains op
  | .atomicProtocol, op => [0x52, 0x53].contains op
  | .illegalOp, _ => false
  | .noLookupContext, op => [0x01, 0x02, 0x10, 0x11, 0x18, 0x19, 0x1A, 0x22, 0x2B, 0x2D, 0x32, 0x3D].contains op
  | .busContention, op => op == 0x22
  | .nextTableOrder, op => [0x42, 0x43].contains op

/-- The codes of R101. -/
def listedCodes : List Nat :=
  [0x01, 0x02, 0x10, 0x11, 0x18, 0x19, 0x1A, 0x20, 0x21, 0x22, 0x28, 0x29, 0x2A, 0x2B, 0x2C, 0x2D, 0x30, 0x31, 0x32,
   0x33, 0x34, 0x38, 0x39, 0x3A, 0x3B, 0x3C, 0x3D, 0x40, 0x41, 0x42, 0x43, 0x44, 0x45, 0x48, 0x49, 0x4A, 0x4B, 0x50,
   0x51, 0x52, 0x53, 0x54]

/-- The state after a list of commands, each run on the state the one before it left. -/
def after (is : List Instr) (s : State) : State :=
  is.foldl (fun s i => match exec i s with
    | .next t => t
    | _ => s) s

/-! ## What the lookups read of a state -/

/-- The enabled selectors of the hash-address crossbar name PHV bytes (R160). -/
abbrev hashSelectorsOk (s : State) : Prop :=
  ∀ j < s.params.hs * s.params.sb,
    (cfgHx s.params s.mem.regs j).en = true → (cfgHx s.params s.mem.regs j).val < s.params.phvBytes

/-- Group g's value can be read: it is cached, or the hash input can be formed (R144). -/
abbrev groupReady (s : State) (g : Nat) : Prop :=
  (s.params.hashCacheEnabled = true ∧ (s.cachedHash g s.ctx.cid).isSome = true) ∨ hashSelectorsOk s

/-- Hash byte n exists and every group can be read (R162). -/
abbrev hashByteReady (s : State) (n : Nat) : Prop :=
  8 * n < s.params.hg * s.params.ow ∧ ∀ g < s.params.hg, groupReady s g

/-- The enabled substitution slots name a bit of the word and a version bit (R163). -/
abbrev slotsOk (p : Params) (slots : List Slot) (width : Nat) : Prop :=
  ∀ x ∈ slots, x.en = true → x.pos < width ∧ x.vbit < p.verBits

/-- The match crossbar of row r can form its key (R161). -/
abbrev matchReady (s : State) (r : Nat) : Prop :=
  (∀ j < s.params.xo, (cfgMx s.params s.mem.regs r j).en = true →
    if s.params.hashThreshold ≤ (cfgMx s.params s.mem.regs r j).val
    then hashByteReady s ((cfgMx s.params s.mem.regs r j).val - s.params.hashThreshold)
    else (cfgMx s.params s.mem.regs r j).val < s.params.phvBytes)
  ∧ slotsOk s.params (cfgMxv s.params s.mem.regs r) s.params.ew

/-- The TCAM-row crossbar of unit u can form its word (R164). -/
abbrev tcamReady (s : State) (u : Nat) : Prop :=
  (∀ k < s.params.tw, (cfgTx s.params s.mem.regs u k).en = true →
    (cfgTx s.params s.mem.regs u k).val < 8 * s.params.phvBytes)
  ∧ slotsOk s.params (cfgTxv s.params s.mem.regs u) s.params.tw

/-- The hash input of the open context (R160). -/
def hashInput (s : State) : List (Byte × Bool) :=
  (List.range (s.params.hs * s.params.sb)).map fun j =>
    let x := cfgHx s.params s.mem.regs j
    if x.en then (s.ctx.phv.bytes.getD x.val 0, s.ctx.phv.valid.testBit x.val) else (0, false)

/-- What HASH_GROUP g returns at this step (R144). -/
def groupValue (s : State) (g : Nat) : Nat :=
  match s.params.hashCacheEnabled, s.cachedHash g s.ctx.cid with
  | true, some v => v
  | _, _ => hashOut s.params s.mem.regs (hashInput s) g

/-- Byte n of the concatenation of all groups' values, group 0 lowest (R162). -/
def hashByteValue (s : State) (n : Nat) : Nat :=
  (assemble s.params.ow ((List.range s.params.hg).map (groupValue s)) >>> (8 * n)) % 256

/-- The substituted word: each enabled slot puts its version bit at its position, in order (R163). -/
def substituted (phv : Phv) (slots : List Slot) (word : Nat) : Nat :=
  slots.foldl (fun w x => if x.en then putBit w x.pos ((phvVersion phv x.vs).testBit x.vbit) else w) word

/-- Byte j of row r's key before substitution (R161). -/
def matchByteValue (s : State) (r j : Nat) : Nat :=
  let x := cfgMx s.params s.mem.regs r j
  if x.en then
    if s.params.hashThreshold ≤ x.val then hashByteValue s (x.val - s.params.hashThreshold)
    else (s.ctx.phv.bytes.getD x.val 0).toNat
  else 0

/-- Row r's search key (R161). -/
def matchKeyValue (s : State) (r : Nat) : Nat :=
  substituted s.ctx.phv (cfgMxv s.params s.mem.regs r)
    (assemble 8 ((List.range s.params.xo).map (matchByteValue s r)))

/-- Row r's key has a hash byte: an enabled byte whose selector is at the threshold or above (R161, R162). -/
abbrev readsHash (s : State) (r : Nat) : Prop :=
  ∃ j < s.params.xo, (cfgMx s.params s.mem.regs r j).en = true
    ∧ s.params.hashThreshold ≤ (cfgMx s.params s.mem.regs r j).val

/-- The hash cache of t is that of s after the values of the groups in G have been read by HASH_GROUP's cache rule
(R144, R162): with the cache enabled their entries for the open context hold their values; no other entry changes. -/
def cachesReads (s t : State) (G : Nat → Prop) : Prop :=
  ∀ g cid, (s.params.hashCacheEnabled = true ∧ cid = s.ctx.cid ∧ G g → t.cachedHash g cid = some (groupValue s g))
    ∧ (¬ (s.params.hashCacheEnabled = true ∧ cid = s.ctx.cid ∧ G g) → t.cachedHash g cid = s.cachedHash g cid)

/-- Unit u's search word (R164). -/
def tcamWordValue (s : State) (u : Nat) : Nat :=
  substituted s.ctx.phv (cfgTxv s.params s.mem.regs u)
    (assembleBits ((List.range s.params.tw).map fun k =>
      let x := cfgTx s.params s.mem.regs u k
      x.en && phvBit s.ctx.phv x.val))

/-- The word address of unit (r, c) (R186). -/
def wordAddress (s : State) (r c : Nat) : Nat :=
  (groupValue s (cfgHashGroup s.params s.mem.regs r c) >>> cfgHashOffset s.params s.mem.regs r c) % s.params.sd

/-- The unit at (r, c) can be read: its key, and its hash select (R186). -/
abbrev unitReady (s : State) (c r : Nat) : Prop :=
  matchReady s r ∧ cfgHashGroup s.params s.mem.regs r c < s.params.hg
    ∧ cfgHashOffset s.params s.mem.regs r c < s.params.ow ∧ groupReady s (cfgHashGroup s.params s.mem.regs r c)

/-- The groups whose values SRAM_LOOKUP c, lt reads: for each row, those of the hash bytes of its key, which are all
groups (R162; assumption 13), and that of its word address (R186). -/
abbrev lookupReads (s : State) (c lt g : Nat) : Prop :=
  ∃ r ∈ rowsOfConfig s.params s.mem.regs c lt,
    (readsHash s r ∧ g < s.params.hg) ∨ g = cfgHashGroup s.params s.mem.regs r c

/-- The raw hits of SRAM_LOOKUP c, lt, vs, from the current configuration: row, then entry slot (R186, R187). -/
def rawHits (s : State) (c lt vs : Nat) : List RawHit :=
  (rowsOfConfig s.params s.mem.regs c lt).flatMap fun r =>
    slotHits s r c (wordAddress s r c) (matchKeyValue s r) (phvVersion s.ctx.phv vs)

/-- The bus that a hit drives, none when its hitmap is disabled (R186). -/
def hitBus (s : State) (c : Nat) (h : RawHit) : Option Nat :=
  let hm := cfgHitmap s.params s.mem.regs h.row c h.entry
  if hm.en then some hm.val else none

/-- The report of a hit (R186). -/
def hitReport (s : State) (c : Nat) (h : RawHit) : HitReport := ⟨h.row, h.entry, h.addr, hitBus s c h⟩

/-- The record a hit drives onto its bus (R186). -/
def hitRecord (c : Nat) (h : RawHit) : BusHit := ⟨c, h.row, h.entry, h.addr⟩

/-- VERSION_MATCH of a version-valid field and a packet version (R181): by default the version is one of the field's,
else its entry in the parameter's table is 1 (assumption 15). -/
def versionAdmits (p : Params) (vv ver : Nat) : Prop :=
  match p.versionMatch with
  | .versionSet => ver < p.vvw ∧ vv.testBit ver = true
  | .table rows => rows[vv * 2 ^ p.verBits + ver]? = some true

/-- What a hit of SRAM_LOOKUP c, lt, vs is, bit by bit (R180, R181, R182, R183, R186): a valid entry of the addressed
word of a row that the table owns, whose version test passes, and whose value agrees with the row's key in every bit
that the entry's own mask, the match mask and the byte mask all name. -/
def isHit (s : State) (c lt vs : Nat) (h : RawHit) : Prop :=
  h.row < s.params.nr ∧ (cfgRowOwner s.params s.mem.regs h.row c).en = true
    ∧ (cfgRowOwner s.params s.mem.regs h.row c).val = lt ∧ h.entry < s.params.ne ∧ h.addr = wordAddress s h.row c
    ∧ let ent := s.sramAt h.row c h.addr h.entry
      ent.valid = true ∧ versionAdmits s.params ent.vv (phvVersion s.ctx.phv vs)
        ∧ ∀ k, ent.mask.testBit k = true → (cfgMatchMask s.params s.mem.regs h.row c h.entry).testBit k = true →
            (cfgByteMask s.params s.mem.regs h.row c h.entry).testBit (k / 8) = true →
              (matchKeyValue s h.row).testBit k = ent.value.testBit k

/-- The state after hit h of SRAM_LOOKUP i has driven the bus its hitmap names, where it names one (R186, R188). -/
def driveHit (i : Instr) (c : Nat) (s : State) (h : RawHit) : State :=
  match hitBus s c h with
  | none => s
  | some b =>
    match driveBus i s b (hitRecord c h) with
    | .ok t => t
    | .error _ => s

/-- The state after a list of hits has driven its buses, one after the other (R186). -/
def driveHits (i : Instr) (c : Nat) (s : State) (hs : List RawHit) : State := hs.foldl (driveHit i c) s

/-- The first match of a scan of unit u from its rotation offset, or none (R204). -/
def scanAnswers (s : State) (u s1 s0 : Nat) : Option Nat → Prop
  | some idx => ∃ k < s.params.nt, idx = (cfgTcamStart s.params s.mem.regs u + k) % s.params.nt
      ∧ tcamMatch s.params.tw (s.tcamAt u idx) s1 s0 = true
      ∧ ∀ j < k, tcamMatch s.params.tw
          (s.tcamAt u ((cfgTcamStart s.params s.mem.regs u + j) % s.params.nt)) s1 s0 = false
  | none => ∀ k < s.params.nt, tcamMatch s.params.tw
      (s.tcamAt u ((cfgTcamStart s.params s.mem.regs u + k) % s.params.nt)) s1 s0 = false

/-- The scan of unit u for the word of its crossbar (R205, R207). -/
def xbarScanAnswers (s : State) (u : Nat) (r : Option Nat) : Prop :=
  scanAnswers s u (tcamWordValue s u) (notBits s.params.tw (tcamWordValue s u)) r

/-- Unit u's crossbar word can be formed and its rotation offset names an entry (R164, R204). -/
abbrev scanReady (s : State) (u : Nat) : Prop := tcamReady s u ∧ cfgTcamStart s.params s.mem.regs u < s.params.nt

/-- Unit u belongs to logical TCAM l (R28). -/
abbrev unitOf (s : State) (l u : Nat) : Prop :=
  (cfgTcamLtcam s.params s.mem.regs u).en = true ∧ (cfgTcamLtcam s.params s.mem.regs u).val = l

/-- Entry w of row r hits the key: its raw hit, and no inhibit at its own address (R220, R221, R224). -/
def stashHitsKey (s : State) (r key ver w : Nat) : Bool :=
  stashRaw s.params (s.stashAt r w) key ver
    && !((s.inhibitAt r w).on && decide ((s.inhibitAt r w).addr = (s.stashAt r w).addr))

/-- What a raw stash hit is, bit by bit (R220): a valid entry whose version test passes and whose value agrees with the
key in every bit of its own mask. -/
def stashMatches (p : Params) (se : StashEntry) (key ver : Nat) : Prop :=
  se.valid = true ∧ versionAdmits p se.vv ver
    ∧ ∀ k, se.mask.testBit k = true → key.testBit k = se.value.testBit k

/-- Match bus b is the lowest bus of table lt that carries a hit, and the hit is rec (R246). -/
abbrev exactClaim (s : State) (lt b : Nat) (rec : BusHit) : Prop :=
  b < s.params.nmb ∧ (s.busMap.matchBus.mask lt).testBit b = true ∧ s.busHitAt b = some rec
    ∧ ∀ b' < b, (s.busMap.matchBus.mask lt).testBit b' = true → s.busHitAt b' = none

/-- No match bus of table lt carries a hit (R246). -/
abbrev noExact (s : State) (lt : Nat) : Prop :=
  ∀ b < s.params.nmb, (s.busMap.matchBus.mask lt).testBit b = true → s.busHitAt b = none

/-- Logical TCAM l is the lowest one feeding table lt that has a hit, and the hit is rec (R246). -/
abbrev ternaryClaim (s : State) (lt l : Nat) (rec : LtcHit) : Prop :=
  l < s.params.nltc ∧ (s.busMap.ltcam.mask lt).testBit l = true ∧ s.ltcHitAt l = some rec
    ∧ ∀ l' < l, (s.busMap.ltcam.mask lt).testBit l' = true → s.ltcHitAt l' = none

/-- No logical TCAM feeding table lt has a hit (R246). -/
abbrev noTernary (s : State) (lt : Nat) : Prop :=
  ∀ l < s.params.nltc, (s.busMap.ltcam.mask lt).testBit l = true → s.ltcHitAt l = none

/-- The table that a crossbar register names (R29). -/
def Gated.owner (x : Gated) : Option Nat := if x.en then some x.val else none

/-- m' is m with the owner of bus b, and its bit in every mask, taken from register value x (R241, R242). -/
def recomputed (m m' : OwnerMap) (b : Nat) (x : Gated) : Prop :=
  m'.ownerOf b = x.owner ∧ (∀ b', b' ≠ b → m'.ownerOf b' = m.ownerOf b')
    ∧ (∀ lt b', b' ≠ b → (m'.mask lt).testBit b' = (m.mask lt).testBit b')
    ∧ ∀ lt, (m'.mask lt).testBit b
        = (decide (x.owner = some lt) || (!decide (m.ownerOf b = some lt) && (m.mask lt).testBit b))

/-- The register that owns bus b of kind k (R29). -/
def busRegister (s : State) (k b : Nat) : Gated :=
  if k = 0 then cfgMatchReg s.params s.mem.regs b else cfgTindReg s.params s.mem.regs b

/-- The register bits of a place, least significant first: the offset of a word, and a bit of it (R22). -/
def placeBits (pl : Place) : List (Nat × Nat) := pl.flatMap fun g => (List.range g.len).map fun k => (g.word, g.lo + k)

/-- Bit k of the field at a place, read from the register words (R22). -/
def placedBit (s : State) (pl : Place) (k : Nat) : Bool :=
  match (placeBits pl)[k]? with
  | some x => (s.regRead x.1).getLsbD x.2
  | none => false

/-- The last pair of a list of writes for offset o, or what was there (R323). -/
def lastWritten (ws : List (Nat × Word)) (o : Nat) (old : Word) : Word :=
  ((ws.reverse.find? fun w => w.1 == o).map Prod.snd).getD old

/-! ## Predication -/

/-- PRED_ORDER is a permutation of 0..15 (R267). -/
abbrev orderOk (p : Params) : Prop := p.predOrder.length = 16 ∧ ∀ lt < 16, lt ∈ p.predOrder

/-- `PWR and CFG and thrActive[th]` of table lt (R261). -/
def lookupable (s : State) (th lt : Nat) : Bool :=
  predPwrBit (s.predBitsAt lt th) && predCfgBit (s.predBitsAt lt th) && s.activeAt th

/-- A next-table value produced at position q names END or a later table (R266). -/
abbrev pointsForward (p : Params) (n : Byte) (q : Nat) : Prop := 16 ≤ n.toNat ∨ q < posOf p n.toNat

/-- The target that a next-table value gives: a table, or none for END (R107, R266). -/
def nextTarget (n : Byte) : Option Nat := if 16 ≤ n.toNat then none else some n.toNat

/-- The next-table value of the gateway of the table at position q, 0xFF where it supplied none (R265, R271). -/
def gatewayNext (s : State) (q : Nat) : Byte := (s.gwAt (tableAt s.params q)).next.getD 0xFF

/-- Whether the table at position q is active for a thread whose target is tgt: it is lookupable, and it is the
target (R263). -/
def actAt (s : State) (th q : Nat) (tgt : Option Nat) : Bool :=
  lookupable s th (tableAt s.params q) && decide (tgt = some (tableAt s.params q))

/-- Whether it is runnable: active, and its gateway does not inhibit it (R264). -/
def runAt (s : State) (th q : Nat) (tgt : Option Nat) : Bool :=
  actAt s th q tgt && !(s.gwAt (tableAt s.params q)).inhibit

/-- Whether its gateway redirects the thread: active, and inhibited (R265). -/
def redirectsAt (s : State) (th q : Nat) (tgt : Option Nat) : Bool :=
  actAt s th q tgt && (s.gwAt (tableAt s.params q)).inhibit

/-- The thread's target behind position q: the gateway's next table if it redirects, else as before (R265, R271). -/
def targetPast (s : State) (th q : Nat) (tgt : Option Nat) : Option Nat :=
  if redirectsAt s th q tgt then nextTarget (gatewayNext s q) else tgt

/-- The thread's target after a walk has visited n positions from p on, when it was tgt before (R271). -/
def targetAfter (s : State) (th : Nat) : Nat → Nat → Option Nat → Option Nat
  | _, 0, tgt => tgt
  | p, n + 1, tgt => targetAfter s th (p + 1) n (targetPast s th p tgt)

/-- The thread's target when a walk from p, begun with tgt, comes to position q. -/
def targetOn (s : State) (th p : Nat) (tgt : Option Nat) (q : Nat) : Option Nat := targetAfter s th p (q - p) tgt

/-- Whether the walk ends at position q, which it comes to with target tgt (R270, R271): in EvaluateAll mode at a
lookupable table, in ShortCircuit mode at a runnable one, and under the reading Stop also at a lookupable one. -/
def stopsAt (s : State) (th q : Nat) (tgt : Option Nat) : Bool :=
  if cfgRunMode s.params s.mem.regs then
    runAt s th q tgt || (decide (s.params.scReading = .stop) && lookupable s th (tableAt s.params q))
  else lookupable s th (tableAt s.params q)

/-- A walk from p, begun with target tgt, comes to position q: it ends at no position before q, and no gateway before q
redirects the thread backward. -/
def reached (s : State) (th p : Nat) (tgt : Option Nat) (q : Nat) : Prop :=
  p ≤ q ∧ q < 16 ∧ ∀ q', p ≤ q' → q' < q → stopsAt s th q' (targetOn s th p tgt q') = false
    ∧ (redirectsAt s th q' (targetOn s th p tgt q') = true → pointsForward s.params (gatewayNext s q') q')

/-- No gateway that the walk comes to redirects the thread backward. -/
def walkForward (s : State) (th p : Nat) (tgt : Option Nat) : Prop :=
  ∀ q, reached s th p tgt q → redirectsAt s th q (targetOn s th p tgt q) = true →
    pointsForward s.params (gatewayNext s q) q

/-- The active-mask bits of t at position q, visited by a walk from s that came there with target tgt (R261 to R264). -/
def visitedAs (s t : State) (th q : Nat) (tgt : Option Nat) : Prop :=
  let lt := tableAt s.params q
  let b := t.predBitsAt lt th
  predLkpBit b = lookupable s th lt ∧ predCtbBit b = (lookupable s th lt && predCntBit (s.predBitsAt lt th))
    ∧ predActBit b = actAt s th q tgt ∧ predRunBit b = runAt s th q tgt

/-- What a walk of thread th from position p of s, begun with target tgt, leaves in t, and its table byte x (R271). It
visits the positions from p to e, the first that ends it, or to 15. The answer is the table at e if the mode evaluates
it, else END. -/
def walked (s t : State) (th p : Nat) (tgt : Option Nat) (x : Byte) : Prop :=
  ∃ e, e ≤ 16 ∧ p ≤ e
    ∧ (∀ q, p ≤ q → q < e → stopsAt s th q (targetOn s th p tgt q) = false)
    ∧ (∀ q, p ≤ q → q < e + 1 → q < 16 → visitedAs s t th q (targetOn s th p tgt q))
    ∧ (∀ lt < 16, (∀ q, p ≤ q → q < e + 1 → q < 16 → tableAt s.params q ≠ lt) →
        t.predBitsAt lt th = s.predBitsAt lt th)
    ∧ t.targetAt th = targetOn s th p tgt (min (e + 1) 16)
    ∧ (if e < 16 then
        stopsAt s th e (targetOn s th p tgt e) = true
          ∧ (if cfgRunMode s.params s.mem.regs = true ∧ runAt s th e (targetOn s th p tgt e) = false
             then x = 0xFF ∧ t.cursorAt th = .done
             else x = BitVec.ofNat 8 (tableAt s.params e) ∧ t.cursorAt th = .pos e)
      else x = 0xFF ∧ t.cursorAt th = .done)

/-- What a gateway that redirects does to command i, whose walk begins at p with target tgt (R265, R266, R351). Where
the walk comes to an active inhibited table, a next table that points backward raises F08. One that points forward, or
END, becomes the thread's target, unless a later gateway redirects it again; the table is active and not runnable. -/
def gatewayRedirects (i : Instr) (s : State) (th p : Nat) (tgt : Option Nat) : Prop :=
  ∀ q, reached s th p tgt q → redirectsAt s th q (targetOn s th p tgt q) = true →
    let n := gatewayNext s q
    (n.toNat < 16 ∧ posOf s.params n.toNat ≤ q →
      exec i s = .next (s.faulted i .nextTableOrder (.order n.toNat q)))
    ∧ (pointsForward s.params n q →
      (∀ q' > q, reached s th p tgt q' → redirectsAt s th q' (targetOn s th p tgt q') = false) →
        ∃ t, exec i s = .next t ∧ t.targetAt th = nextTarget n
          ∧ predActBit (t.predBitsAt (tableAt s.params q) th) = true
          ∧ predRunBit (t.predBitsAt (tableAt s.params q) th) = false)

/-- What a walk of thread th keeps: every other thread, the static bits, the gateways, the pass (R271). -/
def walkKeeps (s t : State) (th : Nat) : Prop :=
  (∀ lt < 16, ∀ th' < 3, th' ≠ th → t.predBitsAt lt th' = s.predBitsAt lt th')
    ∧ (∀ lt < 16, t.predBitsAt lt th &&& 0x0F = s.predBitsAt lt th &&& 0x0F)
    ∧ (∀ th' < 3, th' ≠ th → t.cursorAt th' = s.cursorAt th' ∧ t.targetAt th' = s.targetAt th')
    ∧ (∀ th' < 3, t.activeAt th' = s.activeAt th')
    ∧ (∀ lt < 16, t.gwAt lt = s.gwAt lt) ∧ t.pred.pass = s.pred.pass

/-! ## Invariants -/

/-- Owner map and use masks agree, for n buses (R240). -/
abbrev OwnerMap.consistent (m : OwnerMap) (n : Nat) : Prop :=
  ∀ b < n, ∀ lt < 16, m.ownerOf b = some lt ↔ (m.mask lt).testBit b = true

/-- R240: every bus and every logical TCAM belongs to at most one table, and the masks say which. -/
abbrev State.mapsConsistent (s : State) : Prop :=
  s.busMap.matchBus.consistent s.params.nmb ∧ s.busMap.tindBus.consistent s.params.ntb
    ∧ s.busMap.ltcam.consistent s.params.nltc

/-- The maps agree with the crossbar registers (R243, R312). -/
abbrev State.mapsFresh (s : State) : Prop :=
  (∀ b < s.params.nmb, s.busMap.matchBus.ownerOf b = (cfgMatchReg s.params s.mem.regs b).owner)
    ∧ (∀ b < s.params.ntb, s.busMap.tindBus.ownerOf b = (cfgTindReg s.params s.mem.regs b).owner)
    ∧ (∀ l < s.params.nltc, s.busMap.ltcam.ownerOf l = (cfgLtcamReg s.params s.mem.regs l).owner)

/-- No column's token is ahead of `mapSeq`, and a column whose token is `mapSeq` caches the rows of the current
configuration (R183, R386). -/
abbrev State.rowsFresh (s : State) : Prop :=
  ∀ c < s.params.nc, ∀ n ∈ s.pendingAt c, n ≤ s.mapSeq ∧
    (n = s.mapSeq → ∀ lt < 16, s.cachedRows c lt = rowsOfConfig s.params s.mem.regs c lt)

/-- The implications of R39 between the Pred bits: RUN, ACT, LKP, PWR, and CTB, LKP. -/
abbrev predImplied (b : Byte) : Prop :=
  (predRunBit b = true → predActBit b = true) ∧ (predActBit b = true → predLkpBit b = true)
    ∧ (predLkpBit b = true → predPwrBit b = true) ∧ (predCtbBit b = true → predLkpBit b = true)

/-- R39's invariant. -/
abbrev State.predOk (s : State) : Prop := ∀ lt < 16, ∀ th < 3, predImplied (s.predBitsAt lt th)

/-- A thread's cursor is at one of the 16 positions, and its target is one of the 16 tables, where it has one (R39). -/
abbrev State.threadsFit (s : State) : Prop :=
  ∀ th < 3, (∀ q, s.cursorAt th = .pos q → q < 16) ∧ ∀ lt ∈ s.targetAt th, lt < 16

/-- The atomic window as R41 and R323 bound it: at most ATOMIC_CAP pairs, and Ending never observed. -/
abbrev State.atomicOk (s : State) : Prop := s.atomic.buf.length ≤ 64 ∧ s.atomic.state ≠ .ending

/-- Every listed entry of the arrays is as wide as R32 to R34 make it. -/
abbrev State.entriesFit (s : State) : Prop :=
  (∀ x ∈ s.mem.sram, x.2.value < 2 ^ s.params.ew ∧ x.2.mask < 2 ^ s.params.ew ∧ x.2.vv < 2 ^ s.params.vvw)
    ∧ (∀ x ∈ s.mem.tcam, x.2.word0 < 2 ^ s.params.tw ∧ x.2.word1 < 2 ^ s.params.tw)
    ∧ (∀ x ∈ s.mem.stash, x.2.value < 2 ^ s.params.ew ∧ x.2.mask < 2 ^ s.params.ew ∧ x.2.vv < 2 ^ s.params.vvw)

/-- Cached hash values and the sums of the color rows are as wide as R36 and R40 make them. -/
abbrev State.valuesFit (s : State) : Prop :=
  (∀ x ∈ s.hashCache, ∀ v ∈ x.2, v < 2 ^ s.params.ow)
    ∧ (∀ x ∈ s.color, x.2.acc < 2 ^ s.params.cw ∧ x.2.ovf < 2 ^ s.params.ovw)

/-- Owner map and masks, for n buses: an owner is one of the 16 tables, a mask has n bits (R38). -/
abbrev OwnerMap.fits (m : OwnerMap) (n : Nat) : Prop :=
  (∀ b, ∀ lt ∈ m.ownerOf b, lt < 16) ∧ ∀ lt, m.mask lt < 2 ^ n

/-- The result-bus maps are as wide as R38 makes them. -/
abbrev State.mapsFit (s : State) : Prop :=
  s.busMap.matchBus.fits s.params.nmb ∧ s.busMap.tindBus.fits s.params.ntb ∧ s.busMap.ltcam.fits s.params.nltc

/-- A recorded contributor is a mapram column and an ALU of the chip (R40). -/
abbrev State.contributorsFit (s : State) : Prop :=
  ∀ r, ∀ x, (s.colorAt r).whoC = some x ∨ (s.colorAt r).whoO = some x → x.1 < s.params.nmc ∧ x.2 < s.params.nalu

/-- An open context's PHV is as wide as R42 makes it. -/
abbrev State.phvFits (s : State) : Prop :=
  s.ctx.phv.bytes.length = s.params.phvBytes ∧ s.ctx.phv.valid < 2 ^ s.params.phvBytes
    ∧ s.ctx.phv.ingress < 2 ^ s.params.verBits ∧ s.ctx.phv.egress < 2 ^ s.params.verBits

/-- The register store and the entry arrays are in canonical form. -/
abbrev State.memoryCanonical (s : State) : Prop := Memory.wf s.params s.mem = true

/-- No entry is valid (R380, R383). -/
abbrev State.noValidEntry (s : State) : Prop :=
  (∀ x ∈ s.mem.sram, x.2.valid = false) ∧ (∀ x ∈ s.mem.tcam, x.2.valid = false)
    ∧ ∀ x ∈ s.mem.stash, x.2.valid = false

end Sys2Proof.Machine
end

