-- ==== Sys2Proof/Certificates/Slice0/Obligations.lean ====
section
/-! DEFINITION. The statements for the provers, family by family. `accepts s i` is checks 1 to 5 of R345: where a
statement has it as its only condition on the command, the command runs for every operand that the spec admits. -/

open Sys2Proof Sys2Proof.Machine

/-! ## Decoding and the step -/

/-- R78, R113: when the bytes at the head of the command stream decode to a command, the step is that command on
the state with those bytes taken. -/
def Obligations.StepRunsDecodedCommand : Prop :=
  ∀ (s : State) (i : Instr) (rest : List Byte),
    decode s.params s.inbox = .command i rest → step s = exec i { s with inbox := rest }

/-- R113, R110: the decoder reads every well-formed command back from its bytes, whatever follows them. -/
def Obligations.DecodeReadsEncodedCommand : Prop :=
  ∀ (p : Params) (i : Instr) (rest : List Byte),
    i.wellFormed p = true → decode p (encode p i ++ rest) = .command i rest

/-- R113: a decoded command is well formed, its bytes are its encoding, and their number is fixed by the code. -/
def Obligations.DecodedCommandIsItsBytes : Prop :=
  ∀ (p : Params) (bytes : List Byte) (i : Instr) (rest : List Byte),
    decode p bytes = .command i rest →
      i.wellFormed p = true ∧ bytes = encode p i ++ rest ∧ (encode p i).length = commandLength p (opcode i)

/-- R113's two examples, and one word of each other kind of operand list, decode in the reference configuration. -/
def Obligations.WrittenWordsDecode : Prop :=
  decode referenceParams
      [0x01, 0x12, 0x34, 0x56, 0x78, 0x0F, 0x01, 0x02, 0x07, 0x00, 0x00, 0x00, 0x00, 0x00, 0x00, 0x00]
    = .command (.lookupBegin ⟨[0x12, 0x34, 0x56, 0x78], 15, 1, 2⟩ 7) []
  ∧ decode referenceParams [0x51, 0x0E, 0x00, 0x00, 0x00, 0x00, 0x00, 0x83, 0x00]
    = .command (.cfgWrite 14 0x00830000) []
  ∧ decode referenceParams [0x20, 0x00, 0x00, 0x01, 0x00, 0x02, 0x00, 0x03, 0x00, 0x34, 0xFF, 0x02]
    = .command (.sramEntryWrite 0 1 2 3 0x34 0xFF 2) []
  ∧ decode referenceParams [0x41, 0x02, 0x01, 0x01, 0x00, 0x05] = .command (.predGw 0x102 1 0 5) []

/-- R108, R348: a code that R101 does not list raises F05 with the code, before any other change. -/
def Obligations.UnlistedCodeRaisesIllegalOp : Prop :=
  ∀ (s : State) (op : Byte) (tail : List Byte),
    s.running = true → s.inbox = op :: tail → op.toNat ∉ listedCodes →
      ∃ args rest, step s = .next { s with
        inbox := rest, response := none, fault := some ⟨.illegalOp, op.toNat, args, .code op.toNat⟩ }

/-! ## Reset -/

/-- R380: reset sets every state element to its stated value, and keeps the parameters. The elements that R380
leaves unspecified are not mentioned. -/
def Obligations.ResetGivesStatedValues : Prop :=
  ∀ s : State, let t := s.hostReset
    t.params = s.params
    ∧ (∀ o w, s.params.regReset[o]? = some w → t.regRead o = w)
    ∧ (∀ r c a e, (t.sramAt r c a e).valid = false) ∧ (∀ u idx, (t.tcamAt u idx).valid = false)
    ∧ (∀ r w, (t.stashAt r w).valid = false ∧ (t.inhibitAt r w).on = false)
    ∧ (∀ g cid, t.cachedHash g cid = none) ∧ t.mapSeq = 0 ∧ (∀ c, t.pendingAt c = none)
    ∧ t.mapsFresh ∧ t.mapsConsistent
    ∧ (∀ lt th, t.predBitsAt lt th = 0) ∧ t.pred.pass = .idle
    ∧ (∀ th, t.activeAt th = false ∧ t.cursorAt th = .before ∧ t.targetAt th = none)
    ∧ (∀ lt, t.gwAt lt = ⟨false, none⟩) ∧ (∀ r, t.colorAt r = ⟨0, 0, none, none⟩)
    ∧ t.atomic = ⟨.reset, false, [], 0, 0⟩
    ∧ t.ctx.isOpen = false ∧ (∀ b, t.busHitAt b = none) ∧ (∀ l, t.ltcHitAt l = none)
    ∧ t.fault = none ∧ t.warnLog = []

/-- R383: while no entry is valid, which is so from reset, every lookup that completes misses. -/
def Obligations.LookupsMissWithoutValidEntries : Prop :=
  (∀ p : Params, (State.resetWith p).noValidEntry)
  ∧ ∀ s : State, s.noValidEntry →
    (∀ c lt vs t r, exec (.sramLookup c lt vs) s = .next t → t.response = some r → r = .sramHits false [])
    ∧ (∀ u t r, exec (.tcamLookup u) s = .next t → t.response = some r → r = .tcamIndex none)
    ∧ (∀ u s1 s0 t r, exec (.tcamLookupRaw u s1 s0) s = .next t → t.response = some r → r = .tcamIndex none)
    ∧ (∀ l t r, exec (.ltcamLookup l) s = .next t → t.response = some r → r = .ltcamHit none)
    ∧ (∀ q vs t r, exec (.stashLookup q vs) s = .next t → t.response = some r → r = .stashHit none)

/-! ## Faults -/

/-- R340: a command completes with a response and no fault, or leaves the state before it with the record of its
fault and no response; a stopped block changes no state, and reset clears the fault. -/
def Obligations.CommandCompletesOrFaultsPrecisely : Prop :=
  ∀ (i : Instr) (s : State),
    (s.running = true →
      (∃ t r, exec i s = .next t ∧ t.fault = none ∧ t.response = some r)
        ∨ ∃ code info, exec i s = .next (s.faulted i code info))
    ∧ (s.running = false → exec i s = .next s.refused)
    ∧ s.hostReset.fault = none

/-- R354, R355: no step leaves a stopped block's fault; of the spec's state a step of it changes nothing. The one
way out is reset, which clears `fault` and `warnLog`. -/
def Obligations.StoppedBlockStaysStopped : Prop :=
  ∀ s : State, s.running = false →
    (∀ t, step s = .next t → t = { s with inbox := t.inbox, response := t.response })
    ∧ s.hostReset.fault = none ∧ s.hostReset.warnLog = []

/-- R344: the number of each fault, which operations may raise which fault, and that a relax flag switches its fault
off. -/
def Obligations.FaultsFollowTheCodeTable : Prop :=
  ([FaultCode.bounds, .colorBusMix, .predBracket, .atomicProtocol, .illegalOp, .noLookupContext, .busContention,
    .nextTableOrder].map FaultCode.number = [1, 2, 3, 4, 5, 6, 7, 8])
  ∧ ∀ (i : Instr) (s t : State) (ev : EventRecord),
    s.running = true → exec i s = .next t → t.fault = some ev →
      raisedBy ev.code (opcode i) = true
        ∧ (ev.code = .colorBusMix → s.params.relaxColorBus = false)
        ∧ (ev.code = .busContention → s.params.relaxMultiHit = false)

/-- R133, R349: the operations of R133 raise F06 with no context open, with some cause, as do a nested LOOKUP_BEGIN and
a LOOKUP_END without begin; no other operation raises it. -/
def Obligations.LookupContextIsRequired : Prop :=
  (∀ (i : Instr) (s : State), s.running = true → needsContext i = true → s.ctx.isOpen = false →
    ∃ cause, exec i s = .next (s.faulted i .noLookupContext (.context cause)))
  ∧ (∀ (phv : Phv) (cid : CacheId) (s : State), s.running = true → s.ctx.isOpen = true →
    exec (.lookupBegin phv cid) s = .next (s.faulted (.lookupBegin phv cid) .noLookupContext (.context .nested)))
  ∧ (∀ s : State, s.running = true → s.ctx.isOpen = false →
    exec .lookupEnd s = .next (s.faulted .lookupEnd .noLookupContext (.context .endWithoutBegin)))
  ∧ ∀ (i : Instr) (s t : State) (ev : EventRecord), s.running = true →
    needsContext i = false → opcode i ≠ 0x01 → opcode i ≠ 0x02 →
      exec i s = .next t → t.fault = some ev → ev.code ≠ .noLookupContext

/-- R102, R345: a command that passes the checks before it and has an operand outside its field or its bound raises
F01 with the name and the value of such an operand. -/
def Obligations.OperandOutOfBoundsRaisesBounds : Prop :=
  ∀ (i : Instr) (s : State), s.running = true → contextOk s i = true → protocolOk s i = true →
    phvSized s.params i = true → (∃ x ∈ operandTable s.params i, x.bound ≤ x.value) →
      ∃ x ∈ operandTable s.params i, x.bound ≤ x.value
        ∧ exec i s = .next (s.faulted i .bounds (.index x.name x.value))

/-- R277, R346: the bracket of a predication pass, and the cursor that PRED_FIRST and PRED_NEXT need. -/
def Obligations.PredicationBracketIsEnforced : Prop :=
  ∀ s : State, s.running = true →
    (∀ flags, s.pred.pass = .started →
      ∃ o, exec (.predStart flags) s
        = .next (s.faulted (.predStart flags) .predBracket (.bracket .startInsidePass o)))
    ∧ (∀ lt inhibit nextValid next, s.pred.pass ≠ .started →
      ∃ o, exec (.predGw lt inhibit nextValid next) s
        = .next (s.faulted (.predGw lt inhibit nextValid next) .predBracket (.bracket .gwOutsidePass o)))
    ∧ (∀ th, s.pred.pass ≠ .started →
      ∃ o, exec (.predFirst th) s
        = .next (s.faulted (.predFirst th) .predBracket (.bracket .firstOutsidePass o)))
    ∧ (∀ th nt, s.pred.pass ≠ .started →
      ∃ o, exec (.predNext th nt) s
        = .next (s.faulted (.predNext th nt) .predBracket (.bracket .nextOutsidePass o)))
    ∧ (s.pred.pass ≠ .started →
      ∃ o, exec .predEnd s = .next (s.faulted .predEnd .predBracket (.bracket .endOutsidePass o)))
    ∧ (∀ th, accepts s (.predFirst th) = true → s.cursorAt th ≠ .before →
      exec (.predFirst th) s
        = .next (s.faulted (.predFirst th) .predBracket (.bracket .firstTwice (some th))))
    ∧ ∀ th nt, accepts s (.predNext th nt) = true → s.cursorAt th = .before →
      exec (.predNext th nt) s
        = .next (s.faulted (.predNext th nt) .predBracket (.bracket .nextBeforeFirst (some th)))

/-- R322, R323, R347: ATOMIC_BEGIN in a window and ATOMIC_END outside one raise F04 with their cause and the state. -/
def Obligations.AtomicProtocolIsEnforced : Prop :=
  ∀ s : State, s.running = true →
    (∀ buffering, s.atomic.state = .begun →
      exec (.atomicBegin buffering) s = .next (s.faulted (.atomicBegin buffering) .atomicProtocol
        (.atomicState .beginInsideWindow s.atomic.state)))
    ∧ (s.atomic.state ≠ .begun →
      exec .atomicEnd s = .next (s.faulted .atomicEnd .atomicProtocol
        (.atomicState .endWithoutBegin s.atomic.state)))

/-- R343: `warnLog` only grows, by W02 under relaxColorBus and by W07 under relaxMultiHit. -/
def Obligations.WarningsOnlyAccumulate : Prop :=
  ∀ s t : State, step s = .next t →
    ∃ more, t.warnLog = s.warnLog ++ more
      ∧ ∀ w ∈ more, (w.code = .colorBusMix ∧ s.params.relaxColorBus = true)
        ∨ (w.code = .busContention ∧ s.params.relaxMultiHit = true)

/-! ## What no command changes -/

/-- R134: no operation but LOOKUP_BEGIN writes the PHV snapshot or the CacheId. -/
def Obligations.SnapshotIsStable : Prop :=
  ∀ (i : Instr) (s t : State), exec i s = .next t → opcode i ≠ 0x01 →
    t.ctx.phv = s.ctx.phv ∧ t.ctx.cid = s.ctx.cid

/-- R70, R326, R20: the register store changes only by CFG_WRITE and ATOMIC_END, an entry array only by its own
entry operations, and the parameters never. -/
def Obligations.OnlyTheirCommandsChangeMemory : Prop :=
  ∀ (i : Instr) (s t : State), exec i s = .next t →
    t.params = s.params
    ∧ (opcode i ∉ [0x51, 0x53] → t.mem.regs = s.mem.regs)
    ∧ (opcode i ∉ [0x20, 0x21] → t.mem.sram = s.mem.sram)
    ∧ (opcode i ∉ [0x28, 0x29] → t.mem.tcam = s.mem.tcam)
    ∧ (opcode i ∉ [0x30, 0x31] → t.mem.stash = s.mem.stash)

/-- R82: with the cache, HASH_GROUP returns one value for a group throughout a lookup context, whatever commands
other than LOOKUP_BEGIN come between; without it, each call computes from the current configuration. -/
def Obligations.HashValueIsStableInContext : Prop :=
  (∀ (g : Nat) (s t : State) (v : Nat) (is : List Instr), s.params.hashCacheEnabled = true →
    exec (.hashGroup g) s = .next t → t.response = some (.value v) → (∀ i ∈ is, opcode i ≠ 0x01) →
      accepts (after is t) (.hashGroup g) = true →
        ∃ u, exec (.hashGroup g) (after is t) = .next u ∧ u.response = some (.value v))
  ∧ ∀ (g : Nat) (s : State), s.params.hashCacheEnabled = false → accepts s (.hashGroup g) = true →
    hashSelectorsOk s →
      exec (.hashGroup g) s = .next (s.answering (.value (hashOut s.params s.mem.regs (hashInput s) g)))

/-! ## Invariants of every step -/

/-- R240: after every operation every bus and every logical TCAM maps to at most one table, and the reverse masks
agree; so it is at reset. -/
def Obligations.BusMapsStayConsistent : Prop :=
  (∀ p : Params, (State.resetWith p).mapsConsistent)
  ∧ ∀ s t : State, s.mapsConsistent → step s = .next t → t.mapsConsistent

/-- R243, R312: the maps agree with the crossbar registers at reset and after every step. -/
def Obligations.BusMapsFollowRegisters : Prop :=
  (∀ p : Params, (State.resetWith p).mapsFresh) ∧ ∀ s t : State, s.mapsFresh → step s = .next t → t.mapsFresh

/-- R183, R386: no step makes a row cache stale. -/
def Obligations.RowCacheStaysFresh : Prop :=
  ∀ s t : State, s.rowsFresh → step s = .next t → t.rowsFresh

/-- R39: the implications between the Pred bits hold after every step. -/
def Obligations.PredBitsStayImplied : Prop :=
  ∀ s t : State, s.predOk → step s = .next t → t.predOk

/-- R32 to R34, R36, R40, R41, R42, R323: every step keeps the fields of the entries, the cached hash values, the color
sums, the PHV and the atomic buffer within their bounds, and the state Ending unobserved; R38: the owners and the bus
masks; R40: the recorded contributors; R39: the cursors and the targets of the threads. -/
def Obligations.FieldsStayWithinWidths : Prop :=
  (∀ s t : State, s.entriesFit ∧ s.valuesFit ∧ s.phvFits ∧ s.atomicOk → step s = .next t →
    t.entriesFit ∧ t.valuesFit ∧ t.phvFits ∧ t.atomicOk)
  ∧ (∀ s t : State, s.mapsFit → step s = .next t → t.mapsFit)
  ∧ (∀ s t : State, s.contributorsFit → step s = .next t → t.contributorsFit)
  ∧ ∀ s t : State, s.threadsFit → step s = .next t → t.threadsFit

/-- The model's memory (assumption 17): every step keeps the register store and the entry arrays in canonical
form. -/
def Obligations.MemoryStaysCanonical : Prop :=
  ∀ s t : State, s.memoryCanonical → step s = .next t → t.memoryCanonical

/-- The invariants hold at reset, for every parameters. That the PHV record fits (assumption 9) and that the memory is
in canonical form (assumption 17) are the model's choice. -/
def Obligations.InvariantsHoldAtReset : Prop :=
  ∀ p : Params, let s := State.resetWith p
    s.mapsConsistent ∧ s.mapsFresh ∧ s.rowsFresh ∧ s.predOk ∧ s.entriesFit ∧ s.valuesFit ∧ s.phvFits ∧ s.atomicOk
      ∧ s.memoryCanonical ∧ s.mapsFit ∧ s.contributorsFit ∧ s.threadsFit

/-! ## Lookup context -/

/-- R131, R132: LOOKUP_BEGIN opens a context on its PHV and CacheId, with no hit recorded, an empty hash cache, no
inhibit on and the color rows cleared; LOOKUP_END closes it; neither changes anything else. -/
def Obligations.LookupBracketOpensAndCloses : Prop :=
  (∀ (phv : Phv) (cid : CacheId) (s : State), accepts s (.lookupBegin phv cid) = true →
    ∃ t, exec (.lookupBegin phv cid) s = .next t ∧ t.response = some .empty
      ∧ t.ctx.isOpen = true ∧ t.ctx.phv = phv ∧ t.ctx.cid = cid
      ∧ (∀ b, t.busHitAt b = none) ∧ (∀ l, t.ltcHitAt l = none) ∧ (∀ g id, t.cachedHash g id = none)
      ∧ (∀ r w, t.inhibitAt r w = { s.inhibitAt r w with on := false })
      ∧ (∀ r, t.colorAt r = ⟨0, 0, none, none⟩)
      ∧ t = { s with ctx := t.ctx, hashCache := t.hashCache, stashInh := t.stashInh, color := t.color
                     response := t.response })
  ∧ ∀ s : State, accepts s .lookupEnd = true →
    exec .lookupEnd s = .next (State.answering { s with ctx := { s.ctx with isOpen := false } } .empty)

/-! ## Hash bank -/

/-- R143: HASH_BIT returns its bit of the current configuration and changes nothing; an enabled selector out of
range raises F01. -/
def Obligations.HashBitReturnsComputedBit : Prop :=
  ∀ (g o : Nat) (s : State), accepts s (.hashBit g o) = true →
    (hashSelectorsOk s → exec (.hashBit g o) s
      = .next (s.answering (.bit (computeBit s.params s.mem.regs (hashInput s) g o))))
    ∧ (¬ hashSelectorsOk s → ∃ n v, exec (.hashBit g o) s = .next (s.faulted (.hashBit g o) .bounds (.index n v)))

/-- R142, R144: HASH_GROUP returns the cached value, or the OW bits that HASH_BIT computes, which it then caches
for this group and CacheId alone. -/
def Obligations.HashGroupReturnsAndCaches : Prop :=
  (∀ (g : Nat) (s : State), accepts s (.hashGroup g) = true →
    (groupReady s g → ∃ t, exec (.hashGroup g) s = .next t ∧ t.response = some (.value (groupValue s g))
      ∧ t = { s with hashCache := t.hashCache, response := t.response }
      ∧ ∀ g' cid, t.cachedHash g' cid
          = if s.params.hashCacheEnabled = true ∧ g' = g ∧ cid = s.ctx.cid then some (groupValue s g)
            else s.cachedHash g' cid)
    ∧ (¬ groupReady s g → ∃ n v, exec (.hashGroup g) s = .next (s.faulted (.hashGroup g) .bounds (.index n v))))
  ∧ ∀ (p : Params) (regs : Cells Word) (input : List (Byte × Bool)) (g : Nat),
    hashOut p regs input g < 2 ^ p.ow
      ∧ ∀ o < p.ow, (hashOut p regs input g).testBit o = computeBit p regs input g o

/-- R145: two enabled stages with equal data, valid bits and matrix rows cancel; R141: with no stage enabled the bit
is the seed bit. R140: stage st reads bytes st * SB to st * SB + SB - 1 of the hash input and their valid bits. R141,
R145: the output bit is affine in the input. With every input bit 0 it is the seed bit; flipping one data bit, or one
valid bit, of stage st flips it exactly when the stage is enabled and its matrix bit is 1. -/
def Obligations.EqualStagesCancel : Prop :=
  ∀ (p : Params) (regs : Cells Word) (input : List (Byte × Bool)) (g o : Nat),
    (∀ st1 st2, st1 < p.hs → st2 < p.hs → st1 ≠ st2 →
      (cfgEnable p regs g).testBit st1 = true → (cfgEnable p regs g).testBit st2 = true →
      stageData p input st1 = stageData p input st2 → stageValid p input st1 = stageValid p input st2 →
      cfgMatrix p regs st1 o = cfgMatrix p regs st2 o →
      cfgValidMatrix p regs st1 o = cfgValidMatrix p regs st2 o →
        computeBit p regs input g o
          = ((List.range p.hs).filter fun st =>
              (cfgEnable p regs g).testBit st && decide (st ≠ st1) && decide (st ≠ st2)).foldl
              (fun acc st => Bool.xor acc (stageBit p regs input st o)) ((cfgSeed p regs g).testBit o))
    ∧ ((∀ st < p.hs, (cfgEnable p regs g).testBit st = false) →
        computeBit p regs input g o = (cfgSeed p regs g).testBit o)
    ∧ ((∀ x ∈ input, x = (0, false)) → computeBit p regs input g o = (cfgSeed p regs g).testBit o)
    ∧ ∀ st < p.hs, ∀ j < p.sb, let n := st * p.sb + j
      (∀ k < 8, (stageData p input st).testBit (8 * j + k) = (input.getD n (0, false)).1.getLsbD k)
      ∧ (stageValid p input st).testBit j = (input.getD n (0, false)).2
      ∧ ∀ x : Byte × Bool, input[n]? = some x →
        (∀ k < 8, computeBit p regs (input.set n (x.1 ^^^ BitVec.twoPow 8 k, x.2)) g o
          = Bool.xor (computeBit p regs input g o)
              ((cfgEnable p regs g).testBit st && (cfgMatrix p regs st o).testBit (8 * j + k)))
        ∧ computeBit p regs (input.set n (x.1, !x.2)) g o
          = Bool.xor (computeBit p regs input g o)
              ((cfgEnable p regs g).testBit st && (cfgValidMatrix p regs st o).testBit j)

/-! ## Crossbars -/

/-- R160, R166: XBAR_HASH returns the hash input and changes nothing, unless an enabled selector is out of range. -/
def Obligations.XbarHashReturnsHashInput : Prop :=
  ∀ s : State, accepts s .xbarHash = true →
    (hashSelectorsOk s → exec .xbarHash s
      = .next (s.answering (.hashInput ((hashInput s).map Prod.fst) ((hashInput s).map Prod.snd))))
    ∧ (¬ hashSelectorsOk s → ∃ n v, exec .xbarHash s = .next (s.faulted .xbarHash .bounds (.index n v)))

/-- R164, R167: XBAR_TCAM returns the unit's search word and changes nothing, unless a source or a slot is out of
range. -/
def Obligations.XbarTcamReturnsSearchWord : Prop :=
  ∀ (u : Nat) (s : State), accepts s (.xbarTcam u) = true →
    (tcamReady s u → exec (.xbarTcam u) s = .next (s.answering (.word (tcamWordValue s u))))
    ∧ (¬ tcamReady s u → ∃ n v, exec (.xbarTcam u) s = .next (s.faulted (.xbarTcam u) .bounds (.index n v)))

/-- R161, R162, R165: XBAR_MATCH returns the row's key, hash bytes from the concatenation of all group values; of
the state only the hash cache changes, by values that HASH_GROUP would cache; when the key has a hash byte, every
group's value is then cached. A key that cannot be formed raises F01. Assumption 13, by which a hash byte reads every
group, reads R162 so; the caching and the fault rest on it. -/
def Obligations.XbarMatchReturnsSearchKey : Prop :=
  ∀ (r : Nat) (s : State), accepts s (.xbarMatch r) = true →
    (matchReady s r → ∃ t, exec (.xbarMatch r) s = .next t ∧ t.response = some (.key (matchKeyValue s r))
      ∧ t = { s with hashCache := t.hashCache, response := t.response }
      ∧ (∀ g cid, t.cachedHash g cid = s.cachedHash g cid
          ∨ (s.params.hashCacheEnabled = true ∧ cid = s.ctx.cid ∧ t.cachedHash g cid = some (groupValue s g)))
      ∧ ∀ j < s.params.xo, (cfgMx s.params s.mem.regs r j).en = true →
          s.params.hashThreshold ≤ (cfgMx s.params s.mem.regs r j).val → s.params.hashCacheEnabled = true →
          ∀ g < s.params.hg, t.cachedHash g s.ctx.cid = some (groupValue s g))
    ∧ (¬ matchReady s r → ∃ n v, exec (.xbarMatch r) s = .next (s.faulted (.xbarMatch r) .bounds (.index n v)))

/-- R163: a substituted bit is that of the last enabled slot that names its position, every other bit is the
word's; an enabled slot out of range raises F01. -/
def Obligations.LastSubstitutionWins : Prop :=
  ∀ (p : Params) (phv : Phv) (slots : List Slot) (width word : Nat),
    (slotsOk p slots width → ∃ w, versionSubst p phv slots width word = .ok w
      ∧ ∀ q, w.testBit q = match slots.reverse.find? fun x => x.en && decide (x.pos = q) with
          | some x => (phvVersion phv x.vs).testBit x.vbit
          | none => word.testBit q)
    ∧ (¬ slotsOk p slots width → ∃ n v, versionSubst p phv slots width word = .error ⟨.bounds, .index n v⟩)

/-! ## SRAM -/

/-- R184, R185: SRAM_ENTRY_WRITE makes its entry the valid record of its operands, SRAM_ENTRY_CLEAR clears the valid
bit of its entry and keeps the rest; every other entry and everything else is unchanged. -/
def Obligations.SramEntryCommandsWriteOneEntry : Prop :=
  (∀ (r c a e value mask vv : Nat) (s : State), accepts s (.sramEntryWrite r c a e value mask vv) = true →
    ∃ t, exec (.sramEntryWrite r c a e value mask vv) s = .next t
      ∧ t.sramAt r c a e = ⟨true, value, mask, vv⟩
      ∧ (∀ r' c' a' e', r' < s.params.nr → c' < s.params.nc → a' < s.params.sd → e' < s.params.ne →
          (r', c', a', e') ≠ (r, c, a, e) → t.sramAt r' c' a' e' = s.sramAt r' c' a' e')
      ∧ t = { s with mem := { s.mem with sram := t.mem.sram }, response := some .empty })
  ∧ ∀ (r c a e : Nat) (s : State), accepts s (.sramEntryClear r c a e) = true →
    ∃ t, exec (.sramEntryClear r c a e) s = .next t
      ∧ t.sramAt r c a e = { s.sramAt r c a e with valid := false }
      ∧ (∀ r' c' a' e', r' < s.params.nr → c' < s.params.nc → a' < s.params.sd → e' < s.params.ne →
          (r', c', a', e') ≠ (r, c, a, e) → t.sramAt r' c' a' e' = s.sramAt r' c' a' e')
      ∧ t = { s with mem := { s.mem with sram := t.mem.sram }, response := some .empty }

/-- R186: SRAM_LOOKUP reports the hits of the rows that the current configuration gives the table, each with its bus,
and drives their buses one after the other (R188); without relaxMultiHit it reports the first and drives it alone. With
relaxMultiHit every reported hit's bus then carries a record that the hit does not precede, and only W07 is logged. A
row whose key, hash select or hash group cannot be read raises F01 (R161, R162, and assumption 13, by which a hash byte
reads every group), and so does a hitmap bus of NMB or more (R341). R142, R144, R162: a completed lookup has read its
group values by the cache rule of HASH_GROUP: with the cache enabled, exactly the groups of its rows' hash bytes
(assumption 13) and hash selects are cached, each with its value. R183: the column's cached rows are then those of the
current configuration, for every table, and its token is `mapSeq`; no other column's change. -/
def Obligations.SramLookupReportsHits : Prop :=
  ∀ (c lt vs : Nat) (s : State), accepts s (.sramLookup c lt vs) = true → s.rowsFresh →
    ((∃ r ∈ rowsOfConfig s.params s.mem.regs c lt, ¬ unitReady s c r) →
      ∃ n v, exec (.sramLookup c lt vs) s = .next (s.faulted (.sramLookup c lt vs) .bounds (.index n v)))
    ∧ ((∀ r ∈ rowsOfConfig s.params s.mem.regs c lt, unitReady s c r) →
      ((∃ h ∈ reportedHits s.params (rawHits s c lt vs), ∃ b ∈ hitBus s c h, s.params.nmb ≤ b) →
        ∃ b, s.params.nmb ≤ b ∧ exec (.sramLookup c lt vs) s
          = .next (s.faulted (.sramLookup c lt vs) .bounds (.index .hitmapBus b)))
      ∧ ((∀ h ∈ reportedHits s.params (rawHits s c lt vs), ∀ b ∈ hitBus s c h, b < s.params.nmb) →
        (s.params.relaxMultiHit = true ∨ ∀ h ∈ (rawHits s c lt vs).head?, ∀ b ∈ hitBus s c h,
          s.busHitAt b = none ∨ s.busHitAt b = some (hitRecord c h)) →
          ∃ t, exec (.sramLookup c lt vs) s = .next t
            ∧ t.response = some (.sramHits (!(rawHits s c lt vs).isEmpty)
                ((reportedHits s.params (rawHits s c lt vs)).map (hitReport s c)))
            ∧ t = { s with
                hashCache := t.hashCache, pendingMapSeq := t.pendingMapSeq, rowsCache := t.rowsCache
                ctx := { s.ctx with busHit := t.ctx.busHit }, warnLog := t.warnLog, freeCount := t.freeCount
                response := t.response }
            ∧ cachesReads s t (lookupReads s c lt)
            ∧ t.pendingAt c = some s.mapSeq ∧ (∀ l < 16, t.cachedRows c l = rowsOfConfig s.params s.mem.regs c l)
            ∧ (∀ c', c' ≠ c → t.pendingAt c' = s.pendingAt c' ∧ ∀ l < 16, t.cachedRows c' l = s.cachedRows c' l)
            ∧ (let d := driveHits (.sramLookup c lt vs) c s (reportedHits s.params (rawHits s c lt vs));
              t.ctx = d.ctx ∧ t.warnLog = d.warnLog ∧ t.freeCount = d.freeCount)
            ∧ (∀ b, (∀ h ∈ reportedHits s.params (rawHits s c lt vs), hitBus s c h ≠ some b) →
                t.busHitAt b = s.busHitAt b)
            ∧ (s.params.relaxMultiHit = true →
                (∀ h ∈ rawHits s c lt vs, ∀ b ∈ hitBus s c h,
                  ∃ x, t.busHitAt b = some x ∧ hitBefore (hitRecord c h) x = false)
                ∧ ∃ more, t.warnLog = s.warnLog ++ more ∧ ∀ w ∈ more, w.code = .busContention)
            ∧ (s.params.relaxMultiHit = false → t.warnLog = s.warnLog
                ∧ ∀ h ∈ (rawHits s c lt vs).head?, ∀ b ∈ hitBus s c h, t.busHitAt b = some (hitRecord c h))))

/-- R187: the hits come in ascending row, then ascending entry slot; all are reported with relaxMultiHit, else the
first alone. R180, R181, R182, R183, R186: what a hit is, bit by bit (`isHit`). -/
def Obligations.HitsComeInRowThenEntryOrder : Prop :=
  ∀ (c lt vs : Nat) (s : State),
    (rawHits s c lt vs).Pairwise (fun x y => x.row < y.row ∨ (x.row = y.row ∧ x.entry < y.entry))
    ∧ (s.params.relaxMultiHit = true → reportedHits s.params (rawHits s c lt vs) = rawHits s c lt vs)
    ∧ (s.params.relaxMultiHit = false →
        reportedHits s.params (rawHits s c lt vs) = (rawHits s c lt vs).head?.toList)
    ∧ ∀ h, h ∈ rawHits s c lt vs ↔ isHit s c lt vs h

/-- R188, R350: a bus takes a record when it is free or carries the same one; two different records raise F07, or
with relaxMultiHit log W07 and leave a record that no other of the two precedes by (col, row, entry). -/
def Obligations.MatchBusContention : Prop :=
  (∀ (i : Instr) (s : State) (b : Nat) (h : BusHit),
    (s.busHitAt b = none ∨ s.busHitAt b = some h →
      ∃ t, driveBus i s b h = .ok t ∧ t.busHitAt b = some h ∧ (∀ b', b' ≠ b → t.busHitAt b' = s.busHitAt b')
        ∧ t = { s with ctx := { s.ctx with busHit := t.ctx.busHit } })
    ∧ (∀ prev, s.busHitAt b = some prev → prev ≠ h → s.params.relaxMultiHit = false →
      driveBus i s b h = .error ⟨.busContention, .contention b prev h⟩)
    ∧ (∀ prev, s.busHitAt b = some prev → prev ≠ h → s.params.relaxMultiHit = true →
      ∃ t x, driveBus i s b h = .ok t ∧ t.busHitAt b = some x ∧ (x = prev ∨ x = h)
        ∧ hitBefore prev x = false ∧ hitBefore h x = false
        ∧ (∀ b', b' ≠ b → t.busHitAt b' = s.busHitAt b')
        ∧ t.warnLog = s.warnLog ++ [⟨.busContention, opcode i, operands i, .contention b prev h⟩]
        ∧ t = { s with
            ctx := { s.ctx with busHit := t.ctx.busHit }, warnLog := t.warnLog, freeCount := t.freeCount }))
  ∧ ∀ (c lt vs : Nat) (s : State) (h : RawHit) (b : Nat) (prev : BusHit),
    accepts s (.sramLookup c lt vs) = true → s.rowsFresh →
    (∀ r ∈ rowsOfConfig s.params s.mem.regs c lt, unitReady s c r) → s.params.relaxMultiHit = false →
    (rawHits s c lt vs).head? = some h → hitBus s c h = some b → b < s.params.nmb →
    s.busHitAt b = some prev → prev ≠ hitRecord c h →
      exec (.sramLookup c lt vs) s
        = .next (s.faulted (.sramLookup c lt vs) .busContention (.contention b prev (hitRecord c h)))

/-! ## TCAM -/

/-- R201, R202, R203: TCAM_SET_VALUE_MASK stores the two words of its value and mask, TCAM_CLEAR clears the valid
bit, TCAM_GET returns the stored words; every other entry and everything else is unchanged. -/
def Obligations.TcamEntryCommands : Prop :=
  (∀ (u idx v m : Nat) (s : State), accepts s (.tcamSetValueMask u idx v m) = true →
    ∃ t, exec (.tcamSetValueMask u idx v m) s = .next t
      ∧ (t.tcamAt u idx).valid = true
      ∧ (∀ k, (t.tcamAt u idx).word1.testBit k = (decide (k < s.params.tw) && (!m.testBit k || v.testBit k)))
      ∧ (∀ k, (t.tcamAt u idx).word0.testBit k = (decide (k < s.params.tw) && (!m.testBit k || !v.testBit k)))
      ∧ (∀ u' idx', u' < s.params.ntu → idx' < s.params.nt → (u', idx') ≠ (u, idx) →
          t.tcamAt u' idx' = s.tcamAt u' idx')
      ∧ t = { s with mem := { s.mem with tcam := t.mem.tcam }, response := some .empty })
  ∧ (∀ (u idx : Nat) (s : State), accepts s (.tcamClear u idx) = true →
    ∃ t, exec (.tcamClear u idx) s = .next t ∧ t.tcamAt u idx = { s.tcamAt u idx with valid := false }
      ∧ (∀ u' idx', u' < s.params.ntu → idx' < s.params.nt → (u', idx') ≠ (u, idx) →
          t.tcamAt u' idx' = s.tcamAt u' idx')
      ∧ t = { s with mem := { s.mem with tcam := t.mem.tcam }, response := some .empty })
  ∧ ∀ (u idx : Nat) (s : State), accepts s (.tcamGet u idx) = true →
    exec (.tcamGet u idx) s = .next (s.answering
      (.tcamEntry (s.tcamAt u idx).valid (s.tcamAt u idx).word1 (s.tcamAt u idx).word0))

/-- R208: what TCAM_SET_VALUE_MASK stores gives back (v & m, m); R105: two zero bits give mask 0 and value 0. -/
def Obligations.ValueAndMaskAreRecovered : Prop :=
  (∀ (u idx v m : Nat) (s t : State), accepts s (.tcamSetValueMask u idx v m) = true →
    exec (.tcamSetValueMask u idx v m) s = .next t →
      ternaryValue s.params.tw (t.tcamAt u idx) = v &&& m ∧ ternaryMask (t.tcamAt u idx) = m)
  ∧ ∀ (tw : Nat) (ent : TcamEntry) (k : Nat), ent.word0.testBit k = false → ent.word1.testBit k = false →
    (ternaryMask ent).testBit k = false ∧ (ternaryValue tw ent).testBit k = false

/-- R200, R105: an entry stored from (v, m) matches a search word exactly when they agree where m is 1; an invalid
entry, and one with a bit in neither word, matches nothing. -/
def Obligations.TernaryMatchComparesCaredBits : Prop :=
  ∀ tw v m word : Nat, v < 2 ^ tw → m < 2 ^ tw → word < 2 ^ tw →
    (tcamMatch tw ⟨true, ternaryWord0 tw v m, ternaryWord1 tw v m⟩ word (notBits tw word) = true
      ↔ ∀ k < tw, m.testBit k = true → word.testBit k = v.testBit k)
    ∧ (∀ ent s1 s0, ent.valid = false → tcamMatch tw ent s1 s0 = false)
    ∧ ∀ ent k, k < tw → ent.word0.testBit k = false → ent.word1.testBit k = false →
      tcamMatch tw ent word (notBits tw word) = false

/-- R204, R205, R206: TCAM_LOOKUP and TCAM_LOOKUP_RAW answer the first match from the rotation offset, by the
crossbar's word or by the given pair, and change nothing; an offset out of range raises F01. -/
def Obligations.TcamLookupsScanFromOffset : Prop :=
  (∀ (u : Nat) (s : State), accepts s (.tcamLookup u) = true →
    (tcamReady s u → cfgTcamStart s.params s.mem.regs u < s.params.nt →
      ∃ r, exec (.tcamLookup u) s = .next (s.answering (.tcamIndex r)) ∧ xbarScanAnswers s u r)
    ∧ (¬ (tcamReady s u ∧ cfgTcamStart s.params s.mem.regs u < s.params.nt) →
      ∃ n v, exec (.tcamLookup u) s = .next (s.faulted (.tcamLookup u) .bounds (.index n v))))
  ∧ ∀ (u s1 s0 : Nat) (s : State), accepts s (.tcamLookupRaw u s1 s0) = true →
    (cfgTcamStart s.params s.mem.regs u < s.params.nt →
      ∃ r, exec (.tcamLookupRaw u s1 s0) s = .next (s.answering (.tcamIndex r)) ∧ scanAnswers s u s1 s0 r)
    ∧ (s.params.nt ≤ cfgTcamStart s.params s.mem.regs u →
      ∃ n v, exec (.tcamLookupRaw u s1 s0) s = .next (s.faulted (.tcamLookupRaw u s1 s0) .bounds (.index n v)))

/-- R207: LTCAM_LOOKUP answers and records the hit of the lowest unit of its logical TCAM that hits; a unit above the
first hit is not scanned. A unit with a logical TCAM out of range raises F01, and so does a unit that is scanned whose
crossbar source, substitution slot or rotation offset is out of range. -/
def Obligations.LtcamLookupTakesLowestUnit : Prop :=
  ∀ (l : Nat) (s : State), accepts s (.ltcamLookup l) = true →
    ((∀ u < s.params.ntu, (cfgTcamLtcam s.params s.mem.regs u).en = true →
        (cfgTcamLtcam s.params s.mem.regs u).val < s.params.nltc) →
      (∀ u < s.params.ntu, unitOf s l u → scanReady s u
        ∨ ∃ u' < u, unitOf s l u' ∧ scanReady s u' ∧ ¬ xbarScanAnswers s u' none) →
      ∃ t r, exec (.ltcamLookup l) s = .next t ∧ t.response = some (.ltcamHit r) ∧ t.ltcHitAt l = r
        ∧ (∀ l', l' ≠ l → t.ltcHitAt l' = s.ltcHitAt l')
        ∧ t = { s with ctx := { s.ctx with ltcHit := t.ctx.ltcHit }, response := t.response }
        ∧ (match r with
          | some h => h.unit < s.params.ntu ∧ unitOf s l h.unit ∧ scanReady s h.unit
              ∧ xbarScanAnswers s h.unit (some h.index) ∧ ∀ u < h.unit, unitOf s l u → xbarScanAnswers s u none
          | none => ∀ u < s.params.ntu, unitOf s l u → xbarScanAnswers s u none))
    ∧ ((∃ u < s.params.ntu, (cfgTcamLtcam s.params s.mem.regs u).en = true
        ∧ s.params.nltc ≤ (cfgTcamLtcam s.params s.mem.regs u).val) →
      ∃ n v, exec (.ltcamLookup l) s = .next (s.faulted (.ltcamLookup l) .bounds (.index n v)))
    ∧ ((∃ u < s.params.ntu, unitOf s l u ∧ ¬ scanReady s u
        ∧ ∀ u' < u, unitOf s l u' → scanReady s u' → xbarScanAnswers s u' none) →
      ∃ n v, exec (.ltcamLookup l) s = .next (s.faulted (.ltcamLookup l) .bounds (.index n v)))

/-! ## Stash -/

/-- R222, R223: STASH_WRITE makes its entry the valid record of its operands, STASH_CLEAR clears the valid bit;
every other entry, the inhibits and everything else are unchanged. -/
def Obligations.StashEntryCommandsWriteOneEntry : Prop :=
  (∀ (r w value mask vv : Nat) (addr : Word) (s : State), accepts s (.stashWrite r w value mask vv addr) = true →
    ∃ t, exec (.stashWrite r w value mask vv addr) s = .next t
      ∧ t.stashAt r w = ⟨true, value, mask, vv, addr⟩
      ∧ (∀ r' w', r' < s.params.nr → w' < 4 → (r', w') ≠ (r, w) → t.stashAt r' w' = s.stashAt r' w')
      ∧ t = { s with mem := { s.mem with stash := t.mem.stash }, response := some .empty })
  ∧ ∀ (r w : Nat) (s : State), accepts s (.stashClear r w) = true →
    ∃ t, exec (.stashClear r w) s = .next t
      ∧ t.stashAt r w = { s.stashAt r w with valid := false }
      ∧ (∀ r' w', r' < s.params.nr → w' < 4 → (r', w') ≠ (r, w) → t.stashAt r' w' = s.stashAt r' w')
      ∧ t = { s with mem := { s.mem with stash := t.mem.stash }, response := some .empty }

/-- R225, R226, R221: STASH_INHIBIT sets one entry's inhibit, STASH_HIT_INHIBITED asks for it by exact address. -/
def Obligations.StashInhibitCommands : Prop :=
  (∀ (r w : Nat) (addr : Word) (s : State), accepts s (.stashInhibit r w addr) = true →
    ∃ t, exec (.stashInhibit r w addr) s = .next t ∧ t.inhibitAt r w = ⟨true, addr⟩
      ∧ (∀ r' w', r' < s.params.nr → w' < 4 → (r', w') ≠ (r, w) → t.inhibitAt r' w' = s.inhibitAt r' w')
      ∧ t = { s with stashInh := t.stashInh, response := some .empty })
  ∧ ∀ (r w : Nat) (addr : Word) (s : State), accepts s (.stashHitInhibited r w addr) = true →
    exec (.stashHitInhibited r w addr) s = .next (s.answering
      (.inhibited ((s.inhibitAt r w).on && decide ((s.inhibitAt r w).addr = addr))))

/-- R224: STASH_LOOKUP answers the lowest entry that hits the row's key and is not inhibited at its own address, with
that address; of the state only the hash cache changes. A key that cannot be formed raises F01 (R161, R162, and
assumption 13, by which a hash byte reads every group). R142, R144, R162: a key with a hash byte has read the group
values by the cache rule of HASH_GROUP: with the cache enabled, exactly the groups (all, assumption 13) are then cached,
each with its value. R220, R221: what such a hit is, bit by bit. -/
def Obligations.StashLookupTakesLowestHit : Prop :=
  (∀ (r vs : Nat) (s : State), accepts s (.stashLookup r vs) = true →
    (matchReady s r → ∃ t x, exec (.stashLookup r vs) s = .next t ∧ t.response = some (.stashHit x)
      ∧ t = { s with hashCache := t.hashCache, response := t.response }
      ∧ cachesReads s t (fun g => readsHash s r ∧ g < s.params.hg)
      ∧ (match x with
        | some (w, addr) => w < 4 ∧ addr = (s.stashAt r w).addr
            ∧ stashHitsKey s r (matchKeyValue s r) (phvVersion s.ctx.phv vs) w = true
            ∧ ∀ w' < w, stashHitsKey s r (matchKeyValue s r) (phvVersion s.ctx.phv vs) w' = false
        | none => ∀ w < 4, stashHitsKey s r (matchKeyValue s r) (phvVersion s.ctx.phv vs) w = false))
    ∧ (¬ matchReady s r → ∃ n v, exec (.stashLookup r vs) s
        = .next (s.faulted (.stashLookup r vs) .bounds (.index n v))))
  ∧ ∀ (s : State) (r key ver w : Nat), stashHitsKey s r key ver w = true
      ↔ stashMatches s.params (s.stashAt r w) key ver
        ∧ ¬ ((s.inhibitAt r w).on = true ∧ (s.inhibitAt r w).addr = (s.stashAt r w).addr)

/-! ## Result buses -/

/-- R241, R242: the callbacks take the owner of one bus, or of one logical TCAM, from its register, and keep every
other owner, the other maps and everything else. -/
def Obligations.CallbacksRecomputeOneOwner : Prop :=
  (∀ (k b : Nat) (s : State), accepts s (.rbMatchCb k b) = true →
    ∃ t, exec (.rbMatchCb k b) s = .next t
      ∧ recomputed (s.busMap.side (busKind k)) (t.busMap.side (busKind k)) b (busRegister s k b)
      ∧ t.busMap.side (busKind (1 - k)) = s.busMap.side (busKind (1 - k)) ∧ t.busMap.ltcam = s.busMap.ltcam
      ∧ t = { s with busMap := t.busMap, response := some .empty })
  ∧ ∀ (l : Nat) (s : State), accepts s (.rbTcamCb l) = true →
    ∃ t, exec (.rbTcamCb l) s = .next t
      ∧ recomputed s.busMap.ltcam t.busMap.ltcam l (cfgLtcamReg s.params s.mem.regs l)
      ∧ t.busMap.matchBus = s.busMap.matchBus ∧ t.busMap.tindBus = s.busMap.tindBus
      ∧ t = { s with busMap := t.busMap, response := some .empty }

/-- R243, R244, R245: the queries return the maps and change nothing; while the maps agree with the registers, an
owner is the one its register names. -/
def Obligations.BusQueriesReadMaps : Prop :=
  (∀ (k b : Nat) (s : State), accepts s (.rbBusOwner k b) = true →
    exec (.rbBusOwner k b) s = .next (s.answering (.owner ((s.busMap.side (busKind k)).ownerOf b)))
      ∧ (s.mapsFresh → (s.busMap.side (busKind k)).ownerOf b = (busRegister s k b).owner))
  ∧ (∀ (k lt : Nat) (s : State), accepts s (.rbLtBuses k lt) = true →
    exec (.rbLtBuses k lt) s = .next (s.answering (.busMask ((s.busMap.side (busKind k)).mask lt))))
  ∧ ∀ (l : Nat) (s : State), accepts s (.rbLtcamOwner l) = true →
    exec (.rbLtcamOwner l) s = .next (s.answering (.owner (s.busMap.ltcam.ownerOf l)))
      ∧ (s.mapsFresh → s.busMap.ltcam.ownerOf l = (cfgLtcamReg s.params s.mem.regs l).owner)

/-- R246, R247: RB_ARBITRATE answers the lowest claiming bus or logical TCAM of the table; when both paths claim it,
the table's SRAM_TCAM_PRIORITY decides, whatever that is. -/
def Obligations.ArbitrationPicksTheTablesHit : Prop :=
  ∀ (lt : Nat) (s : State), accepts s (.rbArbitrate lt) = true →
    ∃ w, exec (.rbArbitrate lt) s = .next (s.answering (.arbitration w))
      ∧ match w with
        | some (.exact b rec) => exactClaim s lt b rec ∧ (noTernary s lt ∨ priorityOf s.params lt = .exact)
        | some (.ternary l rec) => ternaryClaim s lt l rec ∧ (noExact s lt ∨ priorityOf s.params lt = .ternary)
        | none => noExact s lt ∧ noTernary s lt

/-! ## Predication -/

/-- R260, R268: PRED_START gives every table and thread its static bits from the configuration and no other bit,
every thread its flag, its start target and the cursor BEFORE, and no gateway outcome; nothing else changes. -/
def Obligations.PredStartBeginsPass : Prop :=
  ∀ (flags : Nat) (s : State), accepts s (.predStart flags) = true →
    ∃ t, exec (.predStart flags) s = .next t ∧ t.response = some .empty
      ∧ (∀ lt < 16, ∀ th < 3, let b := t.predBitsAt lt th
          predCfgBit b = (cfgPredThr s.params s.mem.regs lt).testBit th
          ∧ predCntBit b = cfgPredCounters s.params s.mem.regs lt
          ∧ predPwrBit b = cfgPredPowered s.params s.mem.regs lt
          ∧ predUsedBit b = (cfgPredPowered s.params s.mem.regs lt && decide (cfgPredThr s.params s.mem.regs lt ≠ 0))
          ∧ b &&& activeMask = 0)
      ∧ (∀ th < 3, t.activeAt th = flags.testBit th ∧ t.cursorAt th = .before
          ∧ t.targetAt th = if flags.testBit th = true ∧ cfgStartTable s.params s.mem.regs th < 16
              then some (cfgStartTable s.params s.mem.regs th) else none)
      ∧ (∀ lt < 16, t.gwAt lt = ⟨false, none⟩) ∧ t.pred.pass = .started
      ∧ t = { s with pred := t.pred, response := t.response }

/-- R269, R274, R275, R276: PRED_GW sets one table's gateway outcome, PRED_END ends the pass, PRED_GET returns the
bits: all of them inside a pass, the low four exactly outside one, where nothing is said of the others. -/
def Obligations.PredicationPlainCommands : Prop :=
  (∀ (lt inhibit nextValid : Nat) (next : Byte) (s : State), accepts s (.predGw lt inhibit nextValid next) = true →
    ∃ t, exec (.predGw lt inhibit nextValid next) s = .next t
      ∧ t.gwAt lt = ⟨decide (inhibit = 1), if nextValid = 1 then some next else none⟩
      ∧ (∀ lt', lt' ≠ lt → t.gwAt lt' = s.gwAt lt')
      ∧ t = { s with pred := { s.pred with gw := t.pred.gw }, response := some .empty })
  ∧ (∀ s : State, accepts s .predEnd = true →
    exec .predEnd s = .next (State.answering { s with pred := { s.pred with pass := .ended } } .empty))
  ∧ ∀ (lt th : Nat) (s : State), accepts s (.predGet lt th) = true →
    (s.pred.pass = .started → exec (.predGet lt th) s = .next (s.answering (.predBits (s.predBitsAt lt th))))
    ∧ (s.pred.pass ≠ .started → ∃ t b, exec (.predGet lt th) s = .next t ∧ t.response = some (.predBits b)
        ∧ b &&& 0x0F = s.predBitsAt lt th &&& 0x0F
        ∧ t = { s with freeCount := t.freeCount, response := t.response })

/-- R271, R272: PRED_FIRST completes when no gateway that the walk comes to points backward: it walks the thread
from position 0 with its start target, and answers the table that the run mode evaluates next, or 0xFF. `walked`
says the bits of every visited table, which table is active by the target the thread has there (R263), the cursor
and the final target. -/
def Obligations.PredFirstWalksFromStart : Prop :=
  ∀ (th : Nat) (s : State), accepts s (.predFirst th) = true → orderOk s.params → s.cursorAt th = .before →
    walkForward s th 0 (s.targetAt th) →
      ∃ t x, exec (.predFirst th) s = .next t ∧ t.response = some (.table x)
        ∧ walked s t th 0 (s.targetAt th) x ∧ walkKeeps s t th
        ∧ t = { s with pred := t.pred, response := t.response }

/-- R271, R273, R265: PRED_NEXT completes when neither its next table nor a gateway that the walk comes to points
backward. After the walk is done it answers 0xFF and changes nothing; else a runnable current table hands the thread its
next table, a gateway's override first, and the walk goes on behind it with that target. The walk ends as for
PRED_FIRST. -/
def Obligations.PredNextWalksOn : Prop :=
  ∀ (th : Nat) (nt : Byte) (s : State), accepts s (.predNext th nt) = true → orderOk s.params →
    (s.cursorAt th = .done → exec (.predNext th nt) s = .next (s.answering (.table 0xFF)))
    ∧ ∀ c < 16, s.cursorAt th = .pos c →
      let lt := tableAt s.params c
      let run := predRunBit (s.predBitsAt lt th)
      let n := (s.gwAt lt).next.getD nt
      let tgt := if run then nextTarget n else s.targetAt th
      (run = true → pointsForward s.params n c) → walkForward s th (c + 1) tgt →
        ∃ t x, exec (.predNext th nt) s = .next t ∧ t.response = some (.table x)
          ∧ walked s t th (c + 1) tgt x ∧ walkKeeps s t th
          ∧ t = { s with pred := t.pred, response := t.response }

/-- R266, R351, R265, R273: a next-table value that names a table at or before the position it comes from raises F08
with the value and the position. It comes from PRED_NEXT, or from the gateway of an active inhibited table that the
walk of PRED_FIRST or of PRED_NEXT comes to, in either run mode (`gatewayRedirects`). A value that points forward, or
END, becomes the thread's target: PRED_NEXT's where no gateway redirects it again, a gateway's where no later one
does; the gateway's table is active and not runnable. -/
def Obligations.BackwardNextTableRaisesOrder : Prop :=
  (∀ (th c : Nat) (nt : Byte) (s : State), accepts s (.predNext th nt) = true → s.cursorAt th = .pos c →
    let lt := tableAt s.params c
    let n := (s.gwAt lt).next.getD nt
    predRunBit (s.predBitsAt lt th) = true → n.toNat < 16 → posOf s.params n.toNat ≤ c →
      exec (.predNext th nt) s = .next (s.faulted (.predNext th nt) .nextTableOrder (.order n.toNat c)))
  ∧ (∀ (th : Nat) (s : State), accepts s (.predFirst th) = true → orderOk s.params → s.cursorAt th = .before →
    gatewayRedirects (.predFirst th) s th 0 (s.targetAt th))
  ∧ ∀ (th c : Nat) (nt : Byte) (s : State), accepts s (.predNext th nt) = true → orderOk s.params → c < 16 →
    s.cursorAt th = .pos c →
    let lt := tableAt s.params c
    let run := predRunBit (s.predBitsAt lt th)
    let n := (s.gwAt lt).next.getD nt
    let tgt := if run then nextTarget n else s.targetAt th
    (run = true → pointsForward s.params n c) →
      gatewayRedirects (.predNext th nt) s th (c + 1) tgt
      ∧ ((∀ q, reached s th (c + 1) tgt q → redirectsAt s th q (targetOn s th (c + 1) tgt q) = false) →
        ∃ t, exec (.predNext th nt) s = .next t ∧ t.targetAt th = tgt)

/-! ## Color switchbox -/

/-- R291, R292, R342: COLOR_SET_RIGHT ORs into the row's color bus when no other pair has contributed; with
relaxColorBus another pair logs W02 and is ORed in too, else it raises F02. The overflow bus is not touched. -/
def Obligations.ColorContributionIsChecked : Prop :=
  ∀ (r col alu v : Nat) (s : State), accepts s (.colorSetRight r col alu v) = true →
    ((s.colorAt r).whoC = none ∨ (s.colorAt r).whoC = some (col, alu) →
      ∃ t, exec (.colorSetRight r col alu v) s = .next t
        ∧ t.colorAt r = { s.colorAt r with acc := (s.colorAt r).acc ||| v, whoC := some (col, alu) }
        ∧ (∀ r', r' ≠ r → t.colorAt r' = s.colorAt r')
        ∧ t = { s with color := t.color, response := some .empty })
    ∧ ∀ first, (s.colorAt r).whoC = some first → first ≠ (col, alu) →
      (s.params.relaxColorBus = true → ∃ t, exec (.colorSetRight r col alu v) s = .next t
        ∧ t.colorAt r = { s.colorAt r with acc := (s.colorAt r).acc ||| v }
        ∧ (∀ r', r' ≠ r → t.colorAt r' = s.colorAt r')
        ∧ t.warnLog = s.warnLog ++ [⟨.colorBusMix, 0x49, [r, col, alu, v], .mix r .color first (col, alu)⟩]
        ∧ t = { s with color := t.color, warnLog := t.warnLog, response := some .empty })
      ∧ (s.params.relaxColorBus = false → exec (.colorSetRight r col alu v) s
        = .next (s.faulted (.colorSetRight r col alu v) .colorBusMix (.mix r .color first (col, alu))))

/-- R291, R293, R342: OVF_SET_RIGHT does the same on the row's overflow bus, with contributors of its own. -/
def Obligations.OverflowContributionIsChecked : Prop :=
  ∀ (r col alu v : Nat) (s : State), accepts s (.ovfSetRight r col alu v) = true →
    ((s.colorAt r).whoO = none ∨ (s.colorAt r).whoO = some (col, alu) →
      ∃ t, exec (.ovfSetRight r col alu v) s = .next t
        ∧ t.colorAt r = { s.colorAt r with ovf := (s.colorAt r).ovf ||| v, whoO := some (col, alu) }
        ∧ (∀ r', r' ≠ r → t.colorAt r' = s.colorAt r')
        ∧ t = { s with color := t.color, response := some .empty })
    ∧ ∀ first, (s.colorAt r).whoO = some first → first ≠ (col, alu) →
      (s.params.relaxColorBus = true → ∃ t, exec (.ovfSetRight r col alu v) s = .next t
        ∧ t.colorAt r = { s.colorAt r with ovf := (s.colorAt r).ovf ||| v }
        ∧ (∀ r', r' ≠ r → t.colorAt r' = s.colorAt r')
        ∧ t.warnLog = s.warnLog ++ [⟨.colorBusMix, 0x4A, [r, col, alu, v], .mix r .overflow first (col, alu)⟩]
        ∧ t = { s with color := t.color, warnLog := t.warnLog, response := some .empty })
      ∧ (s.params.relaxColorBus = false → exec (.ovfSetRight r col alu v) s
        = .next (s.faulted (.ovfSetRight r col alu v) .colorBusMix (.mix r .overflow first (col, alu))))

/-- R290, R294: COLOR_RESET clears every row and nothing else, COLOR_READ returns a row's two values and changes
nothing. -/
def Obligations.ColorResetAndRead : Prop :=
  (∀ s : State, accepts s .colorReset = true →
    ∃ t, exec .colorReset s = .next t ∧ (∀ r, t.colorAt r = ⟨0, 0, none, none⟩)
      ∧ t = { s with color := t.color, response := some .empty })
  ∧ ∀ (r : Nat) (s : State), accepts s (.colorRead r) = true →
    exec (.colorRead r) s = .next (s.answering (.color (s.colorAt r).acc (s.colorAt r).ovf))

/-! ## Register store and atomic writes -/

/-- R311: RegApply writes one word, moves the mapping token exactly when the word holds a bit of a rowOwner field,
and takes the owner of every bus and logical TCAM whose register has a bit in the word from the new configuration;
it keeps every other owner and the rest of the state. R22: a field reads the bits of its place in the register words,
at its width, and a write leaves every field without a bit in the word as it was. -/
def Obligations.RegApplyWritesAndNotifies : Prop :=
  ∀ (s : State) (o : Nat) (d : Word), let t := s.regApply o d
    t.regRead o = d ∧ (∀ o', o' ≠ o → t.regRead o' = s.regRead o')
    ∧ t.mapSeq = s.mapSeq + (if ∃ r < s.params.nr, ∃ c < s.params.nc,
        gatedTouches o (rowOwnerPlace s.params r c) = true then 1 else 0)
    ∧ (∀ k b, b < busCount s.params k → (t.busMap.side k).ownerOf b
        = if touchesBus s.params o k b then
            (match k with
              | .matchBus => cfgMatchReg s.params t.mem.regs b
              | .tindBus => cfgTindReg s.params t.mem.regs b).owner
          else (s.busMap.side k).ownerOf b)
    ∧ (∀ l < s.params.nltc, t.busMap.ltcam.ownerOf l
        = if touchesLtcam s.params o l then (cfgLtcamReg s.params t.mem.regs l).owner else s.busMap.ltcam.ownerOf l)
    ∧ t = { s with mem := { s.mem with regs := t.mem.regs }, mapSeq := t.mapSeq, busMap := t.busMap }
    ∧ ∀ pl : Place,
      (∀ k, (readPlace s.params s.mem.regs pl).testBit k = placedBit s pl k)
      ∧ (∀ w k, (readWidth s.params s.mem.regs w pl).testBit k = (decide (k < w) && placedBit s pl k))
      ∧ readFlag s.params s.mem.regs pl = placedBit s pl 0
      ∧ (placeTouches o pl = true ↔ ∃ x ∈ placeBits pl, x.1 = o)
      ∧ (placeTouches o pl = false → readPlace s.params t.mem.regs pl = readPlace s.params s.mem.regs pl)

/-- R310, R320, R321: CFG_READ returns the word and changes nothing; CFG_WRITE is buffered in a buffering window
while there is room, past that it is counted and by the policy dropped or applied, and elsewhere it is applied; in
a window it is counted. -/
def Obligations.CfgAccessesGoThroughTheGate : Prop :=
  (∀ (off : Nat) (s : State), accepts s (.cfgRead off) = true →
    exec (.cfgRead off) s = .next (s.answering (.data (s.regRead off))))
  ∧ ∀ (off : Nat) (data : Word) (s : State), accepts s (.cfgWrite off data) = true →
    let counted : State := { s with atomic := { s.atomic with nWrites := s.atomic.nWrites + 1 } }
    let dropped : State := { counted with atomic := { counted.atomic with ovfCount := s.atomic.ovfCount + 1 } }
    (s.atomic.state ≠ .begun →
      exec (.cfgWrite off data) s = .next ((s.regApply off data).answering .empty))
    ∧ (s.atomic.state = .begun → s.atomic.buffering = false →
      exec (.cfgWrite off data) s = .next ((counted.regApply off data).answering .empty))
    ∧ (s.atomic.state = .begun → s.atomic.buffering = true → s.atomic.buf.length < 64 →
      exec (.cfgWrite off data) s = .next (State.answering
        { counted with atomic := { counted.atomic with buf := s.atomic.buf ++ [(off, data)] } } .empty))
    ∧ (s.atomic.state = .begun → s.atomic.buffering = true → 64 ≤ s.atomic.buf.length →
      (s.params.overflowPolicy = .discard → exec (.cfgWrite off data) s = .next (dropped.answering .empty))
      ∧ (s.params.overflowPolicy = .applyImmediately →
          exec (.cfgWrite off data) s = .next ((dropped.regApply off data).answering .empty)))

/-- R322, R323, R324: ATOMIC_BEGIN opens an empty window, ATOMIC_END replays the buffered writes in their order in
one step, each as a RegApply with its notifications, the last write to a word winning, and keeps the buffer and the
counters; ATOMIC_QUERY reports them and
changes nothing. -/
def Obligations.AtomicWindowCommands : Prop :=
  (∀ (buffering : Nat) (s : State), accepts s (.atomicBegin buffering) = true →
    exec (.atomicBegin buffering) s = .next (State.answering
      { s with atomic := ⟨.begun, decide (buffering = 1), [], 0, 0⟩ } .empty))
  ∧ (∀ s : State, accepts s .atomicEnd = true →
    ∃ t, exec .atomicEnd s = .next t
      ∧ t.atomic = { s.atomic with state := .ended }
      ∧ (∀ o, t.regRead o = lastWritten s.atomic.buf o (s.regRead o))
      ∧ (let u := s.atomic.buf.foldl (fun u w => u.regApply w.1 w.2) s
         t.mem = u.mem ∧ t.mapSeq = u.mapSeq ∧ t.busMap = u.busMap)
      ∧ t = { s with
          mem := { s.mem with regs := t.mem.regs }, mapSeq := t.mapSeq, busMap := t.busMap, atomic := t.atomic
          response := some .empty })
  ∧ ∀ s : State, accepts s .atomicQuery = true →
    exec .atomicQuery s = .next (s.answering (.atomic
      (match s.atomic.state with
        | .reset => 0
        | .begun => 1
        | .ending => 2
        | .ended => 3)
      s.atomic.nWrites s.atomic.buf.length (decide (0 < s.atomic.ovfCount.toNat)) s.atomic.ovfCount))

/-- R325: any number of writes below 2^32 in a fresh buffering window are all counted, the first 64 buffered, the
rest counted as overflow; ATOMIC_END then applies the buffered ones, and under Discard no other. -/
def Obligations.BatchOfWritesIsBounded : Prop :=
  ∀ (s : State) (ws : List (Nat × Word)), accepts s (.atomicBegin 1) = true →
    (∀ w ∈ ws, w.1 < s.params.regWords ∧ w.1 < 2 ^ 32) → ws.length < 2 ^ 32 →
    let t := after (.atomicBegin 1 :: ws.map fun w => .cfgWrite w.1 w.2) s
    let u := after [.atomicEnd] t
    t.fault = none ∧ t.atomic.nWrites.toNat = ws.length ∧ t.atomic.buf = ws.take 64
    ∧ t.atomic.ovfCount.toNat = ws.length - 64
    ∧ (∃ q, exec .atomicQuery t = .next q ∧ q.response
        = some (.atomic 1 t.atomic.nWrites (min ws.length 64) (decide (64 < ws.length)) t.atomic.ovfCount))
    ∧ (s.params.overflowPolicy = .discard →
        t.mem = s.mem ∧ ∀ o, u.regRead o = lastWritten (ws.take 64) o (s.regRead o))
    ∧ (s.params.overflowPolicy = .applyImmediately →
        ∀ o, u.regRead o = lastWritten (ws.take 64) o (lastWritten (ws.drop 64) o (s.regRead o)))
end

