-- ==== Sys2Proof/Laws/Bits.lean ====
section
/-! SUPPORT. The bits of the numbers that stand for bit vectors of parametric width, and the byte strings. -/

namespace Sys2Proof.Machine

theorem testBit_putBit (v k q : Nat) (b : Bool) : (putBit v k b).testBit q = if q = k then b else v.testBit q := by
  unfold putBit
  split
  · split <;> simp_all
  · rename_i h
    rw [Nat.testBit_xor, Nat.testBit_two_pow]
    split
    · rename_i hq; subst hq; cases b <;> simp_all
    · rename_i hq; simp [Ne.symm hq]

theorem testBit_ones (n k : Nat) : (ones n).testBit k = decide (k < n) := Nat.testBit_two_pow_sub_one n k

theorem testBit_notBits (n v k : Nat) : (notBits n v).testBit k = (decide (k < n) && !v.testBit k) := by
  simp only [notBits, Nat.testBit_xor, testBit_ones, Nat.testBit_mod_two_pow]
  by_cases h : k < n <;> simp [h]

theorem notBits_lt (n v : Nat) : notBits n v < 2 ^ n :=
  Nat.lt_pow_two_of_testBit _ fun k hk => by simp [testBit_notBits, Nat.not_lt.mpr hk]

theorem ones_lt (n : Nat) : ones n < 2 ^ n := Nat.sub_lt (Nat.two_pow_pos n) Nat.one_pos

theorem testBit_eq_false_of_lt {v n k : Nat} (h : v < 2 ^ n) (hk : n ≤ k) : v.testBit k = false :=
  Nat.testBit_lt_two_pow (lt_of_lt_of_le h (Nat.pow_le_pow_right (by omega) hk))

theorem assemble_lt {w : Nat} {xs : List Nat} (h : ∀ x ∈ xs, x < 2 ^ w) : assemble w xs < 2 ^ (w * xs.length) := by
  induction xs with
  | nil => simp [assemble]
  | cons x xs ih =>
    have h1 := h x (.head _)
    have h2 := ih fun y hy => h y (.tail _ hy)
    simp only [assemble, List.length_cons, Nat.mul_succ, Nat.pow_add]
    calc x + 2 ^ w * assemble w xs < 2 ^ w + 2 ^ w * assemble w xs := by omega
      _ = 2 ^ w * (assemble w xs + 1) := by ring
      _ ≤ 2 ^ w * 2 ^ (w * xs.length) := Nat.mul_le_mul_left _ h2
      _ = 2 ^ (w * xs.length) * 2 ^ w := Nat.mul_comm _ _

/-- Bit i of a concatenation is bit i mod w of element i div w. -/
theorem testBit_assemble {w : Nat} (hw : 0 < w) {xs : List Nat} (h : ∀ x ∈ xs, x < 2 ^ w) (i : Nat) :
    (assemble w xs).testBit i = (xs.getD (i / w) 0).testBit (i % w) := by
  induction xs generalizing i with
  | nil => simp [assemble]
  | cons x xs ih =>
    have h1 := h x (.head _)
    simp only [assemble]
    rw [Nat.add_comm, Nat.testBit_two_pow_mul_add _ h1]
    split
    · rename_i hi; simp [Nat.div_eq_of_lt hi, Nat.mod_eq_of_lt hi]
    · rename_i hi
      obtain ⟨k, rfl⟩ := Nat.exists_eq_add_of_le (Nat.not_lt.mp hi)
      rw [Nat.add_sub_cancel_left, ih (fun y hy => h y (.tail _ hy)), Nat.add_comm w k, Nat.add_div_right _ hw,
        Nat.add_mod_right]
      rfl

theorem bit_lt {bs : List Bool} : ∀ x ∈ bs.map Bool.toNat, x < 2 ^ 1 := by
  intro x hx
  obtain ⟨b, _, rfl⟩ := List.mem_map.mp hx
  cases b <;> decide

theorem testBit_assembleBits (bs : List Bool) (k : Nat) : (assembleBits bs).testBit k = bs.getD k false := by
  rw [assembleBits, testBit_assemble Nat.one_pos bit_lt]
  simp only [Nat.div_one, Nat.mod_one, List.getD_eq_getElem?_getD, List.getElem?_map]
  cases bs[k]? with
  | none => simp
  | some b => cases b <;> simp

theorem assembleBits_lt (bs : List Bool) : assembleBits bs < 2 ^ bs.length := by
  have := assemble_lt (w := 1) (xs := bs.map Bool.toNat) bit_lt
  simpa [assembleBits] using this

theorem assemble_append (w : Nat) (xs ys : List Nat) :
    assemble w (xs ++ ys) = assemble w xs + 2 ^ (w * xs.length) * assemble w ys := by
  induction xs with
  | nil => simp [assemble]
  | cons x xs ih => simp only [List.cons_append, assemble, ih, List.length_cons, Nat.mul_succ, Nat.pow_add]; ring

/-- Two numbers agree in the bits of a mask. -/
theorem xor_and_eq_zero_iff {a b m : Nat} :
    (a ^^^ b) &&& m = 0 ↔ ∀ k, m.testBit k = true → a.testBit k = b.testBit k := by
  constructor
  · intro h k hk
    have := congrArg (fun x => x.testBit k) h
    simpa [Nat.testBit_and, Nat.testBit_xor, hk] using this
  · intro h
    refine Nat.eq_of_testBit_eq fun k => ?_
    cases hk : m.testBit k with
    | false => simp [Nat.testBit_and, hk]
    | true => simp [Nat.testBit_and, Nat.testBit_xor, hk, h k hk]

/-- Bit k of the expanded byte mask is the mask's bit of byte k div 8 (R180). -/
theorem testBit_expandMask (n bm k : Nat) :
    (expandMask n bm).testBit k = (decide (k / 8 < n) && bm.testBit (k / 8)) := by
  unfold expandMask
  rw [testBit_assemble (by omega) (by
    intro x hx
    obtain ⟨j, -, rfl⟩ := List.mem_map.mp hx
    split <;> decide)]
  have h8 : k % 8 < 8 := Nat.mod_lt _ (by omega)
  by_cases h : k / 8 < n
  · rw [List.getD_eq_getElem _ _ (by simpa using h)]
    simp only [List.getElem_map, List.getElem_range, h, decide_true, Bool.true_and]
    cases bm.testBit (k / 8) with
    | false => simp
    | true =>
      rw [if_pos rfl, show (0xFF : Nat) = 2 ^ 8 - 1 from rfl, Nat.testBit_two_pow_sub_one]
      simp [h8]
  · rw [List.getD_eq_default _ _ (by simpa using h)]
    simp [h]

/-! ## Byte strings -/

@[simp] theorem length_leBytes (n v : Nat) : (leBytes n v).length = n := by
  induction n generalizing v with
  | zero => rfl
  | succ n ih => simp [leBytes, ih]

theorem leNat_lt (bs : List Byte) : leNat bs < 256 ^ bs.length := by
  induction bs with
  | nil => simp [leNat]
  | cons b bs ih =>
    have := b.isLt
    simp only [leNat, List.length_cons, Nat.pow_succ]
    omega

/-- Bytes to a number and back. -/
theorem leBytes_leNat (bs : List Byte) : leBytes bs.length (leNat bs) = bs := by
  induction bs with
  | nil => rfl
  | cons b bs ih =>
    have h := b.isLt
    simp only [leNat, List.length_cons, leBytes]
    rw [show (b.toNat + 256 * leNat bs) / 256 = leNat bs by omega, ih]
    congr 1
    apply BitVec.eq_of_toNat_eq
    simp [BitVec.toNat_ofNat]
    exact h

/-- A number that fits its bytes, to bytes and back. -/
theorem leNat_leBytes {n v : Nat} (h : v < 256 ^ n) : leNat (leBytes n v) = v := by
  induction n generalizing v with
  | zero => simp at h; simp [leBytes, leNat, h]
  | succ n ih =>
    have h2 : v / 256 < 256 ^ n := by rw [Nat.pow_succ] at h; omega
    simp only [leBytes, leNat, ih h2, BitVec.toNat_ofNat]
    omega

end Sys2Proof.Machine
end

