-- ==== Sys2Proof/Laws/Cells.lean ====
section
/-! SUPPORT. Sparse arrays: a read after a write gives what was written, a write leaves every other index alone, and
every operation keeps the canonical form. -/

namespace Sys2Proof.Machine

variable {α : Type} {dflt : Nat → α} {m : Cells α} {k j : Nat} {v : α}

@[simp] theorem Cells.read_nil : Cells.read dflt ([] : Cells α) k = dflt k := rfl

theorem Cells.read_cons (a : Nat) (w : α) : Cells.read dflt ((a, w) :: m) k = if k = a then w else Cells.read dflt m k :=
  rfl

theorem Cells.read_erase (m : Cells α) :
    Cells.read dflt (Cells.erase m k) j = if j = k then dflt j else Cells.read dflt m j := by
  induction m with
  | nil => simp [Cells.erase]
  | cons e m ih =>
    obtain ⟨a, w⟩ := e
    simp only [Cells.erase, List.filter_cons] at ih ⊢
    by_cases h : a = k
    · subst h; simp only [ne_eq, not_true_eq_false, decide_false, Bool.false_eq_true, if_false, ih, Cells.read_cons]
      split <;> simp_all
    · simp only [ne_eq, h, not_false_eq_true, decide_true, if_true, Cells.read_cons, ih]
      split <;> simp_all

theorem Cells.read_insert (m : Cells α) :
    Cells.read dflt (Cells.insert m k v) j = if j = k then v else Cells.read dflt m j := by
  induction m with
  | nil => simp [Cells.insert, Cells.read_cons]
  | cons e m ih =>
    obtain ⟨a, w⟩ := e
    simp only [Cells.insert]
    split
    · simp [Cells.read_cons]
    · split
      · simp only [Cells.read_cons]; split <;> simp_all
      · rename_i hk; simp only [Cells.read_cons, ih]; split
        · rename_i hj; subst hj; simp [Ne.symm hk]
        · rfl

/-- The one law of a write. -/
theorem Cells.read_write [DecidableEq α] (m : Cells α) :
    Cells.read dflt (Cells.write dflt m k v) j = if j = k then v else Cells.read dflt m j := by
  unfold Cells.write
  split
  · rename_i h; rw [Cells.read_erase]; split <;> simp_all
  · exact Cells.read_insert m

@[simp] theorem Cells.read_write_same [DecidableEq α] (m : Cells α) :
    Cells.read dflt (Cells.write dflt m k v) k = v := by
  simp [Cells.read_write]

theorem Cells.read_write_other [DecidableEq α] (m : Cells α) (h : j ≠ k) :
    Cells.read dflt (Cells.write dflt m k v) j = Cells.read dflt m j := by
  simp [Cells.read_write, h]

theorem Cells.read_update [DecidableEq α] (f : α → α) (hf : ∀ n, f (dflt n) = dflt n) (m : Cells α) :
    Cells.read dflt (Cells.update dflt f m) j = f (Cells.read dflt m j) := by
  induction m with
  | nil => simp [Cells.update, hf]
  | cons e m ih =>
    obtain ⟨a, w⟩ := e
    simp only [Cells.update]
    split
    · rename_i h; rw [Cells.read_erase, Cells.read_cons]; split <;> simp_all
    · simp only [Cells.read_cons, ih]; split <;> rfl

/-- What a read gives is listed, or is what an unlisted index reads as. -/
theorem Cells.read_mem (m : Cells α) : (k, Cells.read dflt m k) ∈ m ∨ Cells.read dflt m k = dflt k := by
  induction m with
  | nil => simp
  | cons e m ih =>
    obtain ⟨a, w⟩ := e
    simp only [Cells.read_cons]
    split
    · rename_i h; subst h; simp
    · rcases ih with ih | ih <;> simp [ih]

theorem Cells.mem_erase {e : Nat × α} (h : e ∈ Cells.erase m k) : e ∈ m := (List.mem_filter.mp h).1

theorem Cells.mem_insert {e : Nat × α} (h : e ∈ Cells.insert m k v) : e = (k, v) ∨ e ∈ m := by
  induction m with
  | nil => simpa [Cells.insert] using h
  | cons x m ih =>
    obtain ⟨a, w⟩ := x
    simp only [Cells.insert] at h
    split at h
    · simp_all
    · split at h <;> simp only [List.mem_cons] at h ⊢
      · tauto
      · rcases h with h | h
        · tauto
        · rcases ih h with h | h <;> tauto

/-- An entry after a write is the written one or was there before. -/
theorem Cells.mem_write [DecidableEq α] {e : Nat × α} (h : e ∈ Cells.write dflt m k v) : e = (k, v) ∨ e ∈ m := by
  unfold Cells.write at h
  split at h
  · exact .inr (Cells.mem_erase h)
  · exact Cells.mem_insert h

section
variable [DecidableEq α]

theorem Cells.wf_cons {a : Nat} {w : α} :
    Cells.wf dflt ((a, w) :: m) = true ↔ w ≠ dflt a ∧ (∀ e ∈ m, a < e.1) ∧ Cells.wf dflt m = true := by
  simp [Cells.wf, and_assoc]

@[simp] theorem Cells.wf_nil : Cells.wf dflt ([] : Cells α) = true := rfl

theorem Cells.wf_erase (h : Cells.wf dflt m = true) : Cells.wf dflt (Cells.erase m k) = true := by
  induction m with
  | nil => rfl
  | cons e m ih =>
    obtain ⟨a, w⟩ := e
    obtain ⟨h1, h2, h3⟩ := Cells.wf_cons.mp h
    by_cases hk : a = k
    · simpa [Cells.erase, hk] using ih h3
    · have : Cells.erase ((a, w) :: m) k = (a, w) :: Cells.erase m k := by simp [Cells.erase, hk]
      rw [this]
      exact Cells.wf_cons.mpr ⟨h1, fun e he => h2 e (Cells.mem_erase he), ih h3⟩

theorem Cells.wf_insert (hv : v ≠ dflt k) (h : Cells.wf dflt m = true) : Cells.wf dflt (Cells.insert m k v) = true := by
  induction m with
  | nil => simp [Cells.insert, Cells.wf, hv]
  | cons e m ih =>
    obtain ⟨a, w⟩ := e
    obtain ⟨h1, h2, h3⟩ := Cells.wf_cons.mp h
    simp only [Cells.insert]
    split
    · rename_i hk
      exact Cells.wf_cons.mpr ⟨hv, fun e he => by
        rcases List.mem_cons.mp he with rfl | he
        · exact hk
        · exact lt_trans hk (h2 e he), h⟩
    · split
      · rename_i hk; subst hk; exact Cells.wf_cons.mpr ⟨hv, h2, h3⟩
      · refine Cells.wf_cons.mpr ⟨h1, fun e he => ?_, ih h3⟩
        rcases Cells.mem_insert he with rfl | he
        · simp; omega
        · exact h2 e he

/-- Every write keeps the canonical form. -/
theorem Cells.wf_write (h : Cells.wf dflt m = true) : Cells.wf dflt (Cells.write dflt m k v) = true := by
  unfold Cells.write
  split
  · exact Cells.wf_erase h
  · rename_i hv; exact Cells.wf_insert hv h

theorem Cells.mem_update {f : α → α} {e : Nat × α} (h : e ∈ Cells.update dflt f m) : ∃ w, (e.1, w) ∈ m ∧ e.2 = f w := by
  induction m with
  | nil => simp [Cells.update] at h
  | cons x m ih =>
    obtain ⟨a, w⟩ := x
    simp only [Cells.update] at h
    split at h
    · obtain ⟨u, h1, h2⟩ := ih (Cells.mem_erase h); exact ⟨u, .tail _ h1, h2⟩
    · rcases List.mem_cons.mp h with rfl | h
      · exact ⟨w, .head _, rfl⟩
      · obtain ⟨u, h1, h2⟩ := ih h; exact ⟨u, .tail _ h1, h2⟩

theorem Cells.wf_update {f : α → α} (h : Cells.wf dflt m = true) : Cells.wf dflt (Cells.update dflt f m) = true := by
  induction m with
  | nil => rfl
  | cons x m ih =>
    obtain ⟨a, w⟩ := x
    obtain ⟨_, h2, h3⟩ := Cells.wf_cons.mp h
    simp only [Cells.update]
    split
    · exact Cells.wf_erase (ih h3)
    · rename_i hv
      refine Cells.wf_cons.mpr ⟨hv, fun e he => ?_, ih h3⟩
      obtain ⟨u, hu, _⟩ := Cells.mem_update he
      exact h2 (e.1, u) hu

end

end Sys2Proof.Machine
end

