-- ==== Sys2Proof/Laws/State.lean ====
section
/-! SUPPORT. What each update of the state keeps, field by field: every equation holds by rfl, and simp uses each. -/

namespace Sys2Proof.Machine

@[simp] theorem State.refuse_keeps (s : State) :
    (s.refuse).params = s.params ∧ (s.refuse).mem = s.mem ∧ (s.refuse).stashInh = s.stashInh
     ∧ (s.refuse).hashCache = s.hashCache ∧ (s.refuse).mapSeq = s.mapSeq
     ∧ (s.refuse).pendingMapSeq = s.pendingMapSeq ∧ (s.refuse).rowsCache = s.rowsCache
     ∧ (s.refuse).busMap = s.busMap ∧ (s.refuse).pred = s.pred ∧ (s.refuse).color = s.color
     ∧ (s.refuse).atomic = s.atomic ∧ (s.refuse).ctx = s.ctx ∧ (s.refuse).fault = s.fault
     ∧ (s.refuse).warnLog = s.warnLog ∧ (s.refuse).inbox = s.inbox ∧ (s.refuse).freeCount = s.freeCount := by
  and_intros <;> rfl

@[simp] theorem State.takeFault_keeps (s : State) (v : Violation) (op : Nat) (args : List Nat) :
    (s.takeFault v op args).params = s.params ∧ (s.takeFault v op args).mem = s.mem
     ∧ (s.takeFault v op args).stashInh = s.stashInh ∧ (s.takeFault v op args).hashCache = s.hashCache
     ∧ (s.takeFault v op args).mapSeq = s.mapSeq ∧ (s.takeFault v op args).pendingMapSeq = s.pendingMapSeq
     ∧ (s.takeFault v op args).rowsCache = s.rowsCache ∧ (s.takeFault v op args).busMap = s.busMap
     ∧ (s.takeFault v op args).pred = s.pred ∧ (s.takeFault v op args).color = s.color
     ∧ (s.takeFault v op args).atomic = s.atomic ∧ (s.takeFault v op args).ctx = s.ctx
     ∧ (s.takeFault v op args).warnLog = s.warnLog ∧ (s.takeFault v op args).inbox = s.inbox
     ∧ (s.takeFault v op args).freeCount = s.freeCount := by
  and_intros <;> rfl

@[simp] theorem State.respond_keeps (s : State) (r : Response) :
    (s.respond r).params = s.params ∧ (s.respond r).mem = s.mem ∧ (s.respond r).stashInh = s.stashInh
     ∧ (s.respond r).hashCache = s.hashCache ∧ (s.respond r).mapSeq = s.mapSeq
     ∧ (s.respond r).pendingMapSeq = s.pendingMapSeq ∧ (s.respond r).rowsCache = s.rowsCache
     ∧ (s.respond r).busMap = s.busMap ∧ (s.respond r).pred = s.pred ∧ (s.respond r).color = s.color
     ∧ (s.respond r).atomic = s.atomic ∧ (s.respond r).ctx = s.ctx ∧ (s.respond r).fault = s.fault
     ∧ (s.respond r).warnLog = s.warnLog ∧ (s.respond r).inbox = s.inbox ∧ (s.respond r).freeCount = s.freeCount := by
  and_intros <;> rfl

@[simp] theorem State.warn_keeps (s : State) (v : Violation) (i : Instr) :
    (s.warn v i).params = s.params ∧ (s.warn v i).mem = s.mem ∧ (s.warn v i).stashInh = s.stashInh
     ∧ (s.warn v i).hashCache = s.hashCache ∧ (s.warn v i).mapSeq = s.mapSeq
     ∧ (s.warn v i).pendingMapSeq = s.pendingMapSeq ∧ (s.warn v i).rowsCache = s.rowsCache
     ∧ (s.warn v i).busMap = s.busMap ∧ (s.warn v i).pred = s.pred ∧ (s.warn v i).color = s.color
     ∧ (s.warn v i).atomic = s.atomic ∧ (s.warn v i).ctx = s.ctx ∧ (s.warn v i).fault = s.fault
     ∧ (s.warn v i).inbox = s.inbox ∧ (s.warn v i).response = s.response ∧ (s.warn v i).freeCount = s.freeCount := by
  and_intros <;> rfl

@[simp] theorem State.putSram_keeps (s : State) (r c a e : Nat) (x : SramEntry) :
    (s.putSram r c a e x).params = s.params ∧ (s.putSram r c a e x).mem.regs = s.mem.regs
     ∧ (s.putSram r c a e x).mem.tcam = s.mem.tcam ∧ (s.putSram r c a e x).mem.stash = s.mem.stash
     ∧ (s.putSram r c a e x).stashInh = s.stashInh ∧ (s.putSram r c a e x).hashCache = s.hashCache
     ∧ (s.putSram r c a e x).mapSeq = s.mapSeq ∧ (s.putSram r c a e x).pendingMapSeq = s.pendingMapSeq
     ∧ (s.putSram r c a e x).rowsCache = s.rowsCache ∧ (s.putSram r c a e x).busMap = s.busMap
     ∧ (s.putSram r c a e x).pred = s.pred ∧ (s.putSram r c a e x).color = s.color
     ∧ (s.putSram r c a e x).atomic = s.atomic ∧ (s.putSram r c a e x).ctx = s.ctx
     ∧ (s.putSram r c a e x).fault = s.fault ∧ (s.putSram r c a e x).warnLog = s.warnLog
     ∧ (s.putSram r c a e x).inbox = s.inbox ∧ (s.putSram r c a e x).response = s.response
     ∧ (s.putSram r c a e x).freeCount = s.freeCount := by
  and_intros <;> rfl

@[simp] theorem State.putTcam_keeps (s : State) (u idx : Nat) (x : TcamEntry) :
    (s.putTcam u idx x).params = s.params ∧ (s.putTcam u idx x).mem.regs = s.mem.regs
     ∧ (s.putTcam u idx x).mem.sram = s.mem.sram ∧ (s.putTcam u idx x).mem.stash = s.mem.stash
     ∧ (s.putTcam u idx x).stashInh = s.stashInh ∧ (s.putTcam u idx x).hashCache = s.hashCache
     ∧ (s.putTcam u idx x).mapSeq = s.mapSeq ∧ (s.putTcam u idx x).pendingMapSeq = s.pendingMapSeq
     ∧ (s.putTcam u idx x).rowsCache = s.rowsCache ∧ (s.putTcam u idx x).busMap = s.busMap
     ∧ (s.putTcam u idx x).pred = s.pred ∧ (s.putTcam u idx x).color = s.color
     ∧ (s.putTcam u idx x).atomic = s.atomic ∧ (s.putTcam u idx x).ctx = s.ctx
     ∧ (s.putTcam u idx x).fault = s.fault ∧ (s.putTcam u idx x).warnLog = s.warnLog
     ∧ (s.putTcam u idx x).inbox = s.inbox ∧ (s.putTcam u idx x).response = s.response
     ∧ (s.putTcam u idx x).freeCount = s.freeCount := by
  and_intros <;> rfl

@[simp] theorem State.putStash_keeps (s : State) (r w : Nat) (x : StashEntry) :
    (s.putStash r w x).params = s.params ∧ (s.putStash r w x).mem.regs = s.mem.regs
     ∧ (s.putStash r w x).mem.sram = s.mem.sram ∧ (s.putStash r w x).mem.tcam = s.mem.tcam
     ∧ (s.putStash r w x).stashInh = s.stashInh ∧ (s.putStash r w x).hashCache = s.hashCache
     ∧ (s.putStash r w x).mapSeq = s.mapSeq ∧ (s.putStash r w x).pendingMapSeq = s.pendingMapSeq
     ∧ (s.putStash r w x).rowsCache = s.rowsCache ∧ (s.putStash r w x).busMap = s.busMap
     ∧ (s.putStash r w x).pred = s.pred ∧ (s.putStash r w x).color = s.color
     ∧ (s.putStash r w x).atomic = s.atomic ∧ (s.putStash r w x).ctx = s.ctx
     ∧ (s.putStash r w x).fault = s.fault ∧ (s.putStash r w x).warnLog = s.warnLog
     ∧ (s.putStash r w x).inbox = s.inbox ∧ (s.putStash r w x).response = s.response
     ∧ (s.putStash r w x).freeCount = s.freeCount := by
  and_intros <;> rfl

@[simp] theorem State.putInhibit_keeps (s : State) (r w : Nat) (x : Inhibit) :
    (s.putInhibit r w x).params = s.params ∧ (s.putInhibit r w x).mem = s.mem
     ∧ (s.putInhibit r w x).hashCache = s.hashCache ∧ (s.putInhibit r w x).mapSeq = s.mapSeq
     ∧ (s.putInhibit r w x).pendingMapSeq = s.pendingMapSeq ∧ (s.putInhibit r w x).rowsCache = s.rowsCache
     ∧ (s.putInhibit r w x).busMap = s.busMap ∧ (s.putInhibit r w x).pred = s.pred
     ∧ (s.putInhibit r w x).color = s.color ∧ (s.putInhibit r w x).atomic = s.atomic
     ∧ (s.putInhibit r w x).ctx = s.ctx ∧ (s.putInhibit r w x).fault = s.fault
     ∧ (s.putInhibit r w x).warnLog = s.warnLog ∧ (s.putInhibit r w x).inbox = s.inbox
     ∧ (s.putInhibit r w x).response = s.response ∧ (s.putInhibit r w x).freeCount = s.freeCount := by
  and_intros <;> rfl

@[simp] theorem State.regApply_keeps (s : State) (o : Nat) (d : Word) :
    (s.regApply o d).params = s.params ∧ (s.regApply o d).mem.sram = s.mem.sram
     ∧ (s.regApply o d).mem.tcam = s.mem.tcam ∧ (s.regApply o d).mem.stash = s.mem.stash
     ∧ (s.regApply o d).stashInh = s.stashInh ∧ (s.regApply o d).hashCache = s.hashCache
     ∧ (s.regApply o d).pendingMapSeq = s.pendingMapSeq ∧ (s.regApply o d).rowsCache = s.rowsCache
     ∧ (s.regApply o d).pred = s.pred ∧ (s.regApply o d).color = s.color ∧ (s.regApply o d).atomic = s.atomic
     ∧ (s.regApply o d).ctx = s.ctx ∧ (s.regApply o d).fault = s.fault ∧ (s.regApply o d).warnLog = s.warnLog
     ∧ (s.regApply o d).inbox = s.inbox ∧ (s.regApply o d).response = s.response
     ∧ (s.regApply o d).freeCount = s.freeCount := by
  and_intros <;> rfl

@[simp] theorem State.putBusHit_keeps (s : State) (b : Nat) (x : Option BusHit) :
    (s.putBusHit b x).params = s.params ∧ (s.putBusHit b x).mem = s.mem
     ∧ (s.putBusHit b x).stashInh = s.stashInh ∧ (s.putBusHit b x).hashCache = s.hashCache
     ∧ (s.putBusHit b x).mapSeq = s.mapSeq ∧ (s.putBusHit b x).pendingMapSeq = s.pendingMapSeq
     ∧ (s.putBusHit b x).rowsCache = s.rowsCache ∧ (s.putBusHit b x).busMap = s.busMap
     ∧ (s.putBusHit b x).pred = s.pred ∧ (s.putBusHit b x).color = s.color ∧ (s.putBusHit b x).atomic = s.atomic
     ∧ (s.putBusHit b x).ctx.isOpen = s.ctx.isOpen ∧ (s.putBusHit b x).ctx.phv = s.ctx.phv
     ∧ (s.putBusHit b x).ctx.cid = s.ctx.cid ∧ (s.putBusHit b x).ctx.ltcHit = s.ctx.ltcHit
     ∧ (s.putBusHit b x).fault = s.fault ∧ (s.putBusHit b x).warnLog = s.warnLog
     ∧ (s.putBusHit b x).inbox = s.inbox ∧ (s.putBusHit b x).response = s.response
     ∧ (s.putBusHit b x).freeCount = s.freeCount := by
  and_intros <;> rfl

@[simp] theorem State.putLtcHit_keeps (s : State) (l : Nat) (x : Option LtcHit) :
    (s.putLtcHit l x).params = s.params ∧ (s.putLtcHit l x).mem = s.mem
     ∧ (s.putLtcHit l x).stashInh = s.stashInh ∧ (s.putLtcHit l x).hashCache = s.hashCache
     ∧ (s.putLtcHit l x).mapSeq = s.mapSeq ∧ (s.putLtcHit l x).pendingMapSeq = s.pendingMapSeq
     ∧ (s.putLtcHit l x).rowsCache = s.rowsCache ∧ (s.putLtcHit l x).busMap = s.busMap
     ∧ (s.putLtcHit l x).pred = s.pred ∧ (s.putLtcHit l x).color = s.color ∧ (s.putLtcHit l x).atomic = s.atomic
     ∧ (s.putLtcHit l x).ctx.isOpen = s.ctx.isOpen ∧ (s.putLtcHit l x).ctx.phv = s.ctx.phv
     ∧ (s.putLtcHit l x).ctx.cid = s.ctx.cid ∧ (s.putLtcHit l x).ctx.busHit = s.ctx.busHit
     ∧ (s.putLtcHit l x).fault = s.fault ∧ (s.putLtcHit l x).warnLog = s.warnLog
     ∧ (s.putLtcHit l x).inbox = s.inbox ∧ (s.putLtcHit l x).response = s.response
     ∧ (s.putLtcHit l x).freeCount = s.freeCount := by
  and_intros <;> rfl

@[simp] theorem State.putColor_keeps (s : State) (r : Nat) (x : ColorRow) :
    (s.putColor r x).params = s.params ∧ (s.putColor r x).mem = s.mem ∧ (s.putColor r x).stashInh = s.stashInh
     ∧ (s.putColor r x).hashCache = s.hashCache ∧ (s.putColor r x).mapSeq = s.mapSeq
     ∧ (s.putColor r x).pendingMapSeq = s.pendingMapSeq ∧ (s.putColor r x).rowsCache = s.rowsCache
     ∧ (s.putColor r x).busMap = s.busMap ∧ (s.putColor r x).pred = s.pred ∧ (s.putColor r x).atomic = s.atomic
     ∧ (s.putColor r x).ctx = s.ctx ∧ (s.putColor r x).fault = s.fault ∧ (s.putColor r x).warnLog = s.warnLog
     ∧ (s.putColor r x).inbox = s.inbox ∧ (s.putColor r x).response = s.response
     ∧ (s.putColor r x).freeCount = s.freeCount := by
  and_intros <;> rfl

@[simp] theorem State.clearColor_keeps (s : State) :
    (s.clearColor).params = s.params ∧ (s.clearColor).mem = s.mem ∧ (s.clearColor).stashInh = s.stashInh
     ∧ (s.clearColor).hashCache = s.hashCache ∧ (s.clearColor).mapSeq = s.mapSeq
     ∧ (s.clearColor).pendingMapSeq = s.pendingMapSeq ∧ (s.clearColor).rowsCache = s.rowsCache
     ∧ (s.clearColor).busMap = s.busMap ∧ (s.clearColor).pred = s.pred ∧ (s.clearColor).atomic = s.atomic
     ∧ (s.clearColor).ctx = s.ctx ∧ (s.clearColor).fault = s.fault ∧ (s.clearColor).warnLog = s.warnLog
     ∧ (s.clearColor).inbox = s.inbox ∧ (s.clearColor).response = s.response
     ∧ (s.clearColor).freeCount = s.freeCount := by
  and_intros <;> rfl

@[simp] theorem State.putPredBits_keeps (s : State) (lt th : Nat) (x : Byte) :
    (s.putPredBits lt th x).params = s.params ∧ (s.putPredBits lt th x).mem = s.mem
     ∧ (s.putPredBits lt th x).stashInh = s.stashInh ∧ (s.putPredBits lt th x).hashCache = s.hashCache
     ∧ (s.putPredBits lt th x).mapSeq = s.mapSeq ∧ (s.putPredBits lt th x).pendingMapSeq = s.pendingMapSeq
     ∧ (s.putPredBits lt th x).rowsCache = s.rowsCache ∧ (s.putPredBits lt th x).busMap = s.busMap
     ∧ (s.putPredBits lt th x).pred.pass = s.pred.pass ∧ (s.putPredBits lt th x).pred.active = s.pred.active
     ∧ (s.putPredBits lt th x).pred.cursor = s.pred.cursor ∧ (s.putPredBits lt th x).pred.target = s.pred.target
     ∧ (s.putPredBits lt th x).pred.gw = s.pred.gw ∧ (s.putPredBits lt th x).color = s.color
     ∧ (s.putPredBits lt th x).atomic = s.atomic ∧ (s.putPredBits lt th x).ctx = s.ctx
     ∧ (s.putPredBits lt th x).fault = s.fault ∧ (s.putPredBits lt th x).warnLog = s.warnLog
     ∧ (s.putPredBits lt th x).inbox = s.inbox ∧ (s.putPredBits lt th x).response = s.response
     ∧ (s.putPredBits lt th x).freeCount = s.freeCount := by
  and_intros <;> rfl

@[simp] theorem State.putActive_keeps (s : State) (th : Nat) (x : Bool) :
    (s.putActive th x).params = s.params ∧ (s.putActive th x).mem = s.mem
     ∧ (s.putActive th x).stashInh = s.stashInh ∧ (s.putActive th x).hashCache = s.hashCache
     ∧ (s.putActive th x).mapSeq = s.mapSeq ∧ (s.putActive th x).pendingMapSeq = s.pendingMapSeq
     ∧ (s.putActive th x).rowsCache = s.rowsCache ∧ (s.putActive th x).busMap = s.busMap
     ∧ (s.putActive th x).pred.bits = s.pred.bits ∧ (s.putActive th x).pred.pass = s.pred.pass
     ∧ (s.putActive th x).pred.cursor = s.pred.cursor ∧ (s.putActive th x).pred.target = s.pred.target
     ∧ (s.putActive th x).pred.gw = s.pred.gw ∧ (s.putActive th x).color = s.color
     ∧ (s.putActive th x).atomic = s.atomic ∧ (s.putActive th x).ctx = s.ctx
     ∧ (s.putActive th x).fault = s.fault ∧ (s.putActive th x).warnLog = s.warnLog
     ∧ (s.putActive th x).inbox = s.inbox ∧ (s.putActive th x).response = s.response
     ∧ (s.putActive th x).freeCount = s.freeCount := by
  and_intros <;> rfl

@[simp] theorem State.putCursor_keeps (s : State) (th : Nat) (x : Cursor) :
    (s.putCursor th x).params = s.params ∧ (s.putCursor th x).mem = s.mem
     ∧ (s.putCursor th x).stashInh = s.stashInh ∧ (s.putCursor th x).hashCache = s.hashCache
     ∧ (s.putCursor th x).mapSeq = s.mapSeq ∧ (s.putCursor th x).pendingMapSeq = s.pendingMapSeq
     ∧ (s.putCursor th x).rowsCache = s.rowsCache ∧ (s.putCursor th x).busMap = s.busMap
     ∧ (s.putCursor th x).pred.bits = s.pred.bits ∧ (s.putCursor th x).pred.pass = s.pred.pass
     ∧ (s.putCursor th x).pred.active = s.pred.active ∧ (s.putCursor th x).pred.target = s.pred.target
     ∧ (s.putCursor th x).pred.gw = s.pred.gw ∧ (s.putCursor th x).color = s.color
     ∧ (s.putCursor th x).atomic = s.atomic ∧ (s.putCursor th x).ctx = s.ctx
     ∧ (s.putCursor th x).fault = s.fault ∧ (s.putCursor th x).warnLog = s.warnLog
     ∧ (s.putCursor th x).inbox = s.inbox ∧ (s.putCursor th x).response = s.response
     ∧ (s.putCursor th x).freeCount = s.freeCount := by
  and_intros <;> rfl

@[simp] theorem State.putTarget_keeps (s : State) (th : Nat) (x : Option Nat) :
    (s.putTarget th x).params = s.params ∧ (s.putTarget th x).mem = s.mem
     ∧ (s.putTarget th x).stashInh = s.stashInh ∧ (s.putTarget th x).hashCache = s.hashCache
     ∧ (s.putTarget th x).mapSeq = s.mapSeq ∧ (s.putTarget th x).pendingMapSeq = s.pendingMapSeq
     ∧ (s.putTarget th x).rowsCache = s.rowsCache ∧ (s.putTarget th x).busMap = s.busMap
     ∧ (s.putTarget th x).pred.bits = s.pred.bits ∧ (s.putTarget th x).pred.pass = s.pred.pass
     ∧ (s.putTarget th x).pred.active = s.pred.active ∧ (s.putTarget th x).pred.cursor = s.pred.cursor
     ∧ (s.putTarget th x).pred.gw = s.pred.gw ∧ (s.putTarget th x).color = s.color
     ∧ (s.putTarget th x).atomic = s.atomic ∧ (s.putTarget th x).ctx = s.ctx
     ∧ (s.putTarget th x).fault = s.fault ∧ (s.putTarget th x).warnLog = s.warnLog
     ∧ (s.putTarget th x).inbox = s.inbox ∧ (s.putTarget th x).response = s.response
     ∧ (s.putTarget th x).freeCount = s.freeCount := by
  and_intros <;> rfl

@[simp] theorem State.putGw_keeps (s : State) (lt : Nat) (x : Gateway) :
    (s.putGw lt x).params = s.params ∧ (s.putGw lt x).mem = s.mem ∧ (s.putGw lt x).stashInh = s.stashInh
     ∧ (s.putGw lt x).hashCache = s.hashCache ∧ (s.putGw lt x).mapSeq = s.mapSeq
     ∧ (s.putGw lt x).pendingMapSeq = s.pendingMapSeq ∧ (s.putGw lt x).rowsCache = s.rowsCache
     ∧ (s.putGw lt x).busMap = s.busMap ∧ (s.putGw lt x).pred.bits = s.pred.bits
     ∧ (s.putGw lt x).pred.pass = s.pred.pass ∧ (s.putGw lt x).pred.active = s.pred.active
     ∧ (s.putGw lt x).pred.cursor = s.pred.cursor ∧ (s.putGw lt x).pred.target = s.pred.target
     ∧ (s.putGw lt x).color = s.color ∧ (s.putGw lt x).atomic = s.atomic ∧ (s.putGw lt x).ctx = s.ctx
     ∧ (s.putGw lt x).fault = s.fault ∧ (s.putGw lt x).warnLog = s.warnLog ∧ (s.putGw lt x).inbox = s.inbox
     ∧ (s.putGw lt x).response = s.response ∧ (s.putGw lt x).freeCount = s.freeCount := by
  and_intros <;> rfl

@[simp] theorem State.setPass_keeps (s : State) (x : Pass) :
    (s.setPass x).params = s.params ∧ (s.setPass x).mem = s.mem ∧ (s.setPass x).stashInh = s.stashInh
     ∧ (s.setPass x).hashCache = s.hashCache ∧ (s.setPass x).mapSeq = s.mapSeq
     ∧ (s.setPass x).pendingMapSeq = s.pendingMapSeq ∧ (s.setPass x).rowsCache = s.rowsCache
     ∧ (s.setPass x).busMap = s.busMap ∧ (s.setPass x).pred.bits = s.pred.bits
     ∧ (s.setPass x).pred.active = s.pred.active ∧ (s.setPass x).pred.cursor = s.pred.cursor
     ∧ (s.setPass x).pred.target = s.pred.target ∧ (s.setPass x).pred.gw = s.pred.gw
     ∧ (s.setPass x).color = s.color ∧ (s.setPass x).atomic = s.atomic ∧ (s.setPass x).ctx = s.ctx
     ∧ (s.setPass x).fault = s.fault ∧ (s.setPass x).warnLog = s.warnLog ∧ (s.setPass x).inbox = s.inbox
     ∧ (s.setPass x).response = s.response ∧ (s.setPass x).freeCount = s.freeCount := by
  and_intros <;> rfl

@[simp] theorem State.clearGateways_keeps (s : State) :
    (s.clearGateways).params = s.params ∧ (s.clearGateways).mem = s.mem
     ∧ (s.clearGateways).stashInh = s.stashInh ∧ (s.clearGateways).hashCache = s.hashCache
     ∧ (s.clearGateways).mapSeq = s.mapSeq ∧ (s.clearGateways).pendingMapSeq = s.pendingMapSeq
     ∧ (s.clearGateways).rowsCache = s.rowsCache ∧ (s.clearGateways).busMap = s.busMap
     ∧ (s.clearGateways).pred.bits = s.pred.bits ∧ (s.clearGateways).pred.pass = s.pred.pass
     ∧ (s.clearGateways).pred.active = s.pred.active ∧ (s.clearGateways).pred.cursor = s.pred.cursor
     ∧ (s.clearGateways).pred.target = s.pred.target ∧ (s.clearGateways).color = s.color
     ∧ (s.clearGateways).atomic = s.atomic ∧ (s.clearGateways).ctx = s.ctx ∧ (s.clearGateways).fault = s.fault
     ∧ (s.clearGateways).warnLog = s.warnLog ∧ (s.clearGateways).inbox = s.inbox
     ∧ (s.clearGateways).response = s.response ∧ (s.clearGateways).freeCount = s.freeCount := by
  and_intros <;> rfl

@[simp] theorem State.draw_keeps (s : State) :
    (s.draw).params = s.params ∧ (s.draw).mem = s.mem ∧ (s.draw).stashInh = s.stashInh
     ∧ (s.draw).hashCache = s.hashCache ∧ (s.draw).mapSeq = s.mapSeq ∧ (s.draw).pendingMapSeq = s.pendingMapSeq
     ∧ (s.draw).rowsCache = s.rowsCache ∧ (s.draw).busMap = s.busMap ∧ (s.draw).pred = s.pred
     ∧ (s.draw).color = s.color ∧ (s.draw).atomic = s.atomic ∧ (s.draw).ctx = s.ctx ∧ (s.draw).fault = s.fault
     ∧ (s.draw).warnLog = s.warnLog ∧ (s.draw).inbox = s.inbox ∧ (s.draw).response = s.response := by
  and_intros <;> rfl

@[simp] theorem State.openContext_keeps (s : State) (phv : Phv) (cid : CacheId) :
    (s.openContext phv cid).params = s.params ∧ (s.openContext phv cid).mem = s.mem
     ∧ (s.openContext phv cid).stashInh = s.stashInh ∧ (s.openContext phv cid).hashCache = s.hashCache
     ∧ (s.openContext phv cid).mapSeq = s.mapSeq ∧ (s.openContext phv cid).pendingMapSeq = s.pendingMapSeq
     ∧ (s.openContext phv cid).rowsCache = s.rowsCache ∧ (s.openContext phv cid).busMap = s.busMap
     ∧ (s.openContext phv cid).pred = s.pred ∧ (s.openContext phv cid).color = s.color
     ∧ (s.openContext phv cid).atomic = s.atomic ∧ (s.openContext phv cid).fault = s.fault
     ∧ (s.openContext phv cid).warnLog = s.warnLog ∧ (s.openContext phv cid).inbox = s.inbox
     ∧ (s.openContext phv cid).response = s.response ∧ (s.openContext phv cid).freeCount = s.freeCount := by
  and_intros <;> rfl

@[simp] theorem State.clearHashCache_keeps (s : State) :
    (s.clearHashCache).params = s.params ∧ (s.clearHashCache).mem = s.mem
     ∧ (s.clearHashCache).stashInh = s.stashInh ∧ (s.clearHashCache).mapSeq = s.mapSeq
     ∧ (s.clearHashCache).pendingMapSeq = s.pendingMapSeq ∧ (s.clearHashCache).rowsCache = s.rowsCache
     ∧ (s.clearHashCache).busMap = s.busMap ∧ (s.clearHashCache).pred = s.pred
     ∧ (s.clearHashCache).color = s.color ∧ (s.clearHashCache).atomic = s.atomic
     ∧ (s.clearHashCache).ctx = s.ctx ∧ (s.clearHashCache).fault = s.fault
     ∧ (s.clearHashCache).warnLog = s.warnLog ∧ (s.clearHashCache).inbox = s.inbox
     ∧ (s.clearHashCache).response = s.response ∧ (s.clearHashCache).freeCount = s.freeCount := by
  and_intros <;> rfl

@[simp] theorem State.clearInhibits_keeps (s : State) :
    (s.clearInhibits).params = s.params ∧ (s.clearInhibits).mem = s.mem
     ∧ (s.clearInhibits).hashCache = s.hashCache ∧ (s.clearInhibits).mapSeq = s.mapSeq
     ∧ (s.clearInhibits).pendingMapSeq = s.pendingMapSeq ∧ (s.clearInhibits).rowsCache = s.rowsCache
     ∧ (s.clearInhibits).busMap = s.busMap ∧ (s.clearInhibits).pred = s.pred ∧ (s.clearInhibits).color = s.color
     ∧ (s.clearInhibits).atomic = s.atomic ∧ (s.clearInhibits).ctx = s.ctx ∧ (s.clearInhibits).fault = s.fault
     ∧ (s.clearInhibits).warnLog = s.warnLog ∧ (s.clearInhibits).inbox = s.inbox
     ∧ (s.clearInhibits).response = s.response ∧ (s.clearInhibits).freeCount = s.freeCount := by
  and_intros <;> rfl

@[simp] theorem State.putHash_keeps (s : State) (g : Nat) (cid : CacheId) (v : Nat) :
    (s.putHash g cid v).params = s.params ∧ (s.putHash g cid v).mem = s.mem
     ∧ (s.putHash g cid v).stashInh = s.stashInh ∧ (s.putHash g cid v).mapSeq = s.mapSeq
     ∧ (s.putHash g cid v).pendingMapSeq = s.pendingMapSeq ∧ (s.putHash g cid v).rowsCache = s.rowsCache
     ∧ (s.putHash g cid v).busMap = s.busMap ∧ (s.putHash g cid v).pred = s.pred
     ∧ (s.putHash g cid v).color = s.color ∧ (s.putHash g cid v).atomic = s.atomic
     ∧ (s.putHash g cid v).ctx = s.ctx ∧ (s.putHash g cid v).fault = s.fault
     ∧ (s.putHash g cid v).warnLog = s.warnLog ∧ (s.putHash g cid v).inbox = s.inbox
     ∧ (s.putHash g cid v).response = s.response ∧ (s.putHash g cid v).freeCount = s.freeCount := by
  and_intros <;> rfl

@[simp] theorem State.putRows_keeps (s : State) (c lt : Nat) (rows : List Nat) :
    (s.putRows c lt rows).params = s.params ∧ (s.putRows c lt rows).mem = s.mem
     ∧ (s.putRows c lt rows).stashInh = s.stashInh ∧ (s.putRows c lt rows).hashCache = s.hashCache
     ∧ (s.putRows c lt rows).mapSeq = s.mapSeq ∧ (s.putRows c lt rows).pendingMapSeq = s.pendingMapSeq
     ∧ (s.putRows c lt rows).busMap = s.busMap ∧ (s.putRows c lt rows).pred = s.pred
     ∧ (s.putRows c lt rows).color = s.color ∧ (s.putRows c lt rows).atomic = s.atomic
     ∧ (s.putRows c lt rows).ctx = s.ctx ∧ (s.putRows c lt rows).fault = s.fault
     ∧ (s.putRows c lt rows).warnLog = s.warnLog ∧ (s.putRows c lt rows).inbox = s.inbox
     ∧ (s.putRows c lt rows).response = s.response ∧ (s.putRows c lt rows).freeCount = s.freeCount := by
  and_intros <;> rfl

@[simp] theorem State.putPending_keeps (s : State) (c : Nat) (x : Option Nat) :
    (s.putPending c x).params = s.params ∧ (s.putPending c x).mem = s.mem
     ∧ (s.putPending c x).stashInh = s.stashInh ∧ (s.putPending c x).hashCache = s.hashCache
     ∧ (s.putPending c x).mapSeq = s.mapSeq ∧ (s.putPending c x).rowsCache = s.rowsCache
     ∧ (s.putPending c x).busMap = s.busMap ∧ (s.putPending c x).pred = s.pred
     ∧ (s.putPending c x).color = s.color ∧ (s.putPending c x).atomic = s.atomic
     ∧ (s.putPending c x).ctx = s.ctx ∧ (s.putPending c x).fault = s.fault
     ∧ (s.putPending c x).warnLog = s.warnLog ∧ (s.putPending c x).inbox = s.inbox
     ∧ (s.putPending c x).response = s.response ∧ (s.putPending c x).freeCount = s.freeCount := by
  and_intros <;> rfl

@[simp] theorem State.countWrite_keeps (s : State) :
    (s.countWrite).params = s.params ∧ (s.countWrite).mem = s.mem ∧ (s.countWrite).stashInh = s.stashInh
     ∧ (s.countWrite).hashCache = s.hashCache ∧ (s.countWrite).mapSeq = s.mapSeq
     ∧ (s.countWrite).pendingMapSeq = s.pendingMapSeq ∧ (s.countWrite).rowsCache = s.rowsCache
     ∧ (s.countWrite).busMap = s.busMap ∧ (s.countWrite).pred = s.pred ∧ (s.countWrite).color = s.color
     ∧ (s.countWrite).atomic.state = s.atomic.state ∧ (s.countWrite).atomic.buffering = s.atomic.buffering
     ∧ (s.countWrite).atomic.buf = s.atomic.buf ∧ (s.countWrite).atomic.ovfCount = s.atomic.ovfCount
     ∧ (s.countWrite).ctx = s.ctx ∧ (s.countWrite).fault = s.fault ∧ (s.countWrite).warnLog = s.warnLog
     ∧ (s.countWrite).inbox = s.inbox ∧ (s.countWrite).response = s.response
     ∧ (s.countWrite).freeCount = s.freeCount := by
  and_intros <;> rfl

@[simp] theorem State.countOverflow_keeps (s : State) :
    (s.countOverflow).params = s.params ∧ (s.countOverflow).mem = s.mem
     ∧ (s.countOverflow).stashInh = s.stashInh ∧ (s.countOverflow).hashCache = s.hashCache
     ∧ (s.countOverflow).mapSeq = s.mapSeq ∧ (s.countOverflow).pendingMapSeq = s.pendingMapSeq
     ∧ (s.countOverflow).rowsCache = s.rowsCache ∧ (s.countOverflow).busMap = s.busMap
     ∧ (s.countOverflow).pred = s.pred ∧ (s.countOverflow).color = s.color
     ∧ (s.countOverflow).atomic.state = s.atomic.state ∧ (s.countOverflow).atomic.buffering = s.atomic.buffering
     ∧ (s.countOverflow).atomic.buf = s.atomic.buf ∧ (s.countOverflow).atomic.nWrites = s.atomic.nWrites
     ∧ (s.countOverflow).ctx = s.ctx ∧ (s.countOverflow).fault = s.fault ∧ (s.countOverflow).warnLog = s.warnLog
     ∧ (s.countOverflow).inbox = s.inbox ∧ (s.countOverflow).response = s.response
     ∧ (s.countOverflow).freeCount = s.freeCount := by
  and_intros <;> rfl

@[simp] theorem State.bufferWrite_keeps (s : State) (off : Nat) (data : Word) :
    (s.bufferWrite off data).params = s.params ∧ (s.bufferWrite off data).mem = s.mem
     ∧ (s.bufferWrite off data).stashInh = s.stashInh ∧ (s.bufferWrite off data).hashCache = s.hashCache
     ∧ (s.bufferWrite off data).mapSeq = s.mapSeq ∧ (s.bufferWrite off data).pendingMapSeq = s.pendingMapSeq
     ∧ (s.bufferWrite off data).rowsCache = s.rowsCache ∧ (s.bufferWrite off data).busMap = s.busMap
     ∧ (s.bufferWrite off data).pred = s.pred ∧ (s.bufferWrite off data).color = s.color
     ∧ (s.bufferWrite off data).atomic.state = s.atomic.state
     ∧ (s.bufferWrite off data).atomic.buffering = s.atomic.buffering
     ∧ (s.bufferWrite off data).atomic.nWrites = s.atomic.nWrites
     ∧ (s.bufferWrite off data).atomic.ovfCount = s.atomic.ovfCount ∧ (s.bufferWrite off data).ctx = s.ctx
     ∧ (s.bufferWrite off data).fault = s.fault ∧ (s.bufferWrite off data).warnLog = s.warnLog
     ∧ (s.bufferWrite off data).inbox = s.inbox ∧ (s.bufferWrite off data).response = s.response
     ∧ (s.bufferWrite off data).freeCount = s.freeCount := by
  and_intros <;> rfl

@[simp] theorem State.setAtomic_keeps (s : State) (x : AtomicState) :
    (s.setAtomic x).params = s.params ∧ (s.setAtomic x).mem = s.mem ∧ (s.setAtomic x).stashInh = s.stashInh
     ∧ (s.setAtomic x).hashCache = s.hashCache ∧ (s.setAtomic x).mapSeq = s.mapSeq
     ∧ (s.setAtomic x).pendingMapSeq = s.pendingMapSeq ∧ (s.setAtomic x).rowsCache = s.rowsCache
     ∧ (s.setAtomic x).busMap = s.busMap ∧ (s.setAtomic x).pred = s.pred ∧ (s.setAtomic x).color = s.color
     ∧ (s.setAtomic x).atomic.buffering = s.atomic.buffering ∧ (s.setAtomic x).atomic.buf = s.atomic.buf
     ∧ (s.setAtomic x).atomic.nWrites = s.atomic.nWrites ∧ (s.setAtomic x).atomic.ovfCount = s.atomic.ovfCount
     ∧ (s.setAtomic x).ctx = s.ctx ∧ (s.setAtomic x).fault = s.fault ∧ (s.setAtomic x).warnLog = s.warnLog
     ∧ (s.setAtomic x).inbox = s.inbox ∧ (s.setAtomic x).response = s.response
     ∧ (s.setAtomic x).freeCount = s.freeCount := by
  and_intros <;> rfl

@[simp] theorem State.withInbox_keeps (s : State) (bytes : List Byte) :
    (s.withInbox bytes).params = s.params ∧ (s.withInbox bytes).mem = s.mem
     ∧ (s.withInbox bytes).stashInh = s.stashInh ∧ (s.withInbox bytes).hashCache = s.hashCache
     ∧ (s.withInbox bytes).mapSeq = s.mapSeq ∧ (s.withInbox bytes).pendingMapSeq = s.pendingMapSeq
     ∧ (s.withInbox bytes).rowsCache = s.rowsCache ∧ (s.withInbox bytes).busMap = s.busMap
     ∧ (s.withInbox bytes).pred = s.pred ∧ (s.withInbox bytes).color = s.color
     ∧ (s.withInbox bytes).atomic = s.atomic ∧ (s.withInbox bytes).ctx = s.ctx
     ∧ (s.withInbox bytes).fault = s.fault ∧ (s.withInbox bytes).warnLog = s.warnLog
     ∧ (s.withInbox bytes).response = s.response ∧ (s.withInbox bytes).freeCount = s.freeCount := by
  and_intros <;> rfl

@[simp] theorem State.answering_keeps (s : State) (r : Response) :
    (s.answering r).params = s.params ∧ (s.answering r).mem = s.mem ∧ (s.answering r).stashInh = s.stashInh
     ∧ (s.answering r).hashCache = s.hashCache ∧ (s.answering r).mapSeq = s.mapSeq
     ∧ (s.answering r).pendingMapSeq = s.pendingMapSeq ∧ (s.answering r).rowsCache = s.rowsCache
     ∧ (s.answering r).busMap = s.busMap ∧ (s.answering r).pred = s.pred ∧ (s.answering r).color = s.color
     ∧ (s.answering r).atomic = s.atomic ∧ (s.answering r).ctx = s.ctx ∧ (s.answering r).fault = s.fault
     ∧ (s.answering r).warnLog = s.warnLog ∧ (s.answering r).inbox = s.inbox
     ∧ (s.answering r).freeCount = s.freeCount := by
  and_intros <;> rfl

/-- What the updates make of the field they change. -/
theorem State.mem_putSram (s : State) (r c a e : Nat) (x : SramEntry) : (s.putSram r c a e x).mem.sram
    = Cells.write (sramDefault s.params) s.mem.sram (sramKey s.params r c a e) x := rfl

@[simp] theorem State.respond_response (s : State) (r : Response) : (s.respond r).response = some r := rfl

@[simp] theorem State.refuse_response (s : State) : s.refuse.response = none := rfl

@[simp] theorem State.takeFault_fault (s : State) (v : Violation) (op : Nat) (args : List Nat) :
    (s.takeFault v op args).fault = some (eventOf v op args) ∧ (s.takeFault v op args).response = none := ⟨rfl, rfl⟩

@[simp] theorem State.warn_warnLog (s : State) (v : Violation) (i : Instr) :
    (s.warn v i).warnLog = s.warnLog ++ [eventOf v (opcode i) (operands i)] := rfl

@[simp] theorem State.setPass_pass (s : State) (x : Pass) : (s.setPass x).pred.pass = x := rfl

@[simp] theorem State.clearGateways_gw (s : State) : s.clearGateways.pred.gw = [] := rfl

@[simp] theorem State.clearColor_color (s : State) : s.clearColor.color = [] := rfl

@[simp] theorem State.clearHashCache_hashCache (s : State) : s.clearHashCache.hashCache = [] := rfl

@[simp] theorem State.countWrite_nWrites (s : State) : s.countWrite.atomic.nWrites = s.atomic.nWrites + 1 := rfl

@[simp] theorem State.countOverflow_ovfCount (s : State) : s.countOverflow.atomic.ovfCount = s.atomic.ovfCount + 1 :=
  rfl

@[simp] theorem State.bufferWrite_buf (s : State) (off : Nat) (data : Word) :
    (s.bufferWrite off data).atomic.buf = s.atomic.buf ++ [(off, data)] := rfl

@[simp] theorem State.setAtomic_state (s : State) (x : AtomicState) : (s.setAtomic x).atomic.state = x := rfl

@[simp] theorem State.withInbox_inbox (s : State) (bytes : List Byte) : (s.withInbox bytes).inbox = bytes := rfl

theorem State.regApply_regs (s : State) (o : Nat) (d : Word) :
    (s.regApply o d).mem.regs = Cells.write (regDefault s.params) s.mem.regs o d := rfl

theorem State.regApply_mapSeq (s : State) (o : Nat) (d : Word) :
    (s.regApply o d).mapSeq = if touchesRowOwner s.params o then s.mapSeq + 1 else s.mapSeq := rfl

end Sys2Proof.Machine
end

