-- ==== Sys2Proof/Laws/Ops.lean ====
section
/-! SUPPORT. One lemma for each shared operation that says what it can do: operation bodies, running a command, the
operand checks, the accessors of the entry arrays and of the sparse state, and their keys. -/

namespace Sys2Proof.Machine

/-! ## Operation bodies -/

@[simp] theorem ok_bind {α β : Type} (a : α) (f : α → Op β) : ((Except.ok a : Op α) >>= f) = f a := rfl

@[simp] theorem error_bind {α β : Type} (v : Violation) (f : α → Op β) :
    ((Except.error v : Op α) >>= f) = Except.error v := rfl

/-- A body in two parts completes through its first part. -/
theorem bind_ok_iff {α β : Type} {x : Op α} {f : α → Op β} {b : β} :
    (x >>= f) = .ok b ↔ ∃ a, x = .ok a ∧ f a = .ok b := by
  cases x <;> simp

/-- A body in two parts raises what its first part raises, or what its second part then raises. -/
theorem bind_error_iff {α β : Type} {x : Op α} {f : α → Op β} {v : Violation} :
    (x >>= f) = .error v ↔ x = .error v ∨ ∃ a, x = .ok a ∧ f a = .error v := by
  cases x <;> simp

theorem foldOp_cons {α σ : Type} (f : σ → α → Op σ) (s : σ) (x : α) (xs : List α) :
    foldOp f s (x :: xs) = f s x >>= fun s' => foldOp f s' xs := by
  simp only [foldOp]; cases f s x <;> rfl

/-- A loop with one more iteration at its end. -/
theorem foldOp_snoc {α σ : Type} (f : σ → α → Op σ) (xs : List α) (x : α) (a : σ) :
    foldOp f a (xs ++ [x]) = foldOp f a xs >>= fun b => f b x := by
  induction xs generalizing a with
  | nil => rw [List.nil_append, foldOp_cons]; show _ = f a x; cases f a x <;> rfl
  | cons y xs ih =>
    rw [List.cons_append, foldOp_cons, foldOp_cons]
    cases f a y with
    | error v => rfl
    | ok b => exact ih b

@[simp] theorem foldOp_nil {α σ : Type} (f : σ → α → Op σ) (s : σ) : foldOp f s [] = .ok s := rfl

/-- A relation that every iteration extends holds across a loop that completes. -/
theorem foldOp_ok {α σ : Type} {f : σ → α → Op σ} (P : σ → Prop) {xs : List α} {s s' : σ}
    (hf : ∀ t x t', P t → x ∈ xs → f t x = .ok t' → P t') (hs : P s) (h : foldOp f s xs = .ok s') : P s' := by
  induction xs generalizing s with
  | nil => simp at h; exact h ▸ hs
  | cons x xs ih =>
    rw [foldOp_cons, bind_ok_iff] at h
    obtain ⟨t, h1, h2⟩ := h
    exact ih (fun t x t' ht hx => hf t x t' ht (.tail _ hx)) (hf s x t hs (.head _) h1) h2

/-- A loop raises only what one of its iterations raises, on a state that the earlier ones made. -/
theorem foldOp_error {α σ : Type} {f : σ → α → Op σ} (P : σ → Prop) (Q : Violation → Prop) {xs : List α} {s : σ}
    {v : Violation} (hf : ∀ t x t', P t → x ∈ xs → f t x = .ok t' → P t')
    (he : ∀ t x v, P t → x ∈ xs → f t x = .error v → Q v) (hs : P s) (h : foldOp f s xs = .error v) : Q v := by
  induction xs generalizing s with
  | nil => simp at h
  | cons x xs ih =>
    rw [foldOp_cons, bind_error_iff] at h
    rcases h with h | ⟨t, h1, h2⟩
    · exact he s x v hs (.head _) h
    · exact ih (fun t x t' ht hx => hf t x t' ht (.tail _ hx)) (fun t x v ht hx => he t x v ht (.tail _ hx))
        (hf s x t hs (.head _) h1) h2

/-- A loop all of whose iterations complete is a plain fold. -/
theorem foldOp_eq_foldl {α σ : Type} {f : σ → α → Op σ} {g : σ → α → σ} (P : σ → Prop) {xs : List α} {s : σ}
    (hf : ∀ t x, P t → x ∈ xs → f t x = .ok (g t x) ∧ P (g t x)) (hs : P s) :
    foldOp f s xs = .ok (xs.foldl g s) ∧ P (xs.foldl g s) := by
  induction xs generalizing s with
  | nil => exact ⟨rfl, hs⟩
  | cons x xs ih =>
    obtain ⟨h1, h2⟩ := hf s x hs (.head _)
    rw [foldOp_cons, h1, ok_bind]
    exact ih (fun t y ht hy => hf t y ht (.tail _ hy)) h2

theorem mapOp_cons {α β : Type} (f : α → Op β) (x : α) (xs : List α) :
    mapOp f (x :: xs) = f x >>= fun y => mapOp f xs >>= fun ys => .ok (y :: ys) := by
  simp only [mapOp]; cases f x <;> simp; cases mapOp f xs <;> rfl

theorem mapOp_eq_map {α β : Type} {f : α → Op β} {g : α → β} {xs : List α} (h : ∀ x ∈ xs, f x = .ok (g x)) :
    mapOp f xs = .ok (xs.map g) := by
  induction xs with
  | nil => rfl
  | cons x xs ih => simp [mapOp_cons, h x, ih fun y hy => h y (.tail _ hy)]

theorem mapOp_error {α β : Type} {f : α → Op β} {xs : List α} {v : Violation} (h : mapOp f xs = .error v) :
    ∃ x ∈ xs, f x = .error v := by
  induction xs with
  | nil => simp [mapOp] at h
  | cons x xs ih =>
    rw [mapOp_cons, bind_error_iff] at h
    rcases h with h | ⟨y, _, h⟩
    · exact ⟨x, .head _, h⟩
    · rw [bind_error_iff] at h
      rcases h with h | ⟨_, _, h⟩
      · obtain ⟨z, hz, h⟩ := ih h; exact ⟨z, .tail _ hz, h⟩
      · simp at h

theorem mapOp_ok {α β : Type} {f : α → Op β} {xs : List α} {ys : List β} (h : mapOp f xs = .ok ys) :
    ∀ x ∈ xs, ∃ y, f x = .ok y := by
  induction xs generalizing ys with
  | nil => simp
  | cons x xs ih =>
    rw [mapOp_cons, bind_ok_iff] at h
    obtain ⟨y, h1, h⟩ := h
    rw [bind_ok_iff] at h
    obtain ⟨zs, h2, _⟩ := h
    intro z hz
    rcases List.mem_cons.mp hz with rfl | hz
    · exact ⟨y, h1⟩
    · exact ih h2 z hz

/-! ## Running a command -/

/-- A command to a stopped block (R340). -/
theorem runCommand_stopped {i : Instr} {s : State} {body : Op (State × Response)} (h : s.running = false) :
    runCommand i s body = .next s.refuse := by
  have : s.fault.isSome = true := by cases hf : s.fault <;> simp_all
  simp [runCommand, this]

/-- A command to a running block whose body completes. -/
theorem runCommand_ok {i : Instr} {s s' : State} {r : Response} {body : Op (State × Response)} (h : s.running = true)
    (hb : body = .ok (s', r)) : runCommand i s body = .next (s'.answering r) := by
  have : s.fault.isSome = false := by cases hf : s.fault <;> simp_all
  simp [runCommand, this, hb, State.finish]; rfl

/-- A command to a running block whose body raises a fault. -/
theorem runCommand_error {i : Instr} {s : State} {code : FaultCode} {info : Info} {body : Op (State × Response)}
    (h : s.running = true) (hb : body = .error ⟨code, info⟩) : runCommand i s body = .next (s.faulted i code info) := by
  have : s.fault.isSome = false := by cases hf : s.fault <;> simp_all
  simp [runCommand, this, hb, State.finish]; rfl

/-- Everything a command can do: it is refused, or completes, or raises a fault. -/
theorem runCommand_cases {i : Instr} {s t : State} {body : Op (State × Response)} (h : runCommand i s body = .next t) :
    (s.running = false ∧ t = s.refuse)
      ∨ (s.running = true ∧ ∃ s' r, body = .ok (s', r) ∧ t = s'.answering r)
      ∨ (s.running = true ∧ ∃ v, body = .error v ∧ t = s.faulted i v.code v.info) := by
  cases hr : s.running with
  | false => rw [runCommand_stopped hr] at h; cases h; exact .inl ⟨rfl, rfl⟩
  | true =>
    cases hb : body with
    | ok x => rw [runCommand_ok (s' := x.1) (r := x.2) hr hb] at h; cases h; exact .inr (.inl ⟨rfl, _, _, rfl, rfl⟩)
    | error v =>
      rw [runCommand_error (code := v.code) (info := v.info) hr hb] at h
      cases h; exact .inr (.inr ⟨rfl, v, rfl, rfl⟩)

/-! ## Operand checks -/

theorem checkIndex_eq (name : IndexName) (width bound v : Nat) :
    checkIndex name width bound v
      = if min (2 ^ width) bound ≤ v then .error ⟨.bounds, .index name v⟩ else .ok () := by
  unfold checkIndex raiseBounds
  split <;> split <;> first | rfl | (exfalso; omega)

theorem checkWidth_eq (name : IndexName) (width v : Nat) :
    checkWidth name width v = if 2 ^ width ≤ v then .error ⟨.bounds, .index name v⟩ else .ok () := by
  unfold checkWidth raiseBounds
  split <;> split <;> first | rfl | (exfalso; omega)

/-- A check of one operand passes, or raises F01. -/
theorem checkIndex_cases (name : IndexName) (width bound v : Nat) :
    (checkIndex name width bound v = .ok () ∧ v < 2 ^ width ∧ v < bound)
      ∨ checkIndex name width bound v = .error ⟨.bounds, .index name v⟩ := by
  unfold checkIndex raiseBounds
  split
  · rename_i h; exact .inl ⟨rfl, h⟩
  · exact .inr rfl

theorem checkIndex_ok_iff {name : IndexName} {width bound v : Nat} :
    checkIndex name width bound v = .ok () ↔ v < 2 ^ width ∧ v < bound := by
  unfold checkIndex raiseBounds
  split <;> simp_all

theorem checkWidth_ok_iff {name : IndexName} {width v : Nat} : checkWidth name width v = .ok () ↔ v < 2 ^ width := by
  unfold checkWidth raiseBounds
  split <;> simp_all

/-! ## Keys -/

theorem pair_inj {n a b x y : Nat} (hb : b < n) (hy : y < n) : a * n + b = x * n + y ↔ a = x ∧ b = y := by
  constructor
  · intro h
    have hn : 0 < n := by omega
    have h1 : (a * n + b) / n = (x * n + y) / n := by rw [h]
    rw [Nat.add_comm, Nat.add_mul_div_right _ _ hn, Nat.div_eq_of_lt hb, Nat.add_comm (x * n),
      Nat.add_mul_div_right _ _ hn, Nat.div_eq_of_lt hy] at h1
    have h2 : a = x := by omega
    subst h2; exact ⟨rfl, by omega⟩
  · rintro ⟨rfl, rfl⟩; rfl

/-- Two SRAM entries have one number only if they are one entry. -/
theorem sramKey_inj {p : Params} {r c a e r' c' a' e' : Nat} (hc : c < p.nc) (ha : a < p.sd) (he : e < p.ne)
    (hc' : c' < p.nc) (ha' : a' < p.sd) (he' : e' < p.ne) :
    sramKey p r c a e = sramKey p r' c' a' e' ↔ r = r' ∧ c = c' ∧ a = a' ∧ e = e' := by
  simp only [sramKey, pair_inj he he', pair_inj ha ha', pair_inj hc hc']; tauto

theorem tcamKey_inj {p : Params} {u i u' i' : Nat} (h : i < p.nt) (h' : i' < p.nt) :
    tcamKey p u i = tcamKey p u' i' ↔ u = u' ∧ i = i' := pair_inj h h'

theorem stashKey_inj {r w r' w' : Nat} (h : w < 4) (h' : w' < 4) : stashKey r w = stashKey r' w' ↔ r = r' ∧ w = w' :=
  pair_inj h h'

theorem predKey_inj {l t l' t' : Nat} (h : t < 3) (h' : t' < 3) : predKey l t = predKey l' t' ↔ l = l' ∧ t = t' :=
  pair_inj h h'

theorem rowsKey_inj {c l c' l' : Nat} (h : l < 16) (h' : l' < 16) : rowsKey c l = rowsKey c' l' ↔ c = c' ∧ l = l' :=
  pair_inj h h'

theorem hashKey_inj {g g' : Nat} {cid cid' : CacheId} : hashKey g cid = hashKey g' cid' ↔ g = g' ∧ cid = cid' := by
  rw [hashKey, hashKey, pair_inj cid.isLt cid'.isLt, BitVec.toNat_inj]

/-! ## Accessors -/

variable (s : State)

theorem sramAt_putSram (r c a e : Nat) (x : SramEntry) (r' c' a' e' : Nat) :
    (s.putSram r c a e x).sramAt r' c' a' e'
      = if sramKey s.params r' c' a' e' = sramKey s.params r c a e then x else s.sramAt r' c' a' e' :=
  Cells.read_write _

theorem tcamAt_putTcam (u i : Nat) (x : TcamEntry) (u' i' : Nat) :
    (s.putTcam u i x).tcamAt u' i' = if tcamKey s.params u' i' = tcamKey s.params u i then x else s.tcamAt u' i' :=
  Cells.read_write _

theorem stashAt_putStash (r w : Nat) (x : StashEntry) (r' w' : Nat) :
    (s.putStash r w x).stashAt r' w' = if stashKey r' w' = stashKey r w then x else s.stashAt r' w' :=
  Cells.read_write _

theorem inhibitAt_putInhibit (r w : Nat) (x : Inhibit) (r' w' : Nat) :
    (s.putInhibit r w x).inhibitAt r' w' = if stashKey r' w' = stashKey r w then x else s.inhibitAt r' w' :=
  Cells.read_write _

theorem inhibitAt_clearInhibits (r w : Nat) : s.clearInhibits.inhibitAt r w = { s.inhibitAt r w with on := false } :=
  Cells.read_update (fun x : Inhibit => { x with on := false }) (fun _ => rfl) s.stashInh

theorem busHitAt_putBusHit (b : Nat) (x : Option BusHit) (b' : Nat) :
    (s.putBusHit b x).busHitAt b' = if b' = b then x else s.busHitAt b' := Cells.read_write _

theorem ltcHitAt_putLtcHit (l : Nat) (x : Option LtcHit) (l' : Nat) :
    (s.putLtcHit l x).ltcHitAt l' = if l' = l then x else s.ltcHitAt l' := Cells.read_write _

theorem colorAt_putColor (r : Nat) (x : ColorRow) (r' : Nat) :
    (s.putColor r x).colorAt r' = if r' = r then x else s.colorAt r' := Cells.read_write _

theorem predBitsAt_putPredBits (lt th : Nat) (x : Byte) (lt' th' : Nat) :
    (s.putPredBits lt th x).predBitsAt lt' th' = if predKey lt' th' = predKey lt th then x else s.predBitsAt lt' th' :=
  Cells.read_write _

theorem activeAt_putActive (th : Nat) (x : Bool) (th' : Nat) :
    (s.putActive th x).activeAt th' = if th' = th then x else s.activeAt th' := Cells.read_write _

theorem cursorAt_putCursor (th : Nat) (x : Cursor) (th' : Nat) :
    (s.putCursor th x).cursorAt th' = if th' = th then x else s.cursorAt th' := Cells.read_write _

theorem targetAt_putTarget (th : Nat) (x : Option Nat) (th' : Nat) :
    (s.putTarget th x).targetAt th' = if th' = th then x else s.targetAt th' := Cells.read_write _

theorem gwAt_putGw (lt : Nat) (x : Gateway) (lt' : Nat) :
    (s.putGw lt x).gwAt lt' = if lt' = lt then x else s.gwAt lt' := Cells.read_write _

theorem cachedHash_putHash (g : Nat) (cid : CacheId) (v : Nat) (g' : Nat) (cid' : CacheId) :
    (s.putHash g cid v).cachedHash g' cid' = if g' = g ∧ cid' = cid then some v else s.cachedHash g' cid' := by
  unfold State.cachedHash State.putHash
  simp only [Cells.read_write, hashKey_inj]

theorem cachedRows_putRows (c lt : Nat) (rows : List Nat) (c' lt' : Nat) :
    (s.putRows c lt rows).cachedRows c' lt' = if rowsKey c' lt' = rowsKey c lt then rows else s.cachedRows c' lt' :=
  Cells.read_write _

theorem pendingAt_putPending (c : Nat) (x : Option Nat) (c' : Nat) :
    (s.putPending c x).pendingAt c' = if c' = c then x else s.pendingAt c' := Cells.read_write _

/-- R311, first line: a register write changes one word. -/
theorem regRead_regApply (o : Nat) (d : Word) (o' : Nat) :
    (s.regApply o d).regRead o' = if o' = o then d else s.regRead o' := Cells.read_write _

end Sys2Proof.Machine
end

