-- ==== Sys2Proof/Laws/BusMap.lean ====
section
/-! SUPPORT. The result-bus maps: what a recompute does to one map, what a register write recomputes, and that a
configuration field depends only on the words it has bits in. -/

namespace Sys2Proof.Machine

/-! ## One map -/

theorem ownerOf_putOwner (m : OwnerMap) (b : Nat) (x : Option Nat) (b' : Nat) :
    (m.putOwner b x).ownerOf b' = if b' = b then x else m.ownerOf b' := Cells.read_write _

theorem ownerOf_putUse (m : OwnerMap) (lt b : Nat) (on : Bool) (b' : Nat) :
    (m.putUse lt b on).ownerOf b' = m.ownerOf b' := rfl

theorem mask_putOwner (m : OwnerMap) (b : Nat) (x : Option Nat) (lt : Nat) : (m.putOwner b x).mask lt = m.mask lt := rfl

theorem mask_putUse (m : OwnerMap) (lt b : Nat) (on : Bool) (lt' : Nat) :
    (m.putUse lt b on).mask lt' = if lt' = lt then putBit (m.mask lt) b on else m.mask lt' := Cells.read_write _

theorem testBit_putUse (m : OwnerMap) (lt b : Nat) (on : Bool) (lt' q : Nat) :
    ((m.putUse lt b on).mask lt').testBit q = if lt' = lt ∧ q = b then on else (m.mask lt').testBit q := by
  rw [mask_putUse]
  by_cases h : lt' = lt
  · subst h; simp [testBit_putBit]
  · simp [h]

theorem ownerOf_release (m : OwnerMap) (b b' : Nat) : (m.release b).ownerOf b' = m.ownerOf b' := by
  unfold OwnerMap.release; split <;> rfl

theorem testBit_release (m : OwnerMap) (b lt q : Nat) : ((m.release b).mask lt).testBit q
    = if m.ownerOf b = some lt ∧ q = b then false else (m.mask lt).testBit q := by
  unfold OwnerMap.release
  split
  · rename_i old h; rw [testBit_putUse, h]; simp only [Option.some.injEq, eq_comm]
  · rename_i h; simp [h]

/-- Everything a recompute does (R241, R242). -/
theorem recompute_spec (m : OwnerMap) (b : Nat) (x : Gated) : recomputed m (m.recompute b x) b x := by
  unfold OwnerMap.recompute recomputed Gated.owner
  cases x.en with
  | true =>
    refine ⟨by simp [ownerOf_putUse, ownerOf_putOwner], fun b' hb => by
      simp [ownerOf_putUse, ownerOf_putOwner, ownerOf_release, hb], fun lt b' hb => ?_, fun lt => ?_⟩
    · simp [testBit_putUse, mask_putOwner, testBit_release, hb]
    · simp only [if_true, testBit_putUse, mask_putOwner, testBit_release, Option.some.injEq]
      by_cases h : lt = x.val
      · simp [h]
      · by_cases h2 : m.ownerOf b = some lt <;> simp [h, Ne.symm h, h2]
  | false =>
    refine ⟨by simp [ownerOf_putOwner], fun b' hb => by simp [ownerOf_putOwner, ownerOf_release, hb],
      fun lt b' hb => ?_, fun lt => ?_⟩
    · simp [mask_putOwner, testBit_release, hb]
    · simp only [Bool.false_eq_true, if_false, mask_putOwner, testBit_release]
      by_cases h2 : m.ownerOf b = some lt <;> simp [h2]

/-- R240 is kept by every recompute. -/
theorem consistent_of_recomputed {m m' : OwnerMap} {b n : Nat} {x : Gated} (h : m.consistent n)
    (hr : recomputed m m' b x) : m'.consistent n := by
  obtain ⟨h1, h2, h3, h4⟩ := hr
  intro b' hb' lt hlt
  by_cases hb : b' = b
  · subst hb
    rw [h1, h4]
    have := h b' hb' lt hlt
    by_cases ho : m.ownerOf b' = some lt
    · simp [ho]
    · have hm : (m.mask lt).testBit b' = false := by
        cases hm : (m.mask lt).testBit b' with
        | false => rfl
        | true => exact absurd (this.mpr hm) ho
      simp [ho, hm]
  · rw [h2 b' hb, h3 lt b' hb]; exact h b' hb' lt hlt

theorem consistent_empty (n : Nat) : OwnerMap.consistent ⟨[], []⟩ n := by
  intro b _ lt _; simp [OwnerMap.ownerOf, OwnerMap.mask]

/-- Recomputes of the buses of a list, from a register file. -/
def OwnerMap.recomputeAll (reg : Nat → Gated) (m : OwnerMap) (bs : List Nat) : OwnerMap :=
  bs.foldl (fun m b => m.recompute b (reg b)) m

theorem ownerOf_recomputeAll (reg : Nat → Gated) (m : OwnerMap) (bs : List Nat) (b : Nat) :
    (m.recomputeAll reg bs).ownerOf b = if b ∈ bs then (reg b).owner else m.ownerOf b := by
  induction bs generalizing m with
  | nil => rfl
  | cons a bs ih =>
    have hs := recompute_spec m a (reg a)
    show ((m.recompute a (reg a)).recomputeAll reg bs).ownerOf b = _
    rw [ih]
    by_cases hb : b ∈ bs
    · simp [hb]
    · by_cases ha : b = a
      · subst ha; simp [hb, hs.1]
      · simp [hb, ha, hs.2.1 b ha]

theorem consistent_recomputeAll (reg : Nat → Gated) {m : OwnerMap} {n : Nat} (h : m.consistent n) (bs : List Nat) :
    (m.recomputeAll reg bs).consistent n := by
  induction bs generalizing m with
  | nil => exact h
  | cons a bs ih => exact ih (consistent_of_recomputed h (recompute_spec m a (reg a)))

/-- Every recompute of a bus in range keeps the widths of R38. -/
theorem fits_of_recomputed {m m' : OwnerMap} {b n : Nat} {x : Gated} (h : m.fits n) (hb : b < n) (hx : x.val < 16)
    (hr : recomputed m m' b x) : m'.fits n := by
  obtain ⟨h1, h2, h3, -⟩ := hr
  refine ⟨fun b' lt hlt => ?_, fun lt => Nat.lt_pow_two_of_testBit _ fun k hk => ?_⟩
  · by_cases he : b' = b
    · subst he
      rw [h1, Gated.owner] at hlt
      split at hlt <;> cases hlt
      exact hx
    · rw [h2 b' he] at hlt; exact h.1 b' lt hlt
  · rw [h3 lt k (by omega)]
    exact testBit_eq_false_of_lt (h.2 lt) hk

theorem fits_empty (n : Nat) : OwnerMap.fits ⟨[], []⟩ n :=
  ⟨fun _ _ h => by simp [OwnerMap.ownerOf] at h, fun _ => Nat.two_pow_pos n⟩

theorem fits_recomputeAll {reg : Nat → Gated} (hreg : ∀ b, (reg b).val < 16) {m : OwnerMap} {n : Nat} (h : m.fits n)
    {bs : List Nat} (hb : ∀ b ∈ bs, b < n) : (m.recomputeAll reg bs).fits n := by
  induction bs generalizing m with
  | nil => exact h
  | cons a bs ih =>
    exact ih (fits_of_recomputed h (hb a (.head _)) (hreg a) (recompute_spec m a (reg a))) fun b hm => hb b (.tail _ hm)

/-! ## All maps -/

theorem recomputeBus_foldl (p : Params) (regs : Cells Word) (k : BusKind) (m : BusMap) (bs : List Nat) :
    bs.foldl (fun m b => BusMap.recomputeBus p regs m k b) m = match k with
      | .matchBus => { m with matchBus := m.matchBus.recomputeAll (cfgMatchReg p regs) bs }
      | .tindBus => { m with tindBus := m.tindBus.recomputeAll (cfgTindReg p regs) bs } := by
  induction bs generalizing m with
  | nil => cases k <;> rfl
  | cons b bs ih => rw [List.foldl_cons, ih]; cases k <;> rfl

theorem recomputeLtcam_foldl (p : Params) (regs : Cells Word) (m : BusMap) (ls : List Nat) :
    ls.foldl (fun m l => BusMap.recomputeLtcam p regs m l) m
      = { m with ltcam := m.ltcam.recomputeAll (cfgLtcamReg p regs) ls } := by
  induction ls generalizing m with
  | nil => rfl
  | cons l ls ih => rw [List.foldl_cons, ih]; rfl

/-- Everything a set of recomputes does: each map by itself (R311). -/
theorem recomputeWhere_eq (p : Params) (regs : Cells Word) (bus : BusKind → Nat → Bool) (ltcam : Nat → Bool)
    (m : BusMap) : BusMap.recomputeWhere p regs bus ltcam m =
      { matchBus := m.matchBus.recomputeAll (cfgMatchReg p regs) ((List.range p.nmb).filter (bus .matchBus))
        tindBus := m.tindBus.recomputeAll (cfgTindReg p regs) ((List.range p.ntb).filter (bus .tindBus))
        ltcam := m.ltcam.recomputeAll (cfgLtcamReg p regs) ((List.range p.nltc).filter ltcam) } := by
  unfold BusMap.recomputeWhere
  simp only [recomputeBus_foldl, recomputeLtcam_foldl]

/-! ## Fields and words -/

/-- A field reads the bits of its place (R22). -/
theorem testBit_readPlace (s : State) (pl : Place) (k : Nat) :
    (readPlace s.params s.mem.regs pl).testBit k = placedBit s pl k := by
  induction pl generalizing k with
  | nil => simp [readPlace, placedBit, placeBits]
  | cons g gs ih =>
    have hlen : ((List.range g.len).map fun k => (g.word, g.lo + k)).length = g.len := by simp
    simp only [readPlace]
    rw [Nat.add_comm, Nat.testBit_two_pow_mul_add _ (Nat.mod_lt _ (Nat.two_pow_pos _))]
    unfold placedBit placeBits at ih ⊢
    rw [List.flatMap_cons]
    split
    · rename_i h
      rw [List.getElem?_append_left (by rw [hlen]; exact h), List.getElem?_map, List.getElem?_range h]
      simp [Nat.testBit_mod_two_pow, Nat.testBit_shiftRight, h, State.regRead, BitVec.testBit_toNat]
    · rename_i h
      rw [ih, List.getElem?_append_right (by rw [hlen]; omega), hlen]

/-- A place has a bit in a word exactly when one of its bits lies there (R311). -/
theorem placeTouches_iff (o : Nat) (pl : Place) : placeTouches o pl = true ↔ ∃ x ∈ placeBits pl, x.1 = o := by
  unfold placeTouches placeBits
  simp only [List.any_eq_true, Bool.and_eq_true, beq_iff_eq, decide_eq_true_eq, List.mem_flatMap, List.mem_map,
    List.mem_range]
  constructor
  · rintro ⟨g, hg, h1, h2⟩
    exact ⟨_, ⟨g, hg, 0, h2, rfl⟩, h1⟩
  · rintro ⟨x, ⟨g, hg, k, hk, rfl⟩, h⟩
    exact ⟨g, hg, h, by omega⟩


/-- A field without a bit in word o does not depend on it (R22). -/
theorem readPlace_write {p : Params} {regs : Cells Word} {o : Nat} {d : Word} {pl : Place}
    (h : placeTouches o pl = false) : readPlace p (Cells.write (regDefault p) regs o d) pl = readPlace p regs pl := by
  induction pl with
  | nil => rfl
  | cons g gs ih =>
    simp only [placeTouches, List.any_cons, Bool.or_eq_false_iff, Bool.and_eq_false_iff, beq_eq_false_iff_ne,
      decide_eq_false_iff_not] at h
    simp only [readPlace, ih h.2]
    rcases h.1 with hw | hl
    · simp only [regWord, Cells.read_write_other _ hw]
    · have : g.len = 0 := by omega
      simp [this, Nat.mod_one]

theorem readGated_write {p : Params} {regs : Cells Word} {o : Nat} {d : Word} {w : Nat} {g : GatedPlace}
    (h : gatedTouches o g = false) :
    readGated p (Cells.write (regDefault p) regs o d) w g = readGated p regs w g := by
  obtain ⟨h1, h2⟩ := Bool.or_eq_false_iff.mp h
  simp [readGated, readFlag, readWidth, readPlace_write h1, readPlace_write h2]

section
variable (s : State) (o : Nat) (d : Word)

theorem ownerOf_regApply_match {b : Nat} (hb : b < s.params.nmb) : (s.regApply o d).busMap.matchBus.ownerOf b
    = if touchesBus s.params o .matchBus b then (cfgMatchReg s.params (s.regApply o d).mem.regs b).owner
      else s.busMap.matchBus.ownerOf b := by
  simp only [State.regApply, recomputeWhere_eq, ownerOf_recomputeAll, List.mem_filter, List.mem_range, hb, true_and]

theorem ownerOf_regApply_tind {b : Nat} (hb : b < s.params.ntb) : (s.regApply o d).busMap.tindBus.ownerOf b
    = if touchesBus s.params o .tindBus b then (cfgTindReg s.params (s.regApply o d).mem.regs b).owner
      else s.busMap.tindBus.ownerOf b := by
  simp only [State.regApply, recomputeWhere_eq, ownerOf_recomputeAll, List.mem_filter, List.mem_range, hb, true_and]

theorem ownerOf_regApply_ltcam {l : Nat} (hl : l < s.params.nltc) : (s.regApply o d).busMap.ltcam.ownerOf l
    = if touchesLtcam s.params o l then (cfgLtcamReg s.params (s.regApply o d).mem.regs l).owner
      else s.busMap.ltcam.ownerOf l := by
  simp only [State.regApply, recomputeWhere_eq, ownerOf_recomputeAll, List.mem_filter, List.mem_range, hl, true_and]

end

theorem mapsConsistent_regApply {s : State} (h : s.mapsConsistent) (o : Nat) (d : Word) :
    (s.regApply o d).mapsConsistent := by
  unfold State.mapsConsistent State.regApply
  simp only [recomputeWhere_eq]
  exact ⟨consistent_recomputeAll _ h.1 _, consistent_recomputeAll _ h.2.1 _, consistent_recomputeAll _ h.2.2 _⟩

/-- A crossbar register names one of the 16 tables (R29). -/
theorem crossbarRegs_lt (p : Params) (regs : Cells Word) (b : Nat) : (cfgMatchReg p regs b).val < 16
    ∧ (cfgTindReg p regs b).val < 16 ∧ (cfgLtcamReg p regs b).val < 16 :=
  ⟨Nat.mod_lt _ (by decide), Nat.mod_lt _ (by decide), Nat.mod_lt _ (by decide)⟩

theorem mapsFit_regApply {s : State} (h : s.mapsFit) (o : Nat) (d : Word) : (s.regApply o d).mapsFit := by
  have hmem : ∀ (n : Nat) (P : Nat → Bool), ∀ b ∈ (List.range n).filter P, b < n := fun n P b hb =>
    List.mem_range.mp (List.mem_filter.mp hb).1
  unfold State.mapsFit State.regApply
  simp only [recomputeWhere_eq]
  exact ⟨fits_recomputeAll (fun b => (crossbarRegs_lt _ _ b).1) h.1 (hmem _ _),
    fits_recomputeAll (fun b => (crossbarRegs_lt _ _ b).2.1) h.2.1 (hmem _ _),
    fits_recomputeAll (fun b => (crossbarRegs_lt _ _ b).2.2) h.2.2 (hmem _ _)⟩

theorem mapsFresh_regApply {s : State} (h : s.mapsFresh) (o : Nat) (d : Word) : (s.regApply o d).mapsFresh := by
  refine ⟨fun b hb => ?_, fun b hb => ?_, fun l hl => ?_⟩
  · rw [ownerOf_regApply_match s o d hb]
    split
    · rfl
    · rename_i ht
      rw [h.1 b hb, State.regApply_regs]
      exact congrArg _ (readGated_write (by simpa [touchesBus] using ht)).symm
  · rw [ownerOf_regApply_tind s o d hb]
    split
    · rfl
    · rename_i ht
      rw [h.2.1 b hb, State.regApply_regs]
      exact congrArg _ (readGated_write (by simpa [touchesBus] using ht)).symm
  · rw [ownerOf_regApply_ltcam s o d hl]
    split
    · rfl
    · rename_i ht
      rw [h.2.2 l hl, State.regApply_regs]
      exact congrArg _ (readGated_write (by simpa [touchesLtcam] using ht)).symm

theorem touchesRowOwner_iff (p : Params) (o : Nat) : touchesRowOwner p o = true
    ↔ ∃ r < p.nr, ∃ c < p.nc, gatedTouches o (rowOwnerPlace p r c) = true := by
  simp [touchesRowOwner]

/-- A write that moves no token changes no row set (R183, R311). -/
theorem rowsOfConfig_write {p : Params} {regs : Cells Word} {o : Nat} {d : Word} (h : touchesRowOwner p o = false)
    {c : Nat} (hc : c < p.nc) (lt : Nat) :
    rowsOfConfig p (Cells.write (regDefault p) regs o d) c lt = rowsOfConfig p regs c lt := by
  refine List.filter_congr fun r hr => ?_
  have : gatedTouches o (rowOwnerPlace p r c) = false := by
    cases ht : gatedTouches o (rowOwnerPlace p r c) with
    | false => rfl
    | true =>
      rw [(touchesRowOwner_iff p o).mpr ⟨r, List.mem_range.mp hr, c, hc, ht⟩] at h; cases h
  have e : cfgRowOwner p (Cells.write (regDefault p) regs o d) r c = cfgRowOwner p regs r c := readGated_write this
  rw [e]

theorem rowsFresh_regApply {s : State} (h : s.rowsFresh) (o : Nat) (d : Word) : (s.regApply o d).rowsFresh := by
  intro c hc n hn
  obtain ⟨h1, h2⟩ := h c hc n hn
  rw [State.regApply_mapSeq]
  split
  · exact ⟨by omega, fun he => by omega⟩
  · rename_i ht
    refine ⟨h1, fun he lt hlt => (h2 he lt hlt).trans ?_⟩
    rw [State.regApply_regs]
    exact (rowsOfConfig_write (by simpa using ht) hc lt).symm

/-! ## Reset -/

theorem ofConfig_fresh (p : Params) : (State.resetWith p).mapsFresh := by
  refine ⟨fun b hb => ?_, fun b hb => ?_, fun l hl => ?_⟩ <;>
  · simp only [State.resetWith, BusMap.ofConfig, recomputeWhere_eq, ownerOf_recomputeAll, List.mem_filter,
      List.mem_range, and_true]
    rw [if_pos (by assumption)]

theorem ofConfig_consistent (p : Params) : (State.resetWith p).mapsConsistent := by
  simp only [State.mapsConsistent, State.resetWith, BusMap.ofConfig, recomputeWhere_eq]
  exact ⟨consistent_recomputeAll _ (consistent_empty _) _, consistent_recomputeAll _ (consistent_empty _) _,
    consistent_recomputeAll _ (consistent_empty _) _⟩

theorem ofConfig_fits (p : Params) : (State.resetWith p).mapsFit := by
  have hmem : ∀ (n : Nat) (P : Nat → Bool), ∀ b ∈ (List.range n).filter P, b < n := fun n P b hb =>
    List.mem_range.mp (List.mem_filter.mp hb).1
  simp only [State.mapsFit, State.resetWith, BusMap.ofConfig, recomputeWhere_eq, BusMap.empty]
  exact ⟨fits_recomputeAll (fun b => (crossbarRegs_lt _ _ b).1) (fits_empty _) (hmem _ _),
    fits_recomputeAll (fun b => (crossbarRegs_lt _ _ b).2.1) (fits_empty _) (hmem _ _),
    fits_recomputeAll (fun b => (crossbarRegs_lt _ _ b).2.2) (fits_empty _) (hmem _ _)⟩

end Sys2Proof.Machine
end

