-- ==== Sys2Proof/Laws/Datapath.lean ====
section
/-! SUPPORT. What the hash bank, the crossbars and the version substitution compute, and when they raise F01. -/

namespace Sys2Proof.Machine

/-! ## Hash input and hash values -/

theorem hashXbarByte_ok {s : State} {j : Nat}
    (h : (cfgHx s.params s.mem.regs j).en = true → (cfgHx s.params s.mem.regs j).val < s.params.phvBytes) :
    hashXbarByte s j = .ok (if (cfgHx s.params s.mem.regs j).en
      then (s.ctx.phv.bytes.getD (cfgHx s.params s.mem.regs j).val 0,
        s.ctx.phv.valid.testBit (cfgHx s.params s.mem.regs j).val) else (0, false)) := by
  unfold hashXbarByte
  cases he : (cfgHx s.params s.mem.regs j).en <;> simp_all

/-- HashXbar completes with the hash input when its selectors are in range (R160). -/
theorem hashXbar_ok {s : State} (h : hashSelectorsOk s) : hashXbar s = .ok (hashInput s) :=
  mapOp_eq_map fun j hj => hashXbarByte_ok (h j (List.mem_range.mp hj))

/-- Otherwise it raises F01. -/
theorem hashXbar_error {s : State} (h : ¬ hashSelectorsOk s) : ∃ n v, hashXbar s = .error ⟨.bounds, .index n v⟩ := by
  cases hx : hashXbar s with
  | ok x =>
    refine absurd (fun j hj he => ?_) h
    obtain ⟨y, hy⟩ := mapOp_ok hx j (List.mem_range.mpr hj)
    unfold hashXbarByte at hy
    by_contra hc
    simp [he, hc, raiseBounds] at hy
  | error v =>
    obtain ⟨j, _, hy⟩ := mapOp_error hx
    unfold hashXbarByte at hy
    simp only [raiseBounds] at hy
    split at hy
    · split at hy
      · simp at hy
      · simp at hy; exact ⟨_, _, by rw [← hy]⟩
    · simp at hy

/-- The state after group g's value has been read: it is cached where caching is on (R144). -/
def State.fill (s : State) (g : Nat) : State :=
  if s.params.hashCacheEnabled = true ∧ s.cachedHash g s.ctx.cid = none then
    s.putHash g s.ctx.cid (groupValue s g) else s

/-- The state after the values of groups gs have been read in order. -/
def State.fills (s : State) (gs : List Nat) : State := gs.foldl State.fill s

/-- Reading group values changes the hash cache alone. -/
theorem State.fill_keeps (s : State) (g : Nat) : s.fill g = { s with hashCache := (s.fill g).hashCache } := by
  unfold State.fill; split <;> rfl

theorem State.fills_keeps (s : State) (gs : List Nat) : s.fills gs = { s with hashCache := (s.fills gs).hashCache } := by
  induction gs generalizing s with
  | nil => rfl
  | cons g gs ih =>
    refine (ih (s.fill g)).trans ?_
    show _ = { s with hashCache := ((s.fill g).fills gs).hashCache }
    generalize ((s.fill g).fills gs).hashCache = x
    unfold State.fill
    split <;> rfl

theorem State.fills_cons (s : State) (g : Nat) (gs : List Nat) : s.fills (g :: gs) = (s.fill g).fills gs := rfl

theorem State.fills_append (s : State) (gs hs : List Nat) : s.fills (gs ++ hs) = (s.fills gs).fills hs := by
  simp [State.fills, List.foldl_append]

section
variable (s : State) (g : Nat)

@[simp] theorem State.fill_params : (s.fill g).params = s.params := by rw [State.fill_keeps]
@[simp] theorem State.fill_mem : (s.fill g).mem = s.mem := by rw [State.fill_keeps]
@[simp] theorem State.fill_ctx : (s.fill g).ctx = s.ctx := by rw [State.fill_keeps]

variable (gs : List Nat)
@[simp] theorem State.fills_params : (s.fills gs).params = s.params := by rw [State.fills_keeps]
@[simp] theorem State.fills_mem : (s.fills gs).mem = s.mem := by rw [State.fills_keeps]
@[simp] theorem State.fills_ctx : (s.fills gs).ctx = s.ctx := by rw [State.fills_keeps]

end

/-- A state with the same parameters, registers and context has the same hash input. -/
theorem hashInput_congr {s t : State} (hp : t.params = s.params) (hm : t.mem = s.mem) (hc : t.ctx = s.ctx) :
    hashInput t = hashInput s := by
  simp [hashInput, hp, hm, hc]

theorem cachedHash_fill (s : State) (g g' : Nat) (cid : CacheId) :
    (s.fill g).cachedHash g' cid
      = if s.params.hashCacheEnabled = true ∧ s.cachedHash g s.ctx.cid = none ∧ g' = g ∧ cid = s.ctx.cid
        then some (groupValue s g) else s.cachedHash g' cid := by
  unfold State.fill
  split
  · rename_i h; rw [cachedHash_putHash]; simp [h]
  · rename_i h; rw [if_neg]; tauto

/-- Reading one group's value does not change what any group's value is. -/
theorem groupValue_fill (s : State) (g g' : Nat) : groupValue (s.fill g) g' = groupValue s g' := by
  unfold groupValue
  rw [State.fill_params, State.fill_ctx, State.fill_mem, cachedHash_fill,
    hashInput_congr (State.fill_params s g) (State.fill_mem s g) (State.fill_ctx s g)]
  cases he : s.params.hashCacheEnabled with
  | false => rfl
  | true =>
    by_cases hg : g' = g
    · subst hg
      cases hc : s.cachedHash g' s.ctx.cid with
      | none => simp [groupValue, he, hc]
      | some v => simp
    · simp [hg]

theorem groupValue_fills (s : State) (gs : List Nat) (g : Nat) : groupValue (s.fills gs) g = groupValue s g := by
  induction gs generalizing s with
  | nil => rfl
  | cons a gs ih => rw [State.fills_cons, ih, groupValue_fill]

theorem hashSelectorsOk_congr {s t : State} (hp : t.params = s.params) (hm : t.mem = s.mem) :
    hashSelectorsOk t ↔ hashSelectorsOk s := by
  simp [hashSelectorsOk, hp, hm]

theorem groupReady_fill {s : State} {g : Nat} (h : groupReady s g) (g' : Nat) :
    groupReady (s.fill g) g' ↔ groupReady s g' := by
  have hs : hashSelectorsOk (s.fill g) ↔ hashSelectorsOk s :=
    hashSelectorsOk_congr (State.fill_params s g) (State.fill_mem s g)
  unfold groupReady
  rw [hs, State.fill_params, State.fill_ctx, cachedHash_fill]
  by_cases hg : g' = g
  · subst hg
    rcases h with h | h
    · have : s.cachedHash g' s.ctx.cid ≠ none := by intro hn; simp [hn] at h
      simp [this]
    · constructor <;> intro _ <;> exact .inr h
  · simp [hg]

theorem groupReady_fills {s : State} {gs : List Nat} (h : ∀ g ∈ gs, groupReady s g) (g' : Nat) :
    groupReady (s.fills gs) g' ↔ groupReady s g' := by
  induction gs generalizing s with
  | nil => rfl
  | cons a gs ih =>
    have ha := h a (.head _)
    rw [State.fills_cons, ih (fun g hg => (groupReady_fill ha g).mpr (h g (.tail _ hg))), groupReady_fill ha]

/-- What the cache holds after reading groups: each of their values in the open context's entry, where caching is on;
every other entry as before. -/
theorem cachedHash_fills (s : State) (gs : List Nat) (g : Nat) (cid : CacheId) :
    (s.fills gs).cachedHash g cid = if s.params.hashCacheEnabled = true ∧ cid = s.ctx.cid ∧ g ∈ gs
      then some (groupValue s g) else s.cachedHash g cid := by
  induction gs generalizing s with
  | nil => simp [State.fills]
  | cons a gs ih =>
    rw [State.fills_cons, ih, State.fill_params, State.fill_ctx, groupValue_fill, cachedHash_fill]
    by_cases he : s.params.hashCacheEnabled = true ∧ cid = s.ctx.cid
    · obtain ⟨he, rfl⟩ := he
      by_cases hg : g ∈ gs
      · simp [he, hg]
      · by_cases ha : g = a
        · subst ha
          cases hc : s.cachedHash g s.ctx.cid with
          | none => simp [he, hg]
          | some v => simp [he, hg, hc, groupValue]
        · simp [he, hg, ha]
    · rw [if_neg fun h => he ⟨h.1, h.2.1⟩, if_neg fun h => he ⟨h.1, h.2.2.2⟩, if_neg fun h => he ⟨h.1, h.2.1⟩]

/-- Reading groups is what `cachesReads` says. -/
theorem cachesReads_fills (s : State) (gs : List Nat) : cachesReads s (s.fills gs) (· ∈ gs) :=
  fun g cid => ⟨fun h => by rw [cachedHash_fills, if_pos h], fun h => by rw [cachedHash_fills, if_neg h]⟩

/-- HG_value: the group's value, and the state that has cached it (R144). -/
theorem hashValue_ok {s : State} {g : Nat} (h : groupReady s g) : hashValue s g = .ok (groupValue s g, s.fill g) := by
  unfold hashValue groupValue State.fill
  cases he : s.params.hashCacheEnabled with
  | false =>
    have hs : hashSelectorsOk s := by simpa [groupReady, he] using h
    simp [hashXbar_ok hs]
  | true =>
    cases hc : s.cachedHash g s.ctx.cid with
    | none =>
      have hs : hashSelectorsOk s := by simpa [groupReady, he, hc] using h
      simp [hashXbar_ok hs, groupValue, he, hc]
    | some v => simp

theorem hashValue_error {s : State} {g : Nat} (h : ¬ groupReady s g) :
    ∃ n v, hashValue s g = .error ⟨.bounds, .index n v⟩ := by
  obtain ⟨h1, h2⟩ := not_or.mp h
  obtain ⟨n, v, hx⟩ := hashXbar_error h2
  refine ⟨n, v, ?_⟩
  unfold hashValue
  cases he : s.params.hashCacheEnabled with
  | false => simp [hx]
  | true =>
    cases hc : s.cachedHash g s.ctx.cid with
    | none => simp [hx]
    | some v => simp [he, hc] at h1

/-- R142: HashOut is the OW bits that ComputeBit gives. -/
theorem testBit_hashOut (p : Params) (regs : Cells Word) (input : List (Byte × Bool)) (g o : Nat) (h : o < p.ow) :
    (hashOut p regs input g).testBit o = computeBit p regs input g o := by
  simp [hashOut, testBit_assembleBits, h]

theorem hashOut_lt (p : Params) (regs : Cells Word) (input : List (Byte × Bool)) (g : Nat) :
    hashOut p regs input g < 2 ^ p.ow := by
  have := assembleBits_lt ((List.range p.ow).map fun o => computeBit p regs input g o)
  simpa [hashOut] using this

theorem groupValue_lt {s : State} (h : s.valuesFit) (g : Nat) : groupValue s g < 2 ^ s.params.ow := by
  unfold groupValue
  split
  · rename_i v _ hc
    rcases Cells.read_mem (dflt := fun _ => none) (k := hashKey g s.ctx.cid) s.hashCache with hm | hm
    · exact h.1 _ hm v (by simpa [State.cachedHash] using hc)
    · rw [State.cachedHash, hm] at hc; cases hc
  · exact hashOut_lt ..

/-! ## Hash bytes (R162) -/

theorem sum_assemble (v : Nat → Nat) (w n : Nat) :
    (List.range n).foldl (fun acc j => acc + v j * 2 ^ (j * w)) 0 = assemble w ((List.range n).map v) := by
  induction n with
  | zero => rfl
  | succ n ih =>
    rw [List.range_succ, List.foldl_append, ih, List.map_append, assemble_append]
    simp [assemble, Nat.mul_comm]

/-- One iteration of a loop that reads group values. -/
theorem groups_fold {s : State} {gs : List Nat} (hr : ∀ g ∈ gs, groupReady s g) (a w : Nat) :
    foldOp (fun (acc : Nat × State) g => do
        let (v, s') ← hashValue acc.2 g
        .ok (acc.1 + v * 2 ^ (g * w), s')) (a, s) gs
      = .ok (gs.foldl (fun acc g => acc + groupValue s g * 2 ^ (g * w)) a, s.fills gs) := by
  induction gs generalizing s a with
  | nil => rfl
  | cons g gs ih =>
    rw [foldOp_cons, hashValue_ok (hr g (.head _))]
    simp only [ok_bind]
    rw [ih (fun g' hg' => (groupReady_fill (hr g (.head _)) g').mpr (hr g' (.tail _ hg')))]
    simp [State.fills_cons, groupValue_fill]

/-- HashByte: the byte of the concatenation, with the cache effect of reading every group (R162). -/
theorem hashByte_ok {s : State} {n : Nat} (h : hashByteReady s n) :
    hashByte s n = .ok (hashByteValue s n, s.fills (List.range s.params.hg)) := by
  unfold hashByte
  rw [if_pos h.1, groups_fold (fun g hg => h.2 g (List.mem_range.mp hg)), sum_assemble]
  rfl

theorem hashByte_error {s : State} {n : Nat} (h : ¬ hashByteReady s n) :
    ∃ name v, hashByte s n = .error ⟨.bounds, .index name v⟩ := by
  unfold hashByte
  split
  · rename_i hb
    have hg : ¬ ∀ g ∈ List.range s.params.hg, groupReady s g := fun hg => h ⟨hb, fun g h => hg g (List.mem_range.mpr h)⟩
    have key : ∀ (gs : List Nat) (t : State) (a : Nat), (¬ ∀ g ∈ gs, groupReady t g) →
        ∃ name v, foldOp (fun (acc : Nat × State) g => do
          let (v, s') ← hashValue acc.2 g
          .ok (acc.1 + v * 2 ^ (g * s.params.ow), s')) (a, t) gs = .error ⟨.bounds, .index name v⟩ := by
      intro gs
      induction gs with
      | nil => intro t a h; exact absurd (by simp) h
      | cons g gs ih =>
        intro t a h
        by_cases hr : groupReady t g
        · obtain ⟨name, v, hmv⟩ := ih (t.fill g) (a + groupValue t g * 2 ^ (g * s.params.ow)) (fun hall => h (fun g' hg' => by
            rcases List.mem_cons.mp hg' with rfl | hg'
            · exact hr
            · exact (groupReady_fill hr g').mp (hall g' hg')))
          exact ⟨name, v, by rw [foldOp_cons, hashValue_ok hr]; exact hmv⟩
        · obtain ⟨name, v, hmv⟩ := hashValue_error hr
          exact ⟨name, v, by rw [foldOp_cons, hmv]; rfl⟩
    obtain ⟨name, v, hmv⟩ := key _ s 0 hg
    exact ⟨name, v, by rw [hmv]; rfl⟩
  · exact ⟨_, _, rfl⟩

/-! ## Version substitution (R163) -/

theorem versionSubst_ok {p : Params} {phv : Phv} {slots : List Slot} {width : Nat} (h : slotsOk p slots width)
    (word : Nat) : versionSubst p phv slots width word = .ok (substituted phv slots word) := by
  refine (foldOp_eq_foldl (fun _ => True) (fun w x _ hx => ⟨?_, trivial⟩) trivial).1
  unfold substStep
  cases he : x.en with
  | false => simp
  | true => simp [h x hx he]

theorem versionSubst_error {p : Params} {phv : Phv} {slots : List Slot} {width : Nat} (h : ¬ slotsOk p slots width)
    (word : Nat) : ∃ n v, versionSubst p phv slots width word = .error ⟨.bounds, .index n v⟩ := by
  unfold versionSubst
  induction slots generalizing word with
  | nil => exact absurd (by intro x hx; simp at hx) h
  | cons x slots ih =>
    rw [foldOp_cons]
    unfold substStep
    split
    · split
      · split
        · rename_i he hp hb
          exact ih (fun hall => h (fun y hy => by
            rcases List.mem_cons.mp hy with rfl | hy
            · exact fun _ => ⟨hp, hb⟩
            · exact hall y hy)) _
        · exact ⟨_, _, rfl⟩
      · exact ⟨_, _, rfl⟩
    · rename_i he
      exact ih (fun hall => h (fun y hy => by
        rcases List.mem_cons.mp hy with rfl | hy
        · intro h'; exact absurd h' he
        · exact hall y hy)) _

/-- A substituted bit is that of the last enabled slot that names it. -/
theorem testBit_substituted (phv : Phv) (slots : List Slot) (word q : Nat) :
    (substituted phv slots word).testBit q
      = match slots.reverse.find? fun x => x.en && decide (x.pos = q) with
        | some x => (phvVersion phv x.vs).testBit x.vbit
        | none => word.testBit q := by
  unfold substituted
  induction slots using List.reverseRecOn generalizing word with
  | nil => rfl
  | append_singleton slots x ih =>
    rw [List.foldl_append, List.reverse_append]
    simp only [List.foldl_cons, List.foldl_nil, List.reverse_cons, List.reverse_nil, List.nil_append, List.cons_append,
      List.find?_cons]
    cases he : x.en with
    | false => simp [ih]
    | true =>
      by_cases hq : x.pos = q
      · simp [hq, testBit_putBit]
      · simp [hq, testBit_putBit, Ne.symm hq, ih]

/-! ## Match-data and TCAM-row crossbars -/

/-- The groups that byte j of row r reads: all for a hash byte (R162), else none. -/
def byteGroups (s : State) (r j : Nat) : List Nat :=
  if (cfgMx s.params s.mem.regs r j).en = true ∧ s.params.hashThreshold ≤ (cfgMx s.params s.mem.regs r j).val
  then List.range s.params.hg else []

/-- The groups that row r's key reads, in order. -/
def keyGroups (s : State) (r : Nat) : List Nat := (List.range s.params.xo).flatMap (byteGroups s r)

theorem mem_keyGroups {s : State} {r g : Nat} : g ∈ keyGroups s r ↔ readsHash s r ∧ g < s.params.hg := by
  simp only [keyGroups, List.mem_flatMap, List.mem_range, byteGroups, List.mem_ite_nil_right]
  exact ⟨fun ⟨j, hj, h, hg⟩ => ⟨⟨j, hj, h⟩, hg⟩, fun ⟨⟨j, hj, h⟩, hg⟩ => ⟨j, hj, h, hg⟩⟩

theorem byteGroups_fills (s : State) (gs : List Nat) (r j : Nat) : byteGroups (s.fills gs) r j = byteGroups s r j := by
  simp only [byteGroups, State.fills_params, State.fills_mem]

theorem matchXbarByte_ok {s : State} {r j : Nat} (h : (cfgMx s.params s.mem.regs r j).en = true →
    if s.params.hashThreshold ≤ (cfgMx s.params s.mem.regs r j).val
    then hashByteReady s ((cfgMx s.params s.mem.regs r j).val - s.params.hashThreshold)
    else (cfgMx s.params s.mem.regs r j).val < s.params.phvBytes) :
    matchXbarByte s r j = .ok (matchByteValue s r j, s.fills (byteGroups s r j))
      ∧ ∀ g ∈ byteGroups s r j, groupReady s g := by
  unfold matchXbarByte matchByteValue byteGroups
  cases he : (cfgMx s.params s.mem.regs r j).en with
  | false => exact ⟨by simp [he, State.fills], by simp⟩
  | true =>
    have h := h he
    by_cases hT : s.params.hashThreshold ≤ (cfgMx s.params s.mem.regs r j).val
    · rw [if_pos hT] at h
      exact ⟨by simp [he, hT, hashByte_ok h], fun g hg => h.2 g (by simpa [hT] using hg)⟩
    · rw [if_neg hT] at h
      exact ⟨by simp [he, hT, h, State.fills], by simp [hT]⟩

theorem matchXbarByte_error {s : State} {r j : Nat} (h : ¬ ((cfgMx s.params s.mem.regs r j).en = true →
    if s.params.hashThreshold ≤ (cfgMx s.params s.mem.regs r j).val
    then hashByteReady s ((cfgMx s.params s.mem.regs r j).val - s.params.hashThreshold)
    else (cfgMx s.params s.mem.regs r j).val < s.params.phvBytes)) :
    ∃ name v, matchXbarByte s r j = .error ⟨.bounds, .index name v⟩ := by
  obtain ⟨he, h⟩ := Classical.not_imp.mp h
  unfold matchXbarByte
  by_cases hT : s.params.hashThreshold ≤ (cfgMx s.params s.mem.regs r j).val
  · rw [if_pos hT] at h
    simpa [he, hT] using hashByte_error h
  · rw [if_neg hT] at h
    exact ⟨_, _, by simp [he, hT, h]; rfl⟩

/-- Byte j of row r can be read. -/
abbrev byteReady (s : State) (r j : Nat) : Prop :=
  (cfgMx s.params s.mem.regs r j).en = true →
    if s.params.hashThreshold ≤ (cfgMx s.params s.mem.regs r j).val
    then hashByteReady s ((cfgMx s.params s.mem.regs r j).val - s.params.hashThreshold)
    else (cfgMx s.params s.mem.regs r j).val < s.params.phvBytes

theorem byteReady_fills {s : State} {gs : List Nat} (h : ∀ g ∈ gs, groupReady s g) (r j : Nat) :
    byteReady (s.fills gs) r j ↔ byteReady s r j := by
  unfold byteReady hashByteReady
  simp only [State.fills_params, State.fills_mem]
  have hn : (∀ g < s.params.hg, groupReady (s.fills gs) g)
      ↔ ∀ g < s.params.hg, groupReady s g :=
    forall_congr' fun g => forall_congr' fun _ => groupReady_fills h g
  simp only [hn]

theorem hashByteValue_fills (s : State) (gs : List Nat) (n : Nat) : hashByteValue (s.fills gs) n = hashByteValue s n := by
  unfold hashByteValue
  rw [State.fills_params, show groupValue (s.fills gs) = groupValue s from funext (groupValue_fills s gs)]

theorem matchByteValue_fills (s : State) (gs : List Nat) (r j : Nat) :
    matchByteValue (s.fills gs) r j = matchByteValue s r j := by
  unfold matchByteValue
  simp only [State.fills_params, State.fills_mem, State.fills_ctx, hashByteValue_fills]

theorem valuesFit_fill {s : State} (h : s.valuesFit) (g : Nat) : (s.fill g).valuesFit := by
  have hv := groupValue_lt h g
  unfold State.fill
  split
  · refine ⟨fun x hx v hvx => ?_, h.2⟩
    rcases Cells.mem_write (dflt := fun _ => none) (m := s.hashCache) (k := hashKey g s.ctx.cid)
      (v := some (groupValue s g)) hx with rfl | hx
    · obtain rfl : groupValue s g = v := by simpa using hvx
      exact hv
    · exact h.1 x hx v hvx
  · exact h

theorem valuesFit_fills {s : State} (h : s.valuesFit) (gs : List Nat) : (s.fills gs).valuesFit := by
  induction gs generalizing s with
  | nil => exact h
  | cons g gs ih => exact ih (valuesFit_fill h g)

theorem bytes_fold {s : State} {r : Nat} (js : List Nat) (h : ∀ j ∈ js, byteReady s r j) (a : Nat) :
    foldOp (fun (acc : Nat × State) j => do
          let (b, s') ← matchXbarByte acc.2 r j
          .ok (acc.1 + b * 2 ^ (8 * j), s')) (a, s) js
        = .ok (js.foldl (fun acc j => acc + matchByteValue s r j * 2 ^ (8 * j)) a,
            s.fills (js.flatMap (byteGroups s r)))
      ∧ ∀ g ∈ js.flatMap (byteGroups s r), groupReady s g := by
  induction js generalizing s a with
  | nil => exact ⟨rfl, by simp⟩
  | cons j js ih =>
    obtain ⟨h1, h2⟩ := matchXbarByte_ok (h j (.head _))
    obtain ⟨h3, h4⟩ := ih (s := s.fills (byteGroups s r j))
      (fun j' hj' => (byteReady_fills h2 r j').mpr (h j' (.tail _ hj'))) (a + matchByteValue s r j * 2 ^ (8 * j))
    simp only [matchByteValue_fills, show byteGroups (s.fills (byteGroups s r j)) r = byteGroups s r
      from funext (byteGroups_fills s _ r)] at h3 h4
    refine ⟨?_, fun g hg => ?_⟩
    · rw [foldOp_cons, h1]
      simp only [ok_bind]
      rw [h3, List.flatMap_cons, State.fills_append]
      rfl
    · rw [List.flatMap_cons] at hg
      rcases List.mem_append.mp hg with hg | hg
      · exact h2 g hg
      · exact (groupReady_fills h2 g).mp (h4 g hg)

theorem bytes_fold_error {s : State} {r : Nat} (js : List Nat) (h : ¬ ∀ j ∈ js, byteReady s r j) (a : Nat) :
    ∃ name v, foldOp (fun (acc : Nat × State) j => do
          let (b, s') ← matchXbarByte acc.2 r j
          .ok (acc.1 + b * 2 ^ (8 * j), s')) (a, s) js = .error ⟨.bounds, .index name v⟩ := by
  induction js generalizing s a with
  | nil => exact absurd (by simp) h
  | cons j js ih =>
    by_cases hj : byteReady s r j
    · obtain ⟨h1, h3⟩ := matchXbarByte_ok hj
      obtain ⟨name, v, hmv⟩ := ih (s := s.fills (byteGroups s r j)) (fun hall => h (fun j' hj' => by
        rcases List.mem_cons.mp hj' with rfl | hj'
        · exact hj
        · exact (byteReady_fills h3 r j').mp (hall j' hj'))) (a + matchByteValue s r j * 2 ^ (8 * j))
      exact ⟨name, v, by rw [foldOp_cons, h1]; exact hmv⟩
    · obtain ⟨name, v, hmv⟩ := matchXbarByte_error hj
      exact ⟨name, v, by rw [foldOp_cons, hmv]; rfl⟩

theorem sum_bytes (v : Nat → Nat) (n : Nat) :
    (List.range n).foldl (fun acc j => acc + v j * 2 ^ (8 * j)) 0 = assemble 8 ((List.range n).map v) := by
  have := sum_assemble v 8 n
  simpa [Nat.mul_comm] using this

/-- MatchXbar: the row's key, with the cache effect of the hash bytes it reads (R161, R162). -/
theorem matchXbar_ok {s : State} {r : Nat} (h : matchReady s r) :
    matchXbar s r = .ok (matchKeyValue s r, s.fills (keyGroups s r)) ∧ ∀ g ∈ keyGroups s r, groupReady s g := by
  obtain ⟨h1, h2⟩ := bytes_fold (List.range s.params.xo) (fun j hj => h.1 j (List.mem_range.mp hj)) 0
  refine ⟨?_, h2⟩
  unfold matchXbar
  rw [h1]
  simp only [ok_bind]
  rw [versionSubst_ok h.2, sum_bytes]
  rfl

theorem matchXbar_error {s : State} {r : Nat} (h : ¬ matchReady s r) :
    ∃ name v, matchXbar s r = .error ⟨.bounds, .index name v⟩ := by
  unfold matchXbar
  by_cases hb : ∀ j ∈ List.range s.params.xo, byteReady s r j
  · obtain ⟨h1, _⟩ := bytes_fold (List.range s.params.xo) hb 0
    obtain ⟨name, v, hmv⟩ := versionSubst_error (phv := s.ctx.phv)
      (fun hs => h ⟨fun j hj => hb j (List.mem_range.mpr hj), hs⟩) _
    exact ⟨name, v, by rw [h1]; simp only [ok_bind]; rw [hmv]; rfl⟩
  · obtain ⟨name, v, hmv⟩ := bytes_fold_error (List.range s.params.xo) hb 0
    exact ⟨name, v, by rw [hmv]; rfl⟩

/-- TcamXbar: the unit's search word (R164). -/
theorem tcamXbar_ok {s : State} {u : Nat} (h : tcamReady s u) : tcamXbar s u = .ok (tcamWordValue s u) := by
  unfold tcamXbar
  rw [mapOp_eq_map (g := fun k => (cfgTx s.params s.mem.regs u k).en && phvBit s.ctx.phv (cfgTx s.params s.mem.regs u k).val)]
  · simp only [ok_bind]
    rw [versionSubst_ok h.2]
    rfl
  · intro k hk
    have := h.1 k (List.mem_range.mp hk)
    unfold tcamXbarBit
    cases he : (cfgTx s.params s.mem.regs u k).en <;> simp_all

theorem tcamXbar_error {s : State} {u : Nat} (h : ¬ tcamReady s u) :
    ∃ name v, tcamXbar s u = .error ⟨.bounds, .index name v⟩ := by
  unfold tcamXbar
  cases hx : mapOp (tcamXbarBit s u) (List.range s.params.tw) with
  | ok bits =>
    have hb : ∀ k < s.params.tw, (cfgTx s.params s.mem.regs u k).en = true →
        (cfgTx s.params s.mem.regs u k).val < 8 * s.params.phvBytes := by
      intro k hk he
      obtain ⟨y, hy⟩ := mapOp_ok hx k (List.mem_range.mpr hk)
      unfold tcamXbarBit at hy
      by_contra hc
      simp [he, hc, raiseBounds] at hy
    obtain ⟨name, v, hmv⟩ := versionSubst_error (phv := s.ctx.phv) (fun hs => h ⟨hb, hs⟩) (assembleBits bits)
    exact ⟨name, v, by simpa using hmv⟩
  | error v =>
    obtain ⟨k, _, hy⟩ := mapOp_error hx
    unfold tcamXbarBit at hy
    simp only [raiseBounds] at hy
    split at hy
    · split at hy
      · simp at hy
      · simp at hy; exact ⟨_, _, by rw [error_bind, ← hy]⟩
    · simp at hy

end Sys2Proof.Machine
end

