-- ==== Sys2Proof/Laws/Change.lean ====
section
/-! SUPPORT. What a command can do to the state, said once: a chain of the primitive changes below, each with the
operations that make it; and which faults it can raise. Every whole-machine claim is an induction over them. -/

namespace Sys2Proof.Machine

/-- The fields of an SRAM entry fit (R32). -/
abbrev sramFits (p : Params) (x : SramEntry) : Prop :=
  x.value < 2 ^ p.ew ∧ x.mask < 2 ^ p.ew ∧ x.vv < 2 ^ p.vvw

/-- The fields of a TCAM entry fit (R33). -/
abbrev tcamFits (p : Params) (x : TcamEntry) : Prop := x.word0 < 2 ^ p.tw ∧ x.word1 < 2 ^ p.tw

/-- The fields of a stash entry fit (R34). -/
abbrev stashFits (p : Params) (x : StashEntry) : Prop :=
  x.value < 2 ^ p.ew ∧ x.mask < 2 ^ p.ew ∧ x.vv < 2 ^ p.vvw

/-- The width of a row bus (R40). -/
def busWidth (p : Params) : RowBus → Nat
  | .color => p.cw
  | .overflow => p.ovw

/-- One primitive change of the state by command i. -/
inductive Prim (i : Instr) (s : State) : State → Prop
  | openContext (phv : Phv) (cid : CacheId) (hi : i = .lookupBegin phv cid)
      (h : phv.bytes.length = s.params.phvBytes ∧ phv.valid < 2 ^ s.params.phvBytes
        ∧ phv.ingress < 2 ^ s.params.verBits ∧ phv.egress < 2 ^ s.params.verBits) :
      Prim i s ((((s.openContext phv cid).clearHashCache).clearInhibits).clearColor)
  | closeContext (hi : opcode i = 0x02) : Prim i s { s with ctx := { s.ctx with isOpen := false } }
  | fill (g : Nat) (hi : opcode i ∈ [0x11, 0x18, 0x22, 0x32]) : Prim i s (s.fill g)
  | putSram (r c a e : Nat) (x : SramEntry) (hi : opcode i ∈ [0x20, 0x21])
      (h : sramFits s.params (s.sramAt r c a e) → sramFits s.params x) : Prim i s (s.putSram r c a e x)
  | putTcam (u idx : Nat) (x : TcamEntry) (hi : opcode i ∈ [0x28, 0x29])
      (h : tcamFits s.params (s.tcamAt u idx) → tcamFits s.params x) : Prim i s (s.putTcam u idx x)
  | putStash (r w : Nat) (x : StashEntry) (hi : opcode i ∈ [0x30, 0x31])
      (h : stashFits s.params (s.stashAt r w) → stashFits s.params x) : Prim i s (s.putStash r w x)
  | putInhibit (r w : Nat) (x : Inhibit) (hi : opcode i = 0x33) : Prim i s (s.putInhibit r w x)
  | refreshRows (c : Nat) (hi : opcode i = 0x22) (h : c < s.params.nc) : Prim i s (s.refreshRows c)
  | putBusHit (b : Nat) (x : Option BusHit) (hi : opcode i = 0x22) : Prim i s (s.putBusHit b x)
  | warnBus (b : Nat) (x y : BusHit) (hi : opcode i = 0x22) (h : s.params.relaxMultiHit = true) :
      Prim i s (s.warn ⟨.busContention, .contention b x y⟩ i)
  | draw (hi : opcode i ∈ [0x22, 0x45]) : Prim i s s.draw
  | putLtcHit (l : Nat) (x : Option LtcHit) (hi : opcode i = 0x2D) : Prim i s (s.putLtcHit l x)
  | recomputeBus (k : BusKind) (b : Nat) (hi : opcode i = 0x38) (h : b < busCount s.params k) :
      Prim i s { s with busMap := BusMap.recomputeBus s.params s.mem.regs s.busMap k b }
  | recomputeLtcam (l : Nat) (hi : opcode i = 0x39) (h : l < s.params.nltc) :
      Prim i s { s with busMap := BusMap.recomputeLtcam s.params s.mem.regs s.busMap l }
  | startPass (flags : Nat) (hi : opcode i = 0x40) : Prim i s (s.startPass flags)
  | putGw (lt : Nat) (x : Gateway) (hi : opcode i = 0x41) : Prim i s (s.putGw lt x)
  | visit (lt th : Nat) (active isTarget inhibit : Bool) (hi : opcode i ∈ [0x42, 0x43]) (h : th < 3) :
      Prim i s (s.putPredBits lt th (visitBits (s.predBitsAt lt th) active isTarget inhibit))
  | putTarget (th : Nat) (x : Option Nat) (hi : opcode i ∈ [0x42, 0x43]) (h : ∀ lt ∈ x, lt < 16) :
      Prim i s (s.putTarget th x)
  | putCursor (th : Nat) (x : Cursor) (hi : opcode i ∈ [0x42, 0x43]) (h : ∀ q, x = .pos q → q < 16) :
      Prim i s (s.putCursor th x)
  | endPass (hi : opcode i = 0x44) : Prim i s (s.setPass .ended)
  | clearColor (hi : opcode i = 0x48) : Prim i s s.clearColor
  | contribute (bus : RowBus) (r : Nat) (pair : Nat × Nat) (v : Nat) (hi : opcode i ∈ [0x49, 0x4A])
      (h : v < 2 ^ busWidth s.params bus) (hp : pair.1 < s.params.nmc ∧ pair.2 < s.params.nalu) :
      Prim i s (s.putColor r ((s.colorAt r).contribute bus pair v))
  | warnColor (bus : RowBus) (r : Nat) (x y : Nat × Nat) (hi : opcode i ∈ [0x49, 0x4A])
      (h : s.params.relaxColorBus = true) : Prim i s (s.warn ⟨.colorBusMix, .mix r bus x y⟩ i)
  | regApply (o : Nat) (d : Word) (hi : opcode i ∈ [0x51, 0x53]) : Prim i s (s.regApply o d)
  | countWrite (hi : opcode i = 0x51) : Prim i s s.countWrite
  | countOverflow (hi : opcode i = 0x51) : Prim i s s.countOverflow
  | bufferWrite (o : Nat) (d : Word) (hi : opcode i = 0x51) (h : s.atomic.buf.length < 64) :
      Prim i s (s.bufferWrite o d)
  | beginWindow (b : Bool) (hi : opcode i = 0x52) : Prim i s { s with atomic := ⟨.begun, b, [], 0, 0⟩ }
  | endWindow (hi : opcode i = 0x53) : Prim i s (s.setAtomic .ended)

/-- What command i makes of a state: a chain of primitive changes. -/
abbrev Change (i : Instr) : State → State → Prop := Relation.ReflTransGen (Prim i)

/-- The faults that command i can raise (R344). -/
def Raises (i : Instr) (s : State) (v : Violation) : Prop :=
  raisedBy v.code (opcode i) = true ∧ (v.code = .colorBusMix → s.params.relaxColorBus = false)
    ∧ (v.code = .busContention → s.params.relaxMultiHit = false)

/-! ## A body and its two outcomes -/

/-- Every result of x has P, and every violation it raises has Q. -/
def Spec {α : Type} (Q : Violation → Prop) (P : α → Prop) : Op α → Prop
  | .ok a => P a
  | .error v => Q v

section
variable {α β σ : Type} {Q : Violation → Prop} {P : α → Prop}

theorem spec_bind {P : β → Prop} {x : Op α} {f : α → Op β} (h : Spec Q (fun a => Spec Q P (f a)) x) :
    Spec Q P (x >>= f) := by
  cases x <;> exact h

theorem spec_mono {P' : α → Prop} {x : Op α} (h : Spec Q P x) (hp : ∀ a, P a → P' a) : Spec Q P' x := by
  cases x with
  | ok a => exact hp a h
  | error v => exact h

theorem spec_foldOp {f : σ → α → Op σ} (P : σ → Prop) {xs : List α} {s : σ} (hs : P s)
    (hf : ∀ t x, P t → x ∈ xs → Spec Q P (f t x)) : Spec Q P (foldOp f s xs) := by
  induction xs generalizing s with
  | nil => exact hs
  | cons x xs ih =>
    rw [foldOp_cons]
    exact spec_bind (spec_mono (hf s x hs (.head _)) fun t ht => ih ht fun t y ht hy => hf t y ht (.tail _ hy))

theorem spec_mapOp {f : α → Op β} {xs : List α} (hf : ∀ x ∈ xs, Spec Q (fun _ => True) (f x)) :
    Spec Q (fun _ => True) (mapOp f xs) := by
  induction xs with
  | nil => trivial
  | cons x xs ih =>
    rw [mapOp_cons]
    exact spec_bind (spec_mono (hf x (.head _)) fun _ _ =>
      spec_bind (spec_mono (ih fun y hy => hf y (.tail _ hy)) fun _ _ => trivial))

theorem spec_require {P : Unit → Prop} {c : Bool} {v : Violation} (hq : c = false → Q v) (hp : c = true → P ()) :
    Spec Q P (require c v) := by
  unfold require; split
  · rename_i h; exact hp h
  · rename_i h; exact hq (by simpa using h)

theorem spec_requireContext {P : Unit → Prop} {s : State} (hq : Q ⟨.noLookupContext, .context .noContext⟩)
    (hp : s.ctx.isOpen = true → P ()) : Spec Q P (requireContext s) := spec_require (fun _ => hq) hp

theorem spec_checkIndex {P : Unit → Prop} {name : IndexName} {width bound v : Nat}
    (hq : ∀ n v, Q ⟨.bounds, .index n v⟩) (hp : v < 2 ^ width → v < bound → P ()) :
    Spec Q P (checkIndex name width bound v) := by
  unfold checkIndex; split
  · rename_i h; exact hp h.1 h.2
  · exact hq _ _

theorem spec_checkWidth {P : Unit → Prop} {name : IndexName} {width v : Nat} (hq : ∀ n v, Q ⟨.bounds, .index n v⟩)
    (hp : v < 2 ^ width → P ()) : Spec Q P (checkWidth name width v) := by
  unfold checkWidth; split
  · rename_i h; exact hp h
  · exact hq _ _

theorem spec_checkSramEntry {P : Unit → Prop} {p : Params} {r c a e : Nat} (hq : ∀ n v, Q ⟨.bounds, .index n v⟩)
    (hp : P ()) : Spec Q P (checkSramEntry p r c a e) :=
  spec_bind <| spec_checkIndex hq fun _ _ => spec_bind <| spec_checkIndex hq fun _ _ =>
    spec_bind <| spec_checkIndex hq fun _ _ => spec_checkIndex hq fun _ _ => hp

theorem spec_checkTcamEntry {P : Unit → Prop} {p : Params} {u idx : Nat} (hq : ∀ n v, Q ⟨.bounds, .index n v⟩)
    (hp : P ()) : Spec Q P (checkTcamEntry p u idx) :=
  spec_bind <| spec_checkIndex hq fun _ _ => spec_checkIndex hq fun _ _ => hp

theorem spec_checkStashEntry {P : Unit → Prop} {p : Params} {r w : Nat} (hq : ∀ n v, Q ⟨.bounds, .index n v⟩)
    (hp : P ()) : Spec Q P (checkStashEntry p r w) :=
  spec_bind <| spec_checkIndex hq fun _ _ => spec_checkIndex hq fun _ _ => hp

theorem spec_checkBus {P : Unit → Prop} {p : Params} {k b : Nat} (hq : ∀ n v, Q ⟨.bounds, .index n v⟩)
    (hp : b < busCount p (busKind k) → P ()) : Spec Q P (checkBus p k b) :=
  spec_bind <| spec_checkWidth hq fun _ => spec_checkIndex hq fun _ h => hp h

theorem spec_checkPhv {P : Unit → Prop} {p : Params} {phv : Phv} (hq : ∀ n v, Q ⟨.bounds, .index n v⟩)
    (hp : phv.bytes.length = p.phvBytes ∧ phv.valid < 2 ^ p.phvBytes ∧ phv.ingress < 2 ^ p.verBits
      ∧ phv.egress < 2 ^ p.verBits → P ()) : Spec Q P (checkPhv p phv) := by
  refine spec_bind <| spec_require (fun _ => hq _ _) fun hl => ?_
  exact spec_bind <| spec_checkWidth hq fun h1 => spec_bind <| spec_checkWidth hq fun h2 =>
    spec_checkWidth hq fun h3 => hp ⟨by simpa using hl, h1, h2, h3⟩

/-! ## Data path -/

theorem spec_hashXbar {s : State} (hq : ∀ n v, Q ⟨.bounds, .index n v⟩) :
    Spec Q (fun x => x = hashInput s) (hashXbar s) := by
  by_cases h : hashSelectorsOk s
  · rw [hashXbar_ok h]; rfl
  · obtain ⟨n, v, hv⟩ := hashXbar_error h; rw [hv]; exact hq n v

theorem spec_hashValue {s : State} {g : Nat} (hq : ∀ n v, Q ⟨.bounds, .index n v⟩) :
    Spec Q (fun x : Nat × State => x.2 = s.fill g) (hashValue s g) := by
  by_cases h : groupReady s g
  · rw [hashValue_ok h]; rfl
  · obtain ⟨n, v, hv⟩ := hashValue_error h; rw [hv]; exact hq n v

theorem spec_matchXbar {s : State} {r : Nat} (hq : ∀ n v, Q ⟨.bounds, .index n v⟩) :
    Spec Q (fun x : Nat × State => ∃ gs, x.2 = s.fills gs) (matchXbar s r) := by
  by_cases h : matchReady s r
  · rw [(matchXbar_ok h).1]; exact ⟨_, rfl⟩
  · obtain ⟨n, v, hv⟩ := matchXbar_error h; rw [hv]; exact hq n v

theorem spec_tcamXbar {s : State} {u : Nat} (hq : ∀ n v, Q ⟨.bounds, .index n v⟩) :
    Spec Q (fun _ => True) (tcamXbar s u) := by
  by_cases h : tcamReady s u
  · rw [tcamXbar_ok h]; trivial
  · obtain ⟨n, v, hv⟩ := tcamXbar_error h; rw [hv]; exact hq n v

theorem spec_tcamScan {s : State} {u s1 s0 : Nat} (hq : ∀ n v, Q ⟨.bounds, .index n v⟩) :
    Spec Q (fun _ => True) (tcamScan s u s1 s0) := by
  unfold tcamScan; dsimp only; split
  · trivial
  · exact hq _ _

theorem spec_tcamXbarScan {s : State} {u : Nat} (hq : ∀ n v, Q ⟨.bounds, .index n v⟩) :
    Spec Q (fun _ => True) (tcamXbarScan s u) :=
  spec_bind <| spec_mono (spec_tcamXbar hq) fun _ _ => spec_tcamScan hq

end

theorem change_fills {i : Instr} {s t : State} (hi : opcode i ∈ [0x11, 0x18, 0x22, 0x32]) (h : Change i s t)
    (gs : List Nat) : Change i s (t.fills gs) := by
  induction gs generalizing t with
  | nil => exact h
  | cons g gs ih => exact ih (h.tail (.fill g hi))

/-- A fold keeps what each of its steps keeps. -/
theorem foldl_keeps {α β : Type} (proj : State → β) {f : State → α → State} (h : ∀ s x, proj (f s x) = proj s)
    (l : List α) (s : State) : proj (l.foldl f s) = proj s := by
  induction l generalizing s with
  | nil => rfl
  | cons a l ih => rw [List.foldl_cons, ih, h]

/-- Everything but the predication state. -/
def State.sansPred (s : State) : State := { s with pred := ⟨[], .idle, [], [], [], []⟩ }

theorem keeps_of_sansPred {s t : State} (h : t.sansPred = s.sansPred) : t = { s with pred := t.pred } := by
  cases s; cases t; simp only [State.sansPred, State.mk.injEq] at h ⊢; simp_all

/-- PRED_START changes the predication state alone (R268). -/
theorem startPass_keeps (s : State) (flags : Nat) : s.startPass flags = { s with pred := (s.startPass flags).pred } := by
  refine keeps_of_sansPred ?_
  have h1 : s.setStaticBits.sansPred = s.sansPred := by
    unfold State.setStaticBits
    generalize List.range nlt = ls, List.range nthr = ths
    refine foldl_keeps State.sansPred ?_ ls s
    exact fun t lt => by refine foldl_keeps State.sansPred ?_ ths t; exact fun _ _ => rfl
  have h2 : (s.setStaticBits.startThreads flags).sansPred = s.setStaticBits.sansPred := by
    generalize s.setStaticBits = t
    unfold State.startThreads
    generalize List.range nthr = ths
    refine foldl_keeps State.sansPred ?_ ths t
    exact fun _ _ => rfl
  have h3 : ∀ t : State, (t.clearGateways.setPass .started).sansPred = t.sansPred := fun _ => rfl
  exact (h3 _).trans (h2.trans h1)

/-- Everything but the row cache. -/
def State.sansRows (s : State) : State := { s with rowsCache := [], pendingMapSeq := [] }

theorem keeps_of_sansRows {s t : State} (h : t.sansRows = s.sansRows) :
    t = { s with rowsCache := t.rowsCache, pendingMapSeq := t.pendingMapSeq } := by
  cases s; cases t; simp only [State.sansRows, State.mk.injEq] at h ⊢; simp_all

/-- The lazy recompute changes the row cache and its token alone (R183). -/
theorem refreshRows_keeps (s : State) (c : Nat) : s.refreshRows c
    = { s with rowsCache := (s.refreshRows c).rowsCache, pendingMapSeq := (s.refreshRows c).pendingMapSeq } := by
  refine keeps_of_sansRows ?_
  unfold State.refreshRows
  split
  · rfl
  · generalize List.range nlt = ls
    have h3 : ∀ t : State, (t.putPending c (some s.mapSeq)).sansRows = t.sansRows := fun _ => rfl
    refine (h3 _).trans ?_
    refine foldl_keeps State.sansRows ?_ ls s
    exact fun _ _ => rfl

theorem refreshRows_params (s : State) (c : Nat) : (s.refreshRows c).params = s.params := by
  have h := refreshRows_keeps s c
  generalize s.refreshRows c = t at h
  rw [h]

theorem startPass_params (s : State) (flags : Nat) : (s.startPass flags).params = s.params := by
  have h := startPass_keeps s flags
  generalize s.startPass flags = t at h
  rw [h]

/-- The parameters never change (R20). -/
theorem prim_params {i : Instr} {s t : State} (h : Prim i s t) : t.params = s.params := by
  cases h with
  | fill g => exact State.fill_params s g
  | refreshRows c => exact refreshRows_params s c
  | startPass flags => exact startPass_params s flags
  | _ => simp

theorem change_params {i : Instr} {s t : State} (h : Change i s t) : t.params = s.params := by
  induction h with
  | refl => rfl
  | tail _ hp ih => exact (prim_params hp).trans ih

/-! ## SRAM lookup and the walk -/

section
variable {i : Instr} {s : State} {Q : Violation → Prop}

theorem spec_sramAddress {t : State} {r c : Nat} (hi : opcode i = 0x22) (hq : ∀ n v, Q ⟨.bounds, .index n v⟩)
    (ht : Change i s t) : Spec Q (fun x : Nat × State => Change i s x.2) (sramAddress t r c) := by
  unfold sramAddress
  dsimp only
  split
  · split
    · exact spec_bind <| spec_mono (spec_hashValue hq) fun x hx => by
        obtain ⟨v, u⟩ := x; obtain rfl : u = _ := hx; exact ht.tail (.fill _ (by simp [hi]))
    · exact hq _ _
  · exact hq _ _

theorem spec_lookupRow {acc : List RawHit × State} {c ver r : Nat} (hi : opcode i = 0x22)
    (hq : ∀ n v, Q ⟨.bounds, .index n v⟩) (ht : Change i s acc.2) :
    Spec Q (fun x : List RawHit × State => Change i s x.2) (lookupRow c ver acc r) := by
  unfold lookupRow
  refine spec_bind <| spec_mono (spec_matchXbar hq) fun x hx => ?_
  obtain ⟨k, u⟩ := x
  obtain ⟨gs, rfl⟩ : ∃ gs, u = _ := hx
  exact spec_bind <| spec_mono (spec_sramAddress hi hq (change_fills (by simp [hi]) ht gs)) fun x hx => hx

theorem spec_driveBus {t : State} {b : Nat} {h : BusHit} (hi : opcode i = 0x22)
    (hq : ∀ x, s.params.relaxMultiHit = false → Q ⟨.busContention, .contention b x h⟩) (ht : Change i s t) :
    Spec Q (fun u => Change i s u) (driveBus i t b h) := by
  have hp := change_params ht
  unfold driveBus
  split
  · exact ht.tail (.putBusHit _ _ hi)
  · rename_i prev _
    split
    · exact ht
    · split
      · rename_i hr
        have h1 := ht.tail (.warnBus b prev h hi hr)
        refine Relation.ReflTransGen.tail ?_ (.putBusHit _ _ hi)
        split
        · exact h1
        · exact h1.tail (.draw (by simp [hi]))
      · rename_i hr; exact hq _ (by rw [← hp]; simpa using hr)

theorem spec_reportHit {acc : List HitReport × State} {c : Nat} {h : RawHit} (hi : opcode i = 0x22)
    (hb : ∀ n v, Q ⟨.bounds, .index n v⟩)
    (hq : ∀ b x y, s.params.relaxMultiHit = false → Q ⟨.busContention, .contention b x y⟩) (ht : Change i s acc.2) :
    Spec Q (fun x : List HitReport × State => Change i s x.2) (reportHit i c acc h) := by
  unfold reportHit
  dsimp only
  split
  · split
    · exact spec_bind <| spec_mono (spec_driveBus hi (fun x hr => hq _ x _ hr) ht) fun u hu => hu
    · exact hb _ _
  · exact ht

theorem spec_resolve {p : Params} {n : Byte} {q : Nat} (hq : ∀ n q, Q ⟨.nextTableOrder, .order n q⟩) :
    Spec Q (fun x => ∀ lt ∈ x, lt < 16) (resolve p n q) := by
  unfold resolve; split
  · exact fun lt h => by cases h
  · rename_i hn
    split
    · exact hq _ _
    · exact fun lt h => by cases h; omega

theorem spec_visitTable {t : State} {th q : Nat} (hi : opcode i ∈ [0x42, 0x43]) (hth : th < 3)
    (hq : ∀ n q, Q ⟨.nextTableOrder, .order n q⟩) (ht : Change i s t) :
    Spec Q (fun u => Change i s u) (visitTable t th q) := by
  unfold visitTable
  dsimp only
  split
  · exact spec_bind <| spec_mono (spec_resolve hq) fun x hx =>
      (ht.tail (.visit _ th _ _ _ hi hth)).tail (.putTarget _ _ hi hx)
  · exact ht.tail (.visit _ th _ _ _ hi hth)

theorem spec_walk {th : Nat} (hi : opcode i ∈ [0x42, 0x43]) (hth : th < 3)
    (hq : ∀ n q, Q ⟨.nextTableOrder, .order n q⟩) (qs : List Nat) (hqs : ∀ q ∈ qs, q < 16)
    {t : State} (ht : Change i s t) : Spec Q (fun x : Option Nat × State => Change i s x.2) (walk th t qs) := by
  have done : ∀ u, Change i s u → Change i s (u.putCursor th .done) := fun u hu =>
    hu.tail (.putCursor _ _ hi fun _ h => by cases h)
  induction qs generalizing t with
  | nil => exact done t ht
  | cons q qs ih =>
    have at_q : ∀ u, Change i s u → Change i s (u.putCursor th (.pos q)) := fun u hu =>
      hu.tail (.putCursor _ _ hi fun _ h => by cases h; exact hqs q (.head _))
    replace ih := fun {t} => @ih (fun x hx => hqs x (.tail _ hx)) t
    have h1 := spec_visitTable (q := q) hi hth hq ht
    unfold walk
    cases hv : visitTable t th q with
    | error v => rw [hv] at h1; exact h1
    | ok u =>
      rw [hv] at h1
      have h1 : Change i s u := h1
      dsimp only
      split
      · split
        · exact at_q u h1
        · split
          · exact done u h1
          · exact ih h1
      · split
        · exact at_q u h1
        · exact ih h1

/-- The positions of a walk are below 16. -/
theorem positionsFrom_bound {p q : Nat} (h : q ∈ positionsFrom p) : q < 16 :=
  List.mem_range.mp (List.mem_of_mem_drop h)

theorem spec_retarget {t : State} {th c : Nat} {nt : Byte} (hi : opcode i ∈ [0x42, 0x43])
    (hq : ∀ n q, Q ⟨.nextTableOrder, .order n q⟩) (ht : Change i s t) :
    Spec Q (fun u => Change i s u) (retarget t th c nt) := by
  unfold retarget
  dsimp only
  split
  · exact spec_bind <| spec_mono (spec_resolve hq) fun x hx => ht.tail (.putTarget _ _ hi hx)
  · exact ht

theorem spec_contribute {t : State} {bus : RowBus} {r : Nat} {pair : Nat × Nat} {v : Nat}
    (hi : opcode i ∈ [0x49, 0x4A]) (hv : v < 2 ^ busWidth s.params bus)
    (hc : pair.1 < s.params.nmc ∧ pair.2 < s.params.nalu)
    (hq : ∀ x y, s.params.relaxColorBus = false → Q ⟨.colorBusMix, .mix r bus x y⟩) (ht : Change i s t) :
    Spec Q (fun u => Change i s u) (contribute i t bus r pair v) := by
  have hp := change_params ht
  unfold contribute
  dsimp only
  split
  · exact ht.tail (.contribute _ _ _ _ hi (by rw [hp]; exact hv) (by rw [hp]; exact hc))
  · rename_i first _
    split
    · exact ht.tail (.contribute _ _ _ _ hi (by rw [hp]; exact hv) (by rw [hp]; exact hc))
    · split
      · rename_i hr
        have h1 := ht.tail (.warnColor bus r first pair hi hr)
        exact h1.tail (.contribute bus r pair v hi (by rw [change_params h1]; exact hv)
          (by rw [change_params h1]; exact hc))
      · rename_i hr; exact hq _ _ (by rw [← hp]; simpa using hr)

theorem change_replay {t : State} (hi : opcode i ∈ [0x51, 0x53]) (ht : Change i s t) (buf : List (Nat × Word)) :
    Change i s (t.replay buf) := by
  unfold State.replay
  induction buf generalizing t with
  | nil => exact ht
  | cons w buf ih => exact ih (ht.tail (.regApply _ _ hi))

theorem change_gatedWrite (hi : opcode i = 0x51) (o : Nat) (d : Word) : Change i s (s.gatedWrite o d) := by
  have h0 : Change i s s := .refl
  have h1 : Change i s s.countWrite := h0.tail (.countWrite hi)
  unfold State.gatedWrite
  split
  · split
    · split
      · rename_i hl; exact h1.tail (.bufferWrite _ _ hi hl)
      · unfold State.overflowWrite
        split
        · exact h1.tail (.countOverflow hi)
        · exact (h1.tail (.countOverflow hi)).tail (.regApply _ _ (by simp [hi]))
    · exact h1.tail (.regApply _ _ (by simp [hi]))
  · exact h0.tail (.regApply _ _ (by simp [hi]))

end

/-- The state Ending of a replay is not seen outside it: leaving it out changes nothing (R323). -/
theorem replay_setAtomic (s : State) (buf : List (Nat × Word)) :
    ((s.setAtomic .ending).replay buf).setAtomic .ended = (s.replay buf).setAtomic .ended := by
  have : ∀ (buf : List (Nat × Word)) (s : State), (s.setAtomic .ending).replay buf = (s.replay buf).setAtomic .ending := by
    intro buf
    induction buf with
    | nil => intro s; rfl
    | cons w buf ih => intro s; exact ih (s.regApply w.1 w.2)
  rw [this]; rfl

end Sys2Proof.Machine
end

