-- ==== Sys2Proof/Laws/Exec.lean ====
section
/-! SUPPORT. Every operation, said once: its meaning is a command whose body changes the state by a chain of its
primitive changes, or raises a fault of its own; and what a step can then do. -/

namespace Sys2Proof.Machine

section
variable {i : Instr} {s : State}

theorem raises_bounds (h : raisedBy .bounds (opcode i) = true) : ∀ n v, Raises i s ⟨.bounds, .index n v⟩ :=
  fun _ _ => ⟨h, nofun, nofun⟩

theorem raises_context (h : raisedBy .noLookupContext (opcode i) = true) (c : Cause) :
    Raises i s ⟨.noLookupContext, .context c⟩ := ⟨h, nofun, nofun⟩

theorem raises_bracket (h : raisedBy .predBracket (opcode i) = true) (c : Cause) (th : Option Nat) :
    Raises i s (bracketViolation c th) := ⟨h, nofun, nofun⟩

theorem raises_atomic (h : raisedBy .atomicProtocol (opcode i) = true) (c : Cause) : Raises i s (atomicViolation c s) :=
  ⟨h, nofun, nofun⟩

theorem raises_order (h : raisedBy .nextTableOrder (opcode i) = true) :
    ∀ n q, Raises i s ⟨.nextTableOrder, .order n q⟩ := fun _ _ => ⟨h, nofun, nofun⟩

end

/-- An operation that reads changes nothing. -/
theorem spec_read {i : Instr} {s : State} {r : Response} :
    Spec (Raises i s) (fun x : State × Response => Change i s x.1) (.ok (s, r)) := Relation.ReflTransGen.refl

/-- The body of a command: what it can change and what it can raise. -/
theorem exec_body (i : Instr) (s : State) : ∃ body : Op (State × Response), exec i s = runCommand i s body
    ∧ Spec (Raises i s) (fun x => Change i s x.1) body := by
  have one : ∀ {i : Instr} {t : State}, Prim i s t → Change i s t := fun h => .tail .refl h
  cases i with
  | lookupBegin phv cid =>
    refine ⟨_, rfl, spec_bind <| spec_require (fun _ => raises_context rfl _) fun _ =>
      spec_bind <| spec_checkPhv (raises_bounds rfl) fun h => one (.openContext phv cid rfl h)⟩
  | lookupEnd =>
    refine ⟨_, rfl, spec_bind <| spec_require (fun _ => raises_context rfl _) fun _ => one (.closeContext rfl)⟩
  | hashBit g o =>
    refine ⟨_, rfl, spec_bind <| spec_requireContext (raises_context rfl _) fun _ =>
      spec_bind <| spec_checkIndex (raises_bounds rfl) fun _ _ =>
      spec_bind <| spec_checkIndex (raises_bounds rfl) fun _ _ =>
      spec_bind <| spec_mono (spec_hashXbar (raises_bounds rfl)) fun _ _ => spec_read⟩
  | hashGroup g =>
    refine ⟨_, rfl, spec_bind <| spec_requireContext (raises_context rfl _) fun _ =>
      spec_bind <| spec_checkIndex (raises_bounds rfl) fun _ _ =>
      spec_bind <| spec_mono (spec_hashValue (raises_bounds rfl)) fun x hx => ?_⟩
    obtain ⟨v, t⟩ := x
    obtain rfl : t = _ := hx
    exact one (.fill g (.head _))
  | xbarMatch r =>
    refine ⟨_, rfl, spec_bind <| spec_requireContext (raises_context rfl _) fun _ =>
      spec_bind <| spec_checkIndex (raises_bounds rfl) fun _ _ =>
      spec_bind <| spec_mono (spec_matchXbar (raises_bounds rfl)) fun x hx => ?_⟩
    obtain ⟨v, t⟩ := x
    obtain ⟨gs, rfl⟩ : ∃ gs, t = _ := hx
    exact change_fills (by simp [opcode]) .refl gs
  | xbarHash =>
    refine ⟨_, rfl, spec_bind <| spec_requireContext (raises_context rfl _) fun _ =>
      spec_bind <| spec_mono (spec_hashXbar (raises_bounds rfl)) fun _ _ => spec_read⟩
  | xbarTcam u =>
    refine ⟨_, rfl, spec_bind <| spec_requireContext (raises_context rfl _) fun _ =>
      spec_bind <| spec_checkIndex (raises_bounds rfl) fun _ _ =>
      spec_bind <| spec_mono (spec_tcamXbar (raises_bounds rfl)) fun _ _ => spec_read⟩
  | sramEntryWrite r c a e value mask vv =>
    refine ⟨_, rfl, spec_bind <| spec_checkSramEntry (raises_bounds rfl) <|
      spec_bind <| spec_checkWidth (raises_bounds rfl) fun h1 =>
      spec_bind <| spec_checkWidth (raises_bounds rfl) fun h2 =>
      spec_bind <| spec_checkWidth (raises_bounds rfl) fun h3 =>
      one (.putSram r c a e _ (.head _) fun _ => ⟨h1, h2, h3⟩)⟩
  | sramEntryClear r c a e =>
    refine ⟨_, rfl, spec_bind <| spec_checkSramEntry (raises_bounds rfl) <|
      one (.putSram r c a e _ (.tail _ (.head _)) fun h => h)⟩
  | sramLookup c lt vs =>
    refine ⟨_, rfl, spec_bind <| spec_requireContext (raises_context rfl _) fun _ =>
      spec_bind <| spec_checkIndex (raises_bounds rfl) fun _ hc =>
      spec_bind <| spec_checkIndex (raises_bounds rfl) fun _ _ =>
      spec_bind <| spec_checkWidth (raises_bounds rfl) fun _ => spec_bind <| spec_mono (spec_foldOp
        (fun x : List RawHit × State => Change (.sramLookup c lt vs) s x.2) (one (.refreshRows c rfl hc))
        fun x r hx _ => spec_lookupRow rfl (raises_bounds rfl) hx) fun x hx => ?_⟩
    refine spec_bind <| spec_mono (spec_foldOp
        (fun x : List HitReport × State => Change (.sramLookup c lt vs) s x.2) hx
        fun x h hx _ => spec_reportHit rfl (raises_bounds rfl)
          (fun b _ _ hr => ⟨rfl, nofun, fun _ => hr⟩) hx) fun x hx => hx
  | tcamSetValueMask u idx v m =>
    refine ⟨_, rfl, spec_bind <| spec_checkTcamEntry (raises_bounds rfl) <|
      spec_bind <| spec_checkWidth (raises_bounds rfl) fun h1 =>
      spec_bind <| spec_checkWidth (raises_bounds rfl) fun h2 =>
      one (.putTcam u idx _ (.head _) fun _ => ⟨Nat.or_lt_two_pow (lt_of_le_of_lt Nat.and_le_right h2) (notBits_lt _ _),
        Nat.or_lt_two_pow (lt_of_le_of_lt Nat.and_le_right h2) (notBits_lt _ _)⟩)⟩
  | tcamClear u idx =>
    refine ⟨_, rfl, spec_bind <| spec_checkTcamEntry (raises_bounds rfl) <|
      one (.putTcam u idx _ (.tail _ (.head _)) fun h => h)⟩
  | tcamGet u idx =>
    refine ⟨_, rfl, spec_bind <| spec_checkTcamEntry (raises_bounds rfl) spec_read⟩
  | tcamLookup u =>
    refine ⟨_, rfl, spec_bind <| spec_requireContext (raises_context rfl _) fun _ =>
      spec_bind <| spec_checkIndex (raises_bounds rfl) fun _ _ =>
      spec_bind <| spec_mono (spec_tcamXbarScan (raises_bounds rfl)) fun _ _ => spec_read⟩
  | tcamLookupRaw u s1 s0 =>
    refine ⟨_, rfl, spec_bind <| spec_checkIndex (raises_bounds rfl) fun _ _ =>
      spec_bind <| spec_checkWidth (raises_bounds rfl) fun _ =>
      spec_bind <| spec_checkWidth (raises_bounds rfl) fun _ =>
      spec_bind <| spec_mono (spec_tcamScan (raises_bounds rfl)) fun _ _ => spec_read⟩
  | ltcamLookup l =>
    refine ⟨_, rfl, spec_bind <| spec_requireContext (raises_context rfl _) fun _ =>
      spec_bind <| spec_checkIndex (raises_bounds rfl) fun _ _ =>
      spec_bind <| spec_mono (spec_foldOp (fun _ => True) trivial fun x u _ _ => ?_) fun x _ =>
      one (.putLtcHit l x rfl)⟩
    unfold ltcamStep
    dsimp only
    split
    · exact raises_bounds rfl _ _
    · split
      · exact spec_bind <| spec_mono (spec_tcamXbarScan (raises_bounds rfl)) fun _ _ => trivial
      · trivial
  | stashWrite r w value mask vv addr =>
    refine ⟨_, rfl, spec_bind <| spec_checkStashEntry (raises_bounds rfl) <|
      spec_bind <| spec_checkWidth (raises_bounds rfl) fun h1 =>
      spec_bind <| spec_checkWidth (raises_bounds rfl) fun h2 =>
      spec_bind <| spec_checkWidth (raises_bounds rfl) fun h3 =>
      one (.putStash r w _ (.head _) fun _ => ⟨h1, h2, h3⟩)⟩
  | stashClear r w =>
    refine ⟨_, rfl, spec_bind <| spec_checkStashEntry (raises_bounds rfl) <|
      one (.putStash r w _ (.tail _ (.head _)) fun h => h)⟩
  | stashLookup r vs =>
    refine ⟨_, rfl, spec_bind <| spec_requireContext (raises_context rfl _) fun _ =>
      spec_bind <| spec_checkIndex (raises_bounds rfl) fun _ _ =>
      spec_bind <| spec_checkWidth (raises_bounds rfl) fun _ =>
      spec_bind <| spec_mono (spec_matchXbar (raises_bounds rfl)) fun x hx => ?_⟩
    obtain ⟨v, t⟩ := x
    obtain ⟨gs, rfl⟩ : ∃ gs, t = _ := hx
    exact change_fills (by simp [opcode]) .refl gs
  | stashInhibit r w addr =>
    refine ⟨_, rfl, spec_bind <| spec_checkStashEntry (raises_bounds rfl) <| one (.putInhibit r w _ rfl)⟩
  | stashHitInhibited r w addr =>
    refine ⟨_, rfl, spec_bind <| spec_checkStashEntry (raises_bounds rfl) spec_read⟩
  | rbMatchCb k b =>
    refine ⟨_, rfl, spec_bind <| spec_checkBus (raises_bounds rfl) fun hb =>
      one (.recomputeBus (busKind k) b rfl hb)⟩
  | rbTcamCb l =>
    refine ⟨_, rfl, spec_bind <| spec_checkIndex (raises_bounds rfl) fun _ hl => one (.recomputeLtcam l rfl hl)⟩
  | rbBusOwner k b =>
    refine ⟨_, rfl, spec_bind <| spec_checkBus (raises_bounds rfl) fun _ => spec_read⟩
  | rbLtBuses k lt =>
    refine ⟨_, rfl, spec_bind <| spec_checkWidth (raises_bounds rfl) fun _ =>
      spec_bind <| spec_checkIndex (raises_bounds rfl) fun _ _ => spec_read⟩
  | rbLtcamOwner l =>
    refine ⟨_, rfl, spec_bind <| spec_checkIndex (raises_bounds rfl) fun _ _ => spec_read⟩
  | rbArbitrate lt =>
    refine ⟨_, rfl, spec_bind <| spec_requireContext (raises_context rfl _) fun _ =>
      spec_bind <| spec_checkIndex (raises_bounds rfl) fun _ _ => spec_read⟩
  | predStart flags =>
    refine ⟨_, rfl, spec_bind <| spec_require (fun _ => raises_bracket rfl _ _) fun _ =>
      spec_bind <| spec_checkWidth (raises_bounds rfl) fun _ => one (.startPass flags rfl)⟩
  | predGw lt inhibit nextValid next =>
    refine ⟨_, rfl, spec_bind <| spec_require (fun _ => raises_bracket rfl _ _) fun _ =>
      spec_bind <| spec_checkIndex (raises_bounds rfl) fun _ _ =>
      spec_bind <| spec_checkWidth (raises_bounds rfl) fun _ =>
      spec_bind <| spec_checkWidth (raises_bounds rfl) fun _ => one (.putGw lt _ rfl)⟩
  | predFirst th =>
    refine ⟨_, rfl, spec_bind <| spec_require (fun _ => raises_bracket rfl _ _) fun _ =>
      spec_bind <| spec_checkIndex (raises_bounds rfl) fun _ hth =>
      spec_bind <| spec_require (fun _ => raises_bracket rfl _ _) fun _ =>
      spec_bind <| spec_mono (spec_walk (.head _) hth (raises_order rfl) _
        (fun _ => positionsFrom_bound) .refl) fun _ hx => hx⟩
  | predNext th nt =>
    refine ⟨_, rfl, spec_bind <| spec_require (fun _ => raises_bracket rfl _ _) fun _ =>
      spec_bind <| spec_checkIndex (raises_bounds rfl) fun _ hth => ?_⟩
    split
    · exact raises_bracket rfl _ _
    · exact spec_read
    · exact spec_bind <| spec_mono (spec_retarget (.tail _ (.head _)) (raises_order rfl) .refl) fun t ht =>
        spec_bind <| spec_mono (spec_walk (.tail _ (.head _)) hth (raises_order rfl) _
          (fun _ => positionsFrom_bound) ht) fun _ hx => hx
  | predEnd =>
    refine ⟨_, rfl, spec_bind <| spec_require (fun _ => raises_bracket rfl _ _) fun _ => one (.endPass rfl)⟩
  | predGet lt th =>
    refine ⟨_, rfl, spec_bind <| spec_checkIndex (raises_bounds rfl) fun _ _ =>
      spec_bind <| spec_checkIndex (raises_bounds rfl) fun _ _ => ?_⟩
    dsimp only
    split
    · exact spec_read
    · exact one (.draw (by simp [opcode]))
  | colorReset => exact ⟨_, rfl, one (.clearColor rfl)⟩
  | colorSetRight r col alu v =>
    refine ⟨_, rfl, spec_bind <| spec_bind <| spec_checkIndex (raises_bounds rfl) fun _ _ =>
      spec_bind <| spec_checkIndex (raises_bounds rfl) fun _ h1 => spec_checkIndex (raises_bounds rfl) fun _ h2 =>
      spec_bind <| spec_checkWidth (raises_bounds rfl) fun hv => spec_bind <| spec_mono
        (spec_contribute (.head _) hv ⟨h1, h2⟩ (fun _ _ hr => ⟨rfl, fun _ => hr, nofun⟩) .refl) fun _ hx => hx⟩
  | ovfSetRight r col alu v =>
    refine ⟨_, rfl, spec_bind <| spec_bind <| spec_checkIndex (raises_bounds rfl) fun _ _ =>
      spec_bind <| spec_checkIndex (raises_bounds rfl) fun _ h1 => spec_checkIndex (raises_bounds rfl) fun _ h2 =>
      spec_bind <| spec_checkWidth (raises_bounds rfl) fun hv => spec_bind <| spec_mono
        (spec_contribute (.tail _ (.head _)) hv ⟨h1, h2⟩ (fun _ _ hr => ⟨rfl, fun _ => hr, nofun⟩) .refl) fun _ hx => hx⟩
  | colorRead r =>
    refine ⟨_, rfl, spec_bind <| spec_checkIndex (raises_bounds rfl) fun _ _ => spec_read⟩
  | cfgRead off =>
    refine ⟨_, rfl, spec_bind <| spec_checkIndex (raises_bounds rfl) fun _ _ => spec_read⟩
  | cfgWrite off data =>
    refine ⟨_, rfl, spec_bind <| spec_checkIndex (raises_bounds rfl) fun _ _ => change_gatedWrite rfl off data⟩
  | atomicBegin buffering =>
    refine ⟨_, rfl, spec_bind <| spec_require (fun _ => raises_atomic rfl _) fun _ =>
      spec_bind <| spec_checkWidth (raises_bounds rfl) fun _ => one (.beginWindow _ rfl)⟩
  | atomicEnd =>
    refine ⟨_, rfl, spec_bind <| spec_require (fun _ => raises_atomic rfl _) fun _ => ?_⟩
    show Change _ s _
    rw [replay_setAtomic]
    exact (change_replay (.tail _ (.head _)) .refl s.atomic.buf).tail (.endWindow rfl)
  | atomicQuery => exact ⟨_, rfl, spec_read⟩

/-- What the primitive changes of a command keep, the command keeps. -/
theorem change_induct {i : Instr} {s t : State} {P : State → Prop} (h : Change i s t) (h0 : P s)
    (hp : ∀ u v, P u → Prim i u v → P v) : P t := by
  induction h with
  | refl => exact h0
  | tail _ h1 ih => exact hp _ _ ih h1

/-- No operation body writes the fault record (R340). -/
theorem change_fault {i : Instr} {s t : State} (h : Change i s t) : t.fault = s.fault := by
  refine change_induct (P := fun u => u.fault = s.fault) h rfl fun u v hu hp => hu ▸ ?_
  cases hp
  case fill => rw [State.fill_keeps]
  case refreshRows => rw [refreshRows_keeps]
  case startPass => rw [startPass_keeps]
  all_goals simp

/-- Everything a command can do. -/
theorem exec_cases {i : Instr} {s t : State} (h : exec i s = .next t) :
    (s.running = false ∧ t = s.refused)
      ∨ (s.running = true ∧ ∃ s' r, Change i s s' ∧ t = s'.answering r)
      ∨ (s.running = true ∧ ∃ v, Raises i s v ∧ t = s.faulted i v.code v.info) := by
  obtain ⟨body, hb, hs⟩ := exec_body i s
  rw [hb] at h
  rcases runCommand_cases h with h | ⟨hr, s', r, hx, ht⟩ | ⟨hr, v, hx, ht⟩
  · exact .inl h
  · rw [hx] at hs; exact .inr (.inl ⟨hr, s', r, hs, ht⟩)
  · rw [hx] at hs; exact .inr (.inr ⟨hr, v, hs, ht⟩)

/-- exec answers a next state, always. -/
theorem exec_next (i : Instr) (s : State) : ∃ t, exec i s = .next t := by
  obtain ⟨body, hb, _⟩ := exec_body i s
  exact ⟨_, hb⟩

/-- Everything a step can do: the core waits, or takes a command's bytes and runs it, or takes an illegal code. -/
theorem step_cases {s t : State} (h : step s = .next t) :
    (s.inbox = [] ∧ t = s)
      ∨ (∃ i rest, decode s.params s.inbox = .command i rest ∧ exec i (s.withInbox rest) = .next t)
      ∨ ∃ op rest, decode s.params s.inbox = .illegal op rest ∧ t = takeIllegal op (s.withInbox rest) := by
  unfold step fetch at h
  cases hb : s.inbox with
  | nil => rw [hb] at h; simp at h; exact .inl ⟨rfl, h.symm⟩
  | cons b bs =>
    rw [hb] at h
    dsimp only at h
    cases hd : decode s.params (b :: bs) with
    | command i rest => rw [hd] at h; exact .inr (.inl ⟨i, rest, rfl, h⟩)
    | illegal op rest => rw [hd] at h; simp at h; exact .inr (.inr ⟨op, rest, rfl, h.symm⟩)
    | truncated => rw [hd] at h; simp at h

/-- A property of states that the stream, the response and the fault record do not enter, and that every primitive
change keeps, is kept by every step. -/
theorem step_keeps {Inv : State → Prop} (hview : ∀ s bytes r f, Inv s → Inv { s with inbox := bytes, response := r, fault := f })
    (hprim : ∀ i s t, Inv s → Prim i s t → Inv t) {s t : State} (hs : Inv s) (h : step s = .next t) : Inv t := by
  have chain : ∀ i s t, Inv s → Change i s t → Inv t := by
    intro i s t hs hc
    induction hc with
    | refl => exact hs
    | tail _ hp ih => exact hprim i _ _ ih hp
  rcases step_cases h with ⟨_, rfl⟩ | ⟨i, rest, _, he⟩ | ⟨op, rest, _, rfl⟩
  · exact hs
  · have hs' : Inv (s.withInbox rest) := hview s rest s.response s.fault hs
    rcases exec_cases he with ⟨_, rfl⟩ | ⟨_, s', r, hc, rfl⟩ | ⟨_, v, _, rfl⟩
    · exact hview _ _ none _ hs'
    · exact hview s' s'.inbox (some r) s'.fault (chain i _ _ hs' hc)
    · exact hview _ _ none _ hs'
  · unfold takeIllegal
    split
    · exact hview s rest none s.fault hs
    · exact hview s rest none _ hs

end Sys2Proof.Machine
end

