-- ==== Sys2Proof/Laws/Memory.lean ====
section
/-! SUPPORT. The canonical form of the memory: every operation over the register store and the entry arrays keeps it,
and the memory after reset has it. -/

namespace Sys2Proof.Machine

variable {s : State} {p : Params}

/-- The canonical form, array by array. -/
theorem Memory.wf_iff {m : Memory} : Memory.wf p m = true ↔
    Cells.wf (regDefault p) m.regs = true ∧ Cells.wf (sramDefault p) m.sram = true
      ∧ Cells.wf (tcamDefault p) m.tcam = true ∧ Cells.wf (stashDefault p) m.stash = true := by
  simp [Memory.wf, and_assoc]

/-- Writing an SRAM entry keeps the form. -/
theorem memory_wf_putSram (h : Memory.wf s.params s.mem = true) (r c a e : Nat) (x : SramEntry) :
    Memory.wf (s.putSram r c a e x).params (s.putSram r c a e x).mem = true := by
  obtain ⟨h1, h2, h3, h4⟩ := Memory.wf_iff.mp h
  exact Memory.wf_iff.mpr ⟨h1, Cells.wf_write h2, h3, h4⟩

/-- Writing a TCAM entry keeps the form. -/
theorem memory_wf_putTcam (h : Memory.wf s.params s.mem = true) (u idx : Nat) (x : TcamEntry) :
    Memory.wf (s.putTcam u idx x).params (s.putTcam u idx x).mem = true := by
  obtain ⟨h1, h2, h3, h4⟩ := Memory.wf_iff.mp h
  exact Memory.wf_iff.mpr ⟨h1, h2, Cells.wf_write h3, h4⟩

/-- Writing a stash entry keeps the form. -/
theorem memory_wf_putStash (h : Memory.wf s.params s.mem = true) (r w : Nat) (x : StashEntry) :
    Memory.wf (s.putStash r w x).params (s.putStash r w x).mem = true := by
  obtain ⟨h1, h2, h3, h4⟩ := Memory.wf_iff.mp h
  exact Memory.wf_iff.mpr ⟨h1, h2, h3, Cells.wf_write h4⟩

/-- Writing a register word keeps the form. -/
theorem memory_wf_regApply (h : Memory.wf s.params s.mem = true) (o : Nat) (d : Word) :
    Memory.wf (s.regApply o d).params (s.regApply o d).mem = true := by
  obtain ⟨h1, h2, h3, h4⟩ := Memory.wf_iff.mp h
  exact Memory.wf_iff.mpr ⟨Cells.wf_write h1, h2, h3, h4⟩

/-- Replaying buffered writes keeps the form. -/
theorem memory_wf_replay (h : Memory.wf s.params s.mem = true) (buf : List (Nat × Word)) :
    Memory.wf (s.replay buf).params (s.replay buf).mem = true := by
  induction buf generalizing s with
  | nil => exact h
  | cons w buf ih => exact ih (memory_wf_regApply h w.1 w.2)

/-- A configuration write, through the gate or not, keeps the form. -/
theorem memory_wf_gatedWrite (h : Memory.wf s.params s.mem = true) (o : Nat) (d : Word) :
    Memory.wf (s.gatedWrite o d).params (s.gatedWrite o d).mem = true := by
  simp only [State.gatedWrite, State.overflowWrite]
  repeat' split
  all_goals first
    | exact h
    | exact memory_wf_regApply (s := s) h o d

/-- The memory after reset has the form: it lists nothing. -/
theorem memory_wf_resetWith (p : Params) :
    Memory.wf (State.resetWith p).params (State.resetWith p).mem = true := rfl

theorem memory_wf_reset : Memory.wf State.reset.params State.reset.mem = true := memory_wf_resetWith _

end Sys2Proof.Machine
end

