-- ==== Sys2Proof/Laws/Compound.lean ====
section
/-! SUPPORT. The compound updates (a cached hash group, the row recompute, the start of a pass): what each keeps, field
by field, and what is read after it; and which fields each invariant depends on. -/

namespace Sys2Proof.Machine

section
variable (s : State) (g c flags : Nat)

@[simp] theorem State.fill_stashInh : (s.fill g).stashInh = s.stashInh := by
  have h := State.fill_keeps s g
  generalize s.fill g = t at h ⊢
  rw [h]

@[simp] theorem State.fill_mapSeq : (s.fill g).mapSeq = s.mapSeq := by
  have h := State.fill_keeps s g
  generalize s.fill g = t at h ⊢
  rw [h]

@[simp] theorem State.fill_pendingMapSeq : (s.fill g).pendingMapSeq = s.pendingMapSeq := by
  have h := State.fill_keeps s g
  generalize s.fill g = t at h ⊢
  rw [h]

@[simp] theorem State.fill_rowsCache : (s.fill g).rowsCache = s.rowsCache := by
  have h := State.fill_keeps s g
  generalize s.fill g = t at h ⊢
  rw [h]

@[simp] theorem State.fill_busMap : (s.fill g).busMap = s.busMap := by
  have h := State.fill_keeps s g
  generalize s.fill g = t at h ⊢
  rw [h]

@[simp] theorem State.fill_pred : (s.fill g).pred = s.pred := by
  have h := State.fill_keeps s g
  generalize s.fill g = t at h ⊢
  rw [h]

@[simp] theorem State.fill_color : (s.fill g).color = s.color := by
  have h := State.fill_keeps s g
  generalize s.fill g = t at h ⊢
  rw [h]

@[simp] theorem State.fill_atomic : (s.fill g).atomic = s.atomic := by
  have h := State.fill_keeps s g
  generalize s.fill g = t at h ⊢
  rw [h]

@[simp] theorem State.fill_fault : (s.fill g).fault = s.fault := by
  have h := State.fill_keeps s g
  generalize s.fill g = t at h ⊢
  rw [h]

@[simp] theorem State.fill_warnLog : (s.fill g).warnLog = s.warnLog := by
  have h := State.fill_keeps s g
  generalize s.fill g = t at h ⊢
  rw [h]

@[simp] theorem State.fill_inbox : (s.fill g).inbox = s.inbox := by
  have h := State.fill_keeps s g
  generalize s.fill g = t at h ⊢
  rw [h]

@[simp] theorem State.fill_response : (s.fill g).response = s.response := by
  have h := State.fill_keeps s g
  generalize s.fill g = t at h ⊢
  rw [h]

@[simp] theorem State.fill_freeCount : (s.fill g).freeCount = s.freeCount := by
  have h := State.fill_keeps s g
  generalize s.fill g = t at h ⊢
  rw [h]

@[simp] theorem State.refreshRows_params : (s.refreshRows c).params = s.params := by
  have h := refreshRows_keeps s c
  generalize s.refreshRows c = t at h ⊢
  rw [h]

@[simp] theorem State.refreshRows_mem : (s.refreshRows c).mem = s.mem := by
  have h := refreshRows_keeps s c
  generalize s.refreshRows c = t at h ⊢
  rw [h]

@[simp] theorem State.refreshRows_stashInh : (s.refreshRows c).stashInh = s.stashInh := by
  have h := refreshRows_keeps s c
  generalize s.refreshRows c = t at h ⊢
  rw [h]

@[simp] theorem State.refreshRows_hashCache : (s.refreshRows c).hashCache = s.hashCache := by
  have h := refreshRows_keeps s c
  generalize s.refreshRows c = t at h ⊢
  rw [h]

@[simp] theorem State.refreshRows_mapSeq : (s.refreshRows c).mapSeq = s.mapSeq := by
  have h := refreshRows_keeps s c
  generalize s.refreshRows c = t at h ⊢
  rw [h]

@[simp] theorem State.refreshRows_busMap : (s.refreshRows c).busMap = s.busMap := by
  have h := refreshRows_keeps s c
  generalize s.refreshRows c = t at h ⊢
  rw [h]

@[simp] theorem State.refreshRows_pred : (s.refreshRows c).pred = s.pred := by
  have h := refreshRows_keeps s c
  generalize s.refreshRows c = t at h ⊢
  rw [h]

@[simp] theorem State.refreshRows_color : (s.refreshRows c).color = s.color := by
  have h := refreshRows_keeps s c
  generalize s.refreshRows c = t at h ⊢
  rw [h]

@[simp] theorem State.refreshRows_atomic : (s.refreshRows c).atomic = s.atomic := by
  have h := refreshRows_keeps s c
  generalize s.refreshRows c = t at h ⊢
  rw [h]

@[simp] theorem State.refreshRows_ctx : (s.refreshRows c).ctx = s.ctx := by
  have h := refreshRows_keeps s c
  generalize s.refreshRows c = t at h ⊢
  rw [h]

@[simp] theorem State.refreshRows_fault : (s.refreshRows c).fault = s.fault := by
  have h := refreshRows_keeps s c
  generalize s.refreshRows c = t at h ⊢
  rw [h]

@[simp] theorem State.refreshRows_warnLog : (s.refreshRows c).warnLog = s.warnLog := by
  have h := refreshRows_keeps s c
  generalize s.refreshRows c = t at h ⊢
  rw [h]

@[simp] theorem State.refreshRows_inbox : (s.refreshRows c).inbox = s.inbox := by
  have h := refreshRows_keeps s c
  generalize s.refreshRows c = t at h ⊢
  rw [h]

@[simp] theorem State.refreshRows_response : (s.refreshRows c).response = s.response := by
  have h := refreshRows_keeps s c
  generalize s.refreshRows c = t at h ⊢
  rw [h]

@[simp] theorem State.refreshRows_freeCount : (s.refreshRows c).freeCount = s.freeCount := by
  have h := refreshRows_keeps s c
  generalize s.refreshRows c = t at h ⊢
  rw [h]

@[simp] theorem State.startPass_params : (s.startPass flags).params = s.params := by
  have h := startPass_keeps s flags
  generalize s.startPass flags = t at h ⊢
  rw [h]

@[simp] theorem State.startPass_mem : (s.startPass flags).mem = s.mem := by
  have h := startPass_keeps s flags
  generalize s.startPass flags = t at h ⊢
  rw [h]

@[simp] theorem State.startPass_stashInh : (s.startPass flags).stashInh = s.stashInh := by
  have h := startPass_keeps s flags
  generalize s.startPass flags = t at h ⊢
  rw [h]

@[simp] theorem State.startPass_hashCache : (s.startPass flags).hashCache = s.hashCache := by
  have h := startPass_keeps s flags
  generalize s.startPass flags = t at h ⊢
  rw [h]

@[simp] theorem State.startPass_mapSeq : (s.startPass flags).mapSeq = s.mapSeq := by
  have h := startPass_keeps s flags
  generalize s.startPass flags = t at h ⊢
  rw [h]

@[simp] theorem State.startPass_pendingMapSeq : (s.startPass flags).pendingMapSeq = s.pendingMapSeq := by
  have h := startPass_keeps s flags
  generalize s.startPass flags = t at h ⊢
  rw [h]

@[simp] theorem State.startPass_rowsCache : (s.startPass flags).rowsCache = s.rowsCache := by
  have h := startPass_keeps s flags
  generalize s.startPass flags = t at h ⊢
  rw [h]

@[simp] theorem State.startPass_busMap : (s.startPass flags).busMap = s.busMap := by
  have h := startPass_keeps s flags
  generalize s.startPass flags = t at h ⊢
  rw [h]

@[simp] theorem State.startPass_color : (s.startPass flags).color = s.color := by
  have h := startPass_keeps s flags
  generalize s.startPass flags = t at h ⊢
  rw [h]

@[simp] theorem State.startPass_atomic : (s.startPass flags).atomic = s.atomic := by
  have h := startPass_keeps s flags
  generalize s.startPass flags = t at h ⊢
  rw [h]

@[simp] theorem State.startPass_ctx : (s.startPass flags).ctx = s.ctx := by
  have h := startPass_keeps s flags
  generalize s.startPass flags = t at h ⊢
  rw [h]

@[simp] theorem State.startPass_fault : (s.startPass flags).fault = s.fault := by
  have h := startPass_keeps s flags
  generalize s.startPass flags = t at h ⊢
  rw [h]

@[simp] theorem State.startPass_warnLog : (s.startPass flags).warnLog = s.warnLog := by
  have h := startPass_keeps s flags
  generalize s.startPass flags = t at h ⊢
  rw [h]

@[simp] theorem State.startPass_inbox : (s.startPass flags).inbox = s.inbox := by
  have h := startPass_keeps s flags
  generalize s.startPass flags = t at h ⊢
  rw [h]

@[simp] theorem State.startPass_response : (s.startPass flags).response = s.response := by
  have h := startPass_keeps s flags
  generalize s.startPass flags = t at h ⊢
  rw [h]

@[simp] theorem State.startPass_freeCount : (s.startPass flags).freeCount = s.freeCount := by
  have h := startPass_keeps s flags
  generalize s.startPass flags = t at h ⊢
  rw [h]

end

/-! ## Which fields an invariant depends on -/

section
variable {s t : State} (hp : t.params = s.params)
include hp

theorem mapsConsistent_congr (hb : t.busMap = s.busMap) (h : s.mapsConsistent) : t.mapsConsistent := by
  unfold State.mapsConsistent; rw [hp, hb]; exact h

theorem mapsFit_congr (hb : t.busMap = s.busMap) (h : s.mapsFit) : t.mapsFit := by
  unfold State.mapsFit; rw [hb, hp]; exact h

theorem mapsFresh_congr (hb : t.busMap = s.busMap) (hm : t.mem.regs = s.mem.regs) (h : s.mapsFresh) : t.mapsFresh := by
  unfold State.mapsFresh; rw [hp, hb, hm]; exact h

theorem rowsFresh_congr (hr : t.rowsCache = s.rowsCache) (hq : t.pendingMapSeq = s.pendingMapSeq)
    (hs : t.mapSeq = s.mapSeq) (hm : t.mem.regs = s.mem.regs) (h : s.rowsFresh) : t.rowsFresh := by
  unfold State.rowsFresh State.pendingAt State.cachedRows; rw [hp, hr, hq, hs, hm]; exact h

theorem entriesFit_congr (hm : t.mem = s.mem) (h : s.entriesFit) : t.entriesFit := by
  unfold State.entriesFit; rw [hp, hm]; exact h

theorem valuesFit_congr (hc : t.hashCache = s.hashCache) (hr : t.color = s.color) (h : s.valuesFit) : t.valuesFit := by
  unfold State.valuesFit; rw [hp, hc, hr]; exact h

theorem contributorsFit_congr (hr : t.color = s.color) (h : s.contributorsFit) : t.contributorsFit := by
  unfold State.contributorsFit State.colorAt; rw [hr, hp]; exact h

theorem phvFits_congr (hc : t.ctx.phv = s.ctx.phv) (h : s.phvFits) : t.phvFits := by
  unfold State.phvFits; rw [hp, hc]; exact h

theorem memoryCanonical_congr (hm : t.mem = s.mem) (h : s.memoryCanonical) : t.memoryCanonical := by
  unfold State.memoryCanonical; rw [hp, hm]; exact h

end

theorem predOk_congr {s t : State} (hb : t.pred.bits = s.pred.bits) (h : s.predOk) : t.predOk := by
  unfold State.predOk State.predBitsAt; rw [hb]; exact h

theorem threadsFit_congr {s t : State} (hc : t.pred.cursor = s.pred.cursor) (ht : t.pred.target = s.pred.target)
    (h : s.threadsFit) : t.threadsFit := by
  unfold State.threadsFit State.cursorAt State.targetAt; rw [hc, ht]; exact h

theorem atomicOk_congr {s t : State} (ha : t.atomic = s.atomic) (h : s.atomicOk) : t.atomicOk := by
  unfold State.atomicOk; rw [ha]; exact h

/-! ## Widths -/

/-- Every entry that can be read is as wide as its fields, listed or not (R32 to R34). -/
theorem entries_read_fit {s : State} (h : s.entriesFit) : (∀ r c a e, sramFits s.params (s.sramAt r c a e))
    ∧ (∀ u idx, tcamFits s.params (s.tcamAt u idx)) ∧ ∀ r w, stashFits s.params (s.stashAt r w) := by
  have hm : ∀ a n, a % 2 ^ n < 2 ^ n := fun a n => Nat.mod_lt a (Nat.two_pow_pos n)
  obtain ⟨h1, h2, h3⟩ := h
  refine ⟨fun r c a e => ?_, fun u i => ?_, fun r w => ?_⟩
  · rcases Cells.read_mem (dflt := sramDefault s.params) (k := sramKey s.params r c a e) s.mem.sram with h | h
    · exact h1 _ h
    · unfold State.sramAt; rw [h]; exact ⟨hm _ _, hm _ _, hm _ _⟩
  · rcases Cells.read_mem (dflt := tcamDefault s.params) (k := tcamKey s.params u i) s.mem.tcam with h | h
    · exact h2 _ h
    · unfold State.tcamAt; rw [h]; exact ⟨hm _ _, hm _ _⟩
  · rcases Cells.read_mem (dflt := stashDefault s.params) (k := stashKey r w) s.mem.stash with h | h
    · exact h3 _ h
    · unfold State.stashAt; rw [h]; exact ⟨hm _ _, hm _ _, hm _ _⟩

/-- Every color row that can be read is as wide as its buses (R40). -/
theorem color_read_fits {s : State} (h : s.valuesFit) (r : Nat) :
    (s.colorAt r).acc < 2 ^ s.params.cw ∧ (s.colorAt r).ovf < 2 ^ s.params.ovw := by
  rcases Cells.read_mem (dflt := fun _ => clearRow) (k := r) s.color with h' | h'
  · exact h.2 _ h'
  · unfold State.colorAt; rw [h']; exact ⟨Nat.two_pow_pos _, Nat.two_pow_pos _⟩

/-- A contribution of a pair in range keeps the recorded contributors in range (R291). -/
theorem contributorsFit_contribute {s : State} (h : s.contributorsFit) (bus : RowBus) (r v : Nat) {pair : Nat × Nat}
    (hc : pair.1 < s.params.nmc ∧ pair.2 < s.params.nalu) :
    (s.putColor r ((s.colorAt r).contribute bus pair v)).contributorsFit := by
  have key : ∀ w : Option (Nat × Nat), (∀ x, w = some x → x.1 < s.params.nmc ∧ x.2 < s.params.nalu) →
      ∀ x, some (w.getD pair) = some x → x.1 < s.params.nmc ∧ x.2 < s.params.nalu := by
    intro w hw x hx
    cases hx
    cases w with
    | none => exact hc
    | some y => exact hw y rfl
  intro r' x hx
  rw [colorAt_putColor] at hx
  split at hx
  · have hC := fun y hy => h r y (.inl hy)
    have hO := fun y hy => h r y (.inr hy)
    cases bus with
    | color => exact hx.elim (key _ hC x) (hO x)
    | overflow => exact hx.elim (hC x) (key _ hO x)
  · exact h r' x hx

/-! ## The row recompute -/

/-- Filling one column's lists for the tables of ls. -/
theorem cachedRows_fold (c : Nat) (ls : List Nat) (u : State) (hls : ∀ l ∈ ls, l < 16) (c' l : Nat) (hl : l < 16) :
    let t := ls.foldl (fun s lt => s.putRows c lt (rowsOfConfig s.params s.mem.regs c lt)) u
    t.params = u.params ∧ t.mem = u.mem ∧ t.mapSeq = u.mapSeq ∧ t.pendingMapSeq = u.pendingMapSeq
      ∧ t.cachedRows c' l = if c' = c ∧ l ∈ ls then rowsOfConfig u.params u.mem.regs c l else u.cachedRows c' l := by
  induction ls generalizing u with
  | nil => exact ⟨rfl, rfl, rfl, rfl, by simp⟩
  | cons x xs ih =>
    have hx := hls x (.head _)
    obtain ⟨a1, a2, a3, a4, a5⟩ := ih (u.putRows c x (rowsOfConfig u.params u.mem.regs c x))
      (fun l h => hls l (.tail _ h))
    simp only [List.foldl_cons]
    refine ⟨a1, a2, a3, a4, a5.trans ?_⟩
    rw [cachedRows_putRows]
    simp only [rowsKey_inj hl hx]
    show (if c' = c ∧ l ∈ xs then rowsOfConfig u.params u.mem.regs c l else _) = _
    by_cases e1 : c' = c <;> by_cases e2 : l = x <;> by_cases e3 : l ∈ xs <;> simp [e1, e2, e3]

/-- After the recompute the column's token is `mapSeq`; the other columns keep theirs (R183). -/
theorem pendingAt_refreshRows (s : State) (c c' : Nat) :
    (s.refreshRows c).pendingAt c' = if c' = c then some s.mapSeq else s.pendingAt c' := by
  unfold State.refreshRows
  split
  · rename_i h; split
    · rename_i hc; rw [hc]; exact h
    · rfl
  · have hls : ∀ l ∈ List.range nlt, l < 16 := fun l h => List.mem_range.mp h
    generalize List.range nlt = ls at hls ⊢
    obtain ⟨_, _, a3, a4, _⟩ := cachedRows_fold c ls s hls c 0 (by decide)
    rw [pendingAt_putPending]
    split
    · rfl
    · simp only [State.pendingAt, a4]

/-- After the recompute the column caches the rows of the current configuration, if the token had moved; the other
columns keep theirs (R183). -/
theorem cachedRows_refreshRows (s : State) (c c' l : Nat) (hl : l < 16) :
    (s.refreshRows c).cachedRows c' l
      = if c' = c ∧ s.pendingAt c ≠ some s.mapSeq then rowsOfConfig s.params s.mem.regs c l else s.cachedRows c' l := by
  unfold State.refreshRows
  split
  · rename_i h; simp [h]
  · rename_i h
    have hls : ∀ l ∈ List.range nlt, l < 16 := fun l h => List.mem_range.mp h
    have hin : l ∈ List.range nlt := List.mem_range.mpr hl
    generalize List.range nlt = ls at hls hin ⊢
    obtain ⟨_, _, _, _, a5⟩ := cachedRows_fold c ls s hls c' l hl
    refine Eq.trans ?_ (a5.trans ?_)
    · generalize ls.foldl _ s = t; rfl
    · simp [h, hin]

/-- A recompute leaves a fresh row cache fresh. -/
theorem rowsFresh_refreshRows {s : State} (h : s.rowsFresh) (c : Nat) : (s.refreshRows c).rowsFresh := by
  intro c' hc' n hn
  rw [pendingAt_refreshRows] at hn
  simp only [State.refreshRows_params, State.refreshRows_mem, State.refreshRows_mapSeq] at hc' ⊢
  by_cases hcc : c' = c
  · subst hcc
    rw [if_pos rfl] at hn
    simp only [Option.mem_some_iff] at hn
    refine ⟨hn ▸ le_refl _, fun _ lt hlt => ?_⟩
    rw [cachedRows_refreshRows s c' c' lt hlt]
    split
    · rfl
    · rename_i hq
      have hq' : s.pendingAt c' = some s.mapSeq := by simpa using hq
      exact (h c' hc' s.mapSeq hq').2 rfl lt hlt
  · rw [if_neg hcc] at hn
    obtain ⟨b1, b2⟩ := h c' hc' n hn
    refine ⟨b1, fun e lt hlt => ?_⟩
    rw [cachedRows_refreshRows s c c' lt hlt, if_neg (fun h => hcc h.1)]
    exact b2 e lt hlt

/-! ## The start of a pass -/

/-- Every table and thread of ls and ths with its static bits. -/
theorem predBitsAt_setStaticBits (s : State) (lt th : Nat) (hl : lt < 16) (ht : th < 3) :
    s.setStaticBits.predBitsAt lt th = staticBits s.params s.mem.regs lt th := by
  have inner : ∀ (ths : List Nat) (u : State) (l : Nat), (∀ t ∈ ths, t < 3) →
      let v := ths.foldl (fun s th => s.putPredBits l th (staticBits s.params s.mem.regs l th)) u
      v.params = u.params ∧ v.mem = u.mem ∧ v.predBitsAt lt th
        = if lt = l ∧ th ∈ ths then staticBits u.params u.mem.regs lt th else u.predBitsAt lt th := by
    intro ths
    induction ths with
    | nil => intro u l _; exact ⟨rfl, rfl, by simp⟩
    | cons x xs ih =>
      intro u l hx
      obtain ⟨a1, a2, a3⟩ := ih (u.putPredBits l x (staticBits u.params u.mem.regs l x)) l (fun t h => hx t (.tail _ h))
      simp only [List.foldl_cons]
      refine ⟨a1, a2, a3.trans ?_⟩
      rw [predBitsAt_putPredBits]
      simp only [predKey_inj ht (hx x (.head _))]
      show (if lt = l ∧ th ∈ xs then staticBits u.params u.mem.regs lt th else _) = _
      by_cases e1 : lt = l <;> by_cases e2 : th = x <;> by_cases e3 : th ∈ xs <;> simp [e1, e2, e3]
  have hths : ∀ t ∈ List.range nthr, t < 3 := fun t h => List.mem_range.mp h
  have hin : th ∈ List.range nthr := List.mem_range.mpr ht
  have outer : ∀ (ls : List Nat) (u : State),
      let v := ls.foldl (fun s lt => (List.range nthr).foldl (fun s th =>
        s.putPredBits lt th (staticBits s.params s.mem.regs lt th)) s) u
      v.predBitsAt lt th = if lt ∈ ls then staticBits u.params u.mem.regs lt th else u.predBitsAt lt th := by
    generalize List.range nthr = ths at hths hin ⊢
    intro ls
    induction ls with
    | nil => intro u; simp
    | cons x xs ih =>
      intro u
      obtain ⟨a1, a2, a3⟩ := inner ths u x hths
      simp only [List.foldl_cons] at ih ⊢
      rw [ih, a1, a2, a3]
      by_cases e1 : lt = x <;> by_cases e2 : lt ∈ xs <;> simp [e1, e2, hin]
  have hlin : lt ∈ List.range nlt := List.mem_range.mpr hl
  have := outer (List.range nlt) s
  rw [if_pos hlin] at this
  exact this

/-- The static bits of an untouched table have no other bit set. -/
theorem staticBits_spec (p : Params) (regs : Cells Word) (lt th : Nat) : let b := staticBits p regs lt th
    predCfgBit b = (cfgPredThr p regs lt).testBit th ∧ predCntBit b = cfgPredCounters p regs lt
      ∧ predPwrBit b = cfgPredPowered p regs lt
      ∧ predUsedBit b = (cfgPredPowered p regs lt && decide (cfgPredThr p regs lt ≠ 0)) ∧ b &&& activeMask = 0 := by
  unfold staticBits
  dsimp only
  generalize (cfgPredThr p regs lt).testBit th = a
  generalize cfgPredCounters p regs lt = b
  generalize decide (cfgPredThr p regs lt ≠ 0) = d
  generalize cfgPredPowered p regs lt = c
  revert a b c d; decide

/-- A table's bits after a visit (R261 to R264): the static bits are kept, the others follow from them. -/
theorem visitBits_spec (b : Byte) (active isTarget inhibit : Bool) : let v := visitBits b active isTarget inhibit
    predLkpBit v = (predPwrBit b && predCfgBit b && active) ∧ predCtbBit v = (predLkpBit v && predCntBit b)
      ∧ predActBit v = (predLkpBit v && isTarget) ∧ predRunBit v = (predActBit v && !inhibit)
      ∧ predCfgBit v = predCfgBit b ∧ predCntBit v = predCntBit b ∧ predPwrBit v = predPwrBit b
      ∧ predUsedBit v = predUsedBit b ∧ v &&& 0x0F = b &&& 0x0F := by
  revert b active isTarget inhibit; decide +kernel

theorem predImplied_staticBits (p : Params) (regs : Cells Word) (lt th : Nat) :
    predImplied (staticBits p regs lt th) := by
  unfold staticBits
  dsimp only
  generalize (cfgPredThr p regs lt).testBit th = a
  generalize cfgPredCounters p regs lt = b
  generalize decide (cfgPredThr p regs lt ≠ 0) = d
  generalize cfgPredPowered p regs lt = c
  revert a b c d; decide

theorem predImplied_visitBits (b : Byte) (active isTarget inhibit : Bool) :
    predImplied (visitBits b active isTarget inhibit) := by
  revert b active isTarget inhibit; decide +kernel

/-- What a started pass reads as (R268). -/
theorem startPass_spec (s : State) (flags : Nat) : let t := s.startPass flags
    (∀ lt < 16, ∀ th < 3, t.predBitsAt lt th = staticBits s.params s.mem.regs lt th)
      ∧ (∀ th < 3, t.activeAt th = flags.testBit th ∧ t.cursorAt th = .before
          ∧ t.targetAt th = startTarget s.params s.mem.regs flags th)
      ∧ (∀ lt, t.gwAt lt = noGateway) ∧ t.pred.pass = .started := by
  have threads : ∀ (ths : List Nat) (u : State),
      let v := ths.foldl (fun s th => ((s.putActive th (flags.testBit th)).putTarget th
        (startTarget s.params s.mem.regs flags th)).putCursor th .before) u
      v.pred.bits = u.pred.bits ∧ ∀ th, (v.activeAt th = if th ∈ ths then flags.testBit th else u.activeAt th)
        ∧ (v.cursorAt th = if th ∈ ths then .before else u.cursorAt th)
        ∧ v.targetAt th = if th ∈ ths then startTarget u.params u.mem.regs flags th else u.targetAt th := by
    intro ths
    induction ths with
    | nil => intro u; exact ⟨rfl, fun th => by simp⟩
    | cons x xs ih =>
      intro u
      obtain ⟨a1, a2⟩ := ih (((u.putActive x (flags.testBit x)).putTarget x
        (startTarget u.params u.mem.regs flags x)).putCursor x .before)
      simp only [List.foldl_cons]
      refine ⟨a1, fun th => ?_⟩
      obtain ⟨b1, b2, b3⟩ := a2 th
      rw [b1, b2, b3]
      simp only [State.activeAt, State.cursorAt, State.targetAt, State.putActive, State.putTarget, State.putCursor,
        Cells.read_write, List.mem_cons]
      by_cases e1 : th = x <;> by_cases e2 : th ∈ xs <;> simp [e1, e2]
  have hbits : ∀ v : State, ((v.clearGateways).setPass .started).pred.bits = v.pred.bits
      ∧ (∀ th, ((v.clearGateways).setPass .started).activeAt th = v.activeAt th
        ∧ ((v.clearGateways).setPass .started).cursorAt th = v.cursorAt th
        ∧ ((v.clearGateways).setPass .started).targetAt th = v.targetAt th)
      ∧ (∀ lt, ((v.clearGateways).setPass .started).gwAt lt = noGateway)
      ∧ ((v.clearGateways).setPass .started).pred.pass = .started :=
    fun v => ⟨rfl, fun _ => ⟨rfl, rfl, rfl⟩, fun _ => rfl, rfl⟩
  have hst : s.setStaticBits.params = s.params ∧ s.setStaticBits.mem = s.mem := by
    unfold State.setStaticBits
    generalize List.range nlt = ls, List.range nthr = ths
    constructor
    · refine foldl_keeps State.params ?_ ls s
      intro t lt
      refine foldl_keeps State.params ?_ ths t
      exact fun _ _ => rfl
    · refine foldl_keeps State.mem ?_ ls s
      intro t lt
      refine foldl_keeps State.mem ?_ ths t
      exact fun _ _ => rfl
  have hb := predBitsAt_setStaticBits s
  have htr := threads (List.range nthr) s.setStaticBits
  have hmem : ∀ th, th < 3 → th ∈ List.range nthr := fun th h => List.mem_range.mpr h
  unfold State.startPass State.startThreads
  generalize s.setStaticBits = w at hst hb htr ⊢
  generalize List.range nthr = ths at htr hmem ⊢
  dsimp only at htr ⊢
  generalize ths.foldl _ w = v at htr ⊢
  obtain ⟨c1, c2, c3, c4⟩ := hbits v
  generalize (v.clearGateways).setPass .started = x at c1 c2 c3 c4 ⊢
  refine ⟨fun lt hl th ht => ?_, fun th ht => ?_, c3, c4⟩
  · rw [← hb lt th hl ht]; simp only [State.predBitsAt, c1, htr.1]
  · obtain ⟨d1, d2, d3⟩ := htr.2 th
    simp only [hmem th ht, if_true] at d1 d2 d3
    exact ⟨(c2 th).1.trans d1, (c2 th).2.1.trans d2, by rw [(c2 th).2.2, d3, hst.1, hst.2]⟩

end Sys2Proof.Machine
end

