-- ==== Sys2Proof/Laws/PerInstr.lean ====
section
/-! SUPPORT. The family RoundTrip, one lemma per command: the operand tables and the builder agree (R101, R102,
R113). -/

namespace Sys2Proof.Laws

open Sys2Proof.Machine

/-- Two lists that fit each other are equally long. -/
theorem operandsFit_length : ∀ {ws vs : List Nat}, operandsFit ws vs = true → vs.length = ws.length
  | [], [], _ => rfl
  | [], _ :: _, h => by simp [operandsFit] at h
  | _ :: _, [], h => by simp [operandsFit] at h
  | w :: ws, v :: vs, h => by
    simp only [operandsFit, Bool.and_eq_true] at h
    simp [operandsFit_length h.2]

/-- Bytes read as numbers and back. -/
theorem map_ofNat_toNat (l : List Byte) : l.map (BitVec.ofNat 8 ∘ BitVec.toNat) = l := by
  induction l with
  | nil => rfl
  | cons b l ih => rw [List.map_cons, ih]; simp

/-- A command that some byte string carries is what the builder makes of its code and its operands, and its code
is one byte. -/
def RoundTrip.Statement (i : Instr) : Prop :=
  opcode i < 256 ∧ ∀ p : Params, i.wellFormed p = true → build p (opcode i) (operands i) = some i

theorem RoundTrip.lookupBegin (phv : Phv) (cid : CacheId) : RoundTrip.Statement (.lookupBegin phv cid) := by
  refine ⟨by simp [opcode], fun p h => ?_⟩
  have hl := operandsFit_length (ws := List.replicate p.phvBytes 8 ++ [p.phvBytes, p.verBits, p.verBits, 64])
    (by simpa [Instr.wellFormed, opcode, operandWidths] using h)
  have hb : phv.bytes.length = p.phvBytes := by simpa [operands] using hl
  show buildLookupBegin p.phvBytes _ = _
  simp only [operands, buildLookupBegin, ← hb]
  simp [map_ofNat_toNat]

theorem RoundTrip.lookupEnd : RoundTrip.Statement .lookupEnd := by
  exact ⟨by simp [opcode], fun _ _ => rfl⟩

theorem RoundTrip.hashBit (g o : Nat) : RoundTrip.Statement (.hashBit g o) := by
  exact ⟨by simp [opcode], fun _ _ => rfl⟩

theorem RoundTrip.hashGroup (g : Nat) : RoundTrip.Statement (.hashGroup g) := by
  exact ⟨by simp [opcode], fun _ _ => rfl⟩

theorem RoundTrip.xbarMatch (r : Nat) : RoundTrip.Statement (.xbarMatch r) := by
  exact ⟨by simp [opcode], fun _ _ => rfl⟩

theorem RoundTrip.xbarHash : RoundTrip.Statement .xbarHash := by
  exact ⟨by simp [opcode], fun _ _ => rfl⟩

theorem RoundTrip.xbarTcam (u : Nat) : RoundTrip.Statement (.xbarTcam u) := by
  exact ⟨by simp [opcode], fun _ _ => rfl⟩

theorem RoundTrip.sramEntryWrite (r c a e value mask vv : Nat) : RoundTrip.Statement (.sramEntryWrite r c a e value mask vv) := by
  exact ⟨by simp [opcode], fun _ _ => rfl⟩

theorem RoundTrip.sramEntryClear (r c a e : Nat) : RoundTrip.Statement (.sramEntryClear r c a e) := by
  exact ⟨by simp [opcode], fun _ _ => rfl⟩

theorem RoundTrip.sramLookup (c lt vs : Nat) : RoundTrip.Statement (.sramLookup c lt vs) := by
  exact ⟨by simp [opcode], fun _ _ => rfl⟩

theorem RoundTrip.tcamSetValueMask (u idx v m : Nat) : RoundTrip.Statement (.tcamSetValueMask u idx v m) := by
  exact ⟨by simp [opcode], fun _ _ => rfl⟩

theorem RoundTrip.tcamClear (u idx : Nat) : RoundTrip.Statement (.tcamClear u idx) := by
  exact ⟨by simp [opcode], fun _ _ => rfl⟩

theorem RoundTrip.tcamGet (u idx : Nat) : RoundTrip.Statement (.tcamGet u idx) := by
  exact ⟨by simp [opcode], fun _ _ => rfl⟩

theorem RoundTrip.tcamLookup (u : Nat) : RoundTrip.Statement (.tcamLookup u) := by
  exact ⟨by simp [opcode], fun _ _ => rfl⟩

theorem RoundTrip.tcamLookupRaw (u s1 s0 : Nat) : RoundTrip.Statement (.tcamLookupRaw u s1 s0) := by
  exact ⟨by simp [opcode], fun _ _ => rfl⟩

theorem RoundTrip.ltcamLookup (l : Nat) : RoundTrip.Statement (.ltcamLookup l) := by
  exact ⟨by simp [opcode], fun _ _ => rfl⟩

theorem RoundTrip.stashWrite (r w value mask vv : Nat) (addr : Word) : RoundTrip.Statement (.stashWrite r w value mask vv addr) := by
  exact ⟨by simp [opcode], fun _ _ => by show some _ = some _; simp⟩

theorem RoundTrip.stashClear (r w : Nat) : RoundTrip.Statement (.stashClear r w) := by
  exact ⟨by simp [opcode], fun _ _ => rfl⟩

theorem RoundTrip.stashLookup (r vs : Nat) : RoundTrip.Statement (.stashLookup r vs) := by
  exact ⟨by simp [opcode], fun _ _ => rfl⟩

theorem RoundTrip.stashInhibit (r w : Nat) (addr : Word) : RoundTrip.Statement (.stashInhibit r w addr) := by
  exact ⟨by simp [opcode], fun _ _ => by show some _ = some _; simp⟩

theorem RoundTrip.stashHitInhibited (r w : Nat) (addr : Word) : RoundTrip.Statement (.stashHitInhibited r w addr) := by
  exact ⟨by simp [opcode], fun _ _ => by show some _ = some _; simp⟩

theorem RoundTrip.rbMatchCb (k b : Nat) : RoundTrip.Statement (.rbMatchCb k b) := by
  exact ⟨by simp [opcode], fun _ _ => rfl⟩

theorem RoundTrip.rbTcamCb (l : Nat) : RoundTrip.Statement (.rbTcamCb l) := by
  exact ⟨by simp [opcode], fun _ _ => rfl⟩

theorem RoundTrip.rbBusOwner (k b : Nat) : RoundTrip.Statement (.rbBusOwner k b) := by
  exact ⟨by simp [opcode], fun _ _ => rfl⟩

theorem RoundTrip.rbLtBuses (k lt : Nat) : RoundTrip.Statement (.rbLtBuses k lt) := by
  exact ⟨by simp [opcode], fun _ _ => rfl⟩

theorem RoundTrip.rbLtcamOwner (l : Nat) : RoundTrip.Statement (.rbLtcamOwner l) := by
  exact ⟨by simp [opcode], fun _ _ => rfl⟩

theorem RoundTrip.rbArbitrate (lt : Nat) : RoundTrip.Statement (.rbArbitrate lt) := by
  exact ⟨by simp [opcode], fun _ _ => rfl⟩

theorem RoundTrip.predStart (flags : Nat) : RoundTrip.Statement (.predStart flags) := by
  exact ⟨by simp [opcode], fun _ _ => rfl⟩

theorem RoundTrip.predGw (lt inhibit nextValid : Nat) (next : Byte) : RoundTrip.Statement (.predGw lt inhibit nextValid next) := by
  exact ⟨by simp [opcode], fun _ _ => by show some _ = some _; simp⟩

theorem RoundTrip.predFirst (th : Nat) : RoundTrip.Statement (.predFirst th) := by
  exact ⟨by simp [opcode], fun _ _ => rfl⟩

theorem RoundTrip.predNext (th : Nat) (nt : Byte) : RoundTrip.Statement (.predNext th nt) := by
  exact ⟨by simp [opcode], fun _ _ => by show some _ = some _; simp⟩

theorem RoundTrip.predEnd : RoundTrip.Statement .predEnd := by
  exact ⟨by simp [opcode], fun _ _ => rfl⟩

theorem RoundTrip.predGet (lt th : Nat) : RoundTrip.Statement (.predGet lt th) := by
  exact ⟨by simp [opcode], fun _ _ => rfl⟩

theorem RoundTrip.colorReset : RoundTrip.Statement .colorReset := by
  exact ⟨by simp [opcode], fun _ _ => rfl⟩

theorem RoundTrip.colorSetRight (r col alu v : Nat) : RoundTrip.Statement (.colorSetRight r col alu v) := by
  exact ⟨by simp [opcode], fun _ _ => rfl⟩

theorem RoundTrip.ovfSetRight (r col alu v : Nat) : RoundTrip.Statement (.ovfSetRight r col alu v) := by
  exact ⟨by simp [opcode], fun _ _ => rfl⟩

theorem RoundTrip.colorRead (r : Nat) : RoundTrip.Statement (.colorRead r) := by
  exact ⟨by simp [opcode], fun _ _ => rfl⟩

theorem RoundTrip.cfgRead (off : Nat) : RoundTrip.Statement (.cfgRead off) := by
  exact ⟨by simp [opcode], fun _ _ => rfl⟩

theorem RoundTrip.cfgWrite (off : Nat) (data : Word) : RoundTrip.Statement (.cfgWrite off data) := by
  exact ⟨by simp [opcode], fun _ _ => by show some _ = some _; simp⟩

theorem RoundTrip.atomicBegin (buffering : Nat) : RoundTrip.Statement (.atomicBegin buffering) := by
  exact ⟨by simp [opcode], fun _ _ => rfl⟩

theorem RoundTrip.atomicEnd : RoundTrip.Statement .atomicEnd := by
  exact ⟨by simp [opcode], fun _ _ => rfl⟩

theorem RoundTrip.atomicQuery : RoundTrip.Statement .atomicQuery := by
  exact ⟨by simp [opcode], fun _ _ => rfl⟩

end Sys2Proof.Laws
end

