-- ==== Sys2Proof/Laws/Decode.lean ====
section
/-! SUPPORT. What the byte strings of R113 do: the operand reader and the operand writer, the
builder, and which codes the operand table lists. -/

namespace Sys2Proof.Laws

open Sys2Proof.Machine

/-- An operand that fits its bytes is read back from them. -/
theorem takeOperand_leBytes (w v : Nat) (rest : List Byte) (h : v < 256 ^ bytesFor w) :
    takeOperand w (leBytes (bytesFor w) v ++ rest) = some (v, rest) := by
  have hl := length_leBytes (bytesFor w) v
  simp [takeOperand, hl, leNat_leBytes h]

/-- What the operand reader takes is the bytes of the number it answers. -/
theorem takeOperand_some {w v : Nat} {bs rest : List Byte} (h : takeOperand w bs = some (v, rest)) :
    v < 256 ^ bytesFor w ∧ bs = leBytes (bytesFor w) v ++ rest := by
  simp only [takeOperand] at h
  split at h
  · rename_i hn
    simp only [Option.some.injEq, Prod.mk.injEq] at h
    obtain ⟨rfl, rfl⟩ := h
    have hl : (bs.take (bytesFor w)).length = bytesFor w := by simp [hn]
    refine ⟨by have := leNat_lt (bs.take (bytesFor w)); rwa [hl] at this, ?_⟩
    have hb := leBytes_leNat (bs.take (bytesFor w))
    rw [hl] at hb
    rw [hb, List.take_append_drop]
  · cases h

/-- Operands that fit their bytes are read back from them. -/
theorem takeOperands_encodeOperands : ∀ (ws vs : List Nat) (rest : List Byte), operandsFit ws vs = true →
    takeOperands ws (encodeOperands ws vs ++ rest) = some (vs, rest)
  | [], [], _, _ => rfl
  | [], _ :: _, _, h => by simp [operandsFit] at h
  | _ :: _, [], _, h => by simp [operandsFit] at h
  | w :: ws, v :: vs, rest, h => by
    simp only [operandsFit, Bool.and_eq_true, decide_eq_true_eq] at h
    simp [takeOperands, encodeOperands, takeOperand_leBytes _ _ _ h.1, takeOperands_encodeOperands ws vs rest h.2]

/-- What the operand reader takes fits, and is the bytes of the operands it answers. -/
theorem takeOperands_some : ∀ {ws vs : List Nat} {bs rest : List Byte}, takeOperands ws bs = some (vs, rest) →
    operandsFit ws vs = true ∧ bs = encodeOperands ws vs ++ rest
  | [], vs, bs, rest, h => by
    simp only [takeOperands, Option.some.injEq, Prod.mk.injEq] at h
    obtain ⟨rfl, rfl⟩ := h
    exact ⟨rfl, rfl⟩
  | w :: ws, vs, bs, rest, h => by
    simp only [takeOperands] at h
    split at h
    · cases h
    · rename_i v bs1 h1
      split at h
      · cases h
      · rename_i vs1 bs2 h2
        simp only [Option.some.injEq, Prod.mk.injEq] at h
        obtain ⟨rfl, rfl⟩ := h
        obtain ⟨hv, rfl⟩ := takeOperand_some h1
        obtain ⟨hf, rfl⟩ := takeOperands_some h2
        exact ⟨by simp [operandsFit, hv, hf], by simp [encodeOperands]⟩

theorem encodeOperands_length : ∀ {ws vs : List Nat}, operandsFit ws vs = true →
    (encodeOperands ws vs).length = (ws.map bytesFor).sum
  | [], [], _ => rfl
  | [], _ :: _, h => by simp [operandsFit] at h
  | _ :: _, [], h => by simp [operandsFit] at h
  | w :: ws, v :: vs, h => by
    simp only [operandsFit, Bool.and_eq_true] at h
    simp [encodeOperands, length_leBytes, encodeOperands_length h.2]

/-- The operand table lists exactly the codes of R101. -/
theorem operandWidths_none (p : Params) (op : Nat) : operandWidths p op = none ↔ op ∉ listedCodes := by
  unfold operandWidths listedCodes
  split <;> simp_all

/-- The n data bytes of a PHV operand fit one byte each. -/
theorem operandsFit_phv : ∀ {n : Nat} {ws vs : List Nat}, operandsFit (List.replicate n 8 ++ ws) vs = true →
    ∃ ds tl, vs = ds ++ tl ∧ ds.length = n ∧ (∀ d ∈ ds, d < 256) ∧ operandsFit ws tl = true
  | 0, ws, vs, h => ⟨[], vs, rfl, rfl, by simp, by simpa using h⟩
  | n + 1, ws, [], h => by simp [List.replicate_succ, operandsFit] at h
  | n + 1, ws, v :: vs, h => by
    simp only [List.replicate_succ, List.cons_append, operandsFit, Bool.and_eq_true, decide_eq_true_eq] at h
    obtain ⟨ds, tl, rfl, hl, hd, hf⟩ := operandsFit_phv h.2
    exact ⟨v :: ds, tl, rfl, by simp [hl], by simpa using ⟨by simpa [bytesFor] using h.1, hd⟩, hf⟩

/-- Numbers below 256 read as bytes and back. -/
theorem map_toNat_ofNat {l : List Nat} (h : ∀ d ∈ l, d < 256) : (l.map (BitVec.ofNat 8)).map BitVec.toNat = l := by
  induction l with
  | nil => rfl
  | cons d l ih =>
    simp only [List.mem_cons, forall_eq_or_imp] at h
    simp only [List.map_cons, ih h.2, BitVec.toNat_ofNat, List.cons.injEq, and_true]
    exact Nat.mod_eq_of_lt h.1

/-- The operands of a built command are those it was built from, where they fit; its code is the one asked for. -/
theorem build_some {p : Params} {op : Nat} {ws vs : List Nat} {i : Instr} (hw : operandWidths p op = some ws)
    (hf : operandsFit ws vs = true) (h : build p op vs = some i) : opcode i = op ∧ operands i = vs := by
  unfold build at h
  split at h
  case h_1 =>
    obtain rfl : _ = ws := Option.some.inj hw
    obtain ⟨ds, tl, rfl, hl, hd, ht⟩ := operandsFit_phv hf
    match tl, ht with
    | [a, b, c, d], ht =>
      simp [buildLookupBegin, ← hl] at h
      subst h
      simp only [operandsFit, Bool.and_eq_true, decide_eq_true_eq] at ht
      simp only [bytesFor] at ht
      have := map_toNat_ofNat hd
      simp only [List.map_map] at this
      simp [opcode, operands, this]
      omega
    | [], ht | [_], ht | [_, _], ht | [_, _, _], ht | _ :: _ :: _ :: _ :: _ :: _, ht => simp [operandsFit] at ht
  case h_43 => cases h
  all_goals
    split at h
    · cases h
      first
      | exact ⟨rfl, rfl⟩
      | (obtain rfl : _ = ws := Option.some.inj hw
         simp only [operandsFit, Bool.and_eq_true, decide_eq_true_eq] at hf
         simp only [bytesFor] at hf
         refine ⟨rfl, ?_⟩
         simp [operands]
         omega)
    · cases h

end Sys2Proof.Laws
end

