-- ==== Sys2Proof/Laws/Hash.lean ====
section
/-! SUPPORT. The hash function, bit by bit: what a stage's data and valid bits are (R140), and that an output bit is
affine in the hash input (R141, R145). -/

namespace Sys2Proof.Machine

/-! ## Parity -/

/-- Parity is additive. -/
theorem parity_and_xor (n a b m : Nat) :
    parity n ((a ^^^ b) &&& m) = Bool.xor (parity n (a &&& m)) (parity n (b &&& m)) := by
  induction n with
  | zero => rfl
  | succ n ih =>
    simp only [parity, ih, Nat.testBit_and, Nat.testBit_xor]
    generalize a.testBit n = x; generalize b.testBit n = y; generalize m.testBit n = z
    generalize parity n (a &&& m) = u; generalize parity n (b &&& m) = v
    revert x y z u v; decide

/-- The parity of one bit. -/
theorem parity_two_pow (n i m : Nat) (h : i < n) : parity n (2 ^ i &&& m) = m.testBit i := by
  have key : ∀ k, parity k (2 ^ i &&& m) = (decide (i < k) && m.testBit i) := by
    intro k
    induction k with
    | zero => simp [parity]
    | succ k ih =>
      simp only [parity, ih, Nat.testBit_and, Nat.testBit_two_pow]
      rcases Nat.lt_trichotomy i k with h | rfl | h
      · have h1 : i ≠ k := by omega
        simp [h1, h, show i < k + 1 by omega]
      · simp
      · have h1 : i ≠ k := by omega
        simp [h1, show ¬ i < k by omega, show ¬ i < k + 1 by omega]
  rw [key]; simp [h]

/-- Flipping one bit of a number flips the parity of its masked bits exactly when the mask has the bit. -/
theorem parity_flip {n i a m : Nat} (h : i < n) :
    parity n ((a ^^^ 2 ^ i) &&& m) = Bool.xor (parity n (a &&& m)) (m.testBit i) := by
  rw [parity_and_xor, parity_two_pow n i m h]

theorem parity_zero (n m : Nat) : parity n (0 &&& m) = false := by
  induction n with
  | zero => rfl
  | succ n ih => simp only [parity, ih]; simp

/-! ## Stages and output bits (R140, R141, R145) -/

section
variable {p : Params} {regs : Cells Word} {input : List (Byte × Bool)} {g o st j : Nat}

/-- Bit k of byte j of a stage's data. -/
theorem testBit_stageData (k : Nat) (hj : j < p.sb) (hk : k < 8) :
    (stageData p input st).testBit (8 * j + k) = (input.getD (st * p.sb + j) (0, false)).1.getLsbD k := by
  unfold stageData
  rw [testBit_assemble (by omega) (by
    intro x hx
    obtain ⟨i, -, rfl⟩ := List.mem_map.mp hx
    exact BitVec.isLt _)]
  rw [show (8 * j + k) / 8 = j by omega, show (8 * j + k) % 8 = k by omega,
    List.getD_eq_getElem _ _ (by simpa using hj)]
  simp [BitVec.testBit_toNat]

/-- Bit j of a stage's valid bits. -/
theorem testBit_stageValid (hj : j < p.sb) :
    (stageValid p input st).testBit j = (input.getD (st * p.sb + j) (0, false)).2 := by
  unfold stageValid
  rw [testBit_assembleBits, List.getD_eq_getElem _ _ (by simpa using hj)]
  simp

theorem stageData_lt : stageData p input st < 2 ^ (8 * p.sb) := by
  have := assemble_lt (w := 8)
    (xs := (List.range p.sb).map fun j => (input.getD (st * p.sb + j) (0, false)).1.toNat) (by
    intro x hx
    obtain ⟨i, -, rfl⟩ := List.mem_map.mp hx
    exact BitVec.isLt _)
  simpa [stageData] using this

theorem stageValid_lt : stageValid p input st < 2 ^ p.sb := by
  simpa [stageValid] using assembleBits_lt ((List.range p.sb).map fun j => (input.getD (st * p.sb + j) (0, false)).2)

/-- Byte n of the input belongs to the one stage n div SB. -/
theorem stage_index {p : Params} {st j st' j' : Nat} (hj : j < p.sb) (hj' : j' < p.sb) :
    st' * p.sb + j' = st * p.sb + j ↔ st' = st ∧ j' = j := pair_inj hj' hj

/-- Changing one input byte changes its own stage's data alone, by the same bits. -/
theorem stageData_set (hj : j < p.sb) {x : Byte × Bool} (hx : input[st * p.sb + j]? = some x) {k : Nat} (hk : k < 8)
    (st' : Nat) (v : Bool) :
    stageData p (input.set (st * p.sb + j) (x.1 ^^^ BitVec.twoPow 8 k, v)) st'
      = if st' = st then stageData p input st' ^^^ 2 ^ (8 * j + k) else stageData p input st' := by
  have hn : st * p.sb + j < input.length := by
    by_contra hc; rw [List.getElem?_eq_none (by omega)] at hx; cases hx
  refine Nat.eq_of_testBit_eq fun i => ?_
  have hi : i = 8 * (i / 8) + i % 8 := by omega
  have h8 : i % 8 < 8 := Nat.mod_lt _ (by omega)
  generalize i / 8 = j' at hi
  generalize i % 8 = k' at hi h8
  subst hi
  by_cases hj' : j' < p.sb
  · have hset : ((input.set (st * p.sb + j) (x.1 ^^^ BitVec.twoPow 8 k, v)).getD (st' * p.sb + j') (0, false)).1
        = if st' = st ∧ j' = j then x.1 ^^^ BitVec.twoPow 8 k else (input.getD (st' * p.sb + j') (0, false)).1 := by
      rw [List.getD_eq_getElem?_getD, List.getD_eq_getElem?_getD, List.getElem?_set]
      by_cases he : st' = st ∧ j' = j
      · obtain ⟨rfl, rfl⟩ := he; simp [hn]
      · rw [if_neg (fun e => he ((stage_index hj hj').mp e.symm)), if_neg he]
    rw [testBit_stageData k' hj' h8, hset]
    split
    · rename_i he
      obtain ⟨rfl, rfl⟩ := he
      rw [if_pos rfl, Nat.testBit_xor, testBit_stageData k' hj' h8, Nat.testBit_two_pow, List.getD_eq_getElem?_getD, hx]
      simp only [Option.getD_some, BitVec.getLsbD_xor, BitVec.getLsbD_twoPow]
      congr 1
      by_cases e : k = k'
      · subst e; simp [hk]
      · simp [e, hk]
    · rename_i he
      split
      · rename_i hst
        have : j' ≠ j := fun e => he ⟨hst, e⟩
        rw [Nat.testBit_xor, testBit_stageData k' hj' h8, Nat.testBit_two_pow]
        rw [decide_eq_false (show ¬ 8 * j + k = 8 * j' + k' by omega)]
        simp
      · rw [testBit_stageData k' hj' h8]
  · have hbig : 8 * p.sb ≤ 8 * j' + k' := by omega
    rw [testBit_eq_false_of_lt stageData_lt hbig]
    split
    · rw [Nat.testBit_xor, testBit_eq_false_of_lt stageData_lt hbig, Nat.testBit_two_pow,
        decide_eq_false (show ¬ 8 * j + k = 8 * j' + k' by omega)]
      rfl
    · rw [testBit_eq_false_of_lt stageData_lt hbig]

/-- Changing one input byte changes its own stage's valid bits alone, and those only where its valid bit changes. -/
theorem stageValid_set (hj : j < p.sb) {x : Byte × Bool} (hx : input[st * p.sb + j]? = some x) (y : Byte) (b : Bool)
    (st' : Nat) : stageValid p (input.set (st * p.sb + j) (y, Bool.xor x.2 b)) st'
      = if st' = st ∧ b = true then stageValid p input st' ^^^ 2 ^ j else stageValid p input st' := by
  have hn : st * p.sb + j < input.length := by
    by_contra hc; rw [List.getElem?_eq_none (by omega)] at hx; cases hx
  refine Nat.eq_of_testBit_eq fun j' => ?_
  by_cases hj' : j' < p.sb
  · have hset : ((input.set (st * p.sb + j) (y, Bool.xor x.2 b)).getD (st' * p.sb + j') (0, false)).2
        = if st' = st ∧ j' = j then Bool.xor x.2 b else (input.getD (st' * p.sb + j') (0, false)).2 := by
      rw [List.getD_eq_getElem?_getD, List.getD_eq_getElem?_getD, List.getElem?_set]
      by_cases he : st' = st ∧ j' = j
      · obtain ⟨rfl, rfl⟩ := he; simp [hn]
      · rw [if_neg (fun e => he ((stage_index hj hj').mp e.symm)), if_neg he]
    rw [testBit_stageValid hj', hset]
    by_cases hst : st' = st
    · subst hst
      by_cases hjj : j' = j
      · subst hjj
        cases b with
        | false =>
          rw [if_pos ⟨rfl, rfl⟩, if_neg (by simp), testBit_stageValid hj', List.getD_eq_getElem?_getD, hx]; simp
        | true =>
          rw [if_pos ⟨rfl, rfl⟩, if_pos ⟨rfl, rfl⟩, Nat.testBit_xor, testBit_stageValid hj',
            List.getD_eq_getElem?_getD, hx]
          simp
      · rw [if_neg (fun e => hjj e.2)]
        split
        · rw [Nat.testBit_xor, testBit_stageValid hj', Nat.testBit_two_pow, decide_eq_false (Ne.symm hjj)]; simp
        · rw [testBit_stageValid hj']
    · rw [if_neg (fun e => hst e.1), if_neg (fun e => hst e.1), testBit_stageValid hj']
  · have hbig : p.sb ≤ j' := by omega
    rw [testBit_eq_false_of_lt stageValid_lt hbig]
    split
    · rw [Nat.testBit_xor, testBit_eq_false_of_lt stageValid_lt hbig, Nat.testBit_two_pow,
        decide_eq_false (show ¬ j = j' by omega)]
      rfl
    · rw [testBit_eq_false_of_lt stageValid_lt hbig]

/-- An XOR over a list without repeats, with one of its terms flipped. -/
theorem foldl_xor_flip {l : List Nat} (hl : l.Nodup) {f f' : Nat → Bool} {st : Nat} {d : Bool}
    (h : ∀ x, f' x = if x = st then Bool.xor (f x) d else f x) (a : Bool) :
    l.foldl (fun acc x => Bool.xor acc (f' x)) a
      = Bool.xor (l.foldl (fun acc x => Bool.xor acc (f x)) a) (decide (st ∈ l) && d) := by
  have shift : ∀ (l : List Nat) (f : Nat → Bool) (a d : Bool), l.foldl (fun acc x => Bool.xor acc (f x)) (Bool.xor a d)
      = Bool.xor (l.foldl (fun acc x => Bool.xor acc (f x)) a) d := by
    intro l f
    induction l with
    | nil => exact fun _ _ => rfl
    | cons x l ih =>
      intro a d
      rw [List.foldl_cons, List.foldl_cons, ← ih]
      congr 1
      generalize f x = y
      revert a d y; decide
  induction l generalizing a with
  | nil => simp
  | cons x l ih =>
    obtain ⟨hx, hl⟩ := List.nodup_cons.mp hl
    rw [List.foldl_cons, List.foldl_cons, ih hl, h x]
    by_cases he : x = st
    · subst he
      rw [if_pos rfl, ← Bool.xor_assoc, shift]
      simp [hx]
    · rw [if_neg he]
      simp [Ne.symm he]

/-- Flipping stage st's contribution flips the output bit exactly when the stage is enabled (R141). -/
theorem computeBit_flip {input' : List (Byte × Bool)} (hst : st < p.hs) {d : Bool}
    (h : ∀ x, stageBit p regs input' x o = if x = st then Bool.xor (stageBit p regs input x o) d
      else stageBit p regs input x o) :
    computeBit p regs input' g o = Bool.xor (computeBit p regs input g o) ((cfgEnable p regs g).testBit st && d) := by
  unfold computeBit
  rw [foldl_xor_flip (List.nodup_range.filter _) h]
  simp [hst]

/-- Flipping one data bit of stage st flips the output bit exactly when the stage is enabled and its matrix bit is 1
(R140, R141, R145). -/
theorem computeBit_flip_data (hst : st < p.hs) (hj : j < p.sb) {x : Byte × Bool}
    (hx : input[st * p.sb + j]? = some x) {k : Nat} (hk : k < 8) :
    computeBit p regs (input.set (st * p.sb + j) (x.1 ^^^ BitVec.twoPow 8 k, x.2)) g o
      = Bool.xor (computeBit p regs input g o)
          ((cfgEnable p regs g).testBit st && (cfgMatrix p regs st o).testBit (8 * j + k)) := by
  refine computeBit_flip hst fun st' => ?_
  have hv : stageValid p (input.set (st * p.sb + j) (x.1 ^^^ BitVec.twoPow 8 k, x.2)) st' = stageValid p input st' := by
    have := stageValid_set hj hx (x.1 ^^^ BitVec.twoPow 8 k) false st'
    simpa using this
  unfold stageBit
  rw [hv, stageData_set hj hx hk]
  split
  · rename_i e
    subst e
    rw [parity_flip (by omega)]
    generalize parity (8 * p.sb) _ = u; generalize parity p.sb _ = v; generalize Nat.testBit _ _ = w
    revert u v w; decide
  · rfl

/-- The same of one valid bit. -/
theorem computeBit_flip_valid (hst : st < p.hs) (hj : j < p.sb) {x : Byte × Bool}
    (hx : input[st * p.sb + j]? = some x) :
    computeBit p regs (input.set (st * p.sb + j) (x.1, !x.2)) g o
      = Bool.xor (computeBit p regs input g o)
          ((cfgEnable p regs g).testBit st && (cfgValidMatrix p regs st o).testBit j) := by
  refine computeBit_flip hst fun st' => ?_
  have hd : stageData p (input.set (st * p.sb + j) (x.1, !x.2)) st' = stageData p input st' := by
    unfold stageData
    congr 1
    refine List.map_congr_left fun i _ => ?_
    rw [List.getD_eq_getElem?_getD, List.getD_eq_getElem?_getD, List.getElem?_set]
    split
    · rename_i e; rw [← e, hx]; split <;> rename_i hn
      · rfl
      · rw [List.getElem?_eq_none (by omega)] at hx; cases hx
    · rfl
  unfold stageBit
  rw [hd, show (!x.2) = Bool.xor x.2 true by simp, stageValid_set hj hx _ true]
  by_cases e : st' = st
  · subst e
    rw [if_pos ⟨rfl, rfl⟩, if_pos rfl, parity_flip hj]
    generalize parity (8 * p.sb) _ = u; generalize parity p.sb _ = v; generalize Nat.testBit _ _ = w
    revert u v w; decide
  · rw [if_neg (fun h => e h.1), if_neg e]

/-- With every input bit 0 a stage contributes nothing. -/
theorem stageBit_zero (h : ∀ x ∈ input, x = (0, false)) : stageBit p regs input st o = false := by
  have hg : ∀ n, input.getD n (0, false) = (0, false) := by
    intro n
    rw [List.getD_eq_getElem?_getD]
    cases hx : input[n]? with
    | none => rfl
    | some x => exact h x (List.mem_of_getElem? hx)
  have hd : stageData p input st = 0 := by
    refine Nat.eq_of_testBit_eq fun i => ?_
    rw [Nat.zero_testBit]
    by_cases hi : i / 8 < p.sb
    · rw [show i = 8 * (i / 8) + i % 8 by omega, testBit_stageData _ hi (by omega), hg]; simp
    · exact testBit_eq_false_of_lt stageData_lt (by omega)
  have hv : stageValid p input st = 0 := by
    refine Nat.eq_of_testBit_eq fun i => ?_
    rw [Nat.zero_testBit]
    by_cases hi : i < p.sb
    · rw [testBit_stageValid hi, hg]
    · exact testBit_eq_false_of_lt stageValid_lt (by omega)
  unfold stageBit
  rw [hd, hv, parity_zero, parity_zero]
  rfl

end

end Sys2Proof.Machine
end

