-- ==== Sys2Proof/Laws/Lookup.lean ====
section
/-! SUPPORT. The lookups, said once: what acceptance of a command gives, the rows of an SRAM lookup, the buses its hits
drive, and the TCAM scan. -/

namespace Sys2Proof.Machine

/-! ## Acceptance (R345) -/

/-- An accepted command: the block runs, the context and the protocol are as it needs them, and every operand is in
range. -/
theorem accepts_spec {s : State} {i : Instr} (h : accepts s i = true) :
    s.running = true ∧ contextOk s i = true ∧ protocolOk s i = true ∧ phvSized s.params i = true
      ∧ ∀ x ∈ operandTable s.params i, x.value < x.bound := by
  simp only [accepts, badOperand, Bool.and_eq_true, Option.isNone_iff_eq_none, List.find?_eq_none,
    decide_eq_true_eq, not_le] at h
  exact ⟨by simpa [State.running] using h.1.1.1.1, h.1.1.1.2, h.1.1.2, h.1.2, h.2⟩

/-- A 16-bit operand below its bound passes its check. -/
theorem checkIndex_index16 {name : IndexName} {bound v : Nat} (h : v < min (2 ^ 16) bound) :
    checkIndex name 16 bound v = .ok () :=
  checkIndex_ok_iff.mpr ⟨by omega, by omega⟩

/-- An answered state that changed the predication state alone. -/
theorem answering_pred {s t : State} {r : Response} (h : t = { s with pred := t.pred }) :
    t.answering r = { s with pred := (t.answering r).pred, response := (t.answering r).response } := by
  cases s; cases t; simp_all [State.answering]

/-! ## The rows of an SRAM lookup (R186) -/

variable {s : State} {c r : Nat}

theorem slotHits_congr {s t : State} (hp : t.params = s.params) (hm : t.mem = s.mem) (r c a key ver : Nat) :
    slotHits t r c a key ver = slotHits s r c a key ver := by
  unfold slotHits State.sramAt
  rw [hp, hm]

/-- The word address of a unit, with the cache effect of reading its hash group. -/
theorem sramAddress_ok (h1 : cfgHashGroup s.params s.mem.regs r c < s.params.hg)
    (h2 : cfgHashOffset s.params s.mem.regs r c < s.params.ow)
    (h3 : groupReady s (cfgHashGroup s.params s.mem.regs r c)) :
    sramAddress s r c = .ok (wordAddress s r c, s.fill (cfgHashGroup s.params s.mem.regs r c)) := by
  unfold sramAddress
  rw [if_pos h1, if_pos h2, hashValue_ok h3]
  rfl

theorem matchKeyValue_fills (s : State) (gs : List Nat) (r : Nat) :
    matchKeyValue (s.fills gs) r = matchKeyValue s r := by
  unfold matchKeyValue
  simp only [State.fills_params, State.fills_mem, State.fills_ctx,
    show matchByteValue (s.fills gs) r = matchByteValue s r from funext (matchByteValue_fills s gs r)]

theorem matchReady_fills {gs : List Nat} (h : ∀ g ∈ gs, groupReady s g) (r : Nat) :
    matchReady (s.fills gs) r ↔ matchReady s r := by
  have hb : ∀ j, byteReady (s.fills gs) r j ↔ byteReady s r j := fun j => byteReady_fills h r j
  unfold matchReady
  unfold byteReady at hb
  simp only [hb]
  simp only [State.fills_params, State.fills_mem]

theorem unitReady_fills {gs : List Nat} (h : ∀ g ∈ gs, groupReady s g) (c r : Nat) :
    unitReady (s.fills gs) c r ↔ unitReady s c r := by
  unfold unitReady
  rw [matchReady_fills h, groupReady_fills h]
  simp only [State.fills_params, State.fills_mem]

theorem wordAddress_fills (s : State) (gs : List Nat) (r c : Nat) :
    wordAddress (s.fills gs) r c = wordAddress s r c := by
  unfold wordAddress
  rw [groupValue_fills]
  simp only [State.fills_params, State.fills_mem]

/-- The groups that one row of a lookup reads: those of its key, and that of its word address. -/
def rowGroups (s : State) (c r : Nat) : List Nat := keyGroups s r ++ [cfgHashGroup s.params s.mem.regs r c]

theorem rowGroups_fills (s : State) (gs : List Nat) (c : Nat) : rowGroups (s.fills gs) c = rowGroups s c := by
  funext r
  simp only [rowGroups, keyGroups, State.fills_params, State.fills_mem,
    show byteGroups (s.fills gs) r = byteGroups s r from funext (byteGroups_fills s gs r)]

/-- One row: its hits, with the cache effect of its key and its word address. -/
theorem lookupRow_ok (h : unitReady s c r) (ver : Nat) (acc : List RawHit) :
    lookupRow c ver (acc, s) r
        = .ok (acc ++ slotHits s r c (wordAddress s r c) (matchKeyValue s r) ver, s.fills (rowGroups s c r))
      ∧ ∀ g ∈ rowGroups s c r, groupReady s g := by
  obtain ⟨h1, h2, h3, h4⟩ := h
  obtain ⟨hk, hg⟩ := matchXbar_ok h1
  refine ⟨?_, ?_⟩
  · unfold lookupRow
    rw [hk]
    simp only [ok_bind]
    rw [sramAddress_ok (s := s.fills (keyGroups s r)) (by simpa using h2) (by simpa using h3)
      (by simpa using (groupReady_fills hg _).mpr h4), wordAddress_fills]
    simp only [ok_bind, State.fills_params, State.fills_mem]
    rw [slotHits_congr (s := s) (by simp) (by simp), rowGroups, State.fills_append]
    rfl
  · intro g h
    rcases List.mem_append.mp h with h | h
    · exact hg g h
    · obtain rfl : g = cfgHashGroup s.params s.mem.regs r c := by simpa using h
      exact h4

/-- All rows of a lookup: the hits row by row, with the cache effects. -/
theorem lookupRows_ok (c ver : Nat) (rows : List Nat) (s : State) (h : ∀ r ∈ rows, unitReady s c r)
    (acc : List RawHit) :
    foldOp (lookupRow c ver) (acc, s) rows
      = .ok (acc ++ rows.flatMap fun r => slotHits s r c (wordAddress s r c) (matchKeyValue s r) ver,
          s.fills (rows.flatMap (rowGroups s c))) := by
  induction rows generalizing s acc with
  | nil => simp [foldOp, State.fills]
  | cons r rows ih =>
    obtain ⟨h1, h2⟩ := lookupRow_ok (h r (.head _)) ver acc
    have h3 := ih (s.fills (rowGroups s c r)) (fun r' hr' => (unitReady_fills h2 c r').mpr (h r' (.tail _ hr')))
      (acc ++ slotHits s r c (wordAddress s r c) (matchKeyValue s r) ver)
    rw [foldOp_cons, h1]
    simp only [ok_bind]
    rw [h3, rowGroups_fills, List.flatMap_cons, List.flatMap_cons, State.fills_append, List.append_assoc]
    simp only [wordAddress_fills, matchKeyValue_fills]
    simp only [slotHits_congr (s := s) (t := s.fills (rowGroups s c r)) (by simp) (by simp)]

/-- The word address cannot be formed. -/
theorem sramAddress_error (h : ¬ (cfgHashGroup s.params s.mem.regs r c < s.params.hg
    ∧ cfgHashOffset s.params s.mem.regs r c < s.params.ow ∧ groupReady s (cfgHashGroup s.params s.mem.regs r c))) :
    ∃ n v, sramAddress s r c = .error ⟨.bounds, .index n v⟩ := by
  unfold sramAddress
  dsimp only
  split
  · rename_i h1
    split
    · rename_i h2
      obtain ⟨n, v, hv⟩ := hashValue_error (g := cfgHashGroup s.params s.mem.regs r c) fun h3 => h ⟨h1, h2, h3⟩
      exact ⟨n, v, by rw [hv]; rfl⟩
    · exact ⟨_, _, rfl⟩
  · exact ⟨_, _, rfl⟩

/-- A row whose unit cannot be read raises F01. -/
theorem lookupRow_error (h : ¬ unitReady s c r) (ver : Nat) (acc : List RawHit) :
    ∃ n v, lookupRow c ver (acc, s) r = .error ⟨.bounds, .index n v⟩ := by
  by_cases h1 : matchReady s r
  · obtain ⟨hk, hg⟩ := matchXbar_ok h1
    obtain ⟨n, v, hv⟩ := sramAddress_error (s := s.fills (keyGroups s r)) (r := r) (c := c) fun h2 => h ⟨h1, by
      simp only [State.fills_params, State.fills_mem, groupReady_fills hg] at h2; exact h2⟩
    exact ⟨n, v, by unfold lookupRow; rw [hk]; simp only [ok_bind]; rw [hv]; rfl⟩
  · obtain ⟨n, v, hv⟩ := matchXbar_error h1
    exact ⟨n, v, by unfold lookupRow; rw [hv]; rfl⟩

/-- So does a lookup with such a row. -/
theorem lookupRows_error (c ver : Nat) (rows : List Nat) (s : State) (h : ∃ r ∈ rows, ¬ unitReady s c r)
    (acc : List RawHit) : ∃ n v, foldOp (lookupRow c ver) (acc, s) rows = .error ⟨.bounds, .index n v⟩ := by
  induction rows generalizing s acc with
  | nil => obtain ⟨r, hr, -⟩ := h; cases hr
  | cons r rows ih =>
    rw [foldOp_cons]
    by_cases h0 : unitReady s c r
    · obtain ⟨h1, h2⟩ := lookupRow_ok h0 ver acc
      rw [h1]
      obtain ⟨r', hr', hn⟩ := h
      rcases List.mem_cons.mp hr' with rfl | hr'
      · exact absurd h0 hn
      · exact ih (s.fills (rowGroups s c r)) ⟨r', hr', fun hh => hn ((unitReady_fills h2 c r').mp hh)⟩ _
    · obtain ⟨n, v, hv⟩ := lookupRow_error h0 ver acc
      exact ⟨n, v, by rw [hv]; rfl⟩
/-! ## What a hit is -/

/-- The version test, in the words of R181. -/
theorem versionMatch_iff (p : Params) (vv ver : Nat) : versionMatch p vv ver = true ↔ versionAdmits p vv ver := by
  unfold versionMatch versionAdmits
  cases p.versionMatch with
  | versionSet => simp
  | table rows =>
    dsimp only
    rw [List.getD_eq_getElem?_getD]
    cases rows[vv * 2 ^ p.verBits + ver]? <;> simp

/-- A raw stash hit, bit by bit (R220). -/
theorem stashRaw_iff (p : Params) (se : StashEntry) (key ver : Nat) :
    stashRaw p se key ver = true ↔ stashMatches p se key ver := by
  unfold stashRaw stashMatches
  rw [Bool.and_eq_true, Bool.and_eq_true, decide_eq_true_eq, xor_and_eq_zero_iff, versionMatch_iff, and_assoc,
    and_comm (a := ∀ _, _)]

/-- The hits of a lookup, bit by bit (R180 to R183, R186). -/
theorem mem_rawHits {c lt vs : Nat} {s : State} {h : RawHit} : h ∈ rawHits s c lt vs ↔ isHit s c lt vs h := by
  obtain ⟨row, entry, addr⟩ := h
  have hb : ∀ k, (cfgByteMask s.params s.mem.regs row c entry).testBit (k / 8) = true → k / 8 < s.params.xo := by
    intro k hk
    unfold cfgByteMask readWidth at hk
    rw [Nat.testBit_mod_two_pow] at hk
    simpa using (Bool.and_eq_true_iff.mp hk).1
  unfold rawHits isHit rowsOfConfig slotHits entryHit effMask
  simp only [List.mem_flatMap, List.mem_map, List.mem_filter, List.mem_range, RawHit.mk.injEq, Bool.and_eq_true,
    decide_eq_true_eq, xor_and_eq_zero_iff, versionMatch_iff, Nat.testBit_and, testBit_expandMask]
  constructor
  · rintro ⟨r, ⟨h1, h2, h3⟩, e, ⟨h4, ⟨h5, h6⟩, h7⟩, rfl, rfl, rfl⟩
    exact ⟨h1, h2, h3, h4, rfl, h5, h7, fun k m1 m2 m3 => h6 k ⟨⟨m1, m2⟩, hb k m3, m3⟩⟩
  · rintro ⟨h1, h2, h3, h4, rfl, h5, h6, h7⟩
    exact ⟨row, ⟨h1, h2, h3⟩, entry, ⟨h4, ⟨h5, fun k m => h7 k m.1.1 m.1.2 m.2.2⟩, h6⟩, rfl, rfl, rfl⟩
/-! ## Buses (R188) -/

variable {i : Instr} {b : Nat} {h : BusHit}

/-- A free bus takes the record. -/
theorem driveBus_free (hb : s.busHitAt b = none) : driveBus i s b h = .ok (s.putBusHit b (some h)) := by
  unfold driveBus; rw [hb]

/-- A bus that carries the same record stays. -/
theorem driveBus_same (hb : s.busHitAt b = some h) : driveBus i s b h = .ok s := by
  unfold driveBus; rw [hb]; simp

/-- Two different records on one bus raise F07. -/
theorem driveBus_contention {prev : BusHit} (hb : s.busHitAt b = some prev) (hn : prev ≠ h)
    (hr : s.params.relaxMultiHit = false) :
    driveBus i s b h = .error ⟨.busContention, .contention b prev h⟩ := by
  unfold driveBus; rw [hb]; simp [hn, hr]

/-- With relaxMultiHit they log W07 and the bus keeps one of them. -/
theorem driveBus_relaxed {prev : BusHit} (hb : s.busHitAt b = some prev) (hn : prev ≠ h)
    (hr : s.params.relaxMultiHit = true) :
    ∃ n, driveBus i s b h = .ok { s with
      ctx := (s.putBusHit b (some (keepLowest prev h s.freeCount))).ctx
      warnLog := s.warnLog ++ [⟨.busContention, opcode i, operands i, .contention b prev h⟩], freeCount := n } := by
  unfold driveBus
  rw [hb]
  simp only [hn, hr, if_true, if_false]
  split
  · exact ⟨s.freeCount, rfl⟩
  · exact ⟨s.freeCount + 1, rfl⟩

/-- The record kept is one of the two, and neither comes before it. -/
theorem keepLowest_spec (x y : BusHit) (n : Nat) : (keepLowest x y n = x ∨ keepLowest x y n = y)
    ∧ hitBefore x (keepLowest x y n) = false ∧ hitBefore y (keepLowest x y n) = false := by
  have irr : ∀ z : BusHit, hitBefore z z = false := fun z => by simp [hitBefore]
  have asym : ∀ u v : BusHit, hitBefore u v = true → hitBefore v u = false := by
    intro u v huv
    simp only [hitBefore, decide_eq_true_eq, decide_eq_false_iff_not] at huv ⊢
    omega
  unfold keepLowest
  split
  · rename_i h1; exact ⟨.inl rfl, irr x, asym _ _ h1⟩
  · rename_i h1
    split
    · rename_i h2; exact ⟨.inr rfl, by simpa using h1, irr y⟩
    · rename_i h2
      split
      · exact ⟨.inl rfl, irr x, by simpa using h2⟩
      · exact ⟨.inr rfl, by simpa using h1, irr y⟩

/-- A hit whose hitmap is disabled is reported and drives nothing; another is reported with its bus, which it drives
(R186). -/
theorem reportHit_eq (i : Instr) (c : Nat) (acc : List HitReport) (s : State) (h : RawHit)
    (hb : ∀ b ∈ hitBus s c h, b < s.params.nmb) :
    reportHit i c (acc, s) h = match hitBus s c h with
      | none => .ok (acc ++ [hitReport s c h], s)
      | some b => driveBus i s b (hitRecord c h) >>= fun t => .ok (acc ++ [hitReport s c h], t) := by
  unfold reportHit hitReport
  unfold hitBus at hb ⊢
  dsimp only at hb ⊢
  cases he : (cfgHitmap s.params s.mem.regs h.row c h.entry).en with
  | false => simp
  | true =>
    rw [he] at hb
    simp only [if_true]
    rw [if_pos (hb _ rfl)]
    rfl

theorem hitBus_congr {s t : State} (hp : t.params = s.params) (hm : t.mem = s.mem) (c : Nat) (h : RawHit) :
    hitBus t c h = hitBus s c h := by
  unfold hitBus; rw [hp, hm]

theorem hitReport_congr {s t : State} (hp : t.params = s.params) (hm : t.mem = s.mem) (c : Nat) (h : RawHit) :
    hitReport t c h = hitReport s c h := by
  unfold hitReport; rw [hitBus_congr hp hm]

/-- Neither record of three in order comes before the last: `hitBefore` orders by (col, row, entry). -/
theorem hitBefore_trans {x y z : BusHit} (h1 : hitBefore x y = false) (h2 : hitBefore y z = false) :
    hitBefore x z = false := by
  simp only [hitBefore, decide_eq_false_iff_not] at h1 h2 ⊢
  omega

theorem hitBefore_self (x : BusHit) : hitBefore x x = false := by simp [hitBefore]

/-- With relaxMultiHit a bus takes every record: it then carries one that neither the record nor what it carried before
precedes; other buses stay, and only W07 is logged. -/
theorem driveBus_relaxed_spec (i : Instr) (s : State) (b : Nat) (h : BusHit) (hr : s.params.relaxMultiHit = true) :
    ∃ t, driveBus i s b h = .ok t
      ∧ t = { s with ctx := { s.ctx with busHit := t.ctx.busHit }, warnLog := t.warnLog, freeCount := t.freeCount }
      ∧ (∀ b', b' ≠ b → t.busHitAt b' = s.busHitAt b')
      ∧ (∃ x, t.busHitAt b = some x ∧ hitBefore h x = false ∧ ∀ y, s.busHitAt b = some y → hitBefore y x = false)
      ∧ ∃ more, t.warnLog = s.warnLog ++ more ∧ ∀ w ∈ more, w.code = .busContention := by
  cases hb : s.busHitAt b with
  | none =>
    exact ⟨_, driveBus_free hb, rfl, fun b' hb' => by rw [busHitAt_putBusHit, if_neg hb'],
      ⟨h, by rw [busHitAt_putBusHit, if_pos rfl], hitBefore_self h, nofun⟩, [], by simp [State.putBusHit], nofun⟩
  | some prev =>
    by_cases hp : prev = h
    · subst hp
      exact ⟨s, driveBus_same hb, rfl, fun _ _ => rfl,
        ⟨prev, hb, hitBefore_self prev, fun y hy => by cases hy; exact hitBefore_self prev⟩, [], by simp, nofun⟩
    · obtain ⟨n, hn⟩ := driveBus_relaxed (i := i) hb hp hr
      obtain ⟨-, k1, k2⟩ := keepLowest_spec prev h s.freeCount
      refine ⟨_, hn, rfl, fun b' hb' => ?_, ⟨keepLowest prev h s.freeCount, ?_, k2, fun y hy => by cases hy; exact k1⟩,
        _, rfl, fun w hw => by rw [List.mem_singleton.mp hw]⟩
      · show (s.putBusHit b _).busHitAt b' = _
        rw [busHitAt_putBusHit, if_neg hb']
      · show (s.putBusHit b _).busHitAt b = _
        rw [busHitAt_putBusHit, if_pos rfl]

/-- A hit that drives a bus below NMB without contention is reported, and its bus driven. -/
theorem reportHit_ok (i : Instr) (c : Nat) (acc : List HitReport) (s : State) (h : RawHit)
    (hb : ∀ b ∈ hitBus s c h, b < s.params.nmb)
    (hd : ∀ b ∈ hitBus s c h, ∃ t, driveBus i s b (hitRecord c h) = .ok t) :
    reportHit i c (acc, s) h = .ok (acc ++ [hitReport s c h], driveHit i c s h) := by
  rw [reportHit_eq i c acc s h hb]
  unfold driveHit
  cases hbus : hitBus s c h with
  | none => rfl
  | some b => obtain ⟨t, ht⟩ := hd b hbus; dsimp only; rw [ht]; rfl

/-- A hit that drives a bus of NMB or more raises F01. -/
theorem reportHit_error (i : Instr) (c : Nat) (acc : List HitReport) (s : State) (h : RawHit) {b : Nat}
    (hb : b ∈ hitBus s c h) (hn : s.params.nmb ≤ b) :
    reportHit i c (acc, s) h = .error ⟨.bounds, .index .hitmapBus b⟩ := by
  unfold reportHit
  unfold hitBus at hb
  dsimp only at hb ⊢
  split at hb
  · rename_i he
    cases hb
    rw [if_pos he, if_neg (by omega)]
    rfl
  · cases hb

/-- What one hit changes with relaxMultiHit. -/
theorem driveHit_relaxed (i : Instr) (c : Nat) (s : State) (h : RawHit) (hr : s.params.relaxMultiHit = true) :
    (∀ b ∈ hitBus s c h, ∃ t, driveBus i s b (hitRecord c h) = .ok t)
      ∧ (let t := driveHit i c s h
        t = { s with ctx := { s.ctx with busHit := t.ctx.busHit }, warnLog := t.warnLog, freeCount := t.freeCount }
        ∧ (∀ b, hitBus s c h ≠ some b → t.busHitAt b = s.busHitAt b)
        ∧ (∀ b ∈ hitBus s c h, ∃ x, t.busHitAt b = some x ∧ hitBefore (hitRecord c h) x = false)
        ∧ (∀ b y, s.busHitAt b = some y → ∃ x, t.busHitAt b = some x ∧ hitBefore y x = false)
        ∧ ∃ more, t.warnLog = s.warnLog ++ more ∧ ∀ w ∈ more, w.code = .busContention) := by
  unfold driveHit
  cases hbus : hitBus s c h with
  | none => exact ⟨nofun, rfl, fun _ _ => rfl, nofun, fun b y hy => ⟨y, hy, hitBefore_self y⟩, [], by simp, nofun⟩
  | some b =>
    obtain ⟨t, h1, h2, h3, ⟨x, h4, h5, h6⟩, h7⟩ := driveBus_relaxed_spec i s b (hitRecord c h) hr
    refine ⟨fun b' hb' => by cases hb'; exact ⟨t, h1⟩, ?_⟩
    dsimp only
    rw [h1]
    refine ⟨h2, fun b' hb' => h3 b' fun e => hb' (by rw [e]), fun b' hb' => by cases hb'; exact ⟨x, h4, h5⟩,
      fun b' y hy => ?_, h7⟩
    by_cases e : b' = b
    · subst e; exact ⟨x, h4, h6 y hy⟩
    · exact ⟨y, (h3 b' e).trans hy, hitBefore_self y⟩

theorem driveHits_cons (i : Instr) (c : Nat) (s : State) (h : RawHit) (hs : List RawHit) :
    driveHits i c s (h :: hs) = driveHits i c (driveHit i c s h) hs := rfl

/-- Reporting hits with relaxMultiHit: every one is reported and drives its bus, which then carries a record that the
hit does not precede; only the buses, W07 and the count of free values change. -/
theorem reportHits_relaxed (i : Instr) (c : Nat) (hs : List RawHit) (s : State) (acc : List HitReport)
    (hr : s.params.relaxMultiHit = true) (hb : ∀ h ∈ hs, ∀ b ∈ hitBus s c h, b < s.params.nmb) :
    foldOp (reportHit i c) (acc, s) hs = .ok (acc ++ hs.map (hitReport s c), driveHits i c s hs)
      ∧ (let t := driveHits i c s hs
        t = { s with ctx := { s.ctx with busHit := t.ctx.busHit }, warnLog := t.warnLog, freeCount := t.freeCount }
        ∧ (∀ b, (∀ h ∈ hs, hitBus s c h ≠ some b) → t.busHitAt b = s.busHitAt b)
        ∧ (∀ h ∈ hs, ∀ b ∈ hitBus s c h, ∃ x, t.busHitAt b = some x ∧ hitBefore (hitRecord c h) x = false)
        ∧ (∀ b y, s.busHitAt b = some y → ∃ x, t.busHitAt b = some x ∧ hitBefore y x = false)
        ∧ ∃ more, t.warnLog = s.warnLog ++ more ∧ ∀ w ∈ more, w.code = .busContention) := by
  induction hs generalizing s acc with
  | nil => exact ⟨by simp [foldOp, driveHits], rfl, fun _ _ => rfl, nofun, fun b y hy => ⟨y, hy, hitBefore_self y⟩, [],
      by simp [driveHits], nofun⟩
  | cons h hs ih =>
    obtain ⟨h0, h1, h2, h3, h4, m, h5, h6⟩ := driveHit_relaxed i c s h hr
    have h7 := reportHit_ok i c acc s h (hb h (.head _)) h0
    rw [foldOp_cons, h7]
    simp only [ok_bind]
    rw [driveHits_cons]
    generalize driveHit i c s h = u at *
    have hp : u.params = s.params := by rw [h1]
    have hm : u.mem = s.mem := by rw [h1]
    obtain ⟨k0, k1, k2, k3, k4, m', k5, k6⟩ := ih u (acc ++ [hitReport s c h]) (by rw [hp]; exact hr) (fun x hx => by
      rw [hitBus_congr hp hm, hp]; exact hb x (.tail _ hx))
    simp only [hitBus_congr hp hm] at k2 k3
    generalize driveHits i c u hs = v at *
    refine ⟨?_, ?_, fun b hbb => ?_, fun x hx b hbb => ?_, fun b y hy => ?_, m ++ m', ?_, fun w hw => ?_⟩
    · rw [k0, show hitReport u c = hitReport s c from funext (hitReport_congr hp hm c)]
      simp
    · rw [k1, h1]
    · exact (k2 b fun x hx => hbb x (.tail _ hx)).trans (h2 b (hbb h (.head _)))
    · rcases List.mem_cons.mp hx with rfl | hx
      · obtain ⟨y, hy1, hy2⟩ := h3 b hbb
        obtain ⟨z, hz1, hz2⟩ := k4 b y hy1
        exact ⟨z, hz1, hitBefore_trans hy2 hz2⟩
      · exact k3 x hx b hbb
    · obtain ⟨z, hz1, hz2⟩ := h4 b y hy
      obtain ⟨x, hx1, hx2⟩ := k4 b z hz1
      exact ⟨x, hx1, hitBefore_trans hz2 hx2⟩
    · rw [k5, h5, List.append_assoc]
    · rcases List.mem_append.mp hw with hw | hw
      · exact h6 w hw
      · exact k6 w hw

/-- A reported hit whose bus is out of range raises F01, with relaxMultiHit or as the first hit. -/
theorem reportHits_error (i : Instr) (c : Nat) (hs : List RawHit) (s : State) (acc : List HitReport)
    (hr : s.params.relaxMultiHit = true ∨ hs.length ≤ 1)
    (hb : ∃ h ∈ hs, ∃ b ∈ hitBus s c h, s.params.nmb ≤ b) :
    ∃ b, s.params.nmb ≤ b ∧ foldOp (reportHit i c) (acc, s) hs = .error ⟨.bounds, .index .hitmapBus b⟩ := by
  induction hs generalizing s acc with
  | nil => obtain ⟨h, hh, -⟩ := hb; cases hh
  | cons h hs ih =>
    rw [foldOp_cons]
    by_cases h0 : ∃ b ∈ hitBus s c h, s.params.nmb ≤ b
    · obtain ⟨b, h1, h2⟩ := h0
      exact ⟨b, h2, by rw [reportHit_error i c acc s h h1 h2]; rfl⟩
    · have hlt : ∀ b ∈ hitBus s c h, b < s.params.nmb := fun b h1 => by
        by_contra hc; exact h0 ⟨b, h1, by omega⟩
      obtain ⟨h', hh', b, h1, h2⟩ := hb
      rcases List.mem_cons.mp hh' with rfl | hh'
      · exact absurd ⟨b, h1, h2⟩ h0
      · have hrel : s.params.relaxMultiHit = true := hr.resolve_right (by
          have := List.length_pos_of_mem hh'; simp only [List.length_cons]; omega)
        obtain ⟨k0, k1, -⟩ := driveHit_relaxed i c s h hrel
        rw [reportHit_ok i c acc s h hlt k0]
        have hp : (driveHit i c s h).params = s.params := by rw [k1]
        have hm : (driveHit i c s h).mem = s.mem := by rw [k1]
        obtain ⟨b', h3, h4⟩ := ih (driveHit i c s h) (acc ++ [hitReport s c h]) (.inl (by rw [hp]; exact hrel))
          ⟨h', hh', b, by rw [hitBus_congr hp hm]; exact h1, by rw [hp]; exact h2⟩
        exact ⟨b', by rw [← hp]; exact h3, h4⟩

/-- Driving buses reads and writes none of the caches. -/
theorem driveHits_caches (i : Instr) (c : Nat) (hs : List RawHit) (s : State) (x : Cells (Option Nat))
    (y : Cells (Option Nat)) (z : Cells (List Nat)) :
    driveHits i c { s with hashCache := x, pendingMapSeq := y, rowsCache := z } hs
      = { driveHits i c s hs with hashCache := x, pendingMapSeq := y, rowsCache := z } := by
  have one : ∀ (s : State) (h : RawHit),
      driveHit i c { s with hashCache := x, pendingMapSeq := y, rowsCache := z } h
        = { driveHit i c s h with hashCache := x, pendingMapSeq := y, rowsCache := z } := by
    intro s h
    unfold driveHit driveBus
    rw [show hitBus { s with hashCache := x, pendingMapSeq := y, rowsCache := z } c h = hitBus s c h from rfl]
    cases hitBus s c h with
    | none => rfl
    | some b =>
      dsimp only
      rw [show State.busHitAt { s with hashCache := x, pendingMapSeq := y, rowsCache := z } b = s.busHitAt b from rfl]
      cases s.busHitAt b with
      | none => rfl
      | some prev =>
        by_cases h1 : prev = hitRecord c h
        · simp only [h1, if_true]
        · cases h2 : s.params.relaxMultiHit with
          | false => simp only [h1, if_false, Bool.false_eq_true]
          | true =>
            simp only [h1, if_false, if_true]
            split <;> rfl
  induction hs generalizing s with
  | nil => rfl
  | cons h hs ih => rw [driveHits_cons, driveHits_cons, one]; exact ih _

/-- The rows of a lookup, with a fresh row cache, are those of the current configuration (R183). -/
theorem refreshedRows {c lt : Nat} (hc : c < s.params.nc) (hl : lt < 16) (hf : s.rowsFresh) :
    (s.refreshRows c).cachedRows c lt = rowsOfConfig s.params s.mem.regs c lt := by
  rw [cachedRows_refreshRows s c c lt hl]
  split
  · rfl
  · rename_i h
    have : s.pendingAt c = some s.mapSeq := by simpa using h
    exact (hf c hc s.mapSeq this).2 rfl lt hl

/-- The hits of an accepted lookup, with a fresh row cache and every row readable: those of the current configuration.
Only the caches change: the row cache of the column is refreshed, and the groups that the rows read are cached (R183,
R186). -/
theorem lookupHits_ok {c lt : Nat} (ver : Nat) (hc : c < s.params.nc) (hl : lt < 16) (hf : s.rowsFresh)
    (hu : ∀ r ∈ rowsOfConfig s.params s.mem.regs c lt, unitReady s c r) :
    ∃ t, foldOp (lookupRow c ver) ([], s.refreshRows c) ((s.refreshRows c).cachedRows c lt)
        = .ok ((rowsOfConfig s.params s.mem.regs c lt).flatMap fun r =>
            slotHits s r c (wordAddress s r c) (matchKeyValue s r) ver, t)
      ∧ t = { s with hashCache := t.hashCache, pendingMapSeq := t.pendingMapSeq, rowsCache := t.rowsCache }
      ∧ cachesReads s t (lookupReads s c lt) ∧ t.pendingMapSeq = (s.refreshRows c).pendingMapSeq
      ∧ t.rowsCache = (s.refreshRows c).rowsCache := by
  rw [refreshedRows hc hl hf]
  have hk := refreshRows_keeps s c
  generalize s.refreshRows c = u at hk
  have h1 := lookupRows_ok c ver (rowsOfConfig s.params s.mem.regs c lt) u (by rw [hk]; exact hu) []
  have he : (fun r => slotHits u r c (wordAddress u r c) (matchKeyValue u r) ver)
      = fun r => slotHits s r c (wordAddress s r c) (matchKeyValue s r) ver := by rw [hk]; rfl
  rw [he] at h1
  refine ⟨u.fills ((rowsOfConfig s.params s.mem.regs c lt).flatMap (rowGroups u c)), h1, ?_, fun g cid => ?_,
    by rw [State.fills_keeps], by rw [State.fills_keeps]⟩
  · rw [State.fills_keeps]
    generalize (u.fills _).hashCache = x
    rw [hk]
  have h3 := cachesReads_fills u ((rowsOfConfig s.params s.mem.regs c lt).flatMap (rowGroups u c)) g cid
  have hm : g ∈ (rowsOfConfig s.params s.mem.regs c lt).flatMap (rowGroups u c) ↔ lookupReads s c lt g := by
    simp only [List.mem_flatMap, rowGroups, List.mem_append, mem_keyGroups, List.mem_singleton, lookupReads]
    rw [hk]
  have hv : u.cachedHash g cid = s.cachedHash g cid := by rw [hk]; rfl
  have hg : groupValue u g = groupValue s g := by rw [hk]; rfl
  simpa only [hm, hv, hg, show u.params = s.params by rw [hk], show u.ctx = s.ctx by rw [hk]] using h3

/-- With a row that cannot be read it raises F01 (R186, R341). -/
theorem lookupHits_error {c lt : Nat} (ver : Nat) (hc : c < s.params.nc) (hl : lt < 16) (hf : s.rowsFresh)
    (hu : ∃ r ∈ rowsOfConfig s.params s.mem.regs c lt, ¬ unitReady s c r) :
    ∃ n v, foldOp (lookupRow c ver) ([], s.refreshRows c) ((s.refreshRows c).cachedRows c lt)
      = .error ⟨.bounds, .index n v⟩ := by
  rw [refreshedRows hc hl hf]
  have hk := refreshRows_keeps s c
  generalize s.refreshRows c = u at hk
  exact lookupRows_error c ver (rowsOfConfig s.params s.mem.regs c lt) u (by rw [hk]; exact hu) []

/-! ## The TCAM scan (R204) -/

theorem find_range_map {n : Nat} (f : Nat → Nat) (P : Nat → Bool) :
    match ((List.range n).map f).find? P with
      | some x => ∃ k < n, x = f k ∧ P x = true ∧ ∀ j < k, P (f j) = false
      | none => ∀ k < n, P (f k) = false := by
  induction n with
  | zero => simp
  | succ n ih =>
    rw [List.range_succ, List.map_append, List.find?_append]
    cases hf : ((List.range n).map f).find? P with
    | some x =>
      rw [hf] at ih
      obtain ⟨k, hk, h1, h2, h3⟩ := ih
      exact ⟨k, by omega, h1, h2, h3⟩
    | none =>
      rw [hf] at ih
      simp only [Option.none_or, List.map_cons, List.map_nil, List.find?_cons, List.find?_nil]
      cases hp : P (f n) with
      | true => exact ⟨n, by omega, rfl, hp, ih⟩
      | false =>
        intro k hk
        rcases Nat.lt_succ_iff_lt_or_eq.mp hk with h | rfl
        · exact ih k h
        · exact hp

/-- A scan answers the first match from the rotation offset. -/
theorem tcamScan_ok {u s1 s0 : Nat} (h : cfgTcamStart s.params s.mem.regs u < s.params.nt) :
    ∃ r, tcamScan s u s1 s0 = .ok r ∧ scanAnswers s u s1 s0 r := by
  refine ⟨_, by unfold tcamScan; dsimp only; rw [if_pos h], ?_⟩
  have := find_range_map (n := s.params.nt) (fun k => (cfgTcamStart s.params s.mem.regs u + k) % s.params.nt)
    (fun idx => tcamMatch s.params.tw (s.tcamAt u idx) s1 s0)
  unfold scanOrder scanAnswers
  exact this

theorem tcamScan_error {u s1 s0 : Nat} (h : s.params.nt ≤ cfgTcamStart s.params s.mem.regs u) :
    tcamScan s u s1 s0 = .error ⟨.bounds, .index .tcamStart (cfgTcamStart s.params s.mem.regs u)⟩ := by
  unfold tcamScan; dsimp only; rw [if_neg (by omega)]; rfl

/-- The scan of a unit for its crossbar word. -/
theorem tcamXbarScan_ok {u : Nat} (h1 : tcamReady s u) (h2 : cfgTcamStart s.params s.mem.regs u < s.params.nt) :
    ∃ r, tcamXbarScan s u = .ok r ∧ xbarScanAnswers s u r := by
  obtain ⟨r, hr, ha⟩ := tcamScan_ok (s1 := tcamWordValue s u) (s0 := notBits s.params.tw (tcamWordValue s u)) h2
  exact ⟨r, by unfold tcamXbarScan; rw [tcamXbar_ok h1]; exact hr, ha⟩

/-- A unit that is not ready raises F01. -/
theorem tcamXbarScan_error {u : Nat} (h : ¬ scanReady s u) :
    ∃ n v, tcamXbarScan s u = .error ⟨.bounds, .index n v⟩ := by
  unfold tcamXbarScan
  by_cases h1 : tcamReady s u
  · rw [tcamXbar_ok h1]
    exact ⟨_, _, tcamScan_error (Nat.not_lt.mp fun h2 => h ⟨h1, h2⟩)⟩
  · obtain ⟨n, v, hv⟩ := tcamXbar_error h1
    exact ⟨n, v, by rw [hv]; rfl⟩

/-- A scan has one answer. -/
theorem scanAnswers_none {u s1 s0 idx : Nat} (h : scanAnswers s u s1 s0 (some idx)) : ¬ scanAnswers s u s1 s0 none := by
  obtain ⟨k, hk, rfl, h1, -⟩ := h
  intro h2
  rw [h2 k hk] at h1
  cases h1

/-! ## Logical TCAMs (R207) -/

/-- What the first m units of logical TCAM l give: the first hit, or none (R207). -/
def ltcamAnswers (s : State) (l m : Nat) : Option LtcHit → Prop
  | some h => h.unit < m ∧ unitOf s l h.unit ∧ scanReady s h.unit ∧ xbarScanAnswers s h.unit (some h.index)
      ∧ ∀ u < h.unit, unitOf s l u → xbarScanAnswers s u none
  | none => ∀ u < m, unitOf s l u → xbarScanAnswers s u none

/-- Unit u stops LTCAM_LOOKUP l: its logical TCAM is out of range, or it is scanned and its word or its rotation offset
cannot be formed. -/
def ltcamStops (s : State) (l u : Nat) : Prop :=
  ((cfgTcamLtcam s.params s.mem.regs u).en = true ∧ s.params.nltc ≤ (cfgTcamLtcam s.params s.mem.regs u).val)
    ∨ (unitOf s l u ∧ ¬ scanReady s u ∧ ∀ u' < u, unitOf s l u' → scanReady s u' → xbarScanAnswers s u' none)

/-- One unit of the loop. -/
theorem ltcamStep_spec (l m : Nat) {r : Option LtcHit} (hr : ltcamAnswers s l m r) :
    (¬ ltcamStops s l m → ∃ r', ltcamStep s l r m = .ok r' ∧ ltcamAnswers s l (m + 1) r')
      ∧ (ltcamStops s l m → ∃ n v, ltcamStep s l r m = .error ⟨.bounds, .index n v⟩) := by
  unfold ltcamStep
  dsimp only
  by_cases h1 : (cfgTcamLtcam s.params s.mem.regs m).en = true
      ∧ s.params.nltc ≤ (cfgTcamLtcam s.params s.mem.regs m).val
  · rw [if_pos (by simpa using h1)]
    exact ⟨fun h => absurd (.inl h1) h, fun _ => ⟨_, _, rfl⟩⟩
  rw [if_neg (by simpa using h1)]
  by_cases h2 : unitOf s l m ∧ r = none
  · obtain ⟨h2, rfl⟩ := h2
    rw [if_pos (by simpa using h2)]
    by_cases h3 : scanReady s m
    · refine ⟨fun _ => ?_, fun h => ?_⟩
      · obtain ⟨r', k1, k2⟩ := tcamXbarScan_ok h3.1 h3.2
        rw [k1]
        refine ⟨_, rfl, ?_⟩
        cases r' with
        | none =>
          intro u hu hl
          rcases Nat.lt_succ_iff_lt_or_eq.mp hu with hu | rfl
          · exact hr u hu hl
          · exact k2
        | some idx => exact ⟨Nat.lt_succ_self m, h2, h3, k2, hr⟩
      · rcases h with h | h
        · exact absurd h h1
        · exact absurd h3 h.2.1
    · refine ⟨fun h => absurd (.inr ⟨h2, h3, fun u hu hl _ => hr u hu hl⟩) h, fun _ => ?_⟩
      obtain ⟨n, v, hv⟩ := tcamXbarScan_error h3
      exact ⟨n, v, by rw [hv]; rfl⟩
  · rw [if_neg (by
      simp only [Bool.and_eq_true, decide_eq_true_eq, Option.isNone_iff_eq_none]; exact fun h => h2 h)]
    refine ⟨fun _ => ⟨r, rfl, ?_⟩, fun h => ?_⟩
    · cases r with
      | none =>
        intro u hu hl
        rcases Nat.lt_succ_iff_lt_or_eq.mp hu with hu | rfl
        · exact hr u hu hl
        · exact absurd ⟨hl, rfl⟩ h2
      | some h => exact ⟨by have := hr.1; omega, hr.2⟩
    · rcases h with h | ⟨h3, h4, h5⟩
      · exact absurd h h1
      · cases r with
        | none => exact absurd ⟨h3, rfl⟩ h2
        | some h => exact absurd (h5 h.unit hr.1 hr.2.1 hr.2.2.1) (scanAnswers_none hr.2.2.2.1)

/-- LTCAM_LOOKUP's loop over the first m units (R207): the lowest hit, unless a unit stops it with F01. -/
theorem ltcamLoop_spec (s : State) (l m : Nat) :
    ((∀ u < m, ¬ ltcamStops s l u) →
        ∃ r, foldOp (ltcamStep s l) none (List.range m) = .ok r ∧ ltcamAnswers s l m r)
      ∧ ((∃ u < m, ltcamStops s l u) →
        ∃ n v, foldOp (ltcamStep s l) none (List.range m) = .error ⟨.bounds, .index n v⟩) := by
  induction m with
  | zero => exact ⟨fun _ => ⟨none, rfl, fun u hu => by omega⟩, fun ⟨u, hu, _⟩ => by omega⟩
  | succ m ih =>
    rw [List.range_succ, foldOp_snoc]
    by_cases hb : ∃ u < m, ltcamStops s l u
    · obtain ⟨n, v, hv⟩ := ih.2 hb
      obtain ⟨u, hu, hs⟩ := hb
      rw [hv]
      exact ⟨fun h => absurd hs (h u (by omega)), fun _ => ⟨n, v, rfl⟩⟩
    · obtain ⟨r, h1, h2⟩ := ih.1 fun u hu hs => hb ⟨u, hu, hs⟩
      rw [h1]
      obtain ⟨h3, h4⟩ := ltcamStep_spec l m h2
      refine ⟨fun h => h3 (h m (by omega)), fun ⟨u, hu, hs⟩ => ?_⟩
      rcases Nat.lt_succ_iff_lt_or_eq.mp hu with hu | rfl
      · exact absurd ⟨u, hu, hs⟩ hb
      · exact h4 hs

end Sys2Proof.Machine
end

