-- ==== Sys2Proof/Laws/Walk.lean ====
section
/-! SUPPORT. The predication walk, said once: what a visit, a whole walk and a retarget do (R265, R266, R271, R273),
and that PRED_ORDER numbers the tables. -/

namespace Sys2Proof.Machine

/-! ## PRED_ORDER -/

theorem orderOk_perm {p : Params} (h : orderOk p) : List.Perm (List.range 16) p.predOrder := by
  have hsub : List.range 16 ⊆ p.predOrder := fun x hx => h.2 x (List.mem_range.mp hx)
  exact (List.nodup_range.subperm hsub).perm_of_length_le (by rw [h.1]; simp)

theorem indexIn_getD {l : List Nat} (hn : l.Nodup) {q : Nat} (hq : q < l.length) : indexIn (l.getD q 0) l = q := by
  induction l generalizing q with
  | nil => simp at hq
  | cons x xs ih =>
    obtain ⟨hx, hxs⟩ := List.nodup_cons.mp hn
    cases q with
    | zero => simp [indexIn]
    | succ q =>
      have hq' : q < xs.length := by simpa using hq
      have hm : xs.getD q 0 ∈ xs := by rw [List.getD_eq_getElem _ _ hq']; exact List.getElem_mem hq'
      rw [List.getD_cons_succ, indexIn, if_neg (fun e => hx (by rw [e]; exact hm)), ih hxs hq']

/-- The table at a position has that position (R267). -/
theorem posOf_tableAt {p : Params} (h : orderOk p) {q : Nat} (hq : q < 16) : posOf p (tableAt p q) = q :=
  indexIn_getD ((orderOk_perm h).nodup_iff.mp List.nodup_range) (by rw [h.1]; exact hq)

theorem tableAt_lt {p : Params} (h : orderOk p) {q : Nat} (hq : q < 16) : tableAt p q < 16 := by
  have hq' : q < p.predOrder.length := by rw [h.1]; exact hq
  have hm : tableAt p q ∈ p.predOrder := by
    unfold tableAt; rw [List.getD_eq_getElem _ _ hq']; exact List.getElem_mem hq'
  exact List.mem_range.mp ((orderOk_perm h).mem_iff.mpr hm)

theorem tableAt_inj {p : Params} (h : orderOk p) {q q' : Nat} (hq : q < 16) (hq' : q' < 16)
    (e : tableAt p q = tableAt p q') : q = q' := by
  rw [← posOf_tableAt h hq, e, posOf_tableAt h hq']

theorem positionsFrom_lt {q : Nat} (h : q < 16) : positionsFrom q = q :: positionsFrom (q + 1) := by
  revert q; decide

theorem positionsFrom_ge {q : Nat} (h : 16 ≤ q) : positionsFrom q = [] := by
  simp [positionsFrom, nlt, h]

/-! ## Next tables -/

/-- A next-table value that points forward, or END, resolves to its target (R266). -/
theorem resolve_forward {p : Params} {n : Byte} {q : Nat} (h : pointsForward p n q) :
    resolve p n q = .ok (nextTarget n) := by
  unfold resolve nextTarget
  split
  · rfl
  · rcases h with h | h
    · omega
    · rw [if_neg (by omega)]

/-- A next-table value that points backward raises F08 (R351). -/
theorem resolve_backward {p : Params} {n : Byte} {q : Nat} (h1 : n.toNat < 16) (h2 : posOf p n.toNat ≤ q) :
    resolve p n q = .error ⟨.nextTableOrder, .order n.toNat q⟩ := by
  unfold resolve
  rw [if_neg (by omega), if_pos h2]

/-! ## Visits and walks -/

/-- What a visit of position q writes: the table's bits, and the target when the table is active and inhibited. -/
def State.visited (s : State) (th q : Nat) : State :=
  let lt := tableAt s.params q
  let b := visitBits (s.predBitsAt lt th) (s.activeAt th) (decide (s.targetAt th = some lt)) (s.gwAt lt).inhibit
  let s1 := s.putPredBits lt th b
  if predActBit b && !predRunBit b then s1.putTarget th (nextTarget ((s.gwAt lt).next.getD 0xFF)) else s1

variable {s : State} {th q : Nat}

theorem predBitsAt_visited (hth : th < 3) (lt th' : Nat) (h' : th' < 3) : (s.visited th q).predBitsAt lt th'
    = if lt = tableAt s.params q ∧ th' = th then
        visitBits (s.predBitsAt (tableAt s.params q) th) (s.activeAt th)
          (decide (s.targetAt th = some (tableAt s.params q))) (s.gwAt (tableAt s.params q)).inhibit
      else s.predBitsAt lt th' := by
  have key : (s.visited th q).predBitsAt lt th' = (s.putPredBits (tableAt s.params q) th
      (visitBits (s.predBitsAt (tableAt s.params q) th) (s.activeAt th)
        (decide (s.targetAt th = some (tableAt s.params q))) (s.gwAt (tableAt s.params q)).inhibit)).predBitsAt lt th' := by
    unfold State.visited
    dsimp only
    generalize visitBits _ _ _ _ = b
    split <;> rfl
  rw [key, predBitsAt_putPredBits]
  simp only [predKey_inj h' hth]

/-- A visit leaves the rest: the gateways, the threads, the cursors, the pass, the other threads' targets. -/
theorem visited_keeps : (s.visited th q).params = s.params ∧ (s.visited th q).mem = s.mem
    ∧ (∀ lt, (s.visited th q).gwAt lt = s.gwAt lt) ∧ (∀ th', (s.visited th q).activeAt th' = s.activeAt th')
    ∧ (∀ th', (s.visited th q).cursorAt th' = s.cursorAt th')
    ∧ (∀ th', th' ≠ th → (s.visited th q).targetAt th' = s.targetAt th')
    ∧ (s.visited th q).pred.pass = s.pred.pass ∧ s.visited th q = { s with pred := (s.visited th q).pred } := by
  unfold State.visited
  dsimp only
  generalize visitBits _ _ _ _ = b
  split
  · exact ⟨rfl, rfl, fun _ => rfl, fun _ => rfl, fun _ => rfl, fun th' h => by
      rw [targetAt_putTarget, if_neg h]; rfl, rfl, rfl⟩
  · exact ⟨rfl, rfl, fun _ => rfl, fun _ => rfl, fun _ => rfl, fun th' h => rfl, rfl, rfl⟩

/-- The bits a visit of position q writes, in the terms of the rules (R261 to R264). -/
theorem visitBits_at (s : State) (th q : Nat) :
    let lt := tableAt s.params q
    let b := visitBits (s.predBitsAt lt th) (s.activeAt th) (decide (s.targetAt th = some lt)) (s.gwAt lt).inhibit
    predLkpBit b = lookupable s th lt ∧ predCtbBit b = (lookupable s th lt && predCntBit (s.predBitsAt lt th))
      ∧ predActBit b = actAt s th q (s.targetAt th) ∧ predRunBit b = runAt s th q (s.targetAt th)
      ∧ b &&& 0x0F = s.predBitsAt lt th &&& 0x0F := by
  obtain ⟨v1, v2, v3, v4, _, _, _, _, v9⟩ := visitBits_spec (s.predBitsAt (tableAt s.params q) th) (s.activeAt th)
    (decide (s.targetAt th = some (tableAt s.params q))) (s.gwAt (tableAt s.params q)).inhibit
  have hact : predActBit _ = actAt s th q (s.targetAt th) := v3.trans (by rw [v1]; rfl)
  exact ⟨v1, by rw [v2, v1]; rfl, hact, by rw [v4, hact]; rfl, v9⟩

/-- The redirect of a visit, by the bits it writes: the table is active, and its gateway inhibits it (R264, R265). -/
theorem visitBits_redirects (s : State) (th q : Nat) :
    (let b := visitBits (s.predBitsAt (tableAt s.params q) th) (s.activeAt th)
      (decide (s.targetAt th = some (tableAt s.params q))) (s.gwAt (tableAt s.params q)).inhibit
    predActBit b && !predRunBit b) = redirectsAt s th q (s.targetAt th) := by
  obtain ⟨_, _, h3, h4, _⟩ := visitBits_at s th q
  dsimp only at h3 h4 ⊢
  rw [h4, h3]
  unfold redirectsAt runAt
  generalize actAt _ _ _ _ = a
  generalize (s.gwAt _).inhibit = i
  revert a i; decide

/-- The thread's target after a visit: the gateway's next table if it redirects, else as before. -/
theorem targetAt_visited (s : State) (th q : Nat) :
    (s.visited th q).targetAt th = targetPast s th q (s.targetAt th) := by
  have h := visitBits_redirects s th q
  unfold State.visited targetPast
  dsimp only at h ⊢
  rw [h]
  generalize visitBits _ _ _ _ = b
  split
  · rw [targetAt_putTarget, if_pos rfl]; rfl
  · rfl

theorem lookupable_congr {s t : State} {th lt : Nat} (hb : t.predBitsAt lt th &&& 0x0F = s.predBitsAt lt th &&& 0x0F)
    (ha : t.activeAt th = s.activeAt th) : lookupable t th lt = lookupable s th lt := by
  have key : ∀ a b : Byte, a &&& 0x0F = b &&& 0x0F → predPwrBit a = predPwrBit b ∧ predCfgBit a = predCfgBit b := by
    intro a b h
    have h2 := congrArg (fun x : Byte => x.getLsbD 2) h
    have h0 := congrArg (fun x : Byte => x.getLsbD 0) h
    simp only [BitVec.getLsbD_and] at h2 h0
    exact ⟨by simpa [predPwrBit] using h2, by simpa [predCfgBit] using h0⟩
  obtain ⟨h1, h2⟩ := key _ _ hb
  unfold lookupable
  rw [h1, h2, ha]

/-- A visit whose gateway does not redirect the thread backward completes (R271). -/
theorem visitTable_ok {s : State} {th q : Nat} (h : redirectsAt s th q (s.targetAt th) = true →
    pointsForward s.params (gatewayNext s q) q) : visitTable s th q = .ok (s.visited th q) := by
  have hr := visitBits_redirects s th q
  unfold visitTable State.visited
  dsimp only at hr ⊢
  rw [hr]
  split
  · rename_i hb
    have := h hb
    unfold gatewayNext at this
    rw [resolve_forward this]
    rfl
  · rfl

/-- One whose gateway redirects the thread backward raises F08 (R266, R351). -/
theorem visitTable_error {s : State} {th q : Nat} (h : redirectsAt s th q (s.targetAt th) = true)
    (h1 : (gatewayNext s q).toNat < 16) (h2 : posOf s.params (gatewayNext s q).toNat ≤ q) :
    visitTable s th q = .error ⟨.nextTableOrder, .order (gatewayNext s q).toNat q⟩ := by
  have hr := visitBits_redirects s th q
  unfold visitTable
  dsimp only at hr ⊢
  rw [hr, if_pos h]
  unfold gatewayNext at h1 h2 ⊢
  rw [resolve_backward h1 h2]
  rfl

/-! ## What the walk reads is the same after a visit -/

/-- Two states in which a walk of thread th finds the same tables, gateways and configuration. -/
structure SameWalk (th : Nat) (s u : State) : Prop where
  params : u.params = s.params
  mem : u.mem = s.mem
  gw : ∀ lt, u.gwAt lt = s.gwAt lt
  static : ∀ lt, u.predBitsAt lt th &&& 0x0F = s.predBitsAt lt th &&& 0x0F
  active : u.activeAt th = s.activeAt th

section
variable {s u : State} {th : Nat} (h : SameWalk th s u)
include h

theorem SameWalk.lookupable (lt : Nat) : lookupable u th lt = Machine.lookupable s th lt :=
  lookupable_congr (h.static lt) h.active

theorem SameWalk.gatewayNext (q : Nat) : gatewayNext u q = Machine.gatewayNext s q := by
  unfold Machine.gatewayNext; rw [h.params, h.gw]

theorem SameWalk.actAt (q : Nat) (tgt : Option Nat) : actAt u th q tgt = Machine.actAt s th q tgt := by
  unfold Machine.actAt; rw [h.params, h.lookupable]

theorem SameWalk.runAt (q : Nat) (tgt : Option Nat) : runAt u th q tgt = Machine.runAt s th q tgt := by
  unfold Machine.runAt; rw [h.params, h.gw, h.actAt]

theorem SameWalk.redirectsAt (q : Nat) (tgt : Option Nat) : redirectsAt u th q tgt = Machine.redirectsAt s th q tgt := by
  unfold Machine.redirectsAt; rw [h.params, h.gw, h.actAt]

theorem SameWalk.stopsAt (q : Nat) (tgt : Option Nat) : stopsAt u th q tgt = Machine.stopsAt s th q tgt := by
  unfold Machine.stopsAt; rw [h.params, h.mem, h.runAt, h.lookupable]

theorem SameWalk.targetPast (q : Nat) (tgt : Option Nat) : targetPast u th q tgt = Machine.targetPast s th q tgt := by
  unfold Machine.targetPast; rw [h.redirectsAt, h.gatewayNext]

theorem SameWalk.targetAfter (n : Nat) : ∀ (p : Nat) (tgt : Option Nat),
    targetAfter u th p n tgt = Machine.targetAfter s th p n tgt := by
  induction n with
  | zero => exact fun _ _ => rfl
  | succ n ih => intro p tgt; simp only [Machine.targetAfter, ih, h.targetPast]

theorem SameWalk.targetOn (p : Nat) (tgt : Option Nat) (q : Nat) : targetOn u th p tgt q = Machine.targetOn s th p tgt q :=
  h.targetAfter _ _ _

theorem SameWalk.reached (p : Nat) (tgt : Option Nat) (q : Nat) : reached u th p tgt q ↔ Machine.reached s th p tgt q := by
  unfold Machine.reached
  simp only [h.stopsAt, h.redirectsAt, h.targetOn, h.gatewayNext, h.params]

end

/-- Where a walk begins, the target is the one it begins with. -/
@[simp] theorem targetOn_self (s : State) (th p : Nat) (tgt : Option Nat) : targetOn s th p tgt p = tgt := by
  unfold targetOn; rw [Nat.sub_self]; rfl

/-- Behind its first position, a walk is the walk from the next one with the target that the first leaves. -/
theorem targetOn_succ {q p : Nat} (s : State) (th : Nat) (tgt : Option Nat) (h : p < q) :
    targetOn s th p tgt q = targetOn s th (p + 1) (targetPast s th p tgt) q := by
  unfold targetOn
  rw [show q - p = (q - (p + 1)) + 1 by omega]
  rfl

theorem reached_self {s : State} {th p : Nat} {tgt : Option Nat} (h : p < 16) : reached s th p tgt p :=
  ⟨le_refl _, h, fun _ h1 h2 => by omega⟩

theorem reached_succ {s : State} {th p q : Nat} {tgt : Option Nat} (hpq : p < q) : reached s th p tgt q
    ↔ (stopsAt s th p tgt = false ∧ (redirectsAt s th p tgt = true → pointsForward s.params (gatewayNext s p) p))
      ∧ reached s th (p + 1) (targetPast s th p tgt) q := by
  unfold reached
  constructor
  · rintro ⟨h1, h2, h3⟩
    refine ⟨by simpa using h3 p (le_refl _) hpq, by omega, h2, fun q' h4 h5 => ?_⟩
    rw [← targetOn_succ s th tgt (by omega)]
    exact h3 q' (by omega) h5
  · rintro ⟨h1, h2, h3, h4⟩
    refine ⟨by omega, h3, fun q' h5 h6 => ?_⟩
    rcases Nat.eq_or_lt_of_le h5 with rfl | h5
    · simpa using h1
    · rw [targetOn_succ s th tgt h5]
      exact h4 q' (by omega) h6

theorem sameWalk_visited (hth : th < 3) : SameWalk th s (s.visited th q) := by
  obtain ⟨k1, k2, k3, k4, _⟩ := visited_keeps (s := s) (th := th) (q := q)
  refine ⟨k1, k2, k3, fun lt => ?_, k4 th⟩
  rw [predBitsAt_visited hth lt th hth]
  split
  · rename_i e; rw [(visitBits_at s th q).2.2.2.2, e.1]
  · rfl

/-- What a walk from position p does (R271), when no gateway that it comes to redirects the thread backward: it
completes as `walked` says. -/
theorem walk_spec {th : Nat} (hth : th < 3) (n : Nat) : ∀ (p : Nat) (s : State), p + n = 16 → orderOk s.params →
    walkForward s th p (s.targetAt th) → ∃ r t, walk th s (positionsFrom p) = .ok (r, t)
      ∧ walked s t th p (s.targetAt th) (tableByte r) ∧ walkKeeps s t th ∧ t = { s with pred := t.pred } := by
  induction n with
  | zero =>
    intro p s hp ho hg
    obtain rfl : p = 16 := hp
    refine ⟨none, s.putCursor th .done, by rw [positionsFrom_ge (le_refl _)]; rfl, ?_, ?_, rfl⟩
    · refine ⟨16, le_refl _, le_refl _, fun q h1 h2 => by omega, fun q h1 h2 h3 => by omega, fun _ _ _ => rfl, ?_, ?_⟩
      · exact (targetOn_self s th 16 _).symm
      · rw [if_neg (by omega)]
        exact ⟨rfl, by rw [cursorAt_putCursor, if_pos rfl]⟩
    · exact ⟨fun _ _ _ _ _ => rfl, fun _ _ => rfl,
        fun th' _ h => ⟨by rw [cursorAt_putCursor, if_neg h], rfl⟩, fun _ _ => rfl, fun _ _ => rfl, rfl⟩
  | succ n ih =>
    intro p s hp ho hg
    have hp16 : p < 16 := by omega
    obtain ⟨k1, k2, k3, k4, k5, k6, k7, k8⟩ := visited_keeps (s := s) (th := th) (q := p)
    have hbits := fun lt th' h' => predBitsAt_visited (s := s) (q := p) hth lt th' h'
    have htgt := targetAt_visited s th p
    have same := sameWalk_visited (s := s) (q := p) hth
    have hfw : redirectsAt s th p (s.targetAt th) = true → pointsForward s.params (gatewayNext s p) p := by
      simpa using hg p (reached_self hp16)
    obtain ⟨hlkp, hctb, hact, hrun, -⟩ := visitBits_at s th p
    rw [positionsFrom_lt hp16]
    unfold walk
    rw [visitTable_ok hfw]
    dsimp only
    generalize s.visited th p = u at *
    set b := visitBits (s.predBitsAt (tableAt s.params p) th) (s.activeAt th)
      (decide (s.targetAt th = some (tableAt s.params p))) (s.gwAt (tableAt s.params p)).inhibit with hb
    have hub : u.predBitsAt (tableAt s.params p) th = b := by rw [hbits _ _ hth, if_pos ⟨rfl, rfl⟩]
    have hvis : ∀ t : State, t.predBitsAt (tableAt s.params p) th = b → visitedAs s t th p (s.targetAt th) := by
      intro t ht
      unfold visitedAs
      dsimp only
      rw [ht]
      exact ⟨hlkp, hctb, hact, hrun⟩
    -- a state that differs from u in the cursor alone, ending the walk here
    have stop : ∀ (r : Option Nat) (cur : Cursor), stopsAt s th p (s.targetAt th) = true →
        (if cfgRunMode s.params s.mem.regs = true ∧ runAt s th p (s.targetAt th) = false
          then tableByte r = 0xFF ∧ cur = .done
          else tableByte r = BitVec.ofNat 8 (tableAt s.params p) ∧ cur = .pos p) →
        walked s (u.putCursor th cur) th p (s.targetAt th) (tableByte r) ∧ walkKeeps s (u.putCursor th cur) th
          ∧ u.putCursor th cur = { s with pred := (u.putCursor th cur).pred } := by
      intro r cur hends hr
      have hcb : ∀ lt th', (u.putCursor th cur).predBitsAt lt th' = u.predBitsAt lt th' := fun _ _ => rfl
      refine ⟨⟨p, by omega, le_refl _, fun q h1 h2 => by omega, fun q h1 h2 h3 => ?_, fun lt hlt h => ?_, ?_, ?_⟩,
        ⟨fun lt hl th' h1 h2 => ?_, fun lt hl => ?_, fun th' h1 h2 => ⟨?_, k6 th' h2⟩, fun th' _ => k4 th',
          fun lt _ => k3 lt, k7⟩, ?_⟩
      · obtain rfl : q = p := by omega
        rw [targetOn_self]; exact hvis _ (by rw [hcb, hub])
      · rw [hcb, hbits _ _ hth, if_neg (fun e => h p (le_refl _) (by omega) hp16 e.1.symm)]
      · rw [show min (p + 1) 16 = p + 1 by omega, targetOn_succ s th _ (by omega), targetOn_self]
        exact htgt
      · rw [if_pos hp16, targetOn_self, cursorAt_putCursor, if_pos rfl]
        exact ⟨hends, hr⟩
      · rw [hcb, hbits _ _ h1, if_neg (fun e => h2 e.2)]
      · rw [hcb, same.static]
      · rw [cursorAt_putCursor, if_neg h2]; exact k5 th'
      · rw [k8]; rfl
    -- the walk goes on behind p
    have goOn : stopsAt s th p (s.targetAt th) = false → ∃ r t, walk th u (positionsFrom (p + 1)) = .ok (r, t)
        ∧ walked s t th p (s.targetAt th) (tableByte r) ∧ walkKeeps s t th ∧ t = { s with pred := t.pred } := by
      intro hends
      obtain ⟨r, t, hw, ⟨e, e1, e2, e3, e4, e5, e6, e7⟩, ⟨w1, w2, w3, w4, w5, w6⟩, ht⟩ := ih (p + 1) u (by omega)
        (by rw [k1]; exact ho) (fun q h1 h2 => by
          rw [same.redirectsAt, same.targetOn, htgt] at h2
          rw [same.reached, htgt] at h1
          have hpq : p < q := h1.1
          rw [same.gatewayNext, k1]
          exact hg q ((reached_succ hpq).mpr ⟨⟨hends, hfw⟩, h1⟩) (by rw [targetOn_succ s th _ hpq]; exact h2))
      rw [htgt] at e3 e4 e6 e7
      simp only [same.targetOn, same.stopsAt, same.runAt, k1, k2] at e3 e4 e5 e6 e7
      have hto : ∀ q, p < q → targetOn s th (p + 1) (targetPast s th p (s.targetAt th)) q
          = targetOn s th p (s.targetAt th) q := fun q hq => (targetOn_succ s th _ hq).symm
      have hkeep : t.predBitsAt (tableAt s.params p) th = b := by
        rw [e5 _ (tableAt_lt ho hp16) (fun q h1 h2 h3 e => absurd (tableAt_inj ho h3 hp16 e) (by omega)), hub]
      have hcnt : ∀ lt, predCntBit (u.predBitsAt lt th) = predCntBit (s.predBitsAt lt th) := by
        intro lt
        have := congrArg (fun x : Byte => x.getLsbD 1) (same.static lt)
        simpa [BitVec.getLsbD_and, predCntBit] using this
      refine ⟨r, t, hw, ⟨e, e1, by omega, fun q h1 h2 => ?_, fun q h1 h2 h3 => ?_, fun lt hl h => ?_, ?_, ?_⟩,
        ⟨fun lt hl th' h1 h2 => ?_, fun lt hl => ?_, fun th' h1 h2 => ?_, fun th' h1 => ?_, fun lt hl => ?_, ?_⟩, ?_⟩
      · rcases Nat.eq_or_lt_of_le h1 with rfl | h1
        · rw [targetOn_self]; exact hends
        · rw [← hto q h1]; exact e3 q h1 h2
      · rcases Nat.eq_or_lt_of_le h1 with rfl | h1
        · rw [targetOn_self]; exact hvis t hkeep
        · have := e4 q h1 h2 h3
          unfold visitedAs at this ⊢
          dsimp only at this ⊢
          rw [k1, same.lookupable, hcnt, same.actAt, same.runAt, hto q h1] at this
          exact this
      · rw [e5 lt hl (fun q h1 h2 h3 => h q (by omega) h2 h3), hbits _ _ hth,
          if_neg (fun x => h p (le_refl _) (by omega) hp16 x.1.symm)]
      · rw [e6, hto _ (by omega)]
      · rw [hto e (by omega)] at e7; exact e7
      · rw [w1 lt hl th' h1 h2, hbits _ _ h1, if_neg (fun x => h2 x.2)]
      · rw [w2 lt hl, same.static]
      · obtain ⟨g1, g2⟩ := w3 th' h1 h2
        exact ⟨g1.trans (k5 th'), g2.trans (k6 th' h2)⟩
      · exact (w4 th' h1).trans (k4 th')
      · exact (w5 lt hl).trans (k3 lt)
      · exact w6.trans k7
      · rw [ht, k8]
    rw [hub, hrun, hlkp]
    by_cases hm : cfgRunMode s.params s.mem.regs = true
    · rw [if_pos hm]
      cases hr : runAt s th p (s.targetAt th) with
      | true =>
        rw [if_pos rfl]
        refine ⟨_, _, rfl, stop _ _ ?_ ?_⟩
        · unfold stopsAt; rw [if_pos hm, hr]; rfl
        · rw [if_neg (by simp [hr])]; exact ⟨rfl, rfl⟩
      | false =>
        rw [if_neg (by simp)]
        by_cases hs : s.params.scReading = .stop ∧ lookupable s th (tableAt s.params p) = true
        · rw [if_pos hs]
          refine ⟨_, _, rfl, stop _ _ ?_ ?_⟩
          · unfold stopsAt; rw [if_pos hm, hr]; simp [hs]
          · rw [if_pos ⟨hm, hr⟩]; exact ⟨rfl, rfl⟩
        · rw [if_neg hs]
          refine goOn ?_
          unfold stopsAt; rw [if_pos hm, hr]
          simpa using hs
    · rw [if_neg hm]
      cases hl : lookupable s th (tableAt s.params p) with
      | true =>
        rw [if_pos rfl]
        refine ⟨_, _, rfl, stop _ _ ?_ ?_⟩
        · unfold stopsAt; rw [if_neg hm, hl]
        · rw [if_neg (fun h => hm h.1)]; exact ⟨rfl, rfl⟩
      | false =>
        rw [if_neg (by simp)]
        refine goOn ?_
        unfold stopsAt; rw [if_neg hm, hl]

/-- A walk that comes to a gateway that redirects the thread backward raises F08 there (R266, R351). -/
theorem walk_error {th : Nat} (hth : th < 3) {q : Nat} (n : Nat) : ∀ (p : Nat) (s : State), p + n = q →
    reached s th p (s.targetAt th) q → redirectsAt s th q (targetOn s th p (s.targetAt th) q) = true →
    (gatewayNext s q).toNat < 16 → posOf s.params (gatewayNext s q).toNat ≤ q →
      walk th s (positionsFrom p) = .error ⟨.nextTableOrder, .order (gatewayNext s q).toNat q⟩ := by
  induction n with
  | zero =>
    intro p s hp hr hd h1 h2
    obtain rfl : p = q := hp
    rw [positionsFrom_lt hr.2.1]
    unfold walk
    rw [visitTable_error (by simpa using hd) h1 h2]
  | succ n ih =>
    intro p s hp hr hd h1 h2
    have hpq : p < q := by omega
    have hp16 : p < 16 := by have := hr.2.1; omega
    obtain ⟨⟨hs, hf⟩, hr'⟩ := (reached_succ hpq).mp hr
    have same := sameWalk_visited (s := s) (q := p) hth
    have htgt := targetAt_visited s th p
    obtain ⟨hlkp, -, -, hrun, -⟩ := visitBits_at s th p
    have hub := predBitsAt_visited (s := s) (q := p) hth (tableAt s.params p) th hth
    rw [if_pos ⟨rfl, rfl⟩] at hub
    rw [positionsFrom_lt hp16]
    unfold walk
    rw [visitTable_ok hf]
    dsimp only
    rw [hub, hrun, hlkp]
    have go := ih (p + 1) (s.visited th p) (by omega) (by rw [same.reached, htgt]; exact hr')
      (by rw [same.redirectsAt, same.targetOn, htgt, ← targetOn_succ s th _ hpq]; exact hd)
      (by rw [same.gatewayNext]; exact h1) (by rw [same.gatewayNext, same.params]; exact h2)
    rw [same.gatewayNext] at go
    unfold stopsAt at hs
    by_cases hm : cfgRunMode s.params s.mem.regs = true
    · rw [if_pos hm] at hs ⊢
      rw [Bool.or_eq_false_iff] at hs
      rw [if_neg (by rw [hs.1]; simp), if_neg (by intro h; simp [h.1, h.2] at hs)]
      exact go
    · rw [if_neg hm] at hs ⊢
      rw [if_neg (by rw [hs]; simp)]
      exact go

/-! ## The target along a walk -/

theorem targetAfter_succ (s : State) (th n : Nat) : ∀ (p : Nat) (tgt : Option Nat),
    targetAfter s th p (n + 1) tgt = targetPast s th (p + n) (targetAfter s th p n tgt) := by
  induction n with
  | zero => exact fun _ _ => rfl
  | succ n ih =>
    intro p tgt
    rw [targetAfter, ih, show p + 1 + n = p + (n + 1) by omega]
    rfl

/-- The target behind a position is what the position makes of the target before it. -/
theorem targetOn_step {p q : Nat} (s : State) (th : Nat) (tgt : Option Nat) (h : p ≤ q) :
    targetOn s th p tgt (q + 1) = targetPast s th q (targetOn s th p tgt q) := by
  unfold targetOn
  rw [show q + 1 - p = (q - p) + 1 by omega, targetAfter_succ, show p + (q - p) = q by omega]

/-- Where no gateway redirects, the target stays. -/
theorem targetPast_of_not {s : State} {th q : Nat} {tgt : Option Nat} (h : redirectsAt s th q tgt = false) :
    targetPast s th q tgt = tgt := by
  unfold targetPast; rw [h]; rfl

/-- A walk comes to every position that it visits, when no gateway redirects the thread backward. -/
theorem reached_visited {s : State} {th p : Nat} {tgt : Option Nat} (hf : walkForward s th p tgt) {e : Nat}
    (hs : ∀ q, p ≤ q → q < e → stopsAt s th q (targetOn s th p tgt q) = false) {q : Nat} (h1 : p ≤ q) (h2 : q ≤ e)
    (h3 : q < 16) : reached s th p tgt q := by
  induction q using Nat.strong_induction_on with
  | _ q ih =>
    exact ⟨h1, h3, fun q' h4 h5 =>
      ⟨hs q' h4 (by omega), hf q' (ih q' h5 h4 (by omega) (by omega))⟩⟩

/-- The final target of a walk, from a position q on behind which no gateway redirects the thread. -/
theorem targetOn_final {s : State} {th p : Nat} {tgt : Option Nat} {e q : Nat} (h1 : p ≤ q)
    (h : ∀ q', q ≤ q' → q' < e + 1 → q' < 16 → redirectsAt s th q' (targetOn s th p tgt q') = false)
    (h2 : q ≤ min (e + 1) 16) : targetOn s th p tgt (min (e + 1) 16) = targetOn s th p tgt q := by
  have key : ∀ n, q + n ≤ min (e + 1) 16 → targetOn s th p tgt (q + n) = targetOn s th p tgt q := by
    intro n
    induction n with
    | zero => exact fun _ => rfl
    | succ n ih =>
      intro hn
      rw [show q + (n + 1) = (q + n) + 1 by omega, targetOn_step s th tgt (by omega),
        targetPast_of_not (h (q + n) (by omega) (by omega) (by omega)), ih (by omega)]
  have := key (min (e + 1) 16 - q) (by omega)
  rwa [show q + (min (e + 1) 16 - q) = min (e + 1) 16 by omega] at this

/-- A walk keeps its target when no gateway that it comes to redirects it. -/
theorem walked_target {s t : State} {th p : Nat} {tgt : Option Nat} {x : Byte} (hw : walked s t th p tgt x)
    (h : ∀ q, reached s th p tgt q → redirectsAt s th q (targetOn s th p tgt q) = false) : t.targetAt th = tgt := by
  obtain ⟨e, e1, e2, e3, -, -, e6, -⟩ := hw
  have hf : walkForward s th p tgt := fun q h1 h2 => by rw [h q h1] at h2; cases h2
  rw [e6, targetOn_final (le_refl _) (fun q' h1 h2 h3 => h q' (reached_visited hf e3 h1 (by omega) h3)) (by omega),
    targetOn_self]

/-- What a walk leaves of a gateway that redirects it forward: the table is active and not runnable, and its next table
is the thread's target unless a later gateway redirects it again (R265). -/
theorem walked_redirect {s t : State} {th p q : Nat} {tgt : Option Nat} {x : Byte} (hw : walked s t th p tgt x)
    (hr : reached s th p tgt q) (hd : redirectsAt s th q (targetOn s th p tgt q) = true)
    (hf : walkForward s th p tgt)
    (h : ∀ q' > q, reached s th p tgt q' → redirectsAt s th q' (targetOn s th p tgt q') = false) :
    t.targetAt th = nextTarget (gatewayNext s q) ∧ predActBit (t.predBitsAt (tableAt s.params q) th) = true
      ∧ predRunBit (t.predBitsAt (tableAt s.params q) th) = false := by
  obtain ⟨e, e1, e2, e3, e4, -, e6, e7⟩ := hw
  have hq : q ≤ e := by
    by_contra hq
    rw [if_pos (by have := hr.2.1; omega)] at e7
    have := (hr.2.2 e e2 (by omega)).1
    rw [e7.1] at this
    cases this
  obtain ⟨-, -, v3, v4⟩ := e4 q hr.1 (by omega) hr.2.1
  have hd' := hd
  unfold redirectsAt at hd'
  rw [Bool.and_eq_true] at hd'
  refine ⟨?_, v3.trans hd'.1, v4.trans ?_⟩
  · rw [e6, targetOn_final (q := q + 1) (by have := hr.1; omega)
      (fun q' h1 h2 h3 => h q' h1 (reached_visited hf e3 (by have := hr.1; omega) (by omega) h3))
      (by have := hr.2.1; omega), targetOn_step s th tgt hr.1]
    unfold targetPast
    rw [if_pos hd]
  · unfold runAt; rw [hd'.2]; simp

/-- No gateway redirects the thread backward when those up to q do not and no later one redirects it. -/
theorem walkForward_of {s : State} {th p q : Nat} {tgt : Option Nat} (hr : reached s th p tgt q)
    (hq : pointsForward s.params (gatewayNext s q) q)
    (h : ∀ q' > q, reached s th p tgt q' → redirectsAt s th q' (targetOn s th p tgt q') = false) :
    walkForward s th p tgt := by
  intro q' h1 h2
  rcases Nat.lt_trichotomy q' q with hl | rfl | hl
  · exact (hr.2.2 q' h1.1 hl).2 h2
  · exact hq
  · rw [h q' hl h1] at h2; cases h2

/-! ## PRED_NEXT's retarget (R273) -/

/-- The target that PRED_NEXT gives the thread before it walks on. -/
def nextTgt (s : State) (th c : Nat) (nt : Byte) : Option Nat :=
  if predRunBit (s.predBitsAt (tableAt s.params c) th) = true
    then nextTarget ((s.gwAt (tableAt s.params c)).next.getD nt) else s.targetAt th

/-- The state that PRED_NEXT walks on from. -/
def State.retargeted (s : State) (th c : Nat) (nt : Byte) : State :=
  if predRunBit (s.predBitsAt (tableAt s.params c) th) = true then s.putTarget th (nextTgt s th c nt) else s

/-- PRED_NEXT's retarget, when the value does not point backward. -/
theorem retarget_ok {s : State} {th c : Nat} {nt : Byte}
    (h : predRunBit (s.predBitsAt (tableAt s.params c) th) = true →
      pointsForward s.params ((s.gwAt (tableAt s.params c)).next.getD nt) c) :
    retarget s th c nt = .ok (s.retargeted th c nt) := by
  unfold retarget State.retargeted nextTgt
  dsimp only
  split
  · rename_i hr; rw [resolve_forward (h hr)]; rfl
  · rfl

theorem retargeted_keeps (s : State) (th c : Nat) (nt : Byte) :
    SameWalk th s (s.retargeted th c nt) ∧ (s.retargeted th c nt).targetAt th = nextTgt s th c nt
      ∧ (s.retargeted th c nt).pred.bits = s.pred.bits ∧ (s.retargeted th c nt).pred.cursor = s.pred.cursor
      ∧ (s.retargeted th c nt).pred.active = s.pred.active ∧ (s.retargeted th c nt).pred.pass = s.pred.pass
      ∧ (∀ th', th' ≠ th → (s.retargeted th c nt).targetAt th' = s.targetAt th')
      ∧ s.retargeted th c nt = { s with pred := (s.retargeted th c nt).pred } := by
  unfold State.retargeted
  split
  · exact ⟨⟨rfl, rfl, fun _ => rfl, fun _ => rfl, rfl⟩, by rw [targetAt_putTarget, if_pos rfl], rfl, rfl, rfl, rfl,
      fun th' h => by rw [targetAt_putTarget, if_neg h], rfl⟩
  · rename_i h
    exact ⟨⟨rfl, rfl, fun _ => rfl, fun _ => rfl, rfl⟩, by unfold nextTgt; rw [if_neg h], rfl, rfl, rfl, rfl,
      fun _ _ => rfl, rfl⟩

/-- A walk read from a state of the same walk and the same Pred bits. -/
theorem walked_of_same {s u t : State} {th p : Nat} {tgt : Option Nat} {x : Byte} (same : SameWalk th s u)
    (hb : u.pred.bits = s.pred.bits) (h : walked u t th p tgt x) : walked s t th p tgt x := by
  have hbits : ∀ lt th', u.predBitsAt lt th' = s.predBitsAt lt th' := fun _ _ => by unfold State.predBitsAt; rw [hb]
  unfold walked visitedAs at *
  simp only [same.targetOn, same.stopsAt, same.runAt, same.actAt, same.lookupable, same.params, same.mem, hbits] at h
  exact h

/-- PRED_NEXT's walk, when neither its own value nor a gateway that it comes to points backward. -/
theorem nextWalk_spec {s : State} {th c : Nat} {nt : Byte} (hth : th < 3) (hc : c < 16) (ho : orderOk s.params)
    (hf : walkForward s th (c + 1) (nextTgt s th c nt)) :
    ∃ r t, walk th (s.retargeted th c nt) (positionsFrom (c + 1)) = .ok (r, t)
      ∧ walked s t th (c + 1) (nextTgt s th c nt) (tableByte r) ∧ walkKeeps s t th ∧ t = { s with pred := t.pred } := by
  obtain ⟨same, h1, h2, h3, h4, h5, h6, h7⟩ := retargeted_keeps s th c nt
  obtain ⟨r, t, hw, w1, ⟨a1, a2, a3, a4, a5, a6⟩, w3⟩ := walk_spec (th := th) hth (15 - c) (c + 1)
    (s.retargeted th c nt) (by omega) (by rw [same.params]; exact ho) (by
      intro q h8 h9
      rw [same.redirectsAt, same.targetOn, h1] at h9
      rw [same.reached, h1] at h8
      rw [same.gatewayNext, same.params]
      exact hf q h8 h9)
  have hbits : ∀ lt th', (s.retargeted th c nt).predBitsAt lt th' = s.predBitsAt lt th' := fun _ _ => by
    unfold State.predBitsAt; rw [h2]
  have hcur : ∀ th', (s.retargeted th c nt).cursorAt th' = s.cursorAt th' := fun _ => by unfold State.cursorAt; rw [h3]
  have hact : ∀ th', (s.retargeted th c nt).activeAt th' = s.activeAt th' := fun _ => by unfold State.activeAt; rw [h4]
  rw [h1] at w1
  exact ⟨r, t, hw, walked_of_same same h2 w1,
    ⟨fun lt hl th' g1 g2 => (a1 lt hl th' g1 g2).trans (hbits ..), fun lt hl => (a2 lt hl).trans (by rw [hbits]),
      fun th' g1 g2 => ⟨(a3 th' g1 g2).1.trans (hcur _), (a3 th' g1 g2).2.trans (h6 th' g2)⟩,
      fun th' g1 => (a4 th' g1).trans (hact _), fun lt hl => (a5 lt hl).trans (same.gw lt), a6.trans h5⟩,
    w3.trans (by rw [h7])⟩

/-- PRED_NEXT's walk that comes to a gateway that redirects the thread backward raises F08. -/
theorem nextWalk_error {s : State} {th c q : Nat} {nt : Byte} (hth : th < 3)
    (hr : reached s th (c + 1) (nextTgt s th c nt) q)
    (hd : redirectsAt s th q (targetOn s th (c + 1) (nextTgt s th c nt) q) = true)
    (h1 : (gatewayNext s q).toNat < 16) (h2 : posOf s.params (gatewayNext s q).toNat ≤ q) :
    walk th (s.retargeted th c nt) (positionsFrom (c + 1))
      = .error ⟨.nextTableOrder, .order (gatewayNext s q).toNat q⟩ := by
  obtain ⟨same, ht, -⟩ := retargeted_keeps s th c nt
  have := walk_error (q := q) hth (q - (c + 1)) (c + 1) (s.retargeted th c nt) (by have := hr.1; omega)
    (by rw [same.reached, ht]; exact hr) (by rw [same.redirectsAt, same.targetOn, ht]; exact hd)
    (by rw [same.gatewayNext]; exact h1) (by rw [same.gatewayNext, same.params]; exact h2)
  rw [same.gatewayNext] at this
  exact this

end Sys2Proof.Machine
end

