-- ==== Sys2Proof/Tests/Slice0.lean ====
section
/-! SUPPORT. Small tests and witnesses. The expected values come from the examples of the rules and from
95_test_vectors.md, or are worked by hand from the rule named; each step test is about one step. -/

namespace Sys2Proof.Tests

set_option Elab.async false
set_option synthInstance.maxHeartbeats 1000000
set_option synthInstance.maxSize 10000

open Sys2Proof.Machine

/-! ## Helpers -/

/-- The reference parameters with a change. -/
abbrev refP : Params := referenceParams

/-- A reset machine of the given parameters whose register words were written. -/
def withRegs (p : Params) (ws : List (Nat × Word)) : State :=
  ws.foldl (fun s w => s.regApply w.1 w.2) (State.resetWith p)

/-- PHV_A of 95_test_vectors.md. -/
def phvA : Phv := ⟨[0x12, 0x34, 0x56, 0x78], 15, 1, 2⟩

/-- The state with a context open on PHV_A and CacheId 7. -/
def opened (s : State) : State := s.openContext phvA 7

/-- A stopped block. -/
def stopped (s : State) : State := s.takeFault ⟨.illegalOp, .code 0⟩ 0 []

/-- The next state of an outcome, or a stopped one. -/
def out (o : Host.Outcome State Fault Refusal) : State :=
  match o with
  | .next t => t
  | _ => stopped (State.resetWith refP)

/-- The response of an outcome. -/
def resp (o : Host.Outcome State Fault Refusal) : Option Response := (out o).response

/-- The code of the fault that an outcome records. -/
def raised (o : Host.Outcome State Fault Refusal) : Option FaultCode := (out o).fault.map EventRecord.code

/-- An outcome is a next state. -/
def goes (o : Host.Outcome State Fault Refusal) : Bool :=
  match o with
  | .next _ => true
  | _ => false

/-- S0. -/
def s0 : State := State.resetWith refP

/-- The register words of S_SRAM. -/
def sramRegs : List (Nat × Word) :=
  [(0, 0x12100200), (2, 0x100), (3, 0x908), (9, 0x83), (10, 0xFFFF), (12, 3), (13, 0xA0), (14, 0x00830000)]

/-- S_SRAM with a context open. -/
def sSram (p : Params) : State := opened ((withRegs p sramRegs).putSram 0 0 2 1 ⟨true, 0x34, 0xFF, 2⟩)

/-- S_SRAM with both slots of the word hitting and driving bus 2 (the setting of V-S4). -/
def sTwo (p : Params) : State := ((sSram p).regApply 13 0xAA).putSram 0 0 2 0 ⟨true, 0x34, 0xFF, 2⟩

/-- The registers and entries of program 2. -/
def sTcam : State :=
  opened ((((withRegs refP [(4, 0x8B8A8988), (5, 0x8F8E8D8C), (8, 0x08050000), (15, 0x00870000)]).putTcam 0 2
    ⟨true, 0xCF, 0x3F⟩).putTcam 0 6 ⟨true, 0xCB, 0x34⟩).putTcam 0 1 ⟨true, 0xFF, 0xFF⟩)

/-- S_ST. -/
def sStash : State :=
  opened (((withRegs refP [(3, 0x9000)]).putStash 1 0 ⟨true, 0x34, 0xFF, 2, 0x102⟩).putStash 1 1
    ⟨true, 0x30, 0xF0, 2, 0x200⟩)

/-- The registers of S_PR, word 20 given, in a started pass of thread 0. -/
def sPred (p : Params) (w20 : Word) : State :=
  (withRegs p [(16, 0x00191100), (17, 0x00110011), (20, w20)]).startPass 1

/-- An atomic window. -/
def sWindow (p : Params) (buffering : Bool) (buf : List (Nat × Word)) : State :=
  { State.resetWith p with atomic := ⟨.begun, buffering, buf, 0, 0⟩ }

/-- The reference parameters with both relax flags set. -/
def relaxed : Params := { refP with relaxMultiHit := true, relaxColorBus := true }

/-! ## Ill-formed commands -/

theorem test_wf_refuses_index_of_three_bytes : (Instr.hashBit 65536 0).wellFormed refP = false := by decide +kernel
theorem test_wf_refuses_second_operand : (Instr.hashBit 0 65536).wellFormed refP = false := by decide +kernel
theorem test_wf_refuses_value_of_two_bytes :
    (Instr.sramEntryWrite 0 0 0 0 256 0 0).wellFormed refP = false := by decide +kernel
theorem test_wf_refuses_flag_of_two_bytes : (Instr.predStart 256).wellFormed refP = false := by decide +kernel
theorem test_wf_refuses_offset_of_five_bytes : (Instr.cfgRead (2 ^ 32)).wellFormed refP = false := by decide +kernel
theorem test_wf_refuses_short_phv :
    (Instr.lookupBegin ⟨[1, 2, 3], 0, 0, 0⟩ 7).wellFormed refP = false := by decide +kernel
theorem test_wf_refuses_wide_valid_bits :
    (Instr.lookupBegin { phvA with valid := 256 } 7).wellFormed refP = false := by decide +kernel
theorem test_wf_admits_operand_out_of_bounds : (Instr.hashBit 65535 65535).wellFormed refP = true := by decide +kernel

/-! ## Decoding, the bytes written out by R101 and R113 -/

theorem test_decode_lookupBegin :
    decode refP [0x01, 0x12, 0x34, 0x56, 0x78, 0x0F, 0x01, 0x02, 0x07, 0, 0, 0, 0, 0, 0, 0]
      = .command (.lookupBegin phvA 7) [] := by decide +kernel
theorem test_decode_lookupEnd : decode refP [0x02] = .command .lookupEnd [] := by decide +kernel
theorem test_decode_hashBit : decode refP [0x10, 1, 0, 2, 1] = .command (.hashBit 1 258) [] := by decide +kernel
theorem test_decode_hashGroup : decode refP [0x11, 0, 1] = .command (.hashGroup 256) [] := by decide +kernel
theorem test_decode_xbarMatch : decode refP [0x18, 1, 0] = .command (.xbarMatch 1) [] := by decide +kernel
theorem test_decode_xbarHash : decode refP [0x19, 0x02] = .command .xbarHash [0x02] := by decide +kernel
theorem test_decode_xbarTcam : decode refP [0x1A, 1, 0] = .command (.xbarTcam 1) [] := by decide +kernel
theorem test_decode_sramEntryWrite :
    decode refP [0x20, 0, 0, 1, 0, 2, 0, 3, 0, 0x34, 0xFF, 0x02]
      = .command (.sramEntryWrite 0 1 2 3 0x34 0xFF 2) [] := by decide +kernel
theorem test_decode_sramEntryClear :
    decode refP [0x21, 4, 0, 3, 0, 2, 0, 1, 0] = .command (.sramEntryClear 4 3 2 1) [] := by decide +kernel
theorem test_decode_sramLookup :
    decode refP [0x22, 0, 0, 3, 0, 1] = .command (.sramLookup 0 3 1) [] := by decide +kernel
theorem test_decode_tcamSetValueMask :
    decode refP [0x28, 0, 0, 2, 0, 0x30, 0xF0] = .command (.tcamSetValueMask 0 2 0x30 0xF0) [] := by decide +kernel
theorem test_decode_tcamClear : decode refP [0x29, 1, 0, 7, 0] = .command (.tcamClear 1 7) [] := by decide +kernel
theorem test_decode_tcamGet : decode refP [0x2A, 0, 0, 2, 0] = .command (.tcamGet 0 2) [] := by decide +kernel
theorem test_decode_tcamLookup : decode refP [0x2B, 1, 0] = .command (.tcamLookup 1) [] := by decide +kernel
theorem test_decode_tcamLookupRaw :
    decode refP [0x2C, 0, 0, 0x3A, 0xC5] = .command (.tcamLookupRaw 0 0x3A 0xC5) [] := by decide +kernel
theorem test_decode_ltcamLookup : decode refP [0x2D, 1, 0] = .command (.ltcamLookup 1) [] := by decide +kernel
theorem test_decode_stashWrite :
    decode refP [0x30, 1, 0, 2, 0, 0x34, 0xFF, 0x02, 0x02, 0x01, 0, 0x80]
      = .command (.stashWrite 1 2 0x34 0xFF 2 0x80000102) [] := by decide +kernel
theorem test_decode_stashClear : decode refP [0x31, 1, 0, 2, 0] = .command (.stashClear 1 2) [] := by decide +kernel
theorem test_decode_stashLookup : decode refP [0x32, 1, 0, 1] = .command (.stashLookup 1 1) [] := by decide +kernel
theorem test_decode_stashInhibit :
    decode refP [0x33, 1, 0, 2, 0, 2, 1, 0, 0] = .command (.stashInhibit 1 2 0x102) [] := by decide +kernel
theorem test_decode_stashHitInhibited :
    decode refP [0x34, 1, 0, 2, 0, 3, 1, 0, 0] = .command (.stashHitInhibited 1 2 0x103) [] := by decide +kernel
theorem test_decode_rbMatchCb : decode refP [0x38, 1, 2, 0] = .command (.rbMatchCb 1 2) [] := by decide +kernel
theorem test_decode_rbTcamCb : decode refP [0x39, 1, 0] = .command (.rbTcamCb 1) [] := by decide +kernel
theorem test_decode_rbBusOwner : decode refP [0x3A, 0, 2, 0] = .command (.rbBusOwner 0 2) [] := by decide +kernel
theorem test_decode_rbLtBuses : decode refP [0x3B, 1, 12, 0] = .command (.rbLtBuses 1 12) [] := by decide +kernel
theorem test_decode_rbLtcamOwner : decode refP [0x3C, 1, 0] = .command (.rbLtcamOwner 1) [] := by decide +kernel
theorem test_decode_rbArbitrate : decode refP [0x3D, 3, 0] = .command (.rbArbitrate 3) [] := by decide +kernel
theorem test_decode_predStart : decode refP [0x40, 5] = .command (.predStart 5) [] := by decide +kernel
theorem test_decode_predGw :
    decode refP [0x41, 2, 1, 1, 0, 5] = .command (.predGw 0x102 1 0 5) [] := by decide +kernel
theorem test_decode_predFirst : decode refP [0x42, 2, 0] = .command (.predFirst 2) [] := by decide +kernel
theorem test_decode_predNext : decode refP [0x43, 0, 0, 0xFF] = .command (.predNext 0 0xFF) [] := by decide +kernel
theorem test_decode_predEnd : decode refP [0x44] = .command .predEnd [] := by decide +kernel
theorem test_decode_predGet : decode refP [0x45, 4, 0, 2, 0] = .command (.predGet 4 2) [] := by decide +kernel
theorem test_decode_colorReset : decode refP [0x48] = .command .colorReset [] := by decide +kernel
theorem test_decode_colorSetRight :
    decode refP [0x49, 1, 0, 2, 0, 3, 0, 0x10] = .command (.colorSetRight 1 2 3 0x10) [] := by decide +kernel
theorem test_decode_ovfSetRight :
    decode refP [0x4A, 1, 0, 2, 0, 3, 0, 1] = .command (.ovfSetRight 1 2 3 1) [] := by decide +kernel
theorem test_decode_colorRead : decode refP [0x4B, 1, 0] = .command (.colorRead 1) [] := by decide +kernel
theorem test_decode_cfgRead : decode refP [0x50, 0x0E, 0, 0, 0] = .command (.cfgRead 14) [] := by decide +kernel
theorem test_decode_cfgWrite :
    decode refP [0x51, 0x0E, 0, 0, 0, 0, 0, 0x83, 0] = .command (.cfgWrite 14 0x00830000) [] := by decide +kernel
theorem test_decode_atomicBegin : decode refP [0x52, 1] = .command (.atomicBegin 1) [] := by decide +kernel
theorem test_decode_atomicEnd : decode refP [0x53] = .command .atomicEnd [] := by decide +kernel
theorem test_decode_atomicQuery : decode refP [0x54] = .command .atomicQuery [] := by decide +kernel
theorem test_decode_illegal : decode refP [0x55, 1] = .illegal 0x55 [1] := by decide +kernel
theorem test_decode_truncated : decode refP [0x10, 1, 0, 2] = .truncated := by decide +kernel
theorem test_tableWord_colorSetRight :
    decodeTableWord 64 0x1000010000000149 = some (.colorSetRight 1 0 1 0x10) := by decide +kernel

/-! ## One step of each command -/

theorem test_lookupBegin_opens : (out (exec (.lookupBegin phvA 7) s0)).ctx.isOpen = true := by decide +kernel
theorem test_lookupBegin_clears_inhibit :
    ((out (exec (.lookupBegin phvA 7) (s0.putInhibit 1 0 ⟨true, 0x102⟩))).inhibitAt 1 0).on = false := by
  decide +kernel
theorem test_lookupEnd_closes : (out (exec .lookupEnd (opened s0))).ctx.isOpen = false := by decide +kernel
theorem test_hashBit_seed :
    resp (exec (.hashBit 0 1) (opened (withRegs refP [(2, 0xA000)]))) = some (.bit true) := by decide +kernel
theorem test_hashBit_other_bit :
    resp (exec (.hashBit 0 0) (opened (withRegs refP [(2, 0xA000)]))) = some (.bit false) := by decide +kernel
theorem test_hashGroup_value : resp (exec (.hashGroup 0) (sSram refP)) = some (.value 6) := by decide +kernel
theorem test_hashGroup_second_stage_off :
    resp (exec (.hashGroup 1) (opened (withRegs refP [(0, 0x08040201), (2, 0x3600), (3, 8)]))) = some (.value 2) := by
  decide +kernel
theorem test_xbarMatch_hash_byte :
    resp (exec (.xbarMatch 0) (opened (withRegs refP [(0, 0x12100200), (2, 0x100), (3, 0xC08)]))) = some (.key 6) := by
  decide +kernel
theorem test_xbarMatch_substitution :
    resp (exec (.xbarMatch 0) (opened (withRegs refP [(3, 0x009F0908)]))) = some (.key 0xB4) := by decide +kernel
theorem test_xbarHash_bytes :
    resp (exec .xbarHash (opened (withRegs refP [(3, 0xB)]))) = some (.hashInput [0x78, 0] [true, false]) := by
  decide +kernel
theorem test_xbarTcam_byte :
    resp (exec (.xbarTcam 0) (opened (withRegs refP [(4, 0x8B8A8988), (5, 0x8F8E8D8C)]))) = some (.word 0x34) := by
  decide +kernel
theorem test_sramEntryWrite_entry :
    (out (exec (.sramEntryWrite 0 0 2 1 0x34 0xFF 2) s0)).sramAt 0 0 2 1 = ⟨true, 0x34, 0xFF, 2⟩ := by decide +kernel
theorem test_sramEntryClear_keeps_contents :
    (out (exec (.sramEntryClear 0 0 2 1) (sSram refP))).sramAt 0 0 2 1 = ⟨false, 0x34, 0xFF, 2⟩ := by decide +kernel
/-- R186's example; the lookup reads group 0 alone, whose value 0b0110 is then cached for CacheId 7. -/
theorem test_sramLookup_hit :
    let o := exec (.sramLookup 0 3 0) (sSram refP)
    resp o = some (.sramHits true [⟨0, 1, 2, some 2⟩]) ∧ (out o).cachedHash 0 7 = some 6
      ∧ (out o).cachedHash 1 7 = none := by decide +kernel
theorem test_sramLookup_relaxed_contention :
    (out (exec (.sramLookup 0 3 0) (sTwo relaxed))).busHitAt 2 = some ⟨0, 0, 0, 2⟩ := by decide +kernel
theorem test_tcamSetValueMask_words :
    (out (exec (.tcamSetValueMask 0 3 0xA5 0xF0) s0)).tcamAt 0 3 = ⟨true, 0x5F, 0xAF⟩ := by decide +kernel
theorem test_tcamClear_keeps_words :
    (out (exec (.tcamClear 0 2) sTcam)).tcamAt 0 2 = ⟨false, 0xCF, 0x3F⟩ := by decide +kernel
theorem test_tcamGet_words : resp (exec (.tcamGet 0 2) sTcam) = some (.tcamEntry true 0x3F 0xCF) := by decide +kernel
theorem test_tcamLookup_rotated : resp (exec (.tcamLookup 0) sTcam) = some (.tcamIndex (some 6)) := by decide +kernel
theorem test_tcamLookupRaw_wraps :
    resp (exec (.tcamLookupRaw 0 0x3A 0xC5) sTcam) = some (.tcamIndex (some 1)) := by decide +kernel
theorem test_ltcamLookup_unit : resp (exec (.ltcamLookup 0) sTcam) = some (.ltcamHit (some ⟨0, 6⟩)) := by
  decide +kernel
theorem test_stashWrite_entry :
    (out (exec (.stashWrite 1 0 0x34 0xFF 2 0x102) s0)).stashAt 1 0 = ⟨true, 0x34, 0xFF, 2, 0x102⟩ := by decide +kernel
theorem test_stashClear_valid : ((out (exec (.stashClear 1 0) sStash)).stashAt 1 0).valid = false := by decide +kernel
theorem test_stashLookup_lowest : resp (exec (.stashLookup 1 0) sStash) = some (.stashHit (some (0, 0x102))) := by
  decide +kernel
theorem test_stashLookup_skips_inhibited :
    resp (exec (.stashLookup 1 0) (sStash.putInhibit 1 0 ⟨true, 0x102⟩)) = some (.stashHit (some (1, 0x200))) := by
  decide +kernel
theorem test_stashInhibit_sets :
    (out (exec (.stashInhibit 1 0 0x102) s0)).inhibitAt 1 0 = ⟨true, 0x102⟩ := by decide +kernel
theorem test_stashHitInhibited_exact :
    resp (exec (.stashHitInhibited 1 0 0x103) (s0.putInhibit 1 0 ⟨true, 0x102⟩)) = some (.inhibited false) := by
  decide +kernel
theorem test_rbMatchCb_moves :
    (out (exec (.rbMatchCb 0 3) (withRegs refP [(14, 0x83830000), (14, 0x85830000)]))).busMap.matchBus.mask 5 = 8 := by
  decide +kernel
theorem test_rbTcamCb_owner :
    (out (exec (.rbTcamCb 1) (withRegs refP [(15, 0x87000000)]))).busMap.ltcam.ownerOf 1 = some 7 := by decide +kernel
theorem test_rbBusOwner_owned :
    resp (exec (.rbBusOwner 0 2) (withRegs refP [(14, 0x83830000)])) = some (.owner (some 3)) := by decide +kernel
theorem test_rbLtBuses_mask :
    resp (exec (.rbLtBuses 0 3) (withRegs refP [(14, 0x83830000)])) = some (.busMask 12) := by decide +kernel
theorem test_rbLtcamOwner_owned :
    resp (exec (.rbLtcamOwner 1) (withRegs refP [(15, 0x87000000)])) = some (.owner (some 7)) := by decide +kernel
theorem test_rbArbitrate_exact :
    resp (exec (.rbArbitrate 3) ((sSram refP).putBusHit 2 (some ⟨0, 0, 1, 2⟩)))
      = some (.arbitration (some (.exact 2 ⟨0, 0, 1, 2⟩))) := by decide +kernel
theorem test_rbArbitrate_ternary :
    resp (exec (.rbArbitrate 7) (sTcam.putLtcHit 0 (some ⟨0, 6⟩))) = some (.arbitration (some (.ternary 0 ⟨0, 6⟩))) := by
  decide +kernel
theorem test_predStart_static_bits :
    (out (exec (.predStart 1) (withRegs refP [(16, 0x00191100), (20, 0x01FFFF01)]))).predBitsAt 2 0 = 0x0F := by
  decide +kernel
theorem test_predStart_target :
    (out (exec (.predStart 1) (withRegs refP [(16, 0x00191100), (20, 0x01FFFF01)]))).targetAt 0 = some 1 := by
  decide +kernel
theorem test_predGw_sets : (out (exec (.predGw 4 1 1 6) (sPred refP 0x01FFFF01))).gwAt 4 = ⟨true, some 6⟩ := by
  decide +kernel
theorem test_predFirst_table : resp (exec (.predFirst 0) (sPred refP 0x01FFFF01)) = some (.table 1) := by decide +kernel
theorem test_predFirst_bits : (out (exec (.predFirst 0) (sPred refP 0x01FFFF01))).predBitsAt 1 0 = 0xDD := by
  decide +kernel
theorem test_predNext_redirected :
    resp (exec (.predNext 0 4) (out (exec (.predFirst 0) ((sPred refP 0x01FFFF01).putGw 4 ⟨true, some 6⟩))))
      = some (.table 6) := by decide +kernel
theorem test_predNext_stops :
    resp (exec (.predNext 0 4) (out (exec (.predFirst 0) (sPred { refP with scReading := .stop } 0x01FFFF01))))
      = some (.table 0xFF) := by decide +kernel
theorem test_predEnd_pass : (out (exec .predEnd (sPred refP 0x01FFFF01))).pred.pass = .ended := by decide +kernel
theorem test_predGet_bits : resp (exec (.predGet 2 0) (sPred refP 0x01FFFF01)) = some (.predBits 0x0F) := by
  decide +kernel
theorem test_colorReset_clears :
    (out (exec .colorReset (s0.putColor 0 ⟨3, 1, some (1, 0), none⟩))).colorAt 0 = ⟨0, 0, none, none⟩ := by
  decide +kernel
theorem test_colorSetRight_ors :
    (out (exec (.colorSetRight 0 1 0 2) (s0.putColor 0 ⟨1, 0, some (1, 0), none⟩))).colorAt 0
      = ⟨3, 0, some (1, 0), none⟩ := by decide +kernel
theorem test_colorSetRight_mix :
    raised (exec (.colorSetRight 0 0 1 4) (s0.putColor 0 ⟨3, 0, some (1, 0), none⟩)) = some .colorBusMix := by
  decide +kernel
theorem test_ovfSetRight_own_contributor :
    (out (exec (.ovfSetRight 0 0 1 1) (s0.putColor 0 ⟨3, 0, some (1, 0), none⟩))).colorAt 0
      = ⟨3, 1, some (1, 0), some (0, 1)⟩ := by decide +kernel
theorem test_colorRead_values :
    resp (exec (.colorRead 1) (s0.putColor 1 ⟨0x11, 1, some (0, 1), some (1, 0)⟩)) = some (.color 0x11 1) := by
  decide +kernel
theorem test_cfgRead_applied : resp (exec (.cfgRead 14) (withRegs refP [(14, 0x8500)])) = some (.data 0x8500) := by
  decide +kernel
theorem test_cfgWrite_notifies :
    (out (exec (.cfgWrite 14 0x00830000) s0)).busMap.matchBus.ownerOf 2 = some 3 := by decide +kernel
theorem test_cfgWrite_buffered :
    (out (exec (.cfgWrite 3 0xDEADBEEF) (sWindow refP true []))).atomic.buf = [(3, 0xDEADBEEF)] := by decide +kernel
theorem test_atomicBegin_window :
    (out (exec (.atomicBegin 1) s0)).atomic = ⟨.begun, true, [], 0, 0⟩ := by decide +kernel
theorem test_atomicEnd_replays_in_order :
    (out (exec .atomicEnd (sWindow refP true [(14, 0x83), (14, 0x8500)]))).busMap.matchBus.ownerOf 1 = some 5 := by
  decide +kernel
theorem test_atomicEnd_last_write :
    (out (exec .atomicEnd (sWindow refP true [(14, 0x83), (14, 0x8500)]))).regRead 14 = 0x8500 := by decide +kernel
theorem test_atomicQuery_reset : resp (exec .atomicQuery s0) = some (.atomic 0 0 0 false 0) := by decide +kernel
theorem test_illegal_code : (out (step (s0.withInbox [0x00]))).fault = some ⟨.illegalOp, 0, [], .code 0⟩ := by
  decide +kernel
theorem test_checks_in_order : raised (exec (.sramLookup 5 3 0) s0) = some .noLookupContext := by decide +kernel

theorem test_atomicBegin_inside_window :
    (out (exec (.atomicBegin 1) (sWindow refP true []))).fault.map EventRecord.info
      = some (.atomicState .beginInsideWindow .begun) := by decide +kernel
theorem test_hostReset_keeps_host_bytes : ((stopped s0).withInbox [0x02]).hostReset.inbox = [0x02] := by decide +kernel

/-! ## Witnesses: a state and operands that meet the hypotheses of each statement, clause by clause -/

theorem witness_StepRunsDecodedCommand :
    decode refP (s0.withInbox [0x50, 23, 0, 0, 0, 0x02]).inbox = .command (.cfgRead 23) [0x02] := by decide +kernel
theorem witness_DecodeReadsEncodedCommand :
    (Instr.lookupBegin { phvA with valid := 255, ingress := 255 } 7).wellFormed refP = true
    ∧ (Instr.cfgWrite (2 ^ 32 - 1) 0).wellFormed refP = true := by decide +kernel
theorem witness_DecodedCommandIsItsBytes :
    decode refP [0x45, 0xFF, 0xFF, 3, 0, 9] = .command (.predGet 65535 3) [9] := by decide +kernel
theorem witness_UnlistedCodeRaisesIllegalOp :
    (s0.withInbox [0x00]).running = true ∧ (0x00 : Byte).toNat ∉ listedCodes ∧ (0x55 : Byte).toNat ∉ listedCodes
    ∧ (0xFF : Byte).toNat ∉ listedCodes := by decide +kernel
theorem witness_LookupsMissWithoutValidEntries :
    (opened s0).noValidEntry ∧ resp (exec (.sramLookup 1 15 1) (opened s0)) = some (.sramHits false [])
    ∧ resp (exec (.tcamLookup 1) (opened s0)) = some (.tcamIndex none)
    ∧ resp (exec (.tcamLookupRaw 1 255 255) s0) = some (.tcamIndex none)
    ∧ resp (exec (.ltcamLookup 1) (opened s0)) = some (.ltcamHit none)
    ∧ resp (exec (.stashLookup 1 1) (opened s0)) = some (.stashHit none) := by decide +kernel
theorem witness_LookupsMissWithoutValidEntries_cleared :
    ((opened s0).putSram 1 1 3 1 ⟨false, 0, 0, 15⟩).noValidEntry := by decide +kernel
theorem witness_CommandCompletesOrFaultsPrecisely : s0.running = true ∧ (stopped s0).running = false := by
  decide +kernel
theorem witness_StoppedBlockStaysStopped :
    (stopped s0).running = false ∧ goes (step ((stopped s0).withInbox [0x02])) = true := by decide +kernel
theorem witness_FaultsFollowTheCodeTable :
    s0.running = true ∧ raised (exec (.hashGroup 2) (opened s0)) = some .bounds
    ∧ raised (exec (.ovfSetRight 0 0 1 0) (s0.putColor 0 ⟨0, 1, none, some (0, 0)⟩)) = some .colorBusMix
    ∧ raised (exec .predEnd s0) = some .predBracket ∧ raised (exec .atomicEnd s0) = some .atomicProtocol
    ∧ raised (exec .xbarHash s0) = some .noLookupContext
    ∧ raised (exec (.sramLookup 0 3 0) ((sSram refP).putBusHit 2 (some ⟨1, 0, 1, 2⟩))) = some .busContention
    ∧ raised (exec (.predNext 0 1) (out (exec (.predFirst 0) (sPred refP 0x01FFFF01)))) = some .nextTableOrder := by
  decide +kernel
theorem witness_LookupContextIsRequired :
    s0.running = true ∧ s0.ctx.isOpen = false ∧ needsContext (.hashBit 0 0) = true
    ∧ needsContext (.rbArbitrate 15) = true ∧ (opened s0).running = true ∧ (opened s0).ctx.isOpen = true
    ∧ needsContext (.tcamLookupRaw 2 0 0) = false
    ∧ raised (exec (.tcamLookupRaw 2 0 0) s0) = some .bounds := by decide +kernel
theorem witness_OperandOutOfBoundsRaisesBounds :
    (opened s0).running = true ∧ contextOk (opened s0) (.sramLookup 2 16 2) = true
    ∧ protocolOk (opened s0) (.sramLookup 2 16 2) = true ∧ phvSized refP (.sramLookup 2 16 2) = true
    ∧ (∃ x ∈ operandTable refP (.sramLookup 2 16 2), x.bound ≤ x.value)
    ∧ (∃ x ∈ operandTable refP (.cfgRead 24), x.bound ≤ x.value) := by decide +kernel
theorem witness_PredicationBracketIsEnforced :
    (sPred refP 0x01FFFF01).running = true ∧ (sPred refP 0x01FFFF01).pred.pass = .started
    ∧ s0.running = true ∧ s0.pred.pass ≠ .started
    ∧ accepts (out (exec (.predFirst 2) (sPred refP 0x01FFFF01))) (.predFirst 2) = true
    ∧ (out (exec (.predFirst 2) (sPred refP 0x01FFFF01))).cursorAt 2 ≠ .before
    ∧ accepts (sPred refP 0x01FFFF01) (.predNext 0 2) = true
    ∧ (sPred refP 0x01FFFF01).cursorAt 0 = .before := by decide +kernel
theorem witness_AtomicProtocolIsEnforced :
    (sWindow refP true []).running = true ∧ (sWindow refP true []).atomic.state = .begun
    ∧ s0.running = true ∧ s0.atomic.state ≠ .begun := by decide +kernel
theorem witness_WarningsOnlyAccumulate :
    ((out (step ((sTwo relaxed).withInbox [0x22, 0, 0, 3, 0, 0]))).warnLog.map EventRecord.code) = [.busContention]
    ∧ ((out (step ((State.putColor (State.resetWith relaxed) 0 ⟨3, 0, some (1, 0), none⟩).withInbox
      [0x49, 0, 0, 0, 0, 1, 0, 4]))).warnLog.map EventRecord.code) = [.colorBusMix] := by decide +kernel
theorem witness_SnapshotIsStable :
    goes (exec .lookupEnd (opened s0)) = true ∧ opcode .lookupEnd ≠ 0x01 := by decide +kernel
theorem witness_OnlyTheirCommandsChangeMemory :
    goes (exec (.sramEntryWrite 0 0 0 0 1 1 1) s0) = true ∧ goes (exec (.cfgWrite 0 1) s0) = true
    ∧ goes (exec (.tcamClear 0 0) s0) = true ∧ goes (exec (.stashClear 0 0) s0) = true := by decide +kernel

/-- The machine of V-H5 with a context open: two equal stages. -/
def sHash (p : Params) : State :=
  (withRegs p [(0, 0xFFFFFFFF), (1, 0xFFFFFFFF), (2, 0x5300), (3, 0x88)]).openContext ⟨[0x5A, 0, 0, 0], 1, 0, 0⟩ 1

/-- The reference parameters without the hash cache. -/
def uncached : Params := { refP with hashCacheEnabled := false }

theorem witness_HashValueIsStableInContext :
    (sHash refP).params.hashCacheEnabled = true
    ∧ resp (exec (.hashGroup 0) (sHash refP)) = some (.value 5)
    ∧ (∀ i ∈ [Instr.cfgWrite 2 0xF100, .colorReset], opcode i ≠ 0x01)
    ∧ accepts (after [.cfgWrite 2 0xF100, .colorReset] (out (exec (.hashGroup 0) (sHash refP)))) (.hashGroup 0) = true
    ∧ (sHash uncached).params.hashCacheEnabled = false ∧ accepts (sHash uncached) (.hashGroup 1) = true
    ∧ hashSelectorsOk (sHash uncached) := by decide +kernel
theorem witness_BusMapsStayConsistent :
    (withRegs refP sramRegs).mapsConsistent
    ∧ goes (step ((withRegs refP sramRegs).withInbox [0x51, 0x0E, 0, 0, 0, 0, 0, 0x85, 0])) = true := by decide +kernel
theorem witness_BusMapsFollowRegisters :
    (withRegs refP sramRegs).mapsFresh
    ∧ goes (step ((withRegs refP sramRegs).withInbox [0x51, 0x0F, 0, 0, 0, 0, 0, 0x85, 0])) = true := by decide +kernel
theorem witness_RowCacheStaysFresh :
    (out (exec (.sramLookup 0 3 0) (sSram refP))).rowsFresh
    ∧ (out (exec (.sramLookup 0 3 0) (sSram refP))).cachedRows 0 3 = [0]
    ∧ goes (step ((out (exec (.sramLookup 0 3 0) (sSram refP))).withInbox [0x51, 9, 0, 0, 0, 0x85, 0, 0, 0])) = true :=
  by decide +kernel
theorem witness_PredBitsStayImplied :
    (sPred refP 0x01FFFF01).predOk ∧ goes (step ((sPred refP 0x01FFFF01).withInbox [0x42, 0, 0])) = true := by
  decide +kernel
theorem withRegs_mapsFit (p : Params) (ws : List (Nat × Word)) : (withRegs p ws).mapsFit := by
  have key : ∀ (ws : List (Nat × Word)) (s : State), s.mapsFit →
      (ws.foldl (fun s w => s.regApply w.1 w.2) s).mapsFit := by
    intro ws
    induction ws with
    | nil => exact fun _ h => h
    | cons w ws ih => exact fun s h => ih _ (mapsFit_regApply h w.1 w.2)
  exact key ws _ (ofConfig_fits p)

/-- A color row to which pair (0, 1) has contributed. -/
def sColor : State := s0.putColor 1 ((s0.colorAt 1).contribute .color (0, 1) 1)

theorem sColor_contributorsFit : sColor.contributorsFit :=
  contributorsFit_contribute (s := s0) (pair := (0, 1))
    (by intro r x h; simp [s0, State.resetWith, State.colorAt, clearRow] at h) .color 1 1
    (show 0 < refP.nmc ∧ 1 < refP.nalu by decide +kernel)

theorem witness_FieldsStayWithinWidths :
    ((sSram refP).entriesFit ∧ (sSram refP).valuesFit ∧ (sSram refP).phvFits ∧ (sSram refP).atomicOk)
    ∧ goes (step ((sSram refP).withInbox [0x11, 0, 0])) = true := by decide +kernel
theorem witness_FieldsStayWithinWidths_maps : (withRegs refP sramRegs).mapsFit
    ∧ goes (step ((withRegs refP sramRegs).withInbox [0x51, 0x0E, 0, 0, 0, 0, 0, 0x85, 0])) = true :=
  ⟨withRegs_mapsFit refP sramRegs, by decide +kernel⟩
theorem witness_FieldsStayWithinWidths_contributors : sColor.contributorsFit
    ∧ goes (step (sColor.withInbox [0x49, 1, 0, 0, 0, 1, 0, 4])) = true :=
  ⟨sColor_contributorsFit, by decide +kernel⟩
/-- A walk of thread 0 that has come to the last position, with the last table as its target. -/
def sLastPos : State := ((sPred refP 0x00FFFF01).putCursor 0 (.pos 15)).putTarget 0 (some 15)

theorem sLastPos_threadsFit : sLastPos.threadsFit := by
  have h : ∀ th < 3, sLastPos.cursorAt th = (if th = 0 then .pos 15 else .before)
      ∧ ∀ lt ∈ sLastPos.targetAt th, lt < 16 := by decide +kernel
  refine fun th hth => ⟨fun q hq => ?_, (h th hth).2⟩
  rw [(h th hth).1] at hq
  split at hq <;> cases hq
  decide

theorem witness_FieldsStayWithinWidths_threads : sLastPos.threadsFit
    ∧ goes (step (sLastPos.withInbox [0x43, 0, 0, 0xFF])) = true := ⟨sLastPos_threadsFit, by decide +kernel⟩
theorem witness_MemoryStaysCanonical :
    (sSram refP).memoryCanonical ∧ goes (step ((sSram refP).withInbox [0x21, 0, 0, 0, 0, 2, 0, 1, 0])) = true := by
  decide +kernel
theorem witness_LookupBracketOpensAndCloses :
    accepts s0 (.lookupBegin { phvA with valid := 0, egress := 3 } 7) = true
    ∧ accepts (opened s0) .lookupEnd = true := by decide +kernel

/-- A hash-address selector that names no PHV byte. -/
def sBadHash : State := opened (withRegs refP [(3, 0x0C0C)])

theorem witness_HashBitReturnsComputedBit :
    accepts (sSram refP) (.hashBit 1 3) = true ∧ hashSelectorsOk (sSram refP)
    ∧ accepts sBadHash (.hashBit 0 0) = true ∧ ¬ hashSelectorsOk sBadHash := by decide +kernel
theorem witness_HashGroupReturnsAndCaches :
    accepts (sSram refP) (.hashGroup 1) = true ∧ groupReady (sSram refP) 1
    ∧ accepts sBadHash (.hashGroup 0) = true ∧ ¬ groupReady sBadHash 0
    ∧ groupReady (sBadHash.putHash 0 7 5) 0 := by decide +kernel
theorem witness_EqualStagesCancel :
    (cfgEnable refP (sHash refP).mem.regs 0).testBit 0 = true
    ∧ (cfgEnable refP (sHash refP).mem.regs 0).testBit 1 = true
    ∧ stageData refP (hashInput (sHash refP)) 0 = stageData refP (hashInput (sHash refP)) 1
    ∧ stageValid refP (hashInput (sHash refP)) 0 = stageValid refP (hashInput (sHash refP)) 1
    ∧ cfgMatrix refP (sHash refP).mem.regs 0 3 = cfgMatrix refP (sHash refP).mem.regs 1 3
    ∧ cfgValidMatrix refP (sHash refP).mem.regs 0 3 = cfgValidMatrix refP (sHash refP).mem.regs 1 3
    ∧ (∀ st < refP.hs, (cfgEnable refP s0.mem.regs 0).testBit st = false)
    ∧ (∀ x ∈ hashInput s0, x = (0, false)) ∧ 1 < refP.hs ∧ 0 < refP.sb
    ∧ (hashInput (sHash refP))[0 * refP.sb + 0]? = some (0x5A, true)
    ∧ (hashInput (sHash refP))[1 * refP.sb + 0]? = some (0x5A, true) := by decide +kernel
theorem witness_XbarHashReturnsHashInput :
    accepts (sSram refP) .xbarHash = true ∧ hashSelectorsOk (sSram refP)
    ∧ accepts sBadHash .xbarHash = true ∧ ¬ hashSelectorsOk sBadHash := by decide +kernel
/-- The reference parameters with a layout in which the source of bit 0 of unit 0 spans seven bits of word 4. -/
def wideSource : Params :=
  { refP with layout := { refP.layout with tx := [[gatedField 4 6 0 7]] } }

theorem witness_XbarTcamReturnsSearchWord :
    accepts sTcam (.xbarTcam 1) = true ∧ tcamReady sTcam 1
    ∧ accepts (opened (withRegs wideSource [(4, 0xA0)])) (.xbarTcam 0) = true
    ∧ ¬ tcamReady (opened (withRegs wideSource [(4, 0xA0)])) 0
    ∧ tcamReady (opened (withRegs wideSource [(4, 0x9F)])) 0 := by decide +kernel
theorem witness_XbarMatchReturnsSearchKey :
    (accepts (sSram refP) (.xbarMatch 1) = true ∧ matchReady (sSram refP) 1)
    ∧ matchReady (opened (withRegs refP [(3, 0xC08)])) 0
    ∧ ((cfgMx refP (withRegs refP [(3, 0xC08)]).mem.regs 0 0).en = true
      ∧ refP.hashThreshold ≤ (cfgMx refP (withRegs refP [(3, 0xC08)]).mem.regs 0 0).val)
    ∧ accepts (opened (withRegs refP [(3, 0xD08)])) (.xbarMatch 0) = true
    ∧ ¬ matchReady (opened (withRegs refP [(3, 0xD08)])) 0 := by decide +kernel
theorem witness_LastSubstitutionWins :
    slotsOk refP [⟨true, 7, 1, 1⟩, ⟨true, 7, 0, 1⟩, ⟨false, 9, 0, 9⟩] 8
    ∧ ¬ slotsOk refP [⟨true, 8, 1, 1⟩] 8 ∧ ¬ slotsOk refP [⟨true, 7, 1, 2⟩] 8 := by decide +kernel
theorem witness_SramEntryCommandsWriteOneEntry :
    accepts s0 (.sramEntryWrite 1 1 3 1 255 255 15) = true ∧ accepts s0 (.sramEntryClear 1 1 3 1) = true := by
  decide +kernel
/-- S_SRAM, whose hitmap names bus 2, in a block with two match buses. -/
def sBadBus (p : Params) : State := sSram { p with nmb := 2 }

theorem witness_SramLookupReportsHits :
    (accepts (sSram refP) (.sramLookup 0 3 0) = true ∧ (sSram refP).rowsFresh
      ∧ (∀ r ∈ rowsOfConfig refP (sSram refP).mem.regs 0 3, unitReady (sSram refP) 0 r)
      ∧ rawHits (sSram refP) 0 3 0 = [⟨0, 1, 2⟩] ∧ hitBus (sSram refP) 0 ⟨0, 1, 2⟩ = some 2
      ∧ (sSram refP).busHitAt 2 = none ∧ refP.relaxMultiHit = false
      ∧ lookupReads (sSram refP) 0 3 0 ∧ ¬ lookupReads (sSram refP) 0 3 1 ∧ (sSram refP).pendingAt 0 = none)
    ∧ (accepts (sTwo relaxed) (.sramLookup 0 3 0) = true ∧ (sTwo relaxed).rowsFresh
      ∧ (∀ r ∈ rowsOfConfig relaxed (sTwo relaxed).mem.regs 0 3, unitReady (sTwo relaxed) 0 r)
      ∧ rawHits (sTwo relaxed) 0 3 0 = [⟨0, 0, 2⟩, ⟨0, 1, 2⟩] ∧ hitBus (sTwo relaxed) 0 ⟨0, 0, 2⟩ = some 2
      ∧ hitBus (sTwo relaxed) 0 ⟨0, 1, 2⟩ = some 2 ∧ relaxed.relaxMultiHit = true) := by decide +kernel
theorem witness_SramLookupReportsHits_stops :
    (let s := (sSram refP).regApply 3 0xD08;
      accepts s (.sramLookup 0 3 0) = true ∧ s.rowsFresh ∧ rowsOfConfig refP s.mem.regs 0 3 = [0] ∧ ¬ unitReady s 0 0)
    ∧ (accepts (sBadBus relaxed) (.sramLookup 0 3 0) = true ∧ (sBadBus relaxed).rowsFresh
      ∧ (∀ r ∈ rowsOfConfig (sBadBus relaxed).params (sBadBus relaxed).mem.regs 0 3,
        unitReady (sBadBus relaxed) 0 r)
      ∧ reportedHits relaxed (rawHits (sBadBus relaxed) 0 3 0) = [⟨0, 1, 2⟩]
      ∧ hitBus (sBadBus relaxed) 0 ⟨0, 1, 2⟩ = some 2 ∧ (sBadBus relaxed).params.nmb = 2)
    ∧ raised (exec (.sramLookup 0 3 0) (sBadBus refP)) = some .bounds := by decide +kernel
theorem witness_HitsComeInRowThenEntryOrder :
    (sTwo relaxed).params.relaxMultiHit = true ∧ (sTwo refP).params.relaxMultiHit = false
    ∧ rawHits (sTwo refP) 0 3 0 = [⟨0, 0, 2⟩, ⟨0, 1, 2⟩] ∧ (⟨0, 1, 2⟩ : RawHit) ∈ rawHits (sTwo refP) 0 3 0 := by
  decide +kernel
theorem witness_MatchBusContention :
    ((sSram refP).busHitAt 3 = none ∧ ((sSram refP).putBusHit 3 (some ⟨0, 0, 1, 2⟩)).busHitAt 3 = some ⟨0, 0, 1, 2⟩)
    ∧ (⟨1, 0, 1, 2⟩ : BusHit) ≠ ⟨0, 0, 1, 2⟩ ∧ refP.relaxMultiHit = false ∧ relaxed.relaxMultiHit = true
    ∧ (let s := (sSram refP).putBusHit 2 (some ⟨1, 0, 1, 2⟩);
      accepts s (.sramLookup 0 3 0) = true ∧ s.rowsFresh
      ∧ (∀ r ∈ rowsOfConfig refP s.mem.regs 0 3, unitReady s 0 r) ∧ (rawHits s 0 3 0).head? = some ⟨0, 1, 2⟩
      ∧ hitBus s 0 ⟨0, 1, 2⟩ = some 2 ∧ s.busHitAt 2 = some ⟨1, 0, 1, 2⟩
      ∧ (⟨1, 0, 1, 2⟩ : BusHit) ≠ hitRecord 0 ⟨0, 1, 2⟩) := by decide +kernel
theorem witness_TcamEntryCommands :
    accepts s0 (.tcamSetValueMask 1 7 255 255) = true ∧ accepts s0 (.tcamClear 1 7) = true
    ∧ accepts s0 (.tcamGet 1 7) = true := by decide +kernel
theorem witness_ValueAndMaskAreRecovered :
    accepts s0 (.tcamSetValueMask 0 3 0xA5 0xF0) = true ∧ goes (exec (.tcamSetValueMask 0 3 0xA5 0xF0) s0) = true
    ∧ (⟨true, 0x5E, 0xAE⟩ : TcamEntry).word0.testBit 0 = false
    ∧ (⟨true, 0x5E, 0xAE⟩ : TcamEntry).word1.testBit 0 = false := by decide +kernel
theorem witness_TernaryMatchComparesCaredBits :
    (255 : Nat) < 2 ^ 8 ∧ (⟨false, 255, 255⟩ : TcamEntry).valid = false
    ∧ (⟨true, 0x7F, 0x7F⟩ : TcamEntry).word0.testBit 7 = false := by decide +kernel

/-- Unit 0's rotation offset lies past its entries: the layout gives the offset four bits. -/
def wideStart : Params := { refP with layout := { refP.layout with tcamStart := [fieldAt 8 19 16] } }

theorem witness_TcamLookupsScanFromOffset :
    (accepts sTcam (.tcamLookup 0) = true ∧ tcamReady sTcam 0 ∧ cfgTcamStart refP sTcam.mem.regs 0 < 8)
    ∧ accepts sTcam (.tcamLookupRaw 1 0 0) = true
    ∧ (let s := opened (withRegs wideStart [(8, 0x80000)]);
      accepts s (.tcamLookup 0) = true ∧ accepts s (.tcamLookupRaw 0 0 0) = true
      ∧ wideStart.nt ≤ cfgTcamStart wideStart s.mem.regs 0)
    ∧ cfgTcamStart wideStart (withRegs wideStart [(8, 0x70000)]).mem.regs 0 < wideStart.nt := by decide +kernel

/-- Unit 1's logical TCAM has two bits. -/
def wideLtcam : Params :=
  { refP with layout := { refP.layout with tcamLtcam := [gatedField 8 24 24 27, gatedField 8 29 28 31] } }

/-- Both units on logical TCAM 0, unit 1 with an offset past its entries; the layout gives the offset four bits. -/
def sTwoUnits (w5 : Word) : State :=
  let p := { refP with layout := { refP.layout with tcamStart := [fieldAt 8 18 16, fieldAt 8 23 20] } }
  opened (((withRegs p [(4, 0x8B8A8988), (5, w5), (8, 0x88850000)]).putTcam 0 2 ⟨true, 0xCF, 0x3F⟩).putTcam 0 6
    ⟨true, 0xCB, 0x34⟩)

theorem witness_LtcamLookupTakesLowestUnit :
    (accepts sTcam (.ltcamLookup 0) = true
      ∧ (∀ u < 2, (cfgTcamLtcam refP sTcam.mem.regs u).en = true → (cfgTcamLtcam refP sTcam.mem.regs u).val < 2)
      ∧ (∀ u < 2, unitOf sTcam 0 u → scanReady sTcam u) ∧ unitOf sTcam 0 0)
    ∧ accepts (opened (withRegs wideLtcam [(8, 0xA0000000)])) (.ltcamLookup 1) = true
    ∧ ∃ u < 2, (cfgTcamLtcam wideLtcam (withRegs wideLtcam [(8, 0xA0000000)]).mem.regs u).en = true
      ∧ 2 ≤ (cfgTcamLtcam wideLtcam (withRegs wideLtcam [(8, 0xA0000000)]).mem.regs u).val := by decide +kernel
theorem witness_LtcamLookupTakesLowestUnit_unready :
    (let s := sTwoUnits 0x8F8E8D8C;
      accepts s (.ltcamLookup 0) = true ∧ unitOf s 0 0 ∧ unitOf s 0 1 ∧ scanReady s 0 ∧ ¬ scanReady s 1
      ∧ resp (exec (.tcamLookup 0) s) = some (.tcamIndex (some 6)))
    ∧ (let s := sTwoUnits 0;
      accepts s (.ltcamLookup 0) = true ∧ unitOf s 0 1 ∧ ¬ scanReady s 1 ∧ unitOf s 0 0 ∧ scanReady s 0
      ∧ resp (exec (.tcamLookup 0) s) = some (.tcamIndex none)) := by decide +kernel
theorem witness_StashEntryCommandsWriteOneEntry :
    accepts s0 (.stashWrite 1 3 255 255 15 0xFFFFFFFF) = true ∧ accepts s0 (.stashClear 1 3) = true := by
  decide +kernel
theorem witness_StashInhibitCommands :
    accepts s0 (.stashInhibit 1 3 0) = true ∧ accepts s0 (.stashHitInhibited 1 3 0xFFFFFFFF) = true := by
  decide +kernel
theorem witness_StashLookupTakesLowestHit :
    (accepts sStash (.stashLookup 1 1) = true ∧ matchReady sStash 1)
    ∧ stashHitsKey sStash 1 0x34 1 0 = true ∧ stashHitsKey sStash 1 0x24 1 1 = false ∧ ¬ readsHash sStash 1
    ∧ (let s := opened (withRegs refP [(3, 0xC00)]);
      accepts s (.stashLookup 0 0) = true ∧ matchReady s 0 ∧ readsHash s 0 ∧ s.params.hashCacheEnabled = true)
    ∧ accepts (opened (withRegs refP [(3, 0xD00)])) (.stashLookup 0 0) = true
    ∧ ¬ matchReady (opened (withRegs refP [(3, 0xD00)])) 0 := by decide +kernel
theorem witness_CallbacksRecomputeOneOwner :
    accepts s0 (.rbMatchCb 0 3) = true ∧ accepts s0 (.rbMatchCb 1 1) = true ∧ accepts s0 (.rbTcamCb 1) = true := by
  decide +kernel
theorem witness_BusQueriesReadMaps :
    accepts s0 (.rbBusOwner 0 3) = true ∧ accepts s0 (.rbBusOwner 1 1) = true ∧ accepts s0 (.rbLtBuses 1 15) = true
    ∧ accepts s0 (.rbLtcamOwner 1) = true ∧ (withRegs refP sramRegs).mapsFresh := by decide +kernel
theorem witness_ArbitrationPicksTheTablesHit : accepts (opened s0) (.rbArbitrate 15) = true := by decide +kernel
theorem witness_PredStartBeginsPass :
    accepts s0 (.predStart 7) = true ∧ accepts (out (exec .predEnd (sPred refP 0))) (.predStart 0) = true := by
  decide +kernel
theorem witness_PredicationPlainCommands :
    accepts (sPred refP 0) (.predGw 15 1 1 0xFF) = true ∧ accepts (sPred refP 0) .predEnd = true
    ∧ accepts (sPred refP 0) (.predGet 15 2) = true ∧ (sPred refP 0).pred.pass = .started
    ∧ accepts s0 (.predGet 15 2) = true ∧ s0.pred.pass ≠ .started := by decide +kernel

/-- A walk whose gateways do not redirect it backward, checked position by position. -/
theorem walkForward_of_all {s : State} {th p : Nat} {tgt : Option Nat}
    (h : ∀ q < 16, redirectsAt s th q (targetOn s th p tgt q) = true → pointsForward s.params (gatewayNext s q) q) :
    walkForward s th p tgt := fun q hr => h q hr.2.1

/-- A position that a walk comes to, checked position by position. -/
theorem reached_of_all {s : State} {th p q : Nat} {tgt : Option Nat} (h : p ≤ q ∧ q < 16 ∧ ∀ q' < q, p ≤ q' →
    stopsAt s th q' (targetOn s th p tgt q') = false ∧ (redirectsAt s th q' (targetOn s th p tgt q') = true →
      pointsForward s.params (gatewayNext s q') q')) : reached s th p tgt q :=
  ⟨h.1, h.2.1, fun q' h1 h2 => h.2.2 q' h2 h1⟩

/-- A pass in which table 1, where thread 0 starts, is inhibited. -/
def sInhibited (w20 : Word) (next : Option Byte) : State := (sPred refP w20).putGw 1 ⟨true, next⟩

theorem witness_PredFirstWalksFromStart :
    (let s := sInhibited 0x01FFFF01 (some 2);
      accepts s (.predFirst 0) = true ∧ orderOk s.params ∧ s.cursorAt 0 = .before ∧ walkForward s 0 0 (s.targetAt 0))
    ∧ (let s := (sPred { refP with scReading := .stop } 0x00FFFF01).putGw 15 ⟨true, some 0⟩;
      accepts s (.predFirst 2) = true ∧ orderOk s.params ∧ s.cursorAt 2 = .before
      ∧ walkForward s 2 0 (s.targetAt 2)) :=
  ⟨⟨by decide +kernel, by decide +kernel, by decide +kernel, walkForward_of_all (by decide +kernel)⟩,
    ⟨by decide +kernel, by decide +kernel, by decide +kernel, walkForward_of_all (by decide +kernel)⟩⟩

/-- The pass after PRED_FIRST of thread 0, the gateway of table 4 given. -/
def sWalked (w20 : Word) (x : Gateway) : State := out (exec (.predFirst 0) ((sPred refP w20).putGw 4 x))

theorem witness_PredNextWalksOn :
    (let s := (sPred refP 0x01FFFF01).putCursor 0 .done;
      accepts s (.predNext 0 3) = true ∧ orderOk s.params ∧ s.cursorAt 0 = .done)
    ∧ (let s := sWalked 0x01FFFF01 ⟨true, some 6⟩;
      accepts s (.predNext 0 4) = true ∧ s.cursorAt 0 = .pos 1 ∧ predRunBit (s.predBitsAt (tableAt s.params 1) 0) = true
      ∧ pointsForward s.params 4 1 ∧ walkForward s 0 2 (some 4))
    ∧ (let s := (sPred refP 0x00FFFF01).putCursor 0 (.pos 15);
      accepts s (.predNext 0 2) = true ∧ predRunBit (s.predBitsAt (tableAt s.params 15) 0) = false
      ∧ walkForward s 0 16 (s.targetAt 0)) :=
  ⟨by decide +kernel,
    ⟨by decide +kernel, by decide +kernel, by decide +kernel, by decide +kernel,
      walkForward_of_all (by decide +kernel)⟩,
    ⟨by decide +kernel, by decide +kernel, walkForward_of_all (by decide +kernel)⟩⟩
theorem witness_BackwardNextTableRaisesOrder :
    (let s := sWalked 0x00FFFF01 ⟨true, none⟩;
      accepts s (.predNext 0 1) = true ∧ s.cursorAt 0 = .pos 1 ∧ predRunBit (s.predBitsAt (tableAt s.params 1) 0) = true
      ∧ (s.gwAt (tableAt s.params 1)).next.getD 1 = 1 ∧ posOf s.params 1 ≤ 1)
    ∧ (∀ w20 ∈ [0x00FFFF01, 0x01FFFF01], ∀ next ∈ [some 1, some 2, none], let s := sInhibited w20 next;
      accepts s (.predFirst 0) = true ∧ orderOk s.params ∧ s.cursorAt 0 = .before
      ∧ reached s 0 0 (s.targetAt 0) 1 ∧ redirectsAt s 0 1 (targetOn s 0 0 (s.targetAt 0) 1) = true)
    ∧ (gatewayNext (sInhibited 0x01FFFF01 (some 1)) 1 = 1 ∧ posOf refP 1 ≤ 1)
    ∧ ∀ next ∈ [some 2, none], let s := sInhibited 0x01FFFF01 next;
      pointsForward refP (gatewayNext s 1) 1
      ∧ ∀ q < 16, 1 < q → redirectsAt s 0 q (targetOn s 0 0 (s.targetAt 0) q) = false := by
  refine ⟨by decide +kernel, fun w20 hw next hn => ?_, by decide +kernel, by decide +kernel⟩
  simp only [List.mem_cons, List.not_mem_nil, or_false] at hw hn
  obtain rfl | rfl := hw <;> obtain rfl | rfl | rfl := hn <;>
    exact ⟨by decide +kernel, by decide +kernel, by decide +kernel, reached_of_all (by decide +kernel),
      by decide +kernel⟩
theorem witness_BackwardNextTableRaisesOrder_next :
    (let s := sWalked 0x01FFFF01 ⟨true, some 3⟩;
      accepts s (.predNext 0 4) = true ∧ orderOk s.params ∧ s.cursorAt 0 = .pos 1
      ∧ predRunBit (s.predBitsAt (tableAt s.params 1) 0) = true ∧ pointsForward s.params 4 1
      ∧ reached s 0 2 (some 4) 4 ∧ redirectsAt s 0 4 (targetOn s 0 2 (some 4) 4) = true
      ∧ (gatewayNext s 4).toNat = 3 ∧ posOf s.params 3 ≤ 4)
    ∧ (let s := sWalked 0x00FFFF01 ⟨true, some 6⟩;
      accepts s (.predNext 0 2) = true ∧ s.cursorAt 0 = .pos 1 ∧ pointsForward s.params 2 1
      ∧ ∀ q < 16, redirectsAt s 0 q (targetOn s 0 2 (some 2) q) = false) :=
  ⟨⟨by decide +kernel, by decide +kernel, by decide +kernel, by decide +kernel, by decide +kernel,
      reached_of_all (by decide +kernel), by decide +kernel, by decide +kernel, by decide +kernel⟩, by decide +kernel⟩
theorem witness_ColorContributionIsChecked :
    accepts s0 (.colorSetRight 1 1 1 255) = true ∧ (s0.colorAt 1).whoC = none
    ∧ (let s := s0.putColor 1 ⟨1, 0, some (0, 1), none⟩;
      accepts s (.colorSetRight 1 1 1 0) = true ∧ (s.colorAt 1).whoC = some (0, 1) ∧ ((0, 1) : Nat × Nat) ≠ (1, 1))
    ∧ relaxed.relaxColorBus = true ∧ refP.relaxColorBus = false := by decide +kernel
theorem witness_OverflowContributionIsChecked :
    accepts s0 (.ovfSetRight 1 1 1 1) = true ∧ (s0.colorAt 1).whoO = none
    ∧ (let s := s0.putColor 1 ⟨0, 1, none, some (0, 1)⟩;
      accepts s (.ovfSetRight 1 1 1 0) = true ∧ (s.colorAt 1).whoO = some (0, 1) ∧ ((0, 1) : Nat × Nat) ≠ (1, 1))
    ∧ relaxed.relaxColorBus = true ∧ refP.relaxColorBus = false := by decide +kernel
theorem witness_ColorResetAndRead :
    accepts s0 .colorReset = true ∧ accepts s0 (.colorRead 1) = true := by decide +kernel
theorem witness_RegApplyWritesAndNotifies :
    placeTouches 4 [⟨3, 0, 8⟩] = false ∧ placeTouches 3 [⟨4, 31, 0⟩, ⟨3, 31, 1⟩] = true
    ∧ placeBits [⟨4, 31, 0⟩, ⟨3, 31, 1⟩] = [(3, 31)] := by decide +kernel
theorem witness_CfgAccessesGoThroughTheGate :
    accepts s0 (.cfgRead 23) = true ∧ (accepts s0 (.cfgWrite 23 1) = true ∧ s0.atomic.state ≠ .begun)
    ∧ (accepts (sWindow refP false []) (.cfgWrite 0 1) = true ∧ (sWindow refP false []).atomic.buffering = false)
    ∧ (accepts (sWindow refP true (List.replicate 63 (0, 1))) (.cfgWrite 0 1) = true
      ∧ (sWindow refP true (List.replicate 63 (0, 1))).atomic.buf.length < 64)
    ∧ (accepts (sWindow refP true (List.replicate 64 (0, 1))) (.cfgWrite 0 1) = true
      ∧ 64 ≤ (sWindow refP true (List.replicate 64 (0, 1))).atomic.buf.length)
    ∧ refP.overflowPolicy = .discard
    ∧ { refP with overflowPolicy := .applyImmediately }.overflowPolicy = .applyImmediately := by decide +kernel
theorem witness_AtomicWindowCommands :
    accepts s0 (.atomicBegin 1) = true ∧ accepts (sWindow refP true [(14, 0x83)]) .atomicEnd = true
    ∧ accepts (sWindow refP true []) .atomicQuery = true := by decide +kernel
theorem witness_BatchOfWritesIsBounded :
    accepts s0 (.atomicBegin 1) = true
    ∧ (∀ w ∈ (List.replicate 65 (23, 1) : List (Nat × Word)), w.1 < s0.params.regWords ∧ w.1 < 2 ^ 32)
    ∧ (List.replicate 65 (23, 1) : List (Nat × Word)).length < 2 ^ 32
    ∧ s0.params.overflowPolicy = .discard := by decide +kernel

end Sys2Proof.Tests
end

section
/-! PROOFS. The invariants of R32 to R42 that every step keeps, and RegApply. Each invariant is one lemma over the
primitive changes of a command: the changes that write its fields are the named cases, every other change leaves those
fields as they were. `step_keeps` makes a step of them. -/

namespace Sys2Proof.Machine

/-! ## Pred bits (R39) -/

section
variable {i : Instr} {s t : State}

/-- Writing bits in which the implications hold keeps them everywhere. -/
theorem predOk_putPredBits (h : s.predOk) (lt th : Nat) {b : Byte} (hb : predImplied b) :
    (s.putPredBits lt th b).predOk := by
  intro lt' hlt' th' hth'
  rw [predBitsAt_putPredBits]
  split
  · exact hb
  · exact h lt' hlt' th' hth'

/-- A started pass has static bits alone, and those have no bit of the active mask. -/
theorem predOk_startPass (s : State) (flags : Nat) : (s.startPass flags).predOk := by
  intro lt hlt th hth
  rw [(startPass_spec s flags).1 lt hlt th hth]
  exact predImplied_staticBits s.params s.mem.regs lt th

theorem prim_keeps_predOk (hp : Prim i s t) (h : s.predOk) : t.predOk := by
  cases hp with
  | startPass flags => exact predOk_startPass s flags
  | visit lt th active isTarget inhibit =>
    exact predOk_putPredBits h lt th (predImplied_visitBits (s.predBitsAt lt th) active isTarget inhibit)
  | _ => exact predOk_congr (by simp) h

end

/-- Settles O22: only PRED_START and the visits of a walk write Pred bits, and both write them with the
implications. -/
theorem predBitsStayImplied : Obligations.PredBitsStayImplied :=
  fun _ _ => step_keeps (Inv := State.predOk) (fun _ _ _ _ h => h) fun _ _ _ h hp => prim_keeps_predOk hp h

/-! ## Entries, hash values, color sums, PHV, atomic buffer (R32 to R34, R36, R40 to R42) -/

section
variable {i : Instr} {s t : State}

theorem entriesFit_putSram (h : s.entriesFit) (r c a e : Nat) {x : SramEntry} (hx : sramFits s.params x) :
    (s.putSram r c a e x).entriesFit := by
  obtain ⟨hsram, htcam, hstash⟩ := h
  refine ⟨fun y hy => ?_, htcam, hstash⟩
  rcases Cells.mem_write hy with rfl | hy
  · exact hx
  · exact hsram y hy

theorem entriesFit_putTcam (h : s.entriesFit) (u idx : Nat) {x : TcamEntry} (hx : tcamFits s.params x) :
    (s.putTcam u idx x).entriesFit := by
  obtain ⟨hsram, htcam, hstash⟩ := h
  refine ⟨hsram, fun y hy => ?_, hstash⟩
  rcases Cells.mem_write hy with rfl | hy
  · exact hx
  · exact htcam y hy

theorem entriesFit_putStash (h : s.entriesFit) (r w : Nat) {x : StashEntry} (hx : stashFits s.params x) :
    (s.putStash r w x).entriesFit := by
  obtain ⟨hsram, htcam, hstash⟩ := h
  refine ⟨hsram, htcam, fun y hy => ?_⟩
  rcases Cells.mem_write hy with rfl | hy
  · exact hx
  · exact hstash y hy

/-- A command writes an entry that fits, or one whose fields are those of the entry it replaces. -/
theorem prim_keeps_entriesFit (hp : Prim i s t) (h : s.entriesFit) : t.entriesFit := by
  obtain ⟨hsram, htcam, hstash⟩ := entries_read_fit h
  cases hp with
  | putSram r c a e x _ hx => exact entriesFit_putSram h r c a e (hx (hsram r c a e))
  | putTcam u idx x _ hx => exact entriesFit_putTcam h u idx (hx (htcam u idx))
  | putStash r w x _ hx => exact entriesFit_putStash h r w (hx (hstash r w))
  | regApply => exact h
  | _ => exact entriesFit_congr (by simp) (by simp) h

/-- ORing a value of a bus's width into a row keeps both sums within their widths (R291). -/
theorem contribute_fits {p : Params} {x : ColorRow} (hx : x.acc < 2 ^ p.cw ∧ x.ovf < 2 ^ p.ovw) {bus : RowBus}
    {v : Nat} (hv : v < 2 ^ busWidth p bus) (pair : Nat × Nat) :
    (x.contribute bus pair v).acc < 2 ^ p.cw ∧ (x.contribute bus pair v).ovf < 2 ^ p.ovw := by
  cases bus with
  | color => exact ⟨Nat.or_lt_two_pow hx.1 hv, hx.2⟩
  | overflow => exact ⟨hx.1, Nat.or_lt_two_pow hx.2 hv⟩

theorem valuesFit_putColor (h : s.valuesFit) (r : Nat) {x : ColorRow}
    (hx : x.acc < 2 ^ s.params.cw ∧ x.ovf < 2 ^ s.params.ovw) : (s.putColor r x).valuesFit := by
  obtain ⟨hhash, hcolor⟩ := h
  refine ⟨hhash, fun y hy => ?_⟩
  rcases Cells.mem_write (dflt := fun _ => clearRow) (m := s.color) (k := r) (v := x) hy with rfl | hy
  · exact hx
  · exact hcolor y hy

theorem prim_keeps_valuesFit (hp : Prim i s t) (h : s.valuesFit) : t.valuesFit := by
  cases hp with
  | openContext => exact ⟨nofun, nofun⟩
  | clearColor => exact ⟨h.1, nofun⟩
  | fill g => exact valuesFit_fill h g
  | contribute bus r pair v _ hv => exact valuesFit_putColor h r (contribute_fits (color_read_fits h r) hv pair)
  | _ => exact valuesFit_congr (by simp) (by simp) (by simp) h

theorem prim_keeps_phvFits (hp : Prim i s t) (h : s.phvFits) : t.phvFits := by
  cases hp with
  | openContext phv cid _ hphv => exact hphv
  | _ => exact phvFits_congr (by simp) (by simp) h

theorem prim_keeps_atomicOk (hp : Prim i s t) (h : s.atomicOk) : t.atomicOk := by
  obtain ⟨hlen, hstate⟩ := h
  cases hp with
  | bufferWrite o d _ hroom => exact ⟨by rw [State.bufferWrite_buf, List.length_append]; exact hroom, hstate⟩
  | beginWindow => exact ⟨Nat.zero_le 64, nofun⟩
  | endWindow => exact ⟨hlen, nofun⟩
  | countWrite => exact ⟨hlen, hstate⟩
  | countOverflow => exact ⟨hlen, hstate⟩
  | _ => exact atomicOk_congr (by simp) ⟨hlen, hstate⟩

/-! ## Maps, contributors, threads (R38 to R40) -/

/-- The recompute of a bus in range takes its owner from a register of four bits (R29, R241). -/
theorem mapsFit_recomputeBus (h : s.mapsFit) (k : BusKind) {b : Nat} (hb : b < busCount s.params k) :
    { s with busMap := BusMap.recomputeBus s.params s.mem.regs s.busMap k b }.mapsFit := by
  obtain ⟨hmatch, htind, hltcam⟩ := h
  obtain ⟨hm, ht, _⟩ := crossbarRegs_lt s.params s.mem.regs b
  cases k with
  | matchBus => exact ⟨fits_of_recomputed hmatch hb hm (recompute_spec _ _ _), htind, hltcam⟩
  | tindBus => exact ⟨hmatch, fits_of_recomputed htind hb ht (recompute_spec _ _ _), hltcam⟩

theorem mapsFit_recomputeLtcam (h : s.mapsFit) {l : Nat} (hl : l < s.params.nltc) :
    { s with busMap := BusMap.recomputeLtcam s.params s.mem.regs s.busMap l }.mapsFit := by
  obtain ⟨hmatch, htind, hltcam⟩ := h
  obtain ⟨_, _, hreg⟩ := crossbarRegs_lt s.params s.mem.regs l
  exact ⟨hmatch, htind, fits_of_recomputed hltcam hl hreg (recompute_spec _ _ _)⟩

theorem prim_keeps_mapsFit (hp : Prim i s t) (h : s.mapsFit) : t.mapsFit := by
  cases hp with
  | recomputeBus k b _ hb => exact mapsFit_recomputeBus h k hb
  | recomputeLtcam l _ hl => exact mapsFit_recomputeLtcam h hl
  | regApply o d => exact mapsFit_regApply h o d
  | _ => exact mapsFit_congr (by simp) (by simp) h

/-- A switchbox without a row listed records no contributor. -/
theorem contributorsFit_of_color_nil (hc : s.color = []) : s.contributorsFit := by
  intro r x hx
  rw [State.colorAt, hc] at hx
  exact absurd hx (by simp [clearRow])

theorem prim_keeps_contributorsFit (hp : Prim i s t) (h : s.contributorsFit) : t.contributorsFit := by
  cases hp with
  | openContext => exact contributorsFit_of_color_nil rfl
  | clearColor => exact contributorsFit_of_color_nil rfl
  | contribute bus r pair v _ _ hpair => exact contributorsFit_contribute h bus r v hpair
  | _ => exact contributorsFit_congr (by simp) (by simp) h

theorem threadsFit_putTarget (h : s.threadsFit) (th : Nat) {x : Option Nat} (hx : ∀ lt ∈ x, lt < 16) :
    (s.putTarget th x).threadsFit := by
  intro th' hth'
  obtain ⟨hcursor, htarget⟩ := h th' hth'
  refine ⟨hcursor, ?_⟩
  rw [targetAt_putTarget]
  split
  · exact hx
  · exact htarget

theorem threadsFit_putCursor (h : s.threadsFit) (th : Nat) {x : Cursor} (hx : ∀ q, x = .pos q → q < 16) :
    (s.putCursor th x).threadsFit := by
  intro th' hth'
  obtain ⟨hcursor, htarget⟩ := h th' hth'
  refine ⟨?_, htarget⟩
  rw [cursorAt_putCursor]
  split
  · exact hx
  · exact hcursor

/-- A thread starts at one of the 16 tables, or at END (R268). -/
theorem startTarget_lt (p : Params) (regs : Cells Word) (flags th : Nat) :
    ∀ lt ∈ startTarget p regs flags th, lt < 16 := by
  intro lt hlt
  unfold startTarget at hlt
  split at hlt
  · rename_i hstart
    exact Option.some.inj hlt ▸ hstart.2
  · cases hlt

theorem threadsFit_startPass (s : State) (flags : Nat) : (s.startPass flags).threadsFit := by
  intro th hth
  obtain ⟨_, hcursor, htarget⟩ := (startPass_spec s flags).2.1 th hth
  rw [hcursor, htarget]
  exact ⟨nofun, startTarget_lt s.params s.mem.regs flags th⟩

theorem prim_keeps_threadsFit (hp : Prim i s t) (h : s.threadsFit) : t.threadsFit := by
  cases hp with
  | startPass flags => exact threadsFit_startPass s flags
  | putTarget th x _ hx => exact threadsFit_putTarget h th hx
  | putCursor th x _ hx => exact threadsFit_putCursor h th hx
  | _ => exact threadsFit_congr (by simp) (by simp) h

end

/-- Settles O23: each of the four bounds is kept by every primitive change, and so by every step. -/
theorem fieldsStayWithinWidths : Obligations.FieldsStayWithinWidths := by
  refine ⟨fun _ _ => ?_, fun _ _ => ?_, fun _ _ => ?_, fun _ _ => ?_⟩
  · exact step_keeps (Inv := fun s => s.entriesFit ∧ s.valuesFit ∧ s.phvFits ∧ s.atomicOk) (fun _ _ _ _ h => h)
      fun _ _ _ ⟨hentries, hvalues, hphv, hatomic⟩ hp => ⟨prim_keeps_entriesFit hp hentries,
        prim_keeps_valuesFit hp hvalues, prim_keeps_phvFits hp hphv, prim_keeps_atomicOk hp hatomic⟩
  · exact step_keeps (Inv := State.mapsFit) (fun _ _ _ _ h => h) fun _ _ _ h hp => prim_keeps_mapsFit hp h
  · exact step_keeps (Inv := State.contributorsFit) (fun _ _ _ _ h => h) fun _ _ _ h hp =>
      prim_keeps_contributorsFit hp h
  · exact step_keeps (Inv := State.threadsFit) (fun _ _ _ _ h => h) fun _ _ _ h hp => prim_keeps_threadsFit hp h

/-! ## RegApply (R22, R311) -/

/-- The mapping token moves exactly when the word holds a bit of a rowOwner field (R311). -/
theorem mapSeq_regApply (s : State) (o : Nat) (d : Word) : (s.regApply o d).mapSeq
    = s.mapSeq + (if ∃ r < s.params.nr, ∃ c < s.params.nc, gatedTouches o (rowOwnerPlace s.params r c) = true
        then 1 else 0) := by
  rw [State.regApply_mapSeq]
  simp only [← touchesRowOwner_iff]
  split <;> rfl

/-- A field of w bits reads the first w bits of its place (R22). -/
theorem testBit_readWidth (s : State) (w : Nat) (pl : Place) (k : Nat) :
    (readWidth s.params s.mem.regs w pl).testBit k = (decide (k < w) && placedBit s pl k) := by
  rw [readWidth, Nat.testBit_mod_two_pow, testBit_readPlace]

/-- Settles O57: the word, the token and the owners by the laws of a register write, a field by the bits of its
place. -/
theorem regApplyWritesAndNotifies : Obligations.RegApplyWritesAndNotifies := by
  intro s o d
  refine ⟨?word, fun o' ho' => ?otherWords, mapSeq_regApply s o d, fun k b hb => ?buses,
    fun l hl => ownerOf_regApply_ltcam s o d hl, ?frame, fun pl => ?fields⟩
  case word => rw [regRead_regApply, if_pos rfl]
  case otherWords => rw [regRead_regApply, if_neg ho']
  case buses =>
    cases k with
    | matchBus => exact ownerOf_regApply_match s o d hb
    | tindBus => exact ownerOf_regApply_tind s o d hb
  case frame => rfl
  case fields =>
    exact ⟨testBit_readPlace s pl, fun w k => testBit_readWidth s w pl k, testBit_readPlace s pl 0,
      placeTouches_iff o pl, readPlace_write⟩

end Sys2Proof.Machine
end

section
/-! PROOFS. The memory: its canonical form, which commands write it, the value of a hash group within a context, and
the command that a step runs. The invariant and the frames are one lemma each over the primitive changes of a command. -/

namespace Sys2Proof.Machine

/-! ## Canonical form (assumption 17) -/

section
variable {i : Instr} {s t : State}

/-- Four primitive changes write the memory, each through a write that keeps the form. -/
theorem prim_keeps_memoryCanonical (hp : Prim i s t) (h : s.memoryCanonical) : t.memoryCanonical := by
  cases hp with
  | putSram r c a e x => exact memory_wf_putSram h r c a e x
  | putTcam u idx x => exact memory_wf_putTcam h u idx x
  | putStash r w x => exact memory_wf_putStash h r w x
  | regApply o d => exact memory_wf_regApply h o d
  | _ => exact memoryCanonical_congr (by simp) (by simp) h

end

/-- Settles O24: every primitive change keeps the canonical form, and so every step does. -/
theorem memoryStaysCanonical : Obligations.MemoryStaysCanonical :=
  fun _ _ => step_keeps (Inv := State.memoryCanonical) (fun _ _ _ _ h => h) fun _ _ _ h hp =>
    prim_keeps_memoryCanonical hp h

/-! ## Which commands write the memory (R70, R326) -/

/-- From s to t each array of the memory is as before, unless command i is one of those that write it. -/
def KeepsForeignMemory (i : Instr) (s t : State) : Prop :=
  (opcode i ∉ [0x51, 0x53] → t.mem.regs = s.mem.regs)
    ∧ (opcode i ∉ [0x20, 0x21] → t.mem.sram = s.mem.sram)
    ∧ (opcode i ∉ [0x28, 0x29] → t.mem.tcam = s.mem.tcam)
    ∧ (opcode i ∉ [0x30, 0x31] → t.mem.stash = s.mem.stash)

section
variable {i : Instr} {s t u : State}

theorem keepsForeignMemory_of_mem_eq (h : t.mem = s.mem) : KeepsForeignMemory i s t := by
  simp [KeepsForeignMemory, h]

theorem KeepsForeignMemory.trans (h : KeepsForeignMemory i s t) (h' : KeepsForeignMemory i t u) :
    KeepsForeignMemory i s u := by
  obtain ⟨hregs, hsram, htcam, hstash⟩ := h
  obtain ⟨hregs', hsram', htcam', hstash'⟩ := h'
  exact ⟨fun hi => (hregs' hi).trans (hregs hi), fun hi => (hsram' hi).trans (hsram hi),
    fun hi => (htcam' hi).trans (htcam hi), fun hi => (hstash' hi).trans (hstash hi)⟩

/-- A change of one array is made by a command of that array, and leaves the other three. -/
theorem prim_keepsForeignMemory (hp : Prim i s t) : KeepsForeignMemory i s t := by
  cases hp with
  | regApply o d hi => exact ⟨fun hn => absurd hi hn, fun _ => rfl, fun _ => rfl, fun _ => rfl⟩
  | putSram r c a e x hi => exact ⟨fun _ => rfl, fun hn => absurd hi hn, fun _ => rfl, fun _ => rfl⟩
  | putTcam u idx x hi => exact ⟨fun _ => rfl, fun _ => rfl, fun hn => absurd hi hn, fun _ => rfl⟩
  | putStash r w x hi => exact ⟨fun _ => rfl, fun _ => rfl, fun _ => rfl, fun hn => absurd hi hn⟩
  | _ => exact keepsForeignMemory_of_mem_eq (by simp)

theorem change_keepsForeignMemory (h : Change i s t) : KeepsForeignMemory i s t :=
  change_induct h (keepsForeignMemory_of_mem_eq rfl) fun _ _ hu hp => hu.trans (prim_keepsForeignMemory hp)

end

/-- Settles O17: a refused or faulted command leaves the memory, and a completed one changes it by its primitive
changes alone. -/
theorem onlyTheirCommandsChangeMemory : Obligations.OnlyTheirCommandsChangeMemory := by
  intro i s t h
  rcases exec_cases h with ⟨_, rfl⟩ | ⟨_, s', r, hc, rfl⟩ | ⟨_, v, _, rfl⟩
  · exact ⟨rfl, keepsForeignMemory_of_mem_eq rfl⟩
  · have hparams := change_params hc
    have hframe := change_keepsForeignMemory hc
    exact ⟨hparams, hframe⟩
  · exact ⟨rfl, keepsForeignMemory_of_mem_eq rfl⟩

/-! ## HASH_GROUP within a context (R82, R144) -/

/-- With the cache, the open context's entry for group g holds v. -/
def HashCached (s : State) (g v : Nat) : Prop :=
  s.params.hashCacheEnabled = true ∧ s.cachedHash g s.ctx.cid = some v

section
variable {i : Instr} {s t : State} {g v : Nat}

theorem groupReady_of_hashCached (h : HashCached s g v) : groupReady s g := by
  obtain ⟨henabled, hcached⟩ := h
  exact .inl ⟨henabled, by rw [hcached]; rfl⟩

theorem groupValue_of_hashCached (h : HashCached s g v) : groupValue s g = v := by
  obtain ⟨henabled, hcached⟩ := h
  simp [groupValue, henabled, hcached]

theorem hashCached_congr (hp : t.params = s.params) (hcid : t.ctx.cid = s.ctx.cid) (hh : t.hashCache = s.hashCache)
    (h : HashCached s g v) : HashCached t g v := by
  unfold HashCached State.cachedHash
  rw [hp, hcid, hh]
  exact h

/-- Reading a group's value caches it (R144). -/
theorem hashCached_fill (he : s.params.hashCacheEnabled = true) : HashCached (s.fill g) g (groupValue s g) := by
  refine ⟨by rw [State.fill_params, he], ?_⟩
  rw [State.fill_ctx, cachedHash_fill]
  cases hc : s.cachedHash g s.ctx.cid with
  | none => simp [he]
  | some w => simp [groupValue, he, hc]

/-- Reading any group's value leaves an entry that is cached. -/
theorem hashCached_fill_of_hashCached (h : HashCached s g v) (g' : Nat) : HashCached (s.fill g') g v := by
  obtain ⟨henabled, hcached⟩ := h
  refine ⟨by rw [State.fill_params, henabled], ?_⟩
  rw [State.fill_ctx, cachedHash_fill, if_neg, hcached]
  rintro ⟨_, hnone, rfl, _⟩
  rw [hcached] at hnone
  cases hnone

/-- LOOKUP_BEGIN alone takes entries off the hash cache or changes the CacheId (R131). -/
theorem prim_keeps_hashCached (hi : opcode i ≠ 0x01) (hp : Prim i s t) (h : HashCached s g v) : HashCached t g v := by
  cases hp with
  | openContext phv cid hbegin => exact absurd (by rw [hbegin]; rfl) hi
  | fill g' => exact hashCached_fill_of_hashCached h g'
  | _ => exact hashCached_congr (by simp) (by simp) (by simp) h

theorem exec_keeps_hashCached (hi : opcode i ≠ 0x01) (he : exec i s = .next t) (h : HashCached s g v) :
    HashCached t g v := by
  rcases exec_cases he with ⟨_, rfl⟩ | ⟨_, s', r, hc, rfl⟩ | ⟨_, w, _, rfl⟩
  · exact h
  · have hcached : HashCached s' g v :=
      change_induct (P := fun u => HashCached u g v) hc h fun _ _ hu hp => prim_keeps_hashCached hi hp hu
    exact hcached
  · exact h

/-- A list of commands runs its first command and then the others. -/
theorem after_cons (is : List Instr) (he : exec i s = .next t) : after (i :: is) s = after is t := by
  simp [after, he]

theorem after_keeps_hashCached {is : List Instr} (his : ∀ i ∈ is, opcode i ≠ 0x01) (h : HashCached s g v) :
    HashCached (after is s) g v := by
  induction is generalizing s with
  | nil => exact h
  | cons i is ih =>
    obtain ⟨t, ht⟩ := exec_next i s
    rw [after_cons is ht]
    exact ih (fun j hj => his j (.tail _ hj)) (exec_keeps_hashCached (his i (.head _)) ht h)

/-- HASH_GROUP answers the group's value, with its cache effect (R144). -/
theorem exec_hashGroup_of_ready (ha : accepts s (.hashGroup g) = true) (hr : groupReady s g) :
    exec (.hashGroup g) s = .next ((s.fill g).answering (.value (groupValue s g))) := by
  obtain ⟨hrun, hctx, _, _, hops⟩ := accepts_spec ha
  have hopen : requireContext s = .ok () := by
    rw [requireContext, show s.ctx.isOpen = true from hctx]; rfl
  have hg : checkGroup s.params g = .ok () := checkIndex_index16 (hops (index16 .g s.params.hg g) (.head _))
  refine runCommand_ok hrun ?_
  rw [hopen, ok_bind, hg, ok_bind, hashValue_ok hr, ok_bind]

/-- HASH_GROUP that answered a value read its group's. -/
theorem hashGroup_answered (he : exec (.hashGroup g) s = .next t) (hv : t.response = some (.value v)) :
    v = groupValue s g ∧ t = (s.fill g).answering (.value v) := by
  rcases runCommand_cases he with ⟨_, rfl⟩ | ⟨_, s', r, hbody, rfl⟩ | ⟨_, w, _, rfl⟩
  · cases hv
  · obtain ⟨_, _, hbody⟩ := bind_ok_iff.mp hbody
    obtain ⟨_, _, hbody⟩ := bind_ok_iff.mp hbody
    obtain ⟨⟨v', t'⟩, hvalue, hbody⟩ := bind_ok_iff.mp hbody
    by_cases hr : groupReady s g
    · rw [hashValue_ok hr] at hvalue
      cases hvalue
      cases hbody
      cases hv
      exact ⟨rfl, rfl⟩
    · obtain ⟨n, w, herror⟩ := hashValue_error hr
      rw [herror] at hvalue
      cases hvalue
  · cases hv

end

/-- Settles O18: the first call caches the value, no command but LOOKUP_BEGIN takes it off the cache, and the second
call reads it there; without the cache a call computes it and caches nothing. -/
theorem hashValueIsStableInContext : Obligations.HashValueIsStableInContext := by
  refine ⟨fun g s t v is henabled he hv his ha => ?cached, fun g s hdisabled ha hsel => ?computed⟩
  case cached =>
    obtain ⟨rfl, rfl⟩ := hashGroup_answered he hv
    have hfirst : HashCached ((s.fill g).answering (.value (groupValue s g))) g (groupValue s g) :=
      hashCached_fill henabled
    have hlast := after_keeps_hashCached his hfirst
    refine ⟨_, exec_hashGroup_of_ready ha (groupReady_of_hashCached hlast), ?_⟩
    rw [groupValue_of_hashCached hlast]
    rfl
  case computed =>
    have hfill : s.fill g = s := by simp [State.fill, hdisabled]
    have hvalue : groupValue s g = hashOut s.params s.mem.regs (hashInput s) g := by simp [groupValue, hdisabled]
    rw [exec_hashGroup_of_ready ha (.inr hsel), hfill, hvalue]

/-! ## The command of a step (R78, R113) -/

/-- The core takes the command that its bytes decode to; an empty stream decodes to no command. -/
theorem fetch_command {s : State} {i : Instr} {rest : List Byte} (h : decode s.params s.inbox = .command i rest) :
    fetch s = .command i (s.withInbox rest) := by
  unfold fetch
  cases hb : s.inbox with
  | nil => rw [hb] at h; cases h
  | cons b bs => rw [hb] at h; simp only [h]

/-- Settles O1: a step that finds a command runs it. -/
theorem stepRunsDecodedCommand : Obligations.StepRunsDecodedCommand := by
  intro s i rest h
  rw [step, fetch_command h]
  rfl

end Sys2Proof.Machine
end

section
/-! PROOFS. The byte serialization (R113), and the operand checks (R102, R345 check 5). Decoding is taken apart once and
the round trip of the operands put in; the operand checks of a command's body are its operand table, read in order. -/

namespace Sys2Proof.Laws

open Sys2Proof.Machine

/-! ## The byte serialization (R110, R113) -/

/-- The lemmas of the family RoundTrip, for every command. -/
theorem roundTrip (i : Instr) : RoundTrip.Statement i := by
  cases i with
  | lookupBegin phv cid => exact RoundTrip.lookupBegin phv cid
  | lookupEnd => exact RoundTrip.lookupEnd
  | hashBit g o => exact RoundTrip.hashBit g o
  | hashGroup g => exact RoundTrip.hashGroup g
  | xbarMatch r => exact RoundTrip.xbarMatch r
  | xbarHash => exact RoundTrip.xbarHash
  | xbarTcam u => exact RoundTrip.xbarTcam u
  | sramEntryWrite r c a e value mask vv => exact RoundTrip.sramEntryWrite r c a e value mask vv
  | sramEntryClear r c a e => exact RoundTrip.sramEntryClear r c a e
  | sramLookup c lt vs => exact RoundTrip.sramLookup c lt vs
  | tcamSetValueMask u idx v m => exact RoundTrip.tcamSetValueMask u idx v m
  | tcamClear u idx => exact RoundTrip.tcamClear u idx
  | tcamGet u idx => exact RoundTrip.tcamGet u idx
  | tcamLookup u => exact RoundTrip.tcamLookup u
  | tcamLookupRaw u s1 s0 => exact RoundTrip.tcamLookupRaw u s1 s0
  | ltcamLookup l => exact RoundTrip.ltcamLookup l
  | stashWrite r w value mask vv addr => exact RoundTrip.stashWrite r w value mask vv addr
  | stashClear r w => exact RoundTrip.stashClear r w
  | stashLookup r vs => exact RoundTrip.stashLookup r vs
  | stashInhibit r w addr => exact RoundTrip.stashInhibit r w addr
  | stashHitInhibited r w addr => exact RoundTrip.stashHitInhibited r w addr
  | rbMatchCb k b => exact RoundTrip.rbMatchCb k b
  | rbTcamCb l => exact RoundTrip.rbTcamCb l
  | rbBusOwner k b => exact RoundTrip.rbBusOwner k b
  | rbLtBuses k lt => exact RoundTrip.rbLtBuses k lt
  | rbLtcamOwner l => exact RoundTrip.rbLtcamOwner l
  | rbArbitrate lt => exact RoundTrip.rbArbitrate lt
  | predStart flags => exact RoundTrip.predStart flags
  | predGw lt inhibit nextValid next => exact RoundTrip.predGw lt inhibit nextValid next
  | predFirst th => exact RoundTrip.predFirst th
  | predNext th nt => exact RoundTrip.predNext th nt
  | predEnd => exact RoundTrip.predEnd
  | predGet lt th => exact RoundTrip.predGet lt th
  | colorReset => exact RoundTrip.colorReset
  | colorSetRight r col alu v => exact RoundTrip.colorSetRight r col alu v
  | ovfSetRight r col alu v => exact RoundTrip.ovfSetRight r col alu v
  | colorRead r => exact RoundTrip.colorRead r
  | cfgRead off => exact RoundTrip.cfgRead off
  | cfgWrite off data => exact RoundTrip.cfgWrite off data
  | atomicBegin buffering => exact RoundTrip.atomicBegin buffering
  | atomicEnd => exact RoundTrip.atomicEnd
  | atomicQuery => exact RoundTrip.atomicQuery

section
variable {p : Params} {i : Instr} {ws vs : List Nat} {op : Byte} {bs bytes rest : List Byte}

/-- Well-formedness, by the row of the operand table. -/
theorem wellFormed_iff :
    i.wellFormed p = true ↔ ∃ ws, operandWidths p (opcode i) = some ws ∧ operandsFit ws (operands i) = true := by
  unfold Instr.wellFormed
  cases operandWidths p (opcode i) <;> simp

/-- The bytes of a command: its code, then its operands at the widths of its row. -/
theorem encode_eq (hw : operandWidths p (opcode i) = some ws) :
    encode p i = BitVec.ofNat 8 (opcode i) :: encodeOperands ws (operands i) := by
  simp [encode, hw]

/-- The length of a command, by the row of its code. -/
theorem commandLength_eq {op : Nat} (hw : operandWidths p op = some ws) :
    commandLength p op = (ws.map bytesFor).sum + 1 := by
  simp [commandLength, hw, Nat.add_comm]

/-- The decoder answers a command exactly when the code has a row, the row's operands can be read, and the builder
makes that command of them. -/
theorem decode_cons_command_iff : decode p (op :: bs) = .command i rest ↔
    ∃ ws vs, operandWidths p op.toNat = some ws ∧ takeOperands ws bs = some (vs, rest)
      ∧ build p op.toNat vs = some i := by
  cases hw : operandWidths p op.toNat with
  | none => simp [decode, hw]
  | some ws =>
    cases ht : takeOperands ws bs with
    | none => simp [decode, hw, ht]
    | some x =>
      obtain ⟨vs, tail⟩ := x
      cases hb : build p op.toNat vs with
      | none => simp +contextual [decode, hw, ht, hb]
      | some j => simp [decode, hw, ht, hb, and_comm]

theorem decode_encode (rest : List Byte) (h : i.wellFormed p = true) :
    decode p (encode p i ++ rest) = .command i rest := by
  obtain ⟨hcode, hbuild⟩ := roundTrip i
  obtain ⟨ws, hw, hfit⟩ := wellFormed_iff.mp h
  have hop : (BitVec.ofNat 8 (opcode i)).toNat = opcode i := Nat.mod_eq_of_lt hcode
  rw [encode_eq hw, List.cons_append, decode_cons_command_iff, hop]
  exact ⟨ws, operands i, hw, takeOperands_encodeOperands ws (operands i) rest hfit, hbuild p h⟩

theorem length_encode (h : i.wellFormed p = true) : (encode p i).length = commandLength p (opcode i) := by
  obtain ⟨ws, hw, hfit⟩ := wellFormed_iff.mp h
  rw [encode_eq hw, List.length_cons, encodeOperands_length hfit, commandLength_eq hw]

theorem wellFormed_and_bytes_of_decode (h : decode p bytes = .command i rest) :
    i.wellFormed p = true ∧ bytes = encode p i ++ rest := by
  cases bytes with
  | nil => cases h
  | cons op bs =>
    obtain ⟨ws, vs, hw, htake, hbuild⟩ := decode_cons_command_iff.mp h
    obtain ⟨hfit, rfl⟩ := takeOperands_some htake
    obtain ⟨hop, rfl⟩ := build_some hw hfit hbuild
    rw [← hop] at hw
    refine ⟨wellFormed_iff.mpr ⟨ws, hw, hfit⟩, ?_⟩
    rw [encode_eq hw, hop, BitVec.ofNat_toNat, BitVec.setWidth_eq, List.cons_append]

end

/-- Settles O2: the bytes of the operands are read back, and the builder makes the command of them. -/
theorem decodeReadsEncodedCommand : Obligations.DecodeReadsEncodedCommand :=
  fun _ _ rest h => decode_encode rest h

/-- Settles O3: the operands that the decoder reads fit their fields and are those of the command it builds. -/
theorem decodedCommandIsItsBytes : Obligations.DecodedCommandIsItsBytes := by
  intro p bytes i rest h
  obtain ⟨hwf, hbytes⟩ := wellFormed_and_bytes_of_decode h
  exact ⟨hwf, hbytes, length_encode hwf⟩

/-- Settles O4: each string is the encoding of the command beside it. -/
theorem writtenWordsDecode : Obligations.WrittenWordsDecode :=
  ⟨decode_encode (i := .lookupBegin ⟨[0x12, 0x34, 0x56, 0x78], 15, 1, 2⟩ 7) [] (by decide),
    decode_encode (i := .cfgWrite 14 0x00830000) [] (by decide),
    decode_encode (i := .sramEntryWrite 0 1 2 3 0x34 0xFF 2) [] (by decide),
    decode_encode (i := .predGw 0x102 1 0 5) [] (by decide)⟩

end Sys2Proof.Laws

namespace Sys2Proof.Machine

/-! ## The operand checks (R102, R345 check 5) -/

/-- The first operand of a list that is not below its bound (assumption 22). -/
def firstBad (xs : List Operand) : Option Operand := xs.find? fun x => decide (x.bound ≤ x.value)

theorem badOperand_eq (p : Params) (i : Instr) : badOperand p i = firstBad (operandTable p i) := rfl

/-- An operation body that raises F01 with the name and the value of the first bad operand of a list, if it has one. -/
def RaisesFirstBad {α : Type} (xs : List Operand) (body : Op α) : Prop :=
  ∀ x, firstBad xs = some x → body = .error ⟨.bounds, .index x.name x.value⟩

section
variable {α β : Type} {xs : List Operand} {f : Unit → Op α} {p : Params}

theorem raisesFirstBad_nil (body : Op α) : RaisesFirstBad [] body := nofun

/-- A body that checks the head of the list and goes on with one for the others. -/
theorem raisesFirstBad_cons {name : IndexName} {bound v : Nat} {check : Op Unit}
    (hcheck : check = if bound ≤ v then .error ⟨.bounds, .index name v⟩ else .ok ())
    (hf : RaisesFirstBad xs (f ())) : RaisesFirstBad (⟨name, bound, v⟩ :: xs) (check >>= f) := by
  intro x hx
  subst hcheck
  by_cases hbad : bound ≤ v
  · obtain rfl : ⟨name, bound, v⟩ = x := by simpa [firstBad, hbad] using hx
    rw [if_pos hbad, error_bind]
  · have hrest : firstBad xs = some x := by simpa [firstBad, hbad] using hx
    rw [if_neg hbad, ok_bind, hf x hrest]

theorem raisesFirstBad_checkIndex {name : IndexName} {width bound v : Nat} (hf : RaisesFirstBad xs (f ())) :
    RaisesFirstBad (⟨name, min (2 ^ width) bound, v⟩ :: xs) (checkIndex name width bound v >>= f) :=
  raisesFirstBad_cons (checkIndex_eq name width bound v) hf

/-- The table of R102 writes the bound of a short field as a numeral. -/
theorem raisesFirstBad_checkWidth {name : IndexName} {width bound v : Nat} (hf : RaisesFirstBad xs (f ()))
    (hbound : 2 ^ width = bound := by rfl) : RaisesFirstBad (⟨name, bound, v⟩ :: xs) (checkWidth name width v >>= f) :=
  hbound ▸ raisesFirstBad_cons (checkWidth_eq name width v) hf

/-- A check of the state that passes raises nothing. -/
theorem raisesFirstBad_require {c : Bool} {v : Violation} (hc : c = true) (hf : RaisesFirstBad xs (f ())) :
    RaisesFirstBad xs (require c v >>= f) := by
  subst hc
  exact hf

/-- The first part of a body can itself be in two parts. -/
theorem raisesFirstBad_bind {x : Op β} {g : β → Op Unit} (h : RaisesFirstBad xs (x >>= fun b => g b >>= f)) :
    RaisesFirstBad xs (x >>= g >>= f) := by
  rwa [bind_assoc]

theorem raisesFirstBad_checkSramEntry {r c a e : Nat} (hf : RaisesFirstBad xs (f ())) :
    RaisesFirstBad (index16 .r p.nr r :: index16 .c p.nc c :: index16 .a p.sd a :: index16 .e p.ne e :: xs)
      (checkSramEntry p r c a e >>= f) :=
  raisesFirstBad_bind <| raisesFirstBad_checkIndex <| raisesFirstBad_bind <| raisesFirstBad_checkIndex <|
    raisesFirstBad_bind <| raisesFirstBad_checkIndex <| raisesFirstBad_checkIndex hf

theorem raisesFirstBad_checkTcamEntry {u idx : Nat} (hf : RaisesFirstBad xs (f ())) :
    RaisesFirstBad (index16 .u p.ntu u :: index16 .idx p.nt idx :: xs) (checkTcamEntry p u idx >>= f) :=
  raisesFirstBad_bind <| raisesFirstBad_checkIndex <| raisesFirstBad_checkIndex hf

theorem raisesFirstBad_checkStashEntry {r w : Nat} (hf : RaisesFirstBad xs (f ())) :
    RaisesFirstBad (index16 .r p.nr r :: index16 .w 4 w :: xs) (checkStashEntry p r w >>= f) :=
  raisesFirstBad_bind <| raisesFirstBad_checkIndex <| raisesFirstBad_checkIndex hf

theorem raisesFirstBad_checkContributor {r col alu : Nat} (hf : RaisesFirstBad xs (f ())) :
    RaisesFirstBad (index16 .r p.nr r :: index16 .col p.nmc col :: index16 .alu p.nalu alu :: xs)
      (checkContributor p r col alu >>= f) :=
  raisesFirstBad_bind <| raisesFirstBad_checkIndex <| raisesFirstBad_bind <| raisesFirstBad_checkIndex <|
    raisesFirstBad_checkIndex hf

theorem busCount_busKind (p : Params) (k : Nat) : busCount p (busKind k) = if k = 0 then p.nmb else p.ntb := by
  unfold busKind
  split <;> rfl

theorem raisesFirstBad_checkBus {k b : Nat} (hf : RaisesFirstBad xs (f ())) :
    RaisesFirstBad (⟨.k, 2, k⟩ :: index16 .b (if k = 0 then p.nmb else p.ntb) b :: xs) (checkBus p k b >>= f) := by
  rw [← busCount_busKind]
  exact raisesFirstBad_bind <| raisesFirstBad_checkWidth <| raisesFirstBad_checkIndex hf

theorem raisesFirstBad_checkPhv {phv : Phv} (hsize : phv.bytes.length = p.phvBytes) (hf : RaisesFirstBad xs (f ())) :
    RaisesFirstBad (⟨.phvValid, 2 ^ p.phvBytes, phv.valid⟩ :: ⟨.phvIngress, 2 ^ p.verBits, phv.ingress⟩
      :: ⟨.phvEgress, 2 ^ p.verBits, phv.egress⟩ :: xs) (checkPhv p phv >>= f) :=
  raisesFirstBad_bind <| raisesFirstBad_require (decide_eq_true hsize) <|
    raisesFirstBad_bind <| raisesFirstBad_checkWidth <| raisesFirstBad_bind <| raisesFirstBad_checkWidth <|
      raisesFirstBad_checkWidth hf

end

section
variable {i : Instr} {s : State}

/-- Past checks 3 and 4, the body of a command checks the operands of its table in order. -/
theorem exec_raisesFirstBad (hctx : contextOk s i = true) (hproto : protocolOk s i = true)
    (hphv : phvSized s.params i = true) :
    ∃ body, exec i s = runCommand i s body ∧ RaisesFirstBad (operandTable s.params i) body := by
  cases i with
  | lookupBegin phv cid =>
    exact ⟨_, rfl, raisesFirstBad_require hctx <| raisesFirstBad_checkPhv (of_decide_eq_true hphv) <|
      raisesFirstBad_nil _⟩
  | lookupEnd => exact ⟨_, rfl, raisesFirstBad_nil _⟩
  | hashBit g o =>
    exact ⟨_, rfl, raisesFirstBad_require hctx <| raisesFirstBad_checkIndex <| raisesFirstBad_checkIndex <|
      raisesFirstBad_nil _⟩
  | hashGroup g => exact ⟨_, rfl, raisesFirstBad_require hctx <| raisesFirstBad_checkIndex <| raisesFirstBad_nil _⟩
  | xbarMatch r => exact ⟨_, rfl, raisesFirstBad_require hctx <| raisesFirstBad_checkIndex <| raisesFirstBad_nil _⟩
  | xbarHash => exact ⟨_, rfl, raisesFirstBad_nil _⟩
  | xbarTcam u => exact ⟨_, rfl, raisesFirstBad_require hctx <| raisesFirstBad_checkIndex <| raisesFirstBad_nil _⟩
  | sramEntryWrite r c a e value mask vv =>
    exact ⟨_, rfl, raisesFirstBad_checkSramEntry <| raisesFirstBad_checkWidth <| raisesFirstBad_checkWidth <|
      raisesFirstBad_checkWidth <| raisesFirstBad_nil _⟩
  | sramEntryClear r c a e => exact ⟨_, rfl, raisesFirstBad_checkSramEntry <| raisesFirstBad_nil _⟩
  | sramLookup c lt vs =>
    exact ⟨_, rfl, raisesFirstBad_require hctx <| raisesFirstBad_checkIndex <| raisesFirstBad_checkIndex <|
      raisesFirstBad_checkWidth <| raisesFirstBad_nil _⟩
  | tcamSetValueMask u idx v m =>
    exact ⟨_, rfl, raisesFirstBad_checkTcamEntry <| raisesFirstBad_checkWidth <| raisesFirstBad_checkWidth <|
      raisesFirstBad_nil _⟩
  | tcamClear u idx => exact ⟨_, rfl, raisesFirstBad_checkTcamEntry <| raisesFirstBad_nil _⟩
  | tcamGet u idx => exact ⟨_, rfl, raisesFirstBad_checkTcamEntry <| raisesFirstBad_nil _⟩
  | tcamLookup u => exact ⟨_, rfl, raisesFirstBad_require hctx <| raisesFirstBad_checkIndex <| raisesFirstBad_nil _⟩
  | tcamLookupRaw u s1 s0 =>
    exact ⟨_, rfl, raisesFirstBad_checkIndex <| raisesFirstBad_checkWidth <| raisesFirstBad_checkWidth <|
      raisesFirstBad_nil _⟩
  | ltcamLookup l => exact ⟨_, rfl, raisesFirstBad_require hctx <| raisesFirstBad_checkIndex <| raisesFirstBad_nil _⟩
  | stashWrite r w value mask vv addr =>
    exact ⟨_, rfl, raisesFirstBad_checkStashEntry <| raisesFirstBad_checkWidth <| raisesFirstBad_checkWidth <|
      raisesFirstBad_checkWidth <| raisesFirstBad_nil _⟩
  | stashClear r w => exact ⟨_, rfl, raisesFirstBad_checkStashEntry <| raisesFirstBad_nil _⟩
  | stashLookup r vs =>
    exact ⟨_, rfl, raisesFirstBad_require hctx <| raisesFirstBad_checkIndex <| raisesFirstBad_checkWidth <|
      raisesFirstBad_nil _⟩
  | stashInhibit r w addr => exact ⟨_, rfl, raisesFirstBad_checkStashEntry <| raisesFirstBad_nil _⟩
  | stashHitInhibited r w addr => exact ⟨_, rfl, raisesFirstBad_checkStashEntry <| raisesFirstBad_nil _⟩
  | rbMatchCb k b => exact ⟨_, rfl, raisesFirstBad_checkBus <| raisesFirstBad_nil _⟩
  | rbTcamCb l => exact ⟨_, rfl, raisesFirstBad_checkIndex <| raisesFirstBad_nil _⟩
  | rbBusOwner k b => exact ⟨_, rfl, raisesFirstBad_checkBus <| raisesFirstBad_nil _⟩
  | rbLtBuses k lt => exact ⟨_, rfl, raisesFirstBad_checkWidth <| raisesFirstBad_checkIndex <| raisesFirstBad_nil _⟩
  | rbLtcamOwner l => exact ⟨_, rfl, raisesFirstBad_checkIndex <| raisesFirstBad_nil _⟩
  | rbArbitrate lt => exact ⟨_, rfl, raisesFirstBad_require hctx <| raisesFirstBad_checkIndex <| raisesFirstBad_nil _⟩
  | predStart flags =>
    exact ⟨_, rfl, raisesFirstBad_require hproto <| raisesFirstBad_checkWidth <| raisesFirstBad_nil _⟩
  | predGw lt inhibit nextValid next =>
    exact ⟨_, rfl, raisesFirstBad_require hproto <| raisesFirstBad_checkIndex <| raisesFirstBad_checkWidth <|
      raisesFirstBad_checkWidth <| raisesFirstBad_nil _⟩
  | predFirst th => exact ⟨_, rfl, raisesFirstBad_require hproto <| raisesFirstBad_checkIndex <| raisesFirstBad_nil _⟩
  | predNext th nt =>
    exact ⟨_, rfl, raisesFirstBad_require hproto <| raisesFirstBad_checkIndex <| raisesFirstBad_nil _⟩
  | predEnd => exact ⟨_, rfl, raisesFirstBad_nil _⟩
  | predGet lt th => exact ⟨_, rfl, raisesFirstBad_checkIndex <| raisesFirstBad_checkIndex <| raisesFirstBad_nil _⟩
  | colorReset => exact ⟨_, rfl, raisesFirstBad_nil _⟩
  | colorSetRight r col alu v =>
    exact ⟨_, rfl, raisesFirstBad_checkContributor <| raisesFirstBad_checkWidth <| raisesFirstBad_nil _⟩
  | ovfSetRight r col alu v =>
    exact ⟨_, rfl, raisesFirstBad_checkContributor <| raisesFirstBad_checkWidth <| raisesFirstBad_nil _⟩
  | colorRead r => exact ⟨_, rfl, raisesFirstBad_checkIndex <| raisesFirstBad_nil _⟩
  | cfgRead off => exact ⟨_, rfl, raisesFirstBad_checkIndex <| raisesFirstBad_nil _⟩
  | cfgWrite off data => exact ⟨_, rfl, raisesFirstBad_checkIndex <| raisesFirstBad_nil _⟩
  | atomicBegin buffering =>
    exact ⟨_, rfl, raisesFirstBad_require hproto <| raisesFirstBad_checkWidth <| raisesFirstBad_nil _⟩
  | atomicEnd => exact ⟨_, rfl, raisesFirstBad_nil _⟩
  | atomicQuery => exact ⟨_, rfl, raisesFirstBad_nil _⟩

/-- Check 5 of R345: a command past the checks before it raises F01 for its bad operand. -/
theorem exec_badOperand (hrun : s.running = true) (hctx : contextOk s i = true) (hproto : protocolOk s i = true)
    (hphv : phvSized s.params i = true) {x : Operand} (hx : badOperand s.params i = some x) :
    exec i s = .next (s.faulted i .bounds (.index x.name x.value)) := by
  obtain ⟨body, hexec, hraises⟩ := exec_raisesFirstBad hctx hproto hphv
  rw [badOperand_eq] at hx
  rw [hexec, runCommand_error hrun (hraises x hx)]

theorem badOperand_isSome_iff {p : Params} :
    (badOperand p i).isSome = true ↔ ∃ x ∈ operandTable p i, x.bound ≤ x.value := by
  simp [badOperand]

theorem badOperand_spec {p : Params} {x : Operand} (hx : badOperand p i = some x) :
    x ∈ operandTable p i ∧ x.bound ≤ x.value :=
  ⟨List.mem_of_find?_eq_some hx, by simpa using List.find?_some hx⟩

end

/-- Settles O12: the operand that F01 names is the first bad one of the command's table. -/
theorem operandOutOfBoundsRaisesBounds : Obligations.OperandOutOfBoundsRaisesBounds := by
  intro i s hrun hctx hproto hphv hbad
  obtain ⟨x, hx⟩ := Option.isSome_iff_exists.mp (badOperand_isSome_iff.mpr hbad)
  obtain ⟨hmem, hbound⟩ := badOperand_spec hx
  exact ⟨x, hmem, hbound, exec_badOperand hrun hctx hproto hphv hx⟩

end Sys2Proof.Machine
end

section
/-! PROOFS. The lookup context (R131 to R134): which commands write its snapshot, the fault of a command that needs it
and does not find it, and what opening and closing it do. -/

namespace Sys2Proof.Machine

/-! ## The snapshot (R134) -/

section
variable {i : Instr} {s t u : State}

/-- From s to t the open context speaks of the same PHV and CacheId. -/
def SameSnapshot (s t : State) : Prop := t.ctx.phv = s.ctx.phv ∧ t.ctx.cid = s.ctx.cid

theorem sameSnapshot_of_ctx_eq (h : t.ctx = s.ctx) : SameSnapshot s t := by simp [SameSnapshot, h]

theorem SameSnapshot.trans (h : SameSnapshot s t) (h' : SameSnapshot t u) : SameSnapshot s u := by
  obtain ⟨hphv, hcid⟩ := h
  obtain ⟨hphv', hcid'⟩ := h'
  exact ⟨hphv'.trans hphv, hcid'.trans hcid⟩

/-- Of the changes that write the context, LOOKUP_END's writes the open flag alone and a hit is recorded on a bus or a
logical TCAM alone. -/
theorem prim_sameSnapshot (hi : opcode i ≠ 0x01) (hp : Prim i s t) : SameSnapshot s t := by
  cases hp with
  | openContext phv cid hbegin => exact absurd (by rw [hbegin]; rfl) hi
  | closeContext => exact ⟨rfl, rfl⟩
  | putBusHit => exact ⟨rfl, rfl⟩
  | putLtcHit => exact ⟨rfl, rfl⟩
  | _ => exact sameSnapshot_of_ctx_eq (by simp)

theorem change_sameSnapshot (hi : opcode i ≠ 0x01) (h : Change i s t) : SameSnapshot s t :=
  change_induct h (sameSnapshot_of_ctx_eq rfl) fun _ _ hu hp => hu.trans (prim_sameSnapshot hi hp)

end

/-- Settles O16: a refused or faulted command leaves the context, and LOOKUP_BEGIN's is the one primitive change that
writes the snapshot. -/
theorem snapshotIsStable : Obligations.SnapshotIsStable := by
  intro i s t h hi
  rcases exec_cases h with ⟨_, rfl⟩ | ⟨_, s', r, hc, rfl⟩ | ⟨_, v, _, rfl⟩
  · exact ⟨rfl, rfl⟩
  · have hsame : SameSnapshot s s' := change_sameSnapshot hi hc
    exact hsame
  · exact ⟨rfl, rfl⟩

/-! ## The fault of a missing or a nested context (R133, R349) -/

section
variable {i : Instr} {s t : State}

/-- A check that passes goes on with the rest of the body. -/
theorem require_bind_of_true {α : Type} {c : Bool} {v : Violation} {f : Unit → Op α} (hc : c = true) :
    (require c v >>= f) = f () := by
  rw [hc]
  rfl

/-- A check that fails raises its violation, whatever comes after it. -/
theorem require_bind_of_false {α : Type} {c : Bool} {v : Violation} {f : Unit → Op α} (hc : c = false) :
    (require c v >>= f) = .error v := by
  rw [hc]
  rfl

/-- The body of each operation of R133 begins with the check of the context (R345 check 3). -/
theorem exec_requiresContext (h : needsContext i = true) :
    ∃ rest : Unit → Op (State × Response), exec i s = runCommand i s (requireContext s >>= rest) := by
  cases i with
  | hashBit g o => exact ⟨_, rfl⟩
  | hashGroup g => exact ⟨_, rfl⟩
  | xbarMatch r => exact ⟨_, rfl⟩
  | xbarHash => exact ⟨_, rfl⟩
  | xbarTcam u => exact ⟨_, rfl⟩
  | sramLookup c lt vs => exact ⟨_, rfl⟩
  | tcamLookup u => exact ⟨_, rfl⟩
  | ltcamLookup l => exact ⟨_, rfl⟩
  | stashLookup r vs => exact ⟨_, rfl⟩
  | rbArbitrate lt => exact ⟨_, rfl⟩
  | _ => cases h

/-- The row of F06 in the table of R344: the bracket of a context and the operations of R133. -/
theorem raisedBy_noLookupContext_iff :
    raisedBy .noLookupContext (opcode i) = true ↔ opcode i = 0x01 ∨ opcode i = 0x02 ∨ needsContext i = true := by
  simp [raisedBy, needsContext]

/-- A fault on record after a command to a running block is one that the command can raise: a completed command leaves
none. -/
theorem raisedBy_of_exec_fault {ev : EventRecord} (hrun : s.running = true) (he : exec i s = .next t)
    (hf : t.fault = some ev) : raisedBy ev.code (opcode i) = true := by
  rcases exec_cases he with ⟨hstopped, _⟩ | ⟨_, s', r, hc, rfl⟩ | ⟨_, v, ⟨hraised, _⟩, rfl⟩
  · rw [hrun] at hstopped
    cases hstopped
  · have hnone : s.fault = none := Option.isNone_iff_eq_none.mp hrun
    have hkept : s'.fault = none := (change_fault hc).trans hnone
    exact absurd (hkept.symm.trans hf) nofun
  · obtain rfl : _ = ev := Option.some.inj hf
    exact hraised

end

/-- Settles O11: the context is the first thing that each of these commands checks, and the table of R344 has F06 for
no other command. -/
theorem lookupContextIsRequired : Obligations.LookupContextIsRequired := by
  refine ⟨fun i s hrun hneeds hclosed => ?missing, fun phv cid s hrun hopen => ?nested,
    fun s hrun hclosed => ?endWithoutBegin, fun i s t ev hrun hneeds hbegin hend he hf hcode => ?others⟩
  case missing =>
    obtain ⟨rest, hexec⟩ := exec_requiresContext hneeds
    exact ⟨.noContext, hexec.trans (runCommand_error hrun (require_bind_of_false hclosed))⟩
  case nested => exact runCommand_error hrun (require_bind_of_false (by rw [hopen]; rfl))
  case endWithoutBegin => exact runCommand_error hrun (require_bind_of_false hclosed)
  case others =>
    have hraised := raisedBy_of_exec_fault hrun he hf
    rw [hcode, raisedBy_noLookupContext_iff] at hraised
    rcases hraised with hcode | hcode | hcode
    · exact hbegin hcode
    · exact hend hcode
    · rw [hneeds] at hcode
      cases hcode

/-! ## Opening and closing a context (R131, R132) -/

section
variable {s : State} {phv : Phv} {cid : CacheId}

theorem checkPhv_ok {p : Params} (hlength : phv.bytes.length = p.phvBytes) (hvalid : phv.valid < 2 ^ p.phvBytes)
    (hingress : phv.ingress < 2 ^ p.verBits) (hegress : phv.egress < 2 ^ p.verBits) : checkPhv p phv = .ok () := by
  rw [checkPhv, require_bind_of_true (decide_eq_true hlength), checkWidth_ok_iff.mpr hvalid, ok_bind,
    checkWidth_ok_iff.mpr hingress, ok_bind, checkWidth_ok_iff.mpr hegress]

/-- A PHV that LOOKUP_BEGIN accepts passes its operand checks. -/
theorem checkPhv_of_accepts (ha : accepts s (.lookupBegin phv cid) = true) : checkPhv s.params phv = .ok () := by
  obtain ⟨_, _, _, hsized, hops⟩ := accepts_spec ha
  exact checkPhv_ok (of_decide_eq_true hsized) (hops ⟨.phvValid, _, _⟩ (.head _))
    (hops ⟨.phvIngress, _, _⟩ (.tail _ (.head _))) (hops ⟨.phvEgress, _, _⟩ (.tail _ (.tail _ (.head _))))

theorem exec_lookupBegin_of_accepts (ha : accepts s (.lookupBegin phv cid) = true) :
    exec (.lookupBegin phv cid) s
      = .next (((((s.openContext phv cid).clearHashCache).clearInhibits).clearColor).answering .empty) := by
  obtain ⟨hrun, hctx, _⟩ := accepts_spec ha
  have hclosed : (!s.ctx.isOpen) = true := hctx
  refine runCommand_ok hrun ?_
  rw [require_bind_of_true hclosed, checkPhv_of_accepts ha, ok_bind]

theorem exec_lookupEnd_of_accepts (ha : accepts s .lookupEnd = true) :
    exec .lookupEnd s = .next (State.answering { s with ctx := { s.ctx with isOpen := false } } .empty) := by
  obtain ⟨hrun, hctx, _⟩ := accepts_spec ha
  exact runCommand_ok hrun (require_bind_of_true hctx)

end

/-- Settles O26: LOOKUP_BEGIN empties the hits, the hash cache and the color rows as whole lists, and takes `on` off
each inhibit. -/
theorem lookupBracketOpensAndCloses : Obligations.LookupBracketOpensAndCloses := by
  refine ⟨fun phv cid s ha => ?opens, fun s ha => exec_lookupEnd_of_accepts ha⟩
  case opens =>
    have hinhibit := inhibitAt_clearInhibits (s.openContext phv cid).clearHashCache
    exact ⟨_, exec_lookupBegin_of_accepts ha, rfl, rfl, rfl, rfl, fun _ => rfl, fun _ => rfl, fun _ _ => rfl, hinhibit,
      fun _ => rfl, rfl⟩

end Sys2Proof.Machine
end

section
/-! PROOFS. The hash bank (R140 to R145) and the lookups that read it: SRAM_LOOKUP (R186 to R188) and STASH_LOOKUP
(R224). An accepted command runs its body past its checks; what the body then computes is said by the laws of the data
path. -/

namespace Sys2Proof.Machine

/-! ## The commands past their checks (R345) -/

section
variable {i : Instr} {s t u : State}

theorem requireContext_of_accepts (ha : accepts s i = true) (hi : needsContext i = true) :
    requireContext s = .ok () := by
  obtain ⟨_, hctx, _⟩ := accepts_spec ha
  have hbegin : opcode i ≠ 0x01 := by
    intro h
    simp [needsContext, h] at hi
  have hopen : s.ctx.isOpen = true := by simpa [contextOk, hbegin, hi] using hctx
  rw [requireContext, hopen]
  rfl

theorem exec_hashBit_of_accepts {g o : Nat} (ha : accepts s (.hashBit g o) = true) :
    exec (.hashBit g o) s = runCommand (.hashBit g o) s
      (hashXbar s >>= fun input => .ok (s, .bit (computeBit s.params s.mem.regs input g o))) := by
  obtain ⟨_, _, _, _, hops⟩ := accepts_spec ha
  have hg : checkGroup s.params g = .ok () := checkIndex_index16 (hops (index16 .g s.params.hg g) (.head _))
  have ho : checkIndex .o 16 s.params.ow o = .ok () :=
    checkIndex_index16 (hops (index16 .o s.params.ow o) (.tail _ (.head _)))
  show execHashBit g o s = _
  rw [execHashBit, requireContext_of_accepts ha rfl, ok_bind, hg, ok_bind, ho, ok_bind]

theorem exec_hashGroup_of_accepts {g : Nat} (ha : accepts s (.hashGroup g) = true) :
    exec (.hashGroup g) s = runCommand (.hashGroup g) s
      (hashValue s g >>= fun x => .ok (x.2, .value x.1)) := by
  obtain ⟨_, _, _, _, hops⟩ := accepts_spec ha
  have hg : checkGroup s.params g = .ok () := checkIndex_index16 (hops (index16 .g s.params.hg g) (.head _))
  show execHashGroup g s = _
  rw [execHashGroup, requireContext_of_accepts ha rfl, ok_bind, hg, ok_bind]

theorem exec_stashLookup_of_accepts {r vs : Nat} (ha : accepts s (.stashLookup r vs) = true) :
    exec (.stashLookup r vs) s = runCommand (.stashLookup r vs) s (matchXbar s r >>= fun x =>
      .ok (x.2, .stashHit (((List.range ns).find? (stashHits x.2 r x.1 (phvVersion s.ctx.phv vs))).map fun w =>
        (w, (x.2.stashAt r w).addr)))) := by
  obtain ⟨_, _, _, _, hops⟩ := accepts_spec ha
  have hr : checkRow s.params r = .ok () := checkIndex_index16 (hops (index16 .r s.params.nr r) (.head _))
  have hvs : checkVs vs = .ok () := checkWidth_ok_iff.mpr (hops ⟨.vs, 2, vs⟩ (.tail _ (.head _)))
  show execStashLookup r vs s = _
  rw [execStashLookup, requireContext_of_accepts ha rfl, ok_bind, hr, ok_bind, hvs, ok_bind]

/-- The operands of an accepted SRAM_LOOKUP name a column and a table. -/
theorem sramLookup_operands {c lt vs : Nat} (ha : accepts s (.sramLookup c lt vs) = true) :
    c < s.params.nc ∧ lt < 16 := by
  obtain ⟨_, _, _, _, hops⟩ := accepts_spec ha
  have hc : c < min (2 ^ 16) s.params.nc := hops (index16 .c s.params.nc c) (.head _)
  have hl : lt < min (2 ^ 16) 16 := hops (index16 .lt 16 lt) (.tail _ (.head _))
  exact ⟨by omega, by omega⟩

theorem exec_sramLookup_of_accepts {c lt vs : Nat} (ha : accepts s (.sramLookup c lt vs) = true) :
    exec (.sramLookup c lt vs) s = runCommand (.sramLookup c lt vs) s
      (foldOp (lookupRow c (phvVersion s.ctx.phv vs)) ([], s.refreshRows c) ((s.refreshRows c).cachedRows c lt) >>=
        fun x => foldOp (reportHit (.sramLookup c lt vs) c) ([], x.2) (reportedHits s.params x.1) >>=
          fun y => .ok (y.2, .sramHits (!x.1.isEmpty) y.1)) := by
  obtain ⟨_, _, _, _, hops⟩ := accepts_spec ha
  have hc : checkCol s.params c = .ok () := checkIndex_index16 (hops (index16 .c s.params.nc c) (.head _))
  have hl : checkTable lt = .ok () := checkIndex_index16 (hops (index16 .lt 16 lt) (.tail _ (.head _)))
  have hvs : checkVs vs = .ok () := checkWidth_ok_iff.mpr (hops ⟨.vs, 2, vs⟩ (.tail _ (.tail _ (.head _))))
  show execSramLookup c lt vs s = _
  rw [execSramLookup, requireContext_of_accepts ha rfl, ok_bind, hc, ok_bind, hl, ok_bind, hvs, ok_bind]

/-- A body whose two parts complete. -/
theorem runCommand_bind_ok {α : Type} {x : Op α} {f : α → Op (State × Response)} {a : α} {r : Response}
    (hrun : s.running = true) (hx : x = .ok a) (hf : f a = .ok (t, r)) :
    runCommand i s (x >>= f) = .next (t.answering r) :=
  runCommand_ok hrun (by rw [hx, ok_bind, hf])

/-- A body whose first part raises a fault. -/
theorem runCommand_bind_error {α : Type} {x : Op α} {f : α → Op (State × Response)} {code : FaultCode} {info : Info}
    (hrun : s.running = true) (hx : x = .error ⟨code, info⟩) :
    runCommand i s (x >>= f) = .next (s.faulted i code info) :=
  runCommand_error hrun (by rw [hx, error_bind])

/-- An answered state that changed the hash cache alone. -/
theorem answering_hashCache {r : Response} (h : t = { s with hashCache := t.hashCache }) :
    t.answering r = { s with hashCache := (t.answering r).hashCache, response := (t.answering r).response } :=
  congrArg (State.answering · r) h

theorem cachesReads_congr {G G' : Nat → Prop} (hG : ∀ g, G g ↔ G' g) (h : cachesReads s t G) :
    cachesReads s t G' :=
  fun g cid => by simpa only [hG] using h g cid

end

/-! ## HASH_BIT and HASH_GROUP (R142 to R144) -/

/-- Settles O27: the hash input is read by the crossbar of the current configuration, never from the cache. -/
theorem hashBitReturnsComputedBit : Obligations.HashBitReturnsComputedBit := by
  intro g o s ha
  obtain ⟨hrun, _⟩ := accepts_spec ha
  rw [exec_hashBit_of_accepts ha]
  refine ⟨fun hsel => ?completes, fun hsel => ?raises⟩
  case completes => exact runCommand_bind_ok hrun (hashXbar_ok hsel) rfl
  case raises =>
    obtain ⟨n, v, hx⟩ := hashXbar_error hsel
    exact ⟨n, v, runCommand_bind_error hrun hx⟩

/-- Reading a group's value leaves it in the open context's entry, where caching is on, and no other entry changes. -/
theorem cachedHash_read (s : State) (g g' : Nat) (cid : CacheId) :
    (s.fill g).cachedHash g' cid
      = if s.params.hashCacheEnabled = true ∧ g' = g ∧ cid = s.ctx.cid then some (groupValue s g)
        else s.cachedHash g' cid := by
  have hfills : (s.fill g).cachedHash g' cid = (s.fills [g]).cachedHash g' cid := rfl
  rw [hfills, cachedHash_fills]
  by_cases hg : g' = g
  · subst hg
    simp
  · simp [hg]

/-- Settles O28: reading a group's value answers it and caches it where it is not cached. -/
theorem hashGroupReturnsAndCaches : Obligations.HashGroupReturnsAndCaches := by
  refine ⟨fun g s ha => ⟨fun hready => ?completes, fun hready => ?raises⟩, fun p regs input g =>
    ⟨hashOut_lt p regs input g, fun o ho => testBit_hashOut p regs input g o ho⟩⟩
  case completes =>
    exact ⟨_, exec_hashGroup_of_ready ha hready, rfl, answering_hashCache (s.fill_keeps g), cachedHash_read s g⟩
  case raises =>
    obtain ⟨hrun, _⟩ := accepts_spec ha
    obtain ⟨n, v, hx⟩ := hashValue_error hready
    rw [exec_hashGroup_of_accepts ha]
    exact ⟨n, v, runCommand_bind_error hrun hx⟩

/-! ## An output bit as an XOR over the enabled stages (R141, R145) -/

section
variable {p : Params} {regs : Cells Word} {input : List (Byte × Bool)} {g o : Nat}

/-- In an XOR over a list without repeats two equal terms cancel. -/
theorem foldl_xor_cancel {l : List Nat} (hl : l.Nodup) {x y : Nat} (hx : x ∈ l) (hy : y ∈ l) (hxy : x ≠ y)
    {f : Nat → Bool} (hf : f x = f y) (a : Bool) :
    l.foldl (fun acc z => Bool.xor acc (f z)) a
      = (l.filter fun z => decide (z ≠ x) && decide (z ≠ y)).foldl (fun acc z => Bool.xor acc (f z)) a := by
  have : RightCommutative fun acc z => Bool.xor acc (f z) := ⟨fun a b c => Bool.xor_right_comm a (f b) (f c)⟩
  have hy' : y ∈ l.erase x := (List.mem_erase_of_ne hxy.symm).mpr hy
  have hperm : l.Perm (x :: y :: (l.erase x).erase y) :=
    (List.perm_cons_erase hx).trans ((List.perm_cons_erase hy').cons x)
  have hrest : (l.erase x).erase y = l.filter fun z => decide (z ≠ x) && decide (z ≠ y) := by
    rw [(hl.erase x).erase_eq_filter, hl.erase_eq_filter, List.filter_filter]
    refine List.filter_congr fun z _ => ?_
    rw [Bool.and_comm]
    simp [bne, beq_eq_decide]
  rw [hperm.foldl_eq, hrest, List.foldl_cons, List.foldl_cons, hf, Bool.xor_assoc, Bool.xor_self, Bool.xor_false]

/-- Stages that contribute nothing leave the seed bit. -/
theorem computeBit_eq_seed (h : ∀ st < p.hs, (cfgEnable p regs g).testBit st = true →
    stageBit p regs input st o = false) : computeBit p regs input g o = (cfgSeed p regs g).testBit o := by
  have hzero : ∀ st ∈ (List.range p.hs).filter fun st => (cfgEnable p regs g).testBit st,
      stageBit p regs input st o = false := by
    intro st hst
    obtain ⟨hlt, henabled⟩ := List.mem_filter.mp hst
    exact h st (List.mem_range.mp hlt) henabled
  unfold computeBit
  rw [List.foldl_ext (g := fun acc _ => acc) (H := fun acc st hst => by rw [hzero st hst, Bool.xor_false])]
  exact List.foldl_fixed _

/-- Stages with the same data, valid bits and matrix rows contribute the same bit (R141). -/
theorem stageBit_congr {st1 st2 : Nat} (hdata : stageData p input st1 = stageData p input st2)
    (hvalid : stageValid p input st1 = stageValid p input st2)
    (hmatrix : cfgMatrix p regs st1 o = cfgMatrix p regs st2 o)
    (hvmatrix : cfgValidMatrix p regs st1 o = cfgValidMatrix p regs st2 o) :
    stageBit p regs input st1 o = stageBit p regs input st2 o := by
  rw [stageBit, stageBit, hdata, hvalid, hmatrix, hvmatrix]

/-- Two enabled stages that contribute the same bit cancel (R145). -/
theorem computeBit_cancel {st1 st2 : Nat} (h1 : st1 < p.hs) (h2 : st2 < p.hs) (hne : st1 ≠ st2)
    (he1 : (cfgEnable p regs g).testBit st1 = true) (he2 : (cfgEnable p regs g).testBit st2 = true)
    (hbit : stageBit p regs input st1 o = stageBit p regs input st2 o) :
    computeBit p regs input g o
      = ((List.range p.hs).filter fun st =>
          (cfgEnable p regs g).testBit st && decide (st ≠ st1) && decide (st ≠ st2)).foldl
          (fun acc st => Bool.xor acc (stageBit p regs input st o)) ((cfgSeed p regs g).testBit o) := by
  have hmem : ∀ st < p.hs, (cfgEnable p regs g).testBit st = true →
      st ∈ (List.range p.hs).filter fun st => (cfgEnable p regs g).testBit st :=
    fun st hlt he => List.mem_filter.mpr ⟨List.mem_range.mpr hlt, he⟩
  have hfilter : (fun st => (decide (st ≠ st1) && decide (st ≠ st2)) && (cfgEnable p regs g).testBit st)
      = fun st => (cfgEnable p regs g).testBit st && decide (st ≠ st1) && decide (st ≠ st2) :=
    funext fun st => by rw [Bool.and_comm, Bool.and_assoc]
  unfold computeBit
  rw [foldl_xor_cancel (List.nodup_range.filter _) (hmem st1 h1 he1) (hmem st2 h2 he2) hne
    (f := fun st => stageBit p regs input st o) hbit, List.filter_filter, hfilter]

end

/-- Settles O29: the output bit is the seed bit XOR what each enabled stage contributes, and a flipped input bit flips
its own stage's contribution alone. -/
theorem equalStagesCancel : Obligations.EqualStagesCancel := by
  intro p regs input g o
  refine ⟨fun st1 st2 h1 h2 hne he1 he2 hdata hvalid hmatrix hvmatrix => ?cancel, fun hnone => ?noStage,
    fun hzero => ?zeroInput, fun st hst j hj => ?flip⟩
  case cancel => exact computeBit_cancel h1 h2 hne he1 he2 (stageBit_congr hdata hvalid hmatrix hvmatrix)
  case noStage => exact computeBit_eq_seed fun st hst he => absurd (hnone st hst) (by rw [he]; decide)
  case zeroInput => exact computeBit_eq_seed fun _ _ _ => stageBit_zero hzero
  case flip =>
    exact ⟨fun k hk => testBit_stageData k hj hk, testBit_stageValid hj, fun x hx =>
      ⟨fun k hk => computeBit_flip_data hst hj hx hk, computeBit_flip_valid hst hj hx⟩⟩

/-! ## STASH_LOOKUP (R220, R221, R224) -/

section
variable {s : State} {r : Nat}

/-- A key has read the groups that its hash bytes name by the cache rule of HASH_GROUP (R144, R162). -/
theorem cachesReads_keyGroups (s : State) (r : Nat) :
    cachesReads s (s.fills (keyGroups s r)) fun g => readsHash s r ∧ g < s.params.hg :=
  cachesReads_congr (fun _ => mem_keyGroups) (cachesReads_fills s (keyGroups s r))

/-- The answer of STASH_LOOKUP: the lowest entry of the row that hits, with its address (R224). -/
def stashAnswer (s : State) (r vs : Nat) : Option (Nat × Word) :=
  ((List.range ns).find? (stashHitsKey s r (matchKeyValue s r) (phvVersion s.ctx.phv vs))).map fun w =>
    (w, (s.stashAt r w).addr)

theorem stashAt_fills (s : State) (gs : List Nat) (r w : Nat) : (s.fills gs).stashAt r w = s.stashAt r w := by
  rw [State.fills_keeps]
  rfl

/-- Reading group values changes no hit of the stash. -/
theorem stashHits_fills (s : State) (gs : List Nat) (r key ver : Nat) :
    stashHits (s.fills gs) r key ver = stashHitsKey s r key ver := by
  rw [State.fills_keeps]
  rfl

theorem exec_stashLookup_of_ready {vs : Nat} (ha : accepts s (.stashLookup r vs) = true) (hready : matchReady s r) :
    exec (.stashLookup r vs) s
      = .next ((s.fills (keyGroups s r)).answering (.stashHit (stashAnswer s r vs))) := by
  obtain ⟨hrun, _⟩ := accepts_spec ha
  obtain ⟨hkey, _⟩ := matchXbar_ok hready
  rw [exec_stashLookup_of_accepts ha]
  refine runCommand_bind_ok hrun hkey ?_
  simp only [stashHits_fills, stashAt_fills]
  rfl

/-- The answer is the lowest hit, or none when no entry hits. -/
theorem stashAnswer_spec (s : State) (r vs : Nat) :
    match stashAnswer s r vs with
    | some (w, addr) => w < 4 ∧ addr = (s.stashAt r w).addr
        ∧ stashHitsKey s r (matchKeyValue s r) (phvVersion s.ctx.phv vs) w = true
        ∧ ∀ w' < w, stashHitsKey s r (matchKeyValue s r) (phvVersion s.ctx.phv vs) w' = false
    | none => ∀ w < 4, stashHitsKey s r (matchKeyValue s r) (phvVersion s.ctx.phv vs) w = false := by
  unfold stashAnswer
  cases hfind : (List.range ns).find? (stashHitsKey s r (matchKeyValue s r) (phvVersion s.ctx.phv vs)) with
  | none =>
    intro w hw
    simpa using List.find?_eq_none.mp hfind w (List.mem_range.mpr hw)
  | some w =>
    obtain ⟨hhit, hmem, hbefore⟩ := List.find?_range_eq_some.mp hfind
    exact ⟨List.mem_range.mp hmem, rfl, hhit, fun w' hw' => by simpa using hbefore w' hw'⟩

/-- A hit that is not inhibited at its own address, bit by bit (R220, R221). -/
theorem stashHitsKey_iff {key ver w : Nat} : stashHitsKey s r key ver w = true
    ↔ stashMatches s.params (s.stashAt r w) key ver
      ∧ ¬ ((s.inhibitAt r w).on = true ∧ (s.inhibitAt r w).addr = (s.stashAt r w).addr) := by
  rw [stashHitsKey, Bool.and_eq_true, stashRaw_iff, Bool.not_eq_true', ← Bool.not_eq_true, Bool.and_eq_true,
    decide_eq_true_eq]

end

/-- Settles O45: the key is formed with the cache effect of its hash bytes, which the stash does not read. -/
theorem stashLookupTakesLowestHit : Obligations.StashLookupTakesLowestHit := by
  refine ⟨fun r vs s ha => ⟨fun hready => ?completes, fun hready => ?raises⟩, fun _ _ _ _ _ => stashHitsKey_iff⟩
  case completes =>
    exact ⟨_, _, exec_stashLookup_of_ready ha hready, rfl, answering_hashCache (s.fills_keeps (keyGroups s r)),
      cachesReads_keyGroups s r, stashAnswer_spec s r vs⟩
  case raises =>
    obtain ⟨hrun, _⟩ := accepts_spec ha
    obtain ⟨n, v, hx⟩ := matchXbar_error hready
    rw [exec_stashLookup_of_accepts ha]
    exact ⟨n, v, runCommand_bind_error hrun hx⟩

/-! ## SRAM_LOOKUP (R186 to R188) -/

section
variable {i : Instr} {s : State} {c lt vs b : Nat} {h : RawHit} {hits : List RawHit}

/-- A bus that is free or carries the same record takes it (R188). -/
theorem driveBus_takes {x : BusHit} (hfree : s.busHitAt b = none ∨ s.busHitAt b = some x) :
    ∃ t, driveBus i s b x = .ok t ∧ t = { s with ctx := { s.ctx with busHit := t.ctx.busHit } }
      ∧ t.busHitAt b = some x ∧ ∀ b', b' ≠ b → t.busHitAt b' = s.busHitAt b' := by
  rcases hfree with hnone | hsame
  · exact ⟨_, driveBus_free hnone, rfl, by rw [busHitAt_putBusHit, if_pos rfl], fun b' hb' => by
      rw [busHitAt_putBusHit, if_neg hb']⟩
  · exact ⟨s, driveBus_same hsame, rfl, hsame, fun _ _ => rfl⟩

/-- What one hit changes when its bus, where it names one, is free or carries its record. -/
theorem driveHit_takes (hfree : ∀ b ∈ hitBus s c h, s.busHitAt b = none ∨ s.busHitAt b = some (hitRecord c h)) :
    (∀ b ∈ hitBus s c h, ∃ t, driveBus i s b (hitRecord c h) = .ok t)
      ∧ driveHit i c s h = { s with ctx := { s.ctx with busHit := (driveHit i c s h).ctx.busHit } }
      ∧ (∀ b ∈ hitBus s c h, (driveHit i c s h).busHitAt b = some (hitRecord c h))
      ∧ ∀ b, hitBus s c h ≠ some b → (driveHit i c s h).busHitAt b = s.busHitAt b := by
  unfold driveHit
  cases hbus : hitBus s c h with
  | none => exact ⟨nofun, rfl, nofun, fun _ _ => rfl⟩
  | some b =>
    obtain ⟨t, hdrive, hframe, hrecord, hothers⟩ := driveBus_takes (i := i) (hfree b hbus)
    dsimp only
    rw [hdrive]
    exact ⟨fun b' hb' => by cases hb'; exact ⟨t, hdrive⟩, hframe, fun b' hb' => by cases hb'; exact hrecord,
      fun b' hb' => hothers b' fun e => hb' (by rw [e])⟩

theorem reportedHits_relaxed {p : Params} (hr : p.relaxMultiHit = true) : reportedHits p hits = hits := by
  simp [reportedHits, hr]

theorem reportedHits_strict {p : Params} (hr : p.relaxMultiHit = false) :
    reportedHits p hits = hits.head?.toList := by
  rw [reportedHits, hr]
  cases hits <;> rfl

theorem relaxed_or_length_reportedHits (p : Params) (hits : List RawHit) :
    p.relaxMultiHit = true ∨ (reportedHits p hits).length ≤ 1 := by
  cases hr : p.relaxMultiHit with
  | true => exact .inl rfl
  | false =>
    rw [reportedHits_strict hr]
    cases hits <;> simp

/-- Driving the buses of the reported hits raises no F07: with relaxMultiHit never, else when the first hit's bus is
free or carries its record. -/
abbrev BusesTake (s : State) (c : Nat) (hits : List RawHit) : Prop :=
  s.params.relaxMultiHit = true ∨ ∀ h ∈ hits.head?, ∀ b ∈ hitBus s c h,
    s.busHitAt b = none ∨ s.busHitAt b = some (hitRecord c h)

/-- What driving the buses of hits changes, from s to d (R187, R188). -/
structure DrivesReported (s d : State) (c : Nat) (hits : List RawHit) : Prop where
  frame : d = { s with
    ctx := { s.ctx with busHit := d.ctx.busHit }, warnLog := d.warnLog, freeCount := d.freeCount }
  others : ∀ b, (∀ h ∈ reportedHits s.params hits, hitBus s c h ≠ some b) → d.busHitAt b = s.busHitAt b
  relaxed : s.params.relaxMultiHit = true →
    (∀ h ∈ hits, ∀ b ∈ hitBus s c h, ∃ x, d.busHitAt b = some x ∧ hitBefore (hitRecord c h) x = false)
      ∧ ∃ more, d.warnLog = s.warnLog ++ more ∧ ∀ w ∈ more, w.code = .busContention
  strict : s.params.relaxMultiHit = false → d.warnLog = s.warnLog
    ∧ ∀ h ∈ hits.head?, ∀ b ∈ hitBus s c h, d.busHitAt b = some (hitRecord c h)

/-- Without relaxMultiHit the first hit alone is reported and drives its bus. -/
theorem reportHits_strict (hr : s.params.relaxMultiHit = false)
    (hbus : ∀ h ∈ hits.head?, ∀ b ∈ hitBus s c h, b < s.params.nmb)
    (hfree : ∀ h ∈ hits.head?, ∀ b ∈ hitBus s c h, s.busHitAt b = none ∨ s.busHitAt b = some (hitRecord c h)) :
    foldOp (reportHit i c) ([], s) hits.head?.toList
        = .ok (hits.head?.toList.map (hitReport s c), driveHits i c s hits.head?.toList)
      ∧ DrivesReported s (driveHits i c s hits.head?.toList) c hits := by
  have hnot : s.params.relaxMultiHit ≠ true := by rw [hr]; decide
  cases hits with
  | nil => exact ⟨rfl, rfl, fun _ _ => rfl, fun h => absurd h hnot, fun _ => ⟨rfl, nofun⟩⟩
  | cons h rest =>
    obtain ⟨hdrives, hframe, hrecord, hothers⟩ := driveHit_takes (i := i) (hfree h rfl)
    have hreport := reportHit_ok i c [] s h (hbus h rfl) hdrives
    have hd : driveHits i c s (h :: rest).head?.toList = driveHit i c s h := rfl
    rw [hd]
    generalize driveHit i c s h = d at *
    refine ⟨?report, by rw [hframe], fun b hb => ?others, fun h => absurd h hnot, fun _ => ⟨by rw [hframe], ?record⟩⟩
    case report => exact (foldOp_cons ..).trans (by rw [hreport]; rfl)
    case others => exact hothers b (hb h (by rw [reportedHits_strict hr]; exact .head _))
    case record =>
      intro h' hh'
      cases hh'
      exact hrecord

/-- The reported hits are reported in order and drive their buses. -/
theorem reportHits_ok (hbus : ∀ h ∈ reportedHits s.params hits, ∀ b ∈ hitBus s c h, b < s.params.nmb)
    (htake : BusesTake s c hits) :
    foldOp (reportHit i c) ([], s) (reportedHits s.params hits)
        = .ok ((reportedHits s.params hits).map (hitReport s c), driveHits i c s (reportedHits s.params hits))
      ∧ DrivesReported s (driveHits i c s (reportedHits s.params hits)) c hits := by
  cases hr : s.params.relaxMultiHit with
  | true =>
    have hnot : s.params.relaxMultiHit ≠ false := by rw [hr]; decide
    rw [reportedHits_relaxed hr] at hbus ⊢
    obtain ⟨hfold, hframe, hothers, hrecords, _, hlog⟩ := reportHits_relaxed i c hits s [] hr hbus
    exact ⟨hfold, hframe, by rwa [reportedHits_relaxed hr], fun _ => ⟨hrecords, hlog⟩, fun h => absurd h hnot⟩
  | false =>
    have hfree := htake.resolve_left (by rw [hr]; decide)
    rw [reportedHits_strict hr] at hbus ⊢
    exact reportHits_strict hr (fun h hh => hbus h (Option.mem_toList.mpr hh)) hfree

/-- The state with other hash, token and row caches. -/
def State.withCaches (s : State) (x y : Cells (Option Nat)) (z : Cells (List Nat)) : State :=
  { s with hashCache := x, pendingMapSeq := y, rowsCache := z }

/-- Reporting hits reads and writes none of the caches. -/
theorem reportHits_withCaches (x y : Cells (Option Nat)) (z : Cells (List Nat))
    (hbus : ∀ h ∈ reportedHits s.params hits, ∀ b ∈ hitBus s c h, b < s.params.nmb) (htake : BusesTake s c hits) :
    foldOp (reportHit i c) ([], s.withCaches x y z) (reportedHits s.params hits)
      = .ok ((reportedHits s.params hits).map (hitReport s c),
          (driveHits i c s (reportedHits s.params hits)).withCaches x y z) := by
  obtain ⟨hfold, _⟩ := reportHits_ok (i := i) (s := s.withCaches x y z) hbus htake
  exact hfold.trans (congrArg (fun d => Except.ok (_, d)) (driveHits_caches i c (reportedHits s.params hits) s x y z))

/-- The caches of a completed SRAM_LOOKUP of column c (R144, R162, R183): its rows' groups are read by HASH_GROUP's cache
rule, and the column's rows are those of the current configuration, its token `mapSeq`. -/
structure LookupCaches (s t : State) (c lt : Nat) : Prop where
  groups : cachesReads s t (lookupReads s c lt)
  token : t.pendingAt c = some s.mapSeq
  rows : ∀ l < 16, t.cachedRows c l = rowsOfConfig s.params s.mem.regs c l
  others : ∀ c', c' ≠ c → t.pendingAt c' = s.pendingAt c' ∧ ∀ l < 16, t.cachedRows c' l = s.cachedRows c' l

theorem lookupCaches_of_refreshed {t : State} (hc : c < s.params.nc) (hf : s.rowsFresh)
    (hgroups : cachesReads s t (lookupReads s c lt)) (hpending : t.pendingMapSeq = (s.refreshRows c).pendingMapSeq)
    (hrows : t.rowsCache = (s.refreshRows c).rowsCache) : LookupCaches s t c lt := by
  have htoken : ∀ c', t.pendingAt c' = (s.refreshRows c).pendingAt c' := fun c' => by
    rw [State.pendingAt, hpending, State.pendingAt]
  have hcached : ∀ c' l, t.cachedRows c' l = (s.refreshRows c).cachedRows c' l := fun c' l => by
    rw [State.cachedRows, hrows, State.cachedRows]
  refine ⟨hgroups, ?_, fun l hl => (hcached c l).trans (refreshedRows hc hl hf), fun c' hne => ⟨?_, fun l hl => ?_⟩⟩
  · rw [htoken, pendingAt_refreshRows, if_pos rfl]
  · rw [htoken, pendingAt_refreshRows, if_neg hne]
  · rw [hcached, cachedRows_refreshRows s c c' l hl, if_neg fun h => hne h.1]

end

section
variable {s : State} {c lt vs : Nat}

/-- An accepted lookup whose rows can all be read reports its hits on a state that has changed the caches alone. -/
theorem exec_sramLookup_of_ready (ha : accepts s (.sramLookup c lt vs) = true) (hf : s.rowsFresh)
    (hready : ∀ r ∈ rowsOfConfig s.params s.mem.regs c lt, unitReady s c r) :
    ∃ x y z, LookupCaches s (s.withCaches x y z) c lt
      ∧ exec (.sramLookup c lt vs) s = runCommand (.sramLookup c lt vs) s
        (foldOp (reportHit (.sramLookup c lt vs) c) ([], s.withCaches x y z)
          (reportedHits s.params (rawHits s c lt vs)) >>= fun a =>
            .ok (a.2, .sramHits (!(rawHits s c lt vs).isEmpty) a.1)) := by
  obtain ⟨hc, hl⟩ := sramLookup_operands ha
  obtain ⟨t, hhits, hframe, hgroups, hpending, hrows⟩ := lookupHits_ok (phvVersion s.ctx.phv vs) hc hl hf hready
  refine ⟨t.hashCache, t.pendingMapSeq, t.rowsCache, ?_⟩
  rw [State.withCaches, ← hframe]
  refine ⟨lookupCaches_of_refreshed hc hf hgroups hpending hrows, ?_⟩
  rw [exec_sramLookup_of_accepts ha, hhits, ok_bind]
  rfl

end

/-- Settles O35: the caches change before the buses, and driving a bus reads and writes no cache. -/
theorem sramLookupReportsHits : Obligations.SramLookupReportsHits := by
  intro c lt vs s ha hf
  obtain ⟨hrun, _⟩ := accepts_spec ha
  refine ⟨fun hbad => ?badRow, fun hready => ?_⟩
  case badRow =>
    obtain ⟨hc, hl⟩ := sramLookup_operands ha
    obtain ⟨n, v, hx⟩ := lookupHits_error (phvVersion s.ctx.phv vs) hc hl hf hbad
    rw [exec_sramLookup_of_accepts ha]
    exact ⟨n, v, runCommand_bind_error hrun hx⟩
  obtain ⟨x, y, z, hcaches, hexec⟩ := exec_sramLookup_of_ready ha hf hready
  rw [hexec]
  refine ⟨fun hbad => ?badBus, fun hbus htake => ?completes⟩
  case badBus =>
    obtain ⟨b, hb, hx⟩ := reportHits_error (.sramLookup c lt vs) c _ (s.withCaches x y z) []
      (relaxed_or_length_reportedHits s.params _) hbad
    exact ⟨b, hb, runCommand_bind_error hrun hx⟩
  case completes =>
    rw [runCommand_bind_ok hrun (reportHits_withCaches x y z hbus htake) rfl]
    obtain ⟨_, hframe, hothers, hrelaxed, hstrict⟩ := reportHits_ok (i := .sramLookup c lt vs) hbus htake
    obtain ⟨hgroups, htoken, hrows, hothercols⟩ := hcaches
    generalize driveHits (.sramLookup c lt vs) c s (reportedHits s.params (rawHits s c lt vs)) = d at *
    refine ⟨_, rfl, rfl, ?_, hgroups, htoken, hrows, hothercols, ⟨rfl, rfl, rfl⟩, hothers, hrelaxed, hstrict⟩
    rw [hframe]
    rfl

end Sys2Proof.Machine
end

section
/-! PROOFS. The crossbars (R160 to R167) and the lookup of a logical TCAM (R207). An accepted command runs its body past
its checks; the laws of the data path say when the crossbars, the version substitution and the loop over the units
complete, and that they raise F01 otherwise. -/

namespace Sys2Proof.Machine

/-! ## The commands past their checks (R345) -/

section
variable {s : State}

theorem exec_xbarHash_of_accepts (ha : accepts s .xbarHash = true) :
    exec .xbarHash s = runCommand .xbarHash s
      (hashXbar s >>= fun input => .ok (s, .hashInput (input.map Prod.fst) (input.map Prod.snd))) := by
  show execXbarHash s = _
  rw [execXbarHash, requireContext_of_accepts ha rfl, ok_bind]

theorem exec_xbarTcam_of_accepts {u : Nat} (ha : accepts s (.xbarTcam u) = true) :
    exec (.xbarTcam u) s = runCommand (.xbarTcam u) s (tcamXbar s u >>= fun w => .ok (s, .word w)) := by
  obtain ⟨_, _, _, _, hops⟩ := accepts_spec ha
  have hu : checkUnit s.params u = .ok () := checkIndex_index16 (hops (index16 .u s.params.ntu u) (.head _))
  show execXbarTcam u s = _
  rw [execXbarTcam, requireContext_of_accepts ha rfl, ok_bind, hu, ok_bind]

theorem exec_xbarMatch_of_accepts {r : Nat} (ha : accepts s (.xbarMatch r) = true) :
    exec (.xbarMatch r) s = runCommand (.xbarMatch r) s (matchXbar s r >>= fun x => .ok (x.2, .key x.1)) := by
  obtain ⟨_, _, _, _, hops⟩ := accepts_spec ha
  have hr : checkRow s.params r = .ok () := checkIndex_index16 (hops (index16 .r s.params.nr r) (.head _))
  show execXbarMatch r s = _
  rw [execXbarMatch, requireContext_of_accepts ha rfl, ok_bind, hr, ok_bind]

theorem exec_ltcamLookup_of_accepts {l : Nat} (ha : accepts s (.ltcamLookup l) = true) :
    exec (.ltcamLookup l) s = runCommand (.ltcamLookup l) s
      (foldOp (ltcamStep s l) none (List.range s.params.ntu) >>= fun res =>
        .ok (s.putLtcHit l res, .ltcamHit res)) := by
  obtain ⟨_, _, _, _, hops⟩ := accepts_spec ha
  have hl : checkLtcam s.params l = .ok () := checkIndex_index16 (hops (index16 .l s.params.nltc l) (.head _))
  show execLtcamLookup l s = _
  rw [execLtcamLookup, requireContext_of_accepts ha rfl, ok_bind, hl, ok_bind]

/-- A body whose first part finds something out of range raises F01. -/
theorem runCommand_bind_bounds {α : Type} {i : Instr} {x : Op α} {f : α → Op (State × Response)}
    (hrun : s.running = true) (hx : ∃ n v, x = .error ⟨.bounds, .index n v⟩) :
    ∃ n v, runCommand i s (x >>= f) = .next (s.faulted i .bounds (.index n v)) := by
  obtain ⟨n, v, hx⟩ := hx
  exact ⟨n, v, runCommand_bind_error hrun hx⟩

end

/-! ## XBAR_HASH and XBAR_TCAM (R160, R164, R166, R167) -/

/-- Settles O30: XBAR_HASH answers what the hash-address crossbar forms. -/
theorem xbarHashReturnsHashInput : Obligations.XbarHashReturnsHashInput := by
  intro s ha
  obtain ⟨hrun, _⟩ := accepts_spec ha
  rw [exec_xbarHash_of_accepts ha]
  exact ⟨fun hready => runCommand_bind_ok hrun (hashXbar_ok hready) rfl,
    fun hready => runCommand_bind_bounds hrun (hashXbar_error hready)⟩

/-- Settles O31: XBAR_TCAM answers what the TCAM-row crossbar forms. -/
theorem xbarTcamReturnsSearchWord : Obligations.XbarTcamReturnsSearchWord := by
  intro u s ha
  obtain ⟨hrun, _⟩ := accepts_spec ha
  rw [exec_xbarTcam_of_accepts ha]
  exact ⟨fun hready => runCommand_bind_ok hrun (tcamXbar_ok hready) rfl,
    fun hready => runCommand_bind_bounds hrun (tcamXbar_error hready)⟩

/-! ## XBAR_MATCH (R161, R162, R165) -/

section
variable {s t : State} {G : Nat → Prop}

/-- A cache that took the values of some groups holds in each entry what it held, or the value that HASH_GROUP caches
there. -/
theorem cachedHash_of_cachesReads (h : cachesReads s t G) (g : Nat) (cid : CacheId) :
    t.cachedHash g cid = s.cachedHash g cid
      ∨ (s.params.hashCacheEnabled = true ∧ cid = s.ctx.cid ∧ t.cachedHash g cid = some (groupValue s g)) := by
  obtain ⟨hread, hkept⟩ := h g cid
  by_cases hg : s.params.hashCacheEnabled = true ∧ cid = s.ctx.cid ∧ G g
  · obtain ⟨henabled, hcid, hG⟩ := hg
    exact .inr ⟨henabled, hcid, hread ⟨henabled, hcid, hG⟩⟩
  · exact .inl (hkept hg)

theorem exec_xbarMatch_of_ready {r : Nat} (ha : accepts s (.xbarMatch r) = true) (hready : matchReady s r) :
    exec (.xbarMatch r) s = .next ((s.fills (keyGroups s r)).answering (.key (matchKeyValue s r))) := by
  obtain ⟨hrun, _⟩ := accepts_spec ha
  obtain ⟨hkey, _⟩ := matchXbar_ok hready
  rw [exec_xbarMatch_of_accepts ha]
  exact runCommand_bind_ok hrun hkey rfl

end

/-- Settles O32: the key is formed with the cache effect of its hash bytes, each of which reads every group. -/
theorem xbarMatchReturnsSearchKey : Obligations.XbarMatchReturnsSearchKey := by
  refine fun r s ha => ⟨fun hready => ?completes, fun hready => ?raises⟩
  case completes =>
    have hcaches := cachesReads_keyGroups s r
    refine ⟨_, exec_xbarMatch_of_ready ha hready, rfl, answering_hashCache (s.fills_keeps (keyGroups s r)),
      cachedHash_of_cachesReads hcaches, fun j hj hen hhash henabled g hg => ?_⟩
    obtain ⟨hread, _⟩ := hcaches g s.ctx.cid
    exact hread ⟨henabled, rfl, ⟨j, hj, hen, hhash⟩, hg⟩
  case raises =>
    obtain ⟨hrun, _⟩ := accepts_spec ha
    rw [exec_xbarMatch_of_accepts ha]
    exact runCommand_bind_bounds hrun (matchXbar_error hready)

/-! ## Version substitution (R163) -/

/-- Settles O33: the slots are taken in order, so the last one that names a bit is the one that remains. -/
theorem lastSubstitutionWins : Obligations.LastSubstitutionWins := by
  refine fun p phv slots width word => ⟨fun hslots => ?completes, fun hslots => ?raises⟩
  case completes =>
    exact ⟨substituted phv slots word, versionSubst_ok hslots word, testBit_substituted phv slots word⟩
  case raises => exact versionSubst_error hslots word

/-! ## LTCAM_LOOKUP (R207) -/

section
variable {s : State} {l : Nat}

/-- No unit stops LTCAM_LOOKUP when every logical TCAM is in range and each unit of logical TCAM l is ready or stands
above a hit. -/
theorem not_ltcamStops {m : Nat}
    (hrange : ∀ u < m, (cfgTcamLtcam s.params s.mem.regs u).en = true →
      (cfgTcamLtcam s.params s.mem.regs u).val < s.params.nltc)
    (hready : ∀ u < m, unitOf s l u → scanReady s u
      ∨ ∃ u' < u, unitOf s l u' ∧ scanReady s u' ∧ ¬ xbarScanAnswers s u' none) :
    ∀ u < m, ¬ ltcamStops s l u := by
  rintro u hu (⟨hen, hout⟩ | ⟨hunit, hunready, hnone⟩)
  · exact absurd (hrange u hu hen) (Nat.not_lt.mpr hout)
  · rcases hready u hu hunit with hscan | ⟨u', hlt, hunit', hscan', hhit⟩
    · exact hunready hscan
    · exact hhit (hnone u' hlt hunit' hscan')

/-- LTCAM_LOOKUP answers and records the lowest hit when no unit stops it. -/
theorem exec_ltcamLookup_of_not_stops (ha : accepts s (.ltcamLookup l) = true)
    (h : ∀ u < s.params.ntu, ¬ ltcamStops s l u) :
    ∃ r, exec (.ltcamLookup l) s = .next ((s.putLtcHit l r).answering (.ltcamHit r))
      ∧ ltcamAnswers s l s.params.ntu r := by
  obtain ⟨hrun, _⟩ := accepts_spec ha
  obtain ⟨r, hloop, hanswers⟩ := (ltcamLoop_spec s l s.params.ntu).1 h
  rw [exec_ltcamLookup_of_accepts ha]
  exact ⟨r, runCommand_bind_ok hrun hloop rfl, hanswers⟩

/-- A unit that stops LTCAM_LOOKUP makes it raise F01. -/
theorem exec_ltcamLookup_of_stops (ha : accepts s (.ltcamLookup l) = true)
    (h : ∃ u < s.params.ntu, ltcamStops s l u) :
    ∃ n v, exec (.ltcamLookup l) s = .next (s.faulted (.ltcamLookup l) .bounds (.index n v)) := by
  obtain ⟨hrun, _⟩ := accepts_spec ha
  rw [exec_ltcamLookup_of_accepts ha]
  exact runCommand_bind_bounds hrun ((ltcamLoop_spec s l s.params.ntu).2 h)

end

/-- Settles O42: the loop over the units in ascending order keeps the first hit, unless a unit stops it. -/
theorem ltcamLookupTakesLowestUnit : Obligations.LtcamLookupTakesLowestUnit := by
  refine fun l s ha => ⟨fun hrange hready => ?completes, fun ⟨u, hu, hout⟩ => ?outOfRange,
    fun ⟨u, hu, hunready⟩ => ?unready⟩
  case completes =>
    obtain ⟨r, hexec, hanswers⟩ := exec_ltcamLookup_of_not_stops ha (not_ltcamStops hrange hready)
    have hhit (l' : Nat) := ltcHitAt_putLtcHit s l r l'
    refine ⟨_, r, hexec, rfl, (hhit l).trans (if_pos rfl), fun l' hl' => (hhit l').trans (if_neg hl'), rfl, ?_⟩
    cases r with
    | none => exact hanswers
    | some h => exact hanswers
  case outOfRange => exact exec_ltcamLookup_of_stops ha ⟨u, hu, .inl hout⟩
  case unready => exact exec_ltcamLookup_of_stops ha ⟨u, hu, .inr hunready⟩

end Sys2Proof.Machine
end

section
/-! PROOFS. SRAM matching (R180 to R188): the row cache stays fresh, the entry commands write one entry, what the hits
of a lookup are and their order, and two hits on one match bus. -/

namespace Sys2Proof.Machine

/-! ## The row cache (R183, R386) -/

section
variable {i : Instr} {s t : State}

/-- Only the lazy recompute of a column and a register write touch what a row cache or its token is compared with. -/
theorem prim_keeps_rowsFresh (hp : Prim i s t) (h : s.rowsFresh) : t.rowsFresh := by
  cases hp with
  | refreshRows c => exact rowsFresh_refreshRows h c
  | regApply o d => exact rowsFresh_regApply h o d
  | _ => exact rowsFresh_congr (by simp) (by simp) (by simp) (by simp) (by simp) h

end

/-- Settles O21: a recompute reads the current configuration, and a register write that changes a row's owner moves
the token past every column's. -/
theorem rowCacheStaysFresh : Obligations.RowCacheStaysFresh :=
  fun _ _ => step_keeps (Inv := State.rowsFresh) (fun _ _ _ _ h => h) fun _ _ _ h hp => prim_keeps_rowsFresh hp h

/-! ## SRAM_ENTRY_WRITE and SRAM_ENTRY_CLEAR (R184, R185) -/

section
variable {s : State} {r c a e : Nat}

/-- The operands that name an SRAM entry, at the head of an operand table, are in range. -/
theorem checkSramEntry_of_operands {p : Params} {xs : List Operand}
    (h : ∀ x ∈ index16 .r p.nr r :: index16 .c p.nc c :: index16 .a p.sd a :: index16 .e p.ne e :: xs,
      x.value < x.bound) :
    checkSramEntry p r c a e = .ok () ∧ c < p.nc ∧ a < p.sd ∧ e < p.ne := by
  obtain ⟨hr, h⟩ := List.forall_mem_cons.mp h
  obtain ⟨hc, h⟩ := List.forall_mem_cons.mp h
  obtain ⟨ha, h⟩ := List.forall_mem_cons.mp h
  obtain ⟨he, -⟩ := List.forall_mem_cons.mp h
  have hrow : checkRow p r = .ok () := checkIndex_index16 hr
  have hcol : checkCol p c = .ok () := checkIndex_index16 hc
  have haddr : checkIndex .a 16 p.sd a = .ok () := checkIndex_index16 ha
  have hslot : checkIndex .e 16 p.ne e = .ok () := checkIndex_index16 he
  refine ⟨?_, lt_of_lt_of_le hc (min_le_right _ _), lt_of_lt_of_le ha (min_le_right _ _),
    lt_of_lt_of_le he (min_le_right _ _)⟩
  rw [checkSramEntry, hrow, ok_bind, hcol, ok_bind, haddr, ok_bind, hslot]

theorem exec_sramEntryWrite_of_accepts {value mask vv : Nat}
    (hacc : accepts s (.sramEntryWrite r c a e value mask vv) = true) :
    exec (.sramEntryWrite r c a e value mask vv) s
      = .next ((s.putSram r c a e ⟨true, value, mask, vv⟩).answering .empty) := by
  obtain ⟨hrun, _, _, _, hops⟩ := accepts_spec hacc
  obtain ⟨hentry, -⟩ := checkSramEntry_of_operands hops
  have hvalue : checkWidth .value s.params.ew value = .ok () :=
    checkWidth_ok_iff.mpr (hops ⟨.value, _, value⟩ (by simp [operandTable]))
  have hmask : checkWidth .mask s.params.ew mask = .ok () :=
    checkWidth_ok_iff.mpr (hops ⟨.mask, _, mask⟩ (by simp [operandTable]))
  have hvv : checkWidth .vv s.params.vvw vv = .ok () :=
    checkWidth_ok_iff.mpr (hops ⟨.vv, _, vv⟩ (by simp [operandTable]))
  refine runCommand_ok hrun ?_
  rw [hentry, ok_bind, hvalue, ok_bind, hmask, ok_bind, hvv, ok_bind]

theorem exec_sramEntryClear_of_accepts (hacc : accepts s (.sramEntryClear r c a e) = true) :
    exec (.sramEntryClear r c a e) s
      = .next ((s.putSram r c a e { s.sramAt r c a e with valid := false }).answering .empty) := by
  obtain ⟨hrun, _, _, _, hops⟩ := accepts_spec hacc
  obtain ⟨hentry, -⟩ := checkSramEntry_of_operands hops
  refine runCommand_ok hrun ?_
  rw [hentry, ok_bind]

/-- Writing entry (r, c, a, e) makes it the record and leaves every other entry in range, since two entries in range
have one number only if they are one entry. -/
theorem putSram_writesOneEntry (hc : c < s.params.nc) (ha : a < s.params.sd) (he : e < s.params.ne) (x : SramEntry) :
    (s.putSram r c a e x).sramAt r c a e = x
      ∧ ∀ r' c' a' e', r' < s.params.nr → c' < s.params.nc → a' < s.params.sd → e' < s.params.ne →
          (r', c', a', e') ≠ (r, c, a, e) → (s.putSram r c a e x).sramAt r' c' a' e' = s.sramAt r' c' a' e' := by
  refine ⟨?_, fun r' c' a' e' _ hc' ha' he' hne => ?_⟩
  · rw [sramAt_putSram, if_pos rfl]
  · rw [sramAt_putSram, if_neg]
    intro hkey
    obtain ⟨rfl, rfl, rfl, rfl⟩ := (sramKey_inj hc' ha' he' hc ha he).mp hkey
    exact hne rfl

end

/-- Settles O34: an accepted entry command writes its one entry and answers the empty response. -/
theorem sramEntryCommandsWriteOneEntry : Obligations.SramEntryCommandsWriteOneEntry := by
  refine ⟨fun r c a e value mask vv s hacc => ?write, fun r c a e s hacc => ?clear⟩
  case write =>
    obtain ⟨_, _, _, _, hops⟩ := accepts_spec hacc
    obtain ⟨-, hc, ha, he⟩ := checkSramEntry_of_operands hops
    obtain ⟨hsame, hothers⟩ := putSram_writesOneEntry (r := r) hc ha he ⟨true, value, mask, vv⟩
    exact ⟨_, exec_sramEntryWrite_of_accepts hacc, hsame, hothers, rfl⟩
  case clear =>
    obtain ⟨_, _, _, _, hops⟩ := accepts_spec hacc
    obtain ⟨-, hc, ha, he⟩ := checkSramEntry_of_operands hops
    obtain ⟨hsame, hothers⟩ := putSram_writesOneEntry (r := r) hc ha he { s.sramAt r c a e with valid := false }
    exact ⟨_, exec_sramEntryClear_of_accepts hacc, hsame, hothers, rfl⟩

/-! ## The order of the hits (R187) -/

section
variable {s : State} {c : Nat}

/-- The rows that a table owns come in ascending order (R183). -/
theorem rowsOfConfig_ascending (p : Params) (regs : Cells Word) (c lt : Nat) :
    (rowsOfConfig p regs c lt).Pairwise (· < ·) := List.pairwise_lt_range.filter _

theorem row_eq_of_mem_slotHits {r a key ver : Nat} {h : RawHit} (hh : h ∈ slotHits s r c a key ver) :
    h.row = r := by
  obtain ⟨e, _, rfl⟩ := List.mem_map.mp hh
  rfl

/-- The hits of one row come in ascending entry slot (R186). -/
theorem slotHits_ascending (s : State) (r c a key ver : Nat) :
    (slotHits s r c a key ver).Pairwise fun x y => x.entry < y.entry :=
  List.pairwise_map.mpr (List.pairwise_lt_range.filter _)

/-- The hits of a lookup come in ascending row, those of one row in ascending entry slot. -/
theorem rawHits_ascending (s : State) (c lt vs : Nat) :
    (rawHits s c lt vs).Pairwise fun x y => x.row < y.row ∨ (x.row = y.row ∧ x.entry < y.entry) := by
  refine List.pairwise_flatMap.mpr ⟨fun r _ => ?sameRow, (rowsOfConfig_ascending _ _ c lt).imp fun hlt => ?rows⟩
  case sameRow =>
    refine (slotHits_ascending s r c _ _ _).imp_of_mem fun hx hy hlt => .inr ⟨?_, hlt⟩
    rw [row_eq_of_mem_slotHits hx, row_eq_of_mem_slotHits hy]
  case rows =>
    intro x hx y hy
    rw [row_eq_of_mem_slotHits hx, row_eq_of_mem_slotHits hy]
    exact .inl hlt

end

/-- Settles O36: the hits are listed row by row and slot by slot, and a hit is what the rules say bit by bit. -/
theorem hitsComeInRowThenEntryOrder : Obligations.HitsComeInRowThenEntryOrder :=
  fun c lt vs s => ⟨rawHits_ascending s c lt vs, reportedHits_relaxed, reportedHits_strict, fun _ => mem_rawHits⟩

/-! ## Two hits on one match bus (R188, R350) -/

section
variable {i : Instr} {s : State} {b : Nat}

/-- With relaxMultiHit the second of two different records logs W07, and the bus keeps one of them that the other does
not precede. -/
theorem driveBus_keepsLowest {prev h : BusHit} (hb : s.busHitAt b = some prev) (hne : prev ≠ h)
    (hr : s.params.relaxMultiHit = true) :
    ∃ t x, driveBus i s b h = .ok t ∧ t.busHitAt b = some x ∧ (x = prev ∨ x = h)
      ∧ hitBefore prev x = false ∧ hitBefore h x = false
      ∧ (∀ b', b' ≠ b → t.busHitAt b' = s.busHitAt b')
      ∧ t.warnLog = s.warnLog ++ [⟨.busContention, opcode i, operands i, .contention b prev h⟩]
      ∧ t = { s with
          ctx := { s.ctx with busHit := t.ctx.busHit }, warnLog := t.warnLog, freeCount := t.freeCount } := by
  obtain ⟨n, hdrive⟩ := driveBus_relaxed (i := i) hb hne hr
  obtain ⟨heither, hprev, hh⟩ := keepLowest_spec prev h s.freeCount
  have hbus := busHitAt_putBusHit s b (some (keepLowest prev h s.freeCount))
  exact ⟨_, _, hdrive, (hbus b).trans (if_pos rfl), heither, hprev, hh,
    fun b' hb' => (hbus b').trans (if_neg hb'), rfl, rfl⟩

/-- Without relaxMultiHit a hit whose bus carries a different record raises F07. -/
theorem reportHit_contention {c : Nat} {h : RawHit} {prev : BusHit} (acc : List HitReport)
    (hbus : hitBus s c h = some b) (hlt : b < s.params.nmb) (hb : s.busHitAt b = some prev)
    (hne : prev ≠ hitRecord c h) (hr : s.params.relaxMultiHit = false) :
    reportHit i c (acc, s) h = .error ⟨.busContention, .contention b prev (hitRecord c h)⟩ := by
  have hrange : ∀ b' ∈ hitBus s c h, b' < s.params.nmb := fun b' hb' => by
    obtain rfl : b = b' := Option.some.inj (hbus.symm.trans hb')
    exact hlt
  rw [reportHit_eq i c acc s h hrange, hbus]
  dsimp only
  rw [driveBus_contention hb hne hr, error_bind]

end

/-- Settles O37: a bus takes a record by what it carries, and SRAM_LOOKUP without relaxMultiHit drives the bus of its
first hit alone. -/
theorem matchBusContention : Obligations.MatchBusContention := by
  refine ⟨fun i s b h => ⟨fun hfree => ?takes, fun prev hb hne hr => driveBus_contention hb hne hr,
    fun prev hb hne hr => driveBus_keepsLowest hb hne hr⟩,
    fun c lt vs s h b prev hacc hfresh hready hr hfirst hbus hlt hb hne => ?lookup⟩
  case takes =>
    obtain ⟨t, hdrive, hframe, hrecord, hothers⟩ := driveBus_takes (i := i) hfree
    exact ⟨t, hdrive, hrecord, hothers, hframe⟩
  case lookup =>
    obtain ⟨hrun, _⟩ := accepts_spec hacc
    obtain ⟨x, y, z, _, hexec⟩ := exec_sramLookup_of_ready hacc hfresh hready
    have hraise : reportHit (.sramLookup c lt vs) c ([], s.withCaches x y z) h
        = .error ⟨.busContention, .contention b prev (hitRecord c h)⟩ :=
      reportHit_contention [] hbus hlt hb hne hr
    rw [hexec, reportedHits_strict hr, hfirst]
    exact runCommand_bind_error hrun (by rw [Option.toList_some, foldOp_cons, hraise, error_bind])

end Sys2Proof.Machine
end

section
/-! PROOFS. Ternary matching (R200 to R208): the two words that stand for a value and a mask, what an entry matches, the
entry commands, and the scans from the rotation offset. -/

namespace Sys2Proof.Machine

/-! ## The stored words, bit by bit (R105, R208) -/

section
variable {tw v m : Nat}

/-- Word 1 has a bit where the mask is 0 or the value is 1. -/
theorem testBit_ternaryWord1 (hm : m < 2 ^ tw) (k : Nat) :
    (ternaryWord1 tw v m).testBit k = (decide (k < tw) && (!m.testBit k || v.testBit k)) := by
  rw [ternaryWord1, Nat.testBit_or, Nat.testBit_and, testBit_notBits]
  by_cases hk : k < tw
  · cases hmk : m.testBit k <;> simp [hk]
  · simp [hk, testBit_eq_false_of_lt hm (Nat.not_lt.mp hk)]

/-- Word 0 has a bit where the mask is 0 or the value is 0. -/
theorem testBit_ternaryWord0 (tw v m k : Nat) :
    (ternaryWord0 tw v m).testBit k = (decide (k < tw) && (!m.testBit k || !v.testBit k)) := by
  rw [ternaryWord0, Nat.testBit_or, Nat.testBit_and, testBit_notBits, testBit_notBits]
  cases m.testBit k <;> simp

theorem testBit_ternaryMask (ent : TcamEntry) (k : Nat) :
    (ternaryMask ent).testBit k = (ent.word1.testBit k ^^ ent.word0.testBit k) := Nat.testBit_xor ..

theorem testBit_ternaryValue (tw : Nat) (ent : TcamEntry) (k : Nat) :
    (ternaryValue tw ent).testBit k = (ent.word1.testBit k && (decide (k < tw) && !ent.word0.testBit k)) := by
  rw [ternaryValue, Nat.testBit_and, testBit_notBits]

/-- The two words agree exactly where the mask is 0. -/
theorem ternaryMask_stored (hm : m < 2 ^ tw) : ternaryMask ⟨true, ternaryWord0 tw v m, ternaryWord1 tw v m⟩ = m := by
  refine Nat.eq_of_testBit_eq fun k => ?_
  rw [testBit_ternaryMask, testBit_ternaryWord1 hm, testBit_ternaryWord0]
  by_cases hk : k < tw
  · cases m.testBit k <;> simp [hk]
  · simp [hk, testBit_eq_false_of_lt hm (Nat.not_lt.mp hk)]

/-- Word 1 stands alone exactly where both the value and the mask are 1. -/
theorem ternaryValue_stored (hm : m < 2 ^ tw) :
    ternaryValue tw ⟨true, ternaryWord0 tw v m, ternaryWord1 tw v m⟩ = v &&& m := by
  refine Nat.eq_of_testBit_eq fun k => ?_
  rw [testBit_ternaryValue, testBit_ternaryWord1 hm, testBit_ternaryWord0, Nat.testBit_and]
  by_cases hk : k < tw
  · cases m.testBit k <;> simp [hk]
  · simp [hk, testBit_eq_false_of_lt hm (Nat.not_lt.mp hk)]

/-! ## What an entry matches (R200) -/

theorem tcamMatch_iff {ent : TcamEntry} {s1 s0 : Nat} :
    tcamMatch tw ent s1 s0 = true ↔ ent.valid = true ∧ ∀ k, ((ent.word0.testBit k || s1.testBit k)
      && (ent.word1.testBit k || s0.testBit k)) = decide (k < tw) := by
  simp only [tcamMatch, Bool.and_eq_true, decide_eq_true_eq, ← Nat.testBit_or, ← Nat.testBit_and, ← testBit_ones]
  exact and_congr_right fun _ => ⟨fun h k => by rw [h], Nat.eq_of_testBit_eq⟩

/-- One bit of a match: the stored words let any search bit pass where the mask is 0, and the value's alone where it
is 1. -/
theorem storedBit_admits_iff (vk mk wk : Bool) :
    (((!mk || !vk) || wk) && ((!mk || vk) || !wk)) = true ↔ (mk = true → wk = vk) := by
  cases mk with
  | false => simp
  | true => cases vk <;> simp

theorem tcamMatch_stored_iff {word : Nat} (hm : m < 2 ^ tw) (hword : word < 2 ^ tw) :
    tcamMatch tw ⟨true, ternaryWord0 tw v m, ternaryWord1 tw v m⟩ word (notBits tw word) = true
      ↔ ∀ k < tw, m.testBit k = true → word.testBit k = v.testBit k := by
  simp only [tcamMatch_iff, true_and, testBit_ternaryWord0, testBit_ternaryWord1 hm, testBit_notBits]
  refine forall_congr' fun k => ?_
  by_cases hk : k < tw
  · simp only [hk, decide_true, Bool.true_and, forall_const]
    exact storedBit_admits_iff ..
  · simp [hk, testBit_eq_false_of_lt hword (Nat.not_lt.mp hk)]

/-- A bit in neither word needs the search bit to be 1 and 0 at once. -/
theorem tcamMatch_eq_false_of_emptyBit {ent : TcamEntry} {k : Nat} (hk : k < tw) (h0 : ent.word0.testBit k = false)
    (h1 : ent.word1.testBit k = false) (word : Nat) : tcamMatch tw ent word (notBits tw word) = false := by
  refine Bool.eq_false_iff.mpr fun hmatch => ?_
  obtain ⟨-, hbits⟩ := tcamMatch_iff.mp hmatch
  have hbit := hbits k
  rw [h0, h1, testBit_notBits] at hbit
  simp [hk] at hbit

end

/-- Settles O40: a match is decided bit by bit. -/
theorem ternaryMatchComparesCaredBits : Obligations.TernaryMatchComparesCaredBits :=
  fun _ _ _ word _ hm hword => ⟨tcamMatch_stored_iff hm hword, fun _ _ _ hinvalid => by simp [tcamMatch, hinvalid],
    fun _ _ hk h0 h1 => tcamMatch_eq_false_of_emptyBit hk h0 h1 word⟩

/-! ## TCAM_SET_VALUE_MASK, TCAM_CLEAR and TCAM_GET (R201 to R203) -/

section
variable {s t : State} {u idx v m : Nat}

/-- The operands that name a TCAM entry, at the head of an operand table, are in range. -/
theorem checkTcamEntry_of_operands {p : Params} {xs : List Operand}
    (h : ∀ x ∈ index16 .u p.ntu u :: index16 .idx p.nt idx :: xs, x.value < x.bound) :
    checkTcamEntry p u idx = .ok () ∧ idx < p.nt := by
  obtain ⟨hu, h⟩ := List.forall_mem_cons.mp h
  obtain ⟨hidx, -⟩ := List.forall_mem_cons.mp h
  have hunit : checkUnit p u = .ok () := checkIndex_index16 hu
  have hentry : checkEntry p idx = .ok () := checkIndex_index16 hidx
  refine ⟨?_, lt_of_lt_of_le hidx (min_le_right _ _)⟩
  rw [checkTcamEntry, hunit, ok_bind, hentry]

/-- The value and the mask of an accepted TCAM_SET_VALUE_MASK fit a TCAM word. -/
theorem tcamSetValueMask_operands (ha : accepts s (.tcamSetValueMask u idx v m) = true) :
    v < 2 ^ s.params.tw ∧ m < 2 ^ s.params.tw := by
  obtain ⟨_, _, _, _, hops⟩ := accepts_spec ha
  exact ⟨hops ⟨.v, _, v⟩ (by simp [operandTable]), hops ⟨.m, _, m⟩ (by simp [operandTable])⟩

theorem exec_tcamSetValueMask_of_accepts (ha : accepts s (.tcamSetValueMask u idx v m) = true) :
    exec (.tcamSetValueMask u idx v m) s = .next ((s.putTcam u idx
      ⟨true, ternaryWord0 s.params.tw v m, ternaryWord1 s.params.tw v m⟩).answering .empty) := by
  obtain ⟨hrun, _, _, _, hops⟩ := accepts_spec ha
  obtain ⟨hentry, -⟩ := checkTcamEntry_of_operands hops
  obtain ⟨hv, hm⟩ := tcamSetValueMask_operands ha
  refine runCommand_ok hrun ?_
  rw [hentry, ok_bind, checkWidth_ok_iff.mpr hv, ok_bind, checkWidth_ok_iff.mpr hm, ok_bind]

theorem exec_tcamClear_of_accepts (ha : accepts s (.tcamClear u idx) = true) :
    exec (.tcamClear u idx) s
      = .next ((s.putTcam u idx { s.tcamAt u idx with valid := false }).answering .empty) := by
  obtain ⟨hrun, _, _, _, hops⟩ := accepts_spec ha
  obtain ⟨hentry, -⟩ := checkTcamEntry_of_operands hops
  refine runCommand_ok hrun ?_
  rw [hentry, ok_bind]

theorem exec_tcamGet_of_accepts (ha : accepts s (.tcamGet u idx) = true) :
    exec (.tcamGet u idx) s = .next (s.answering
      (.tcamEntry (s.tcamAt u idx).valid (s.tcamAt u idx).word1 (s.tcamAt u idx).word0)) := by
  obtain ⟨hrun, _, _, _, hops⟩ := accepts_spec ha
  obtain ⟨hentry, -⟩ := checkTcamEntry_of_operands hops
  refine runCommand_ok hrun ?_
  rw [hentry, ok_bind]

theorem tcamAt_putTcam_same (s : State) (u idx : Nat) (x : TcamEntry) : (s.putTcam u idx x).tcamAt u idx = x := by
  rw [tcamAt_putTcam, if_pos rfl]

/-- Two entries in range have one number only if they are one entry. -/
theorem tcamAt_putTcam_other {u' idx' : Nat} (hidx : idx < s.params.nt) (hidx' : idx' < s.params.nt)
    (hne : (u', idx') ≠ (u, idx)) (x : TcamEntry) : (s.putTcam u idx x).tcamAt u' idx' = s.tcamAt u' idx' := by
  rw [tcamAt_putTcam, if_neg]
  intro hkey
  obtain ⟨rfl, rfl⟩ := (tcamKey_inj hidx' hidx).mp hkey
  exact hne rfl

/-- What TCAM_SET_VALUE_MASK leaves in its entry. -/
theorem tcamAt_of_tcamSetValueMask (ha : accepts s (.tcamSetValueMask u idx v m) = true)
    (hexec : exec (.tcamSetValueMask u idx v m) s = .next t) :
    t.tcamAt u idx = ⟨true, ternaryWord0 s.params.tw v m, ternaryWord1 s.params.tw v m⟩ := by
  rw [exec_tcamSetValueMask_of_accepts ha] at hexec
  cases hexec
  exact tcamAt_putTcam_same s u idx _

end

/-- Settles O38: an accepted entry command writes its one entry, or answers what the entry holds. -/
theorem tcamEntryCommands : Obligations.TcamEntryCommands := by
  refine ⟨fun u idx v m s ha => ?setValueMask, fun u idx s ha => ?clear, fun u idx s ha => exec_tcamGet_of_accepts ha⟩
  case setValueMask =>
    obtain ⟨_, _, _, _, hops⟩ := accepts_spec ha
    obtain ⟨-, hidx⟩ := checkTcamEntry_of_operands hops
    obtain ⟨-, hm⟩ := tcamSetValueMask_operands ha
    have hexec := exec_tcamSetValueMask_of_accepts ha
    have hstored := tcamAt_of_tcamSetValueMask ha hexec
    refine ⟨_, hexec, congrArg TcamEntry.valid hstored, fun k => ?word1, fun k => ?word0,
      fun _ _ _ hidx' hne => tcamAt_putTcam_other hidx hidx' hne _, rfl⟩
    case word1 => rw [hstored, testBit_ternaryWord1 hm]
    case word0 => rw [hstored, testBit_ternaryWord0]
  case clear =>
    obtain ⟨_, _, _, _, hops⟩ := accepts_spec ha
    obtain ⟨-, hidx⟩ := checkTcamEntry_of_operands hops
    exact ⟨_, exec_tcamClear_of_accepts ha, tcamAt_putTcam_same s u idx _,
      fun _ _ _ hidx' hne => tcamAt_putTcam_other hidx hidx' hne _, rfl⟩

/-- Settles O39: where the mask is 1 the two words differ and word 1 is the value; where it is 0 both have a bit. -/
theorem valueAndMaskAreRecovered : Obligations.ValueAndMaskAreRecovered := by
  refine ⟨fun u idx v m s t ha hexec => ?stored, fun tw ent k h0 h1 => ?empty⟩
  case stored =>
    obtain ⟨-, hm⟩ := tcamSetValueMask_operands ha
    rw [tcamAt_of_tcamSetValueMask ha hexec]
    exact ⟨ternaryValue_stored hm, ternaryMask_stored hm⟩
  case empty =>
    rw [testBit_ternaryMask, testBit_ternaryValue, h0, h1]
    exact ⟨rfl, rfl⟩

/-! ## TCAM_LOOKUP and TCAM_LOOKUP_RAW (R204 to R206) -/

section
variable {s : State} {u : Nat}

theorem exec_tcamLookup_of_accepts (ha : accepts s (.tcamLookup u) = true) :
    exec (.tcamLookup u) s = runCommand (.tcamLookup u) s
      (tcamXbarScan s u >>= fun hit => .ok (s, .tcamIndex hit)) := by
  obtain ⟨_, _, _, _, hops⟩ := accepts_spec ha
  have hu : checkUnit s.params u = .ok () := checkIndex_index16 (hops (index16 .u s.params.ntu u) (.head _))
  show execTcamLookup u s = _
  rw [execTcamLookup, requireContext_of_accepts ha rfl, ok_bind, hu, ok_bind]

theorem exec_tcamLookupRaw_of_accepts {s1 s0 : Nat} (ha : accepts s (.tcamLookupRaw u s1 s0) = true) :
    exec (.tcamLookupRaw u s1 s0) s = runCommand (.tcamLookupRaw u s1 s0) s
      (tcamScan s u s1 s0 >>= fun hit => .ok (s, .tcamIndex hit)) := by
  obtain ⟨_, _, _, _, hops⟩ := accepts_spec ha
  have hu : checkUnit s.params u = .ok () := checkIndex_index16 (hops (index16 .u s.params.ntu u) (.head _))
  have hs1 : checkWidth .s1 s.params.tw s1 = .ok () :=
    checkWidth_ok_iff.mpr (hops ⟨.s1, _, s1⟩ (by simp [operandTable]))
  have hs0 : checkWidth .s0 s.params.tw s0 = .ok () :=
    checkWidth_ok_iff.mpr (hops ⟨.s0, _, s0⟩ (by simp [operandTable]))
  show execTcamLookupRaw u s1 s0 s = _
  rw [execTcamLookupRaw, hu, ok_bind, hs1, ok_bind, hs0, ok_bind]

end

/-- Settles O41: both lookups run the scan, TCAM_LOOKUP on the crossbar's word and its complement. -/
theorem tcamLookupsScanFromOffset : Obligations.TcamLookupsScanFromOffset := by
  refine ⟨fun u s ha => ?lookup, fun u s1 s0 s ha => ?raw⟩
  case lookup =>
    obtain ⟨hrun, _⟩ := accepts_spec ha
    rw [exec_tcamLookup_of_accepts ha]
    refine ⟨fun hready hstart => ?_, fun hunready => runCommand_bind_bounds hrun (tcamXbarScan_error hunready)⟩
    obtain ⟨r, hscan, hanswers⟩ := tcamXbarScan_ok hready hstart
    exact ⟨r, runCommand_bind_ok hrun hscan rfl, hanswers⟩
  case raw =>
    obtain ⟨hrun, _⟩ := accepts_spec ha
    rw [exec_tcamLookupRaw_of_accepts ha]
    refine ⟨fun hstart => ?_, fun hstart => runCommand_bind_bounds hrun ⟨_, _, tcamScan_error hstart⟩⟩
    obtain ⟨r, hscan, hanswers⟩ := tcamScan_ok hstart
    exact ⟨r, runCommand_bind_ok hrun hscan rfl, hanswers⟩

end Sys2Proof.Machine
end

section
/-! PROOFS. The stash entry commands (R222, R223) and the stash inhibits (R221, R225, R226). Each command names one
entry of a row; entries and inhibits are numbered by one key, so both writes rest on `stashKey_ne`. -/

namespace Sys2Proof.Machine

section
variable {s : State} {r w : Nat}

/-- A command whose first operands name a stash entry, once accepted, runs and passes the check of that entry. -/
theorem checkStashEntry_of_accepts {i : Instr} {xs : List Operand} (ha : accepts s i = true)
    (hi : operandTable s.params i = index16 .r s.params.nr r :: index16 .w 4 w :: xs) :
    s.running = true ∧ checkStashEntry s.params r w = .ok () ∧ w < 4 := by
  obtain ⟨hrun, _, _, _, hops⟩ := accepts_spec ha
  rw [hi] at hops
  obtain ⟨hr, hops⟩ := List.forall_mem_cons.mp hops
  obtain ⟨hw, -⟩ := List.forall_mem_cons.mp hops
  have hrow : checkRow s.params r = .ok () := checkIndex_index16 hr
  have hslot : checkStash w = .ok () := checkIndex_index16 hw
  exact ⟨hrun, by rw [checkStashEntry, hrow, ok_bind, hslot], lt_of_lt_of_le hw (min_le_right _ _)⟩

/-- The three data fields of an accepted STASH_WRITE fit the fields of an entry. -/
theorem stashWrite_operands {value mask vv : Nat} {addr : Word}
    (ha : accepts s (.stashWrite r w value mask vv addr) = true) :
    value < 2 ^ s.params.ew ∧ mask < 2 ^ s.params.ew ∧ vv < 2 ^ s.params.vvw := by
  obtain ⟨_, _, _, _, hops⟩ := accepts_spec ha
  exact ⟨hops ⟨.value, _, value⟩ (by simp [operandTable]), hops ⟨.mask, _, mask⟩ (by simp [operandTable]),
    hops ⟨.vv, _, vv⟩ (by simp [operandTable])⟩

/-! ## What an accepted command answers (R222, R223, R225, R226) -/

theorem exec_stashWrite_of_accepts {value mask vv : Nat} {addr : Word}
    (ha : accepts s (.stashWrite r w value mask vv addr) = true) :
    exec (.stashWrite r w value mask vv addr) s
      = .next ((s.putStash r w ⟨true, value, mask, vv, addr⟩).answering .empty) := by
  obtain ⟨hrun, hentry, -⟩ := checkStashEntry_of_accepts ha rfl
  obtain ⟨hvalue, hmask, hvv⟩ := stashWrite_operands ha
  refine runCommand_ok hrun ?_
  rw [hentry, ok_bind, checkWidth_ok_iff.mpr hvalue, ok_bind, checkWidth_ok_iff.mpr hmask, ok_bind,
    checkWidth_ok_iff.mpr hvv, ok_bind]

theorem exec_stashClear_of_accepts (ha : accepts s (.stashClear r w) = true) :
    exec (.stashClear r w) s = .next ((s.putStash r w { s.stashAt r w with valid := false }).answering .empty) := by
  obtain ⟨hrun, hentry, -⟩ := checkStashEntry_of_accepts ha rfl
  refine runCommand_ok hrun ?_
  rw [hentry, ok_bind]

theorem exec_stashInhibit_of_accepts {addr : Word} (ha : accepts s (.stashInhibit r w addr) = true) :
    exec (.stashInhibit r w addr) s = .next ((s.putInhibit r w ⟨true, addr⟩).answering .empty) := by
  obtain ⟨hrun, hentry, -⟩ := checkStashEntry_of_accepts ha rfl
  refine runCommand_ok hrun ?_
  rw [hentry, ok_bind]

theorem exec_stashHitInhibited_of_accepts {addr : Word} (ha : accepts s (.stashHitInhibited r w addr) = true) :
    exec (.stashHitInhibited r w addr) s = .next (s.answering (.inhibited (s.hitInhibited r w addr))) := by
  obtain ⟨hrun, hentry, -⟩ := checkStashEntry_of_accepts ha rfl
  refine runCommand_ok hrun ?_
  rw [hentry, ok_bind]

/-! ## One entry, one inhibit (R71) -/

/-- Two entries in range have two numbers. -/
theorem stashKey_ne {r' w' : Nat} (hw : w < 4) (hw' : w' < 4) (hne : (r', w') ≠ (r, w)) :
    stashKey r' w' ≠ stashKey r w := by
  intro hkey
  obtain ⟨rfl, rfl⟩ := (stashKey_inj hw' hw).mp hkey
  exact hne rfl

theorem putStash_writesOneEntry (s : State) (r : Nat) (hw : w < 4) (x : StashEntry) :
    (s.putStash r w x).stashAt r w = x
      ∧ ∀ r' w', r' < s.params.nr → w' < 4 → (r', w') ≠ (r, w) →
          (s.putStash r w x).stashAt r' w' = s.stashAt r' w' := by
  refine ⟨?_, fun r' w' _ hw' hne => ?_⟩
  · rw [stashAt_putStash, if_pos rfl]
  · rw [stashAt_putStash, if_neg (stashKey_ne hw hw' hne)]

theorem putInhibit_writesOneInhibit (s : State) (r : Nat) (hw : w < 4) (x : Inhibit) :
    (s.putInhibit r w x).inhibitAt r w = x
      ∧ ∀ r' w', r' < s.params.nr → w' < 4 → (r', w') ≠ (r, w) →
          (s.putInhibit r w x).inhibitAt r' w' = s.inhibitAt r' w' := by
  refine ⟨?_, fun r' w' _ hw' hne => ?_⟩
  · rw [inhibitAt_putInhibit, if_pos rfl]
  · rw [inhibitAt_putInhibit, if_neg (stashKey_ne hw hw' hne)]

end

/-- Settles O43: an accepted entry command writes its one entry and answers the empty response. -/
theorem stashEntryCommandsWriteOneEntry : Obligations.StashEntryCommandsWriteOneEntry := by
  refine ⟨fun r w value mask vv addr s ha => ?write, fun r w s ha => ?clear⟩
  case write =>
    obtain ⟨-, -, hw⟩ := checkStashEntry_of_accepts ha rfl
    obtain ⟨hsame, hothers⟩ := putStash_writesOneEntry s r hw ⟨true, value, mask, vv, addr⟩
    exact ⟨_, exec_stashWrite_of_accepts ha, hsame, hothers, rfl⟩
  case clear =>
    obtain ⟨-, -, hw⟩ := checkStashEntry_of_accepts ha rfl
    obtain ⟨hsame, hothers⟩ := putStash_writesOneEntry s r hw { s.stashAt r w with valid := false }
    exact ⟨_, exec_stashClear_of_accepts ha, hsame, hothers, rfl⟩

/-- Settles O44: STASH_INHIBIT writes its one inhibit, and STASH_HIT_INHIBITED answers the inhibit test of R221. -/
theorem stashInhibitCommands : Obligations.StashInhibitCommands := by
  refine ⟨fun r w addr s ha => ?inhibit, fun r w addr s ha => ?query⟩
  case inhibit =>
    obtain ⟨-, -, hw⟩ := checkStashEntry_of_accepts ha rfl
    obtain ⟨hsame, hothers⟩ := putInhibit_writesOneInhibit s r hw ⟨true, addr⟩
    exact ⟨_, exec_stashInhibit_of_accepts ha, hsame, hothers, rfl⟩
  case query => exact exec_stashHitInhibited_of_accepts ha

end Sys2Proof.Machine
end

section
/-! PROOFS. The result buses (R240 to R247): the maps stay consistent and follow the crossbar registers, a callback
recomputes one owner, the queries read the maps, and the arbitration takes the lowest claim of each path. -/

namespace Sys2Proof.Machine

/-! ## The maps over every change (R240, R243, R312) -/

section
variable {i : Instr} {s t : State}

theorem mapsConsistent_recomputeBus (h : s.mapsConsistent) (k : BusKind) (b : Nat) :
    { s with busMap := BusMap.recomputeBus s.params s.mem.regs s.busMap k b }.mapsConsistent := by
  obtain ⟨hmatch, htind, hltcam⟩ := h
  cases k with
  | matchBus => exact ⟨consistent_of_recomputed hmatch (recompute_spec _ _ _), htind, hltcam⟩
  | tindBus => exact ⟨hmatch, consistent_of_recomputed htind (recompute_spec _ _ _), hltcam⟩

theorem mapsConsistent_recomputeLtcam (h : s.mapsConsistent) (l : Nat) :
    { s with busMap := BusMap.recomputeLtcam s.params s.mem.regs s.busMap l }.mapsConsistent := by
  obtain ⟨hmatch, htind, hltcam⟩ := h
  exact ⟨hmatch, htind, consistent_of_recomputed hltcam (recompute_spec _ _ _)⟩

/-- Only the two callbacks and a register write touch the maps. -/
theorem prim_keeps_mapsConsistent (hp : Prim i s t) (h : s.mapsConsistent) : t.mapsConsistent := by
  cases hp with
  | recomputeBus k b => exact mapsConsistent_recomputeBus h k b
  | recomputeLtcam l => exact mapsConsistent_recomputeLtcam h l
  | regApply o d => exact mapsConsistent_regApply h o d
  | _ => exact mapsConsistent_congr (by simp) (by simp) h

/-- Where the owners are those of the registers, taking one of them from its register again leaves them so. -/
theorem owners_follow_recompute {m : OwnerMap} {reg : Nat → Gated} {n : Nat}
    (h : ∀ b < n, m.ownerOf b = (reg b).owner) (a : Nat) :
    ∀ b < n, (m.recompute a (reg a)).ownerOf b = (reg b).owner := by
  intro b hb
  obtain ⟨hsame, hothers, -, -⟩ := recompute_spec m a (reg a)
  by_cases hba : b = a
  · rw [hba, hsame]
  · rw [hothers b hba, h b hb]

theorem mapsFresh_recomputeBus (h : s.mapsFresh) (k : BusKind) (b : Nat) :
    { s with busMap := BusMap.recomputeBus s.params s.mem.regs s.busMap k b }.mapsFresh := by
  obtain ⟨hmatch, htind, hltcam⟩ := h
  cases k with
  | matchBus => exact ⟨owners_follow_recompute hmatch b, htind, hltcam⟩
  | tindBus => exact ⟨hmatch, owners_follow_recompute htind b, hltcam⟩

theorem mapsFresh_recomputeLtcam (h : s.mapsFresh) (l : Nat) :
    { s with busMap := BusMap.recomputeLtcam s.params s.mem.regs s.busMap l }.mapsFresh := by
  obtain ⟨hmatch, htind, hltcam⟩ := h
  exact ⟨hmatch, htind, owners_follow_recompute hltcam l⟩

/-- A register write notifies the owners whose registers it changes; a callback reads the current register. -/
theorem prim_keeps_mapsFresh (hp : Prim i s t) (h : s.mapsFresh) : t.mapsFresh := by
  cases hp with
  | recomputeBus k b => exact mapsFresh_recomputeBus h k b
  | recomputeLtcam l => exact mapsFresh_recomputeLtcam h l
  | regApply o d => exact mapsFresh_regApply h o d
  | _ => exact mapsFresh_congr (by simp) (by simp) (by simp) h

end

/-- Settles O19: reset recomputes every owner from empty maps, and every primitive change keeps the masks in
agreement with the owners. -/
theorem busMapsStayConsistent : Obligations.BusMapsStayConsistent :=
  ⟨ofConfig_consistent, fun _ _ => step_keeps (Inv := State.mapsConsistent) (fun _ _ _ _ h => h)
    fun _ _ _ h hp => prim_keeps_mapsConsistent hp h⟩

/-- Settles O20: reset takes every owner from its register, and every primitive change keeps the owners those of the
registers. -/
theorem busMapsFollowRegisters : Obligations.BusMapsFollowRegisters :=
  ⟨ofConfig_fresh, fun _ _ => step_keeps (Inv := State.mapsFresh) (fun _ _ _ _ h => h)
    fun _ _ _ h hp => prim_keeps_mapsFresh hp h⟩

/-! ## The commands past their checks (R345) -/

section
variable {s : State} {k b l lt : Nat}

/-- A command whose operands name a bus, once accepted, runs and passes the check of that bus. -/
theorem checkBus_of_accepts {i : Instr} (ha : accepts s i = true)
    (hi : operandTable s.params i = [⟨.k, 2, k⟩, index16 .b (if k = 0 then s.params.nmb else s.params.ntb) b]) :
    s.running = true ∧ checkBus s.params k b = .ok () ∧ b < busCount s.params (busKind k) := by
  obtain ⟨hrun, _, _, _, hops⟩ := accepts_spec ha
  rw [hi, ← busCount_busKind] at hops
  have hk : checkWidth .k 1 k = .ok () := checkWidth_ok_iff.mpr (hops ⟨.k, 2, k⟩ (.head _))
  have hb : b < min (2 ^ 16) (busCount s.params (busKind k)) := hops (index16 .b _ b) (.tail _ (.head _))
  exact ⟨hrun, by rw [checkBus, hk, ok_bind, checkIndex_index16 hb], lt_of_lt_of_le hb (min_le_right _ _)⟩

/-- A command whose operand names a logical TCAM, once accepted, runs and passes the check of it. -/
theorem checkLtcam_of_accepts {i : Instr} (ha : accepts s i = true)
    (hi : operandTable s.params i = [index16 .l s.params.nltc l]) :
    s.running = true ∧ checkLtcam s.params l = .ok () ∧ l < s.params.nltc := by
  obtain ⟨hrun, _, _, _, hops⟩ := accepts_spec ha
  rw [hi] at hops
  have hl : l < min (2 ^ 16) s.params.nltc := hops (index16 .l _ l) (.head _)
  exact ⟨hrun, checkIndex_index16 hl, lt_of_lt_of_le hl (min_le_right _ _)⟩

theorem exec_rbMatchCb_of_accepts (ha : accepts s (.rbMatchCb k b) = true) :
    exec (.rbMatchCb k b) s = .next
      ({ s with busMap := BusMap.recomputeBus s.params s.mem.regs s.busMap (busKind k) b }.answering .empty) := by
  obtain ⟨hrun, hbus, -⟩ := checkBus_of_accepts ha rfl
  refine runCommand_ok hrun ?_
  rw [hbus, ok_bind]

theorem exec_rbTcamCb_of_accepts (ha : accepts s (.rbTcamCb l) = true) :
    exec (.rbTcamCb l) s = .next
      ({ s with busMap := BusMap.recomputeLtcam s.params s.mem.regs s.busMap l }.answering .empty) := by
  obtain ⟨hrun, hltcam, -⟩ := checkLtcam_of_accepts ha rfl
  refine runCommand_ok hrun ?_
  rw [hltcam, ok_bind]

theorem exec_rbBusOwner_of_accepts (ha : accepts s (.rbBusOwner k b) = true) :
    exec (.rbBusOwner k b) s = .next (s.answering (.owner ((s.busMap.side (busKind k)).ownerOf b))) := by
  obtain ⟨hrun, hbus, -⟩ := checkBus_of_accepts ha rfl
  refine runCommand_ok hrun ?_
  rw [hbus, ok_bind]

theorem exec_rbLtBuses_of_accepts (ha : accepts s (.rbLtBuses k lt) = true) :
    exec (.rbLtBuses k lt) s = .next (s.answering (.busMask ((s.busMap.side (busKind k)).mask lt))) := by
  obtain ⟨hrun, _, _, _, hops⟩ := accepts_spec ha
  have hk : checkWidth .k 1 k = .ok () := checkWidth_ok_iff.mpr (hops ⟨.k, 2, k⟩ (.head _))
  have hlt : checkTable lt = .ok () := checkIndex_index16 (hops (index16 .lt 16 lt) (.tail _ (.head _)))
  refine runCommand_ok hrun ?_
  rw [hk, ok_bind, hlt, ok_bind]

theorem exec_rbLtcamOwner_of_accepts (ha : accepts s (.rbLtcamOwner l) = true) :
    exec (.rbLtcamOwner l) s = .next (s.answering (.owner (s.busMap.ltcam.ownerOf l))) := by
  obtain ⟨hrun, hltcam, -⟩ := checkLtcam_of_accepts ha rfl
  refine runCommand_ok hrun ?_
  rw [hltcam, ok_bind]

theorem exec_rbArbitrate_of_accepts (ha : accepts s (.rbArbitrate lt) = true) :
    exec (.rbArbitrate lt) s = .next (s.answering (.arbitration (arbitrate s lt))) := by
  obtain ⟨hrun, _, _, _, hops⟩ := accepts_spec ha
  have hlt : checkTable lt = .ok () := checkIndex_index16 (hops (index16 .lt 16 lt) (.head _))
  refine runCommand_ok hrun ?_
  rw [requireContext_of_accepts ha rfl, ok_bind, hlt, ok_bind]

end

/-! ## RB_MATCH_CB and RB_TCAM_CB (R241, R242) -/

/-- RB_MATCH_CB recomputes its bus in the map of the kind that k names. -/
theorem side_recomputeBus_same (s : State) (k b : Nat) :
    (BusMap.recomputeBus s.params s.mem.regs s.busMap (busKind k) b).side (busKind k)
      = (s.busMap.side (busKind k)).recompute b (busRegister s k b) := by
  unfold busKind busRegister
  split <;> rfl

theorem side_recomputeBus_other (s : State) {k k' : BusKind} (hne : k' ≠ k) (b : Nat) :
    (BusMap.recomputeBus s.params s.mem.regs s.busMap k b).side k' = s.busMap.side k' := by
  cases k with
  | matchBus =>
    cases k' with
    | matchBus => exact absurd rfl hne
    | tindBus => rfl
  | tindBus =>
    cases k' with
    | matchBus => rfl
    | tindBus => exact absurd rfl hne

theorem ltcam_recomputeBus (p : Params) (regs : Cells Word) (m : BusMap) (k : BusKind) (b : Nat) :
    (BusMap.recomputeBus p regs m k b).ltcam = m.ltcam := by
  cases k <;> rfl

/-- The operands k and 1 - k name the two kinds. -/
theorem busKind_one_sub_ne (k : Nat) : busKind (1 - k) ≠ busKind k := by
  unfold busKind
  by_cases hk : k = 0
  · simp [hk]
  · simp [hk, show 1 - k = 0 by omega]

/-- Settles O46: each callback is one recompute of one map. -/
theorem callbacksRecomputeOneOwner : Obligations.CallbacksRecomputeOneOwner := by
  refine ⟨fun k b s ha => ?bus, fun l s ha => ?ltcam⟩
  case bus =>
    refine ⟨_, exec_rbMatchCb_of_accepts ha, ?_, side_recomputeBus_other s (busKind_one_sub_ne k) b,
      ltcam_recomputeBus _ _ _ _ _, rfl⟩
    show recomputed _ ((BusMap.recomputeBus s.params s.mem.regs s.busMap (busKind k) b).side (busKind k)) _ _
    rw [side_recomputeBus_same]
    exact recompute_spec _ _ _
  case ltcam => exact ⟨_, exec_rbTcamCb_of_accepts ha, recompute_spec _ _ _, rfl, rfl, rfl⟩

/-! ## The queries (R243 to R245) -/

/-- While the maps follow the registers, the owner of a bus is the table that the bus's register names. -/
theorem ownerOf_side_of_mapsFresh {s : State} (h : s.mapsFresh) {k b : Nat}
    (hb : b < busCount s.params (busKind k)) :
    (s.busMap.side (busKind k)).ownerOf b = (busRegister s k b).owner := by
  obtain ⟨hmatch, htind, -⟩ := h
  unfold busRegister
  by_cases hk : k = 0
  · subst hk
    exact hmatch b hb
  · rw [busKind, if_neg hk] at hb ⊢
    rw [if_neg hk]
    exact htind b hb

/-- Settles O47: a query answers what the map holds, and an accepted one names a bus or logical TCAM in range. -/
theorem busQueriesReadMaps : Obligations.BusQueriesReadMaps := by
  refine ⟨fun k b s ha => ⟨exec_rbBusOwner_of_accepts ha, fun hfresh => ?bus⟩,
    fun k lt s ha => exec_rbLtBuses_of_accepts ha,
    fun l s ha => ⟨exec_rbLtcamOwner_of_accepts ha, fun hfresh => ?ltcam⟩⟩
  case bus =>
    obtain ⟨-, -, hb⟩ := checkBus_of_accepts ha rfl
    exact ownerOf_side_of_mapsFresh hfresh hb
  case ltcam =>
    obtain ⟨-, -, hl⟩ := checkLtcam_of_accepts ha rfl
    obtain ⟨-, -, hltcam⟩ := hfresh
    exact hltcam l hl

/-! ## RB_ARBITRATE (R246, R247) -/

/-- The lowest of n buses or logical TCAMs that the mask lists and that has a hit, as a winner: what both paths of the
arbitration are (`exactHit_eq`, `ternaryHit_eq`). -/
def lowestClaim {α : Type} (n mask : Nat) (hitAt : Nat → Option α) (winner : Nat → α → Winner) : Option Winner :=
  (List.range n).findSome? fun b => if mask.testBit b then (hitAt b).map (winner b) else none

section
variable {α : Type} {n mask : Nat} {hitAt : Nat → Option α} {winner : Nat → α → Winner}

/-- Without a claim, nothing that the mask lists has a hit. -/
theorem lowestClaim_eq_none (h : lowestClaim n mask hitAt winner = none) :
    ∀ b < n, mask.testBit b = true → hitAt b = none := by
  intro b hb hmask
  simpa [hmask] using List.findSome?_eq_none_iff.mp h b (List.mem_range.mpr hb)

/-- One more bus or logical TCAM counts only when none below it claims. -/
theorem lowestClaim_succ : lowestClaim (n + 1) mask hitAt winner
    = (lowestClaim n mask hitAt winner).or (if mask.testBit n then (hitAt n).map (winner n) else none) := by
  rw [lowestClaim, List.range_succ, List.findSome?_append, List.findSome?_singleton]
  rfl

/-- A claim is the hit of something that the mask lists, below which nothing that it lists has one. -/
theorem lowestClaim_eq_some {w : Winner} (h : lowestClaim n mask hitAt winner = some w) :
    ∃ b rec, w = winner b rec ∧ b < n ∧ mask.testBit b = true ∧ hitAt b = some rec
      ∧ ∀ b' < b, mask.testBit b' = true → hitAt b' = none := by
  induction n with
  | zero => cases h
  | succ n ih =>
    rw [lowestClaim_succ] at h
    cases hbelow : lowestClaim n mask hitAt winner with
    | some w' =>
      rw [hbelow, Option.some_or] at h
      obtain ⟨b, rec, hw, hb, hclaim⟩ := ih (hbelow.trans h)
      exact ⟨b, rec, hw, Nat.lt_succ_of_lt hb, hclaim⟩
    | none =>
      rw [hbelow, Option.none_or, Option.ite_none_right_eq_some, Option.map_eq_some_iff] at h
      obtain ⟨hmask, rec, hhit, rfl⟩ := h
      exact ⟨n, rec, rfl, Nat.lt_succ_self n, hmask, hhit, lowestClaim_eq_none hbelow⟩

end

section
variable {s : State} {lt : Nat} {w : Winner}

theorem exactHit_eq (s : State) (lt : Nat) : exactHit s lt
    = lowestClaim s.params.nmb (s.busMap.matchBus.mask lt) s.busHitAt Winner.exact := rfl

theorem ternaryHit_eq (s : State) (lt : Nat) : ternaryHit s lt
    = lowestClaim s.params.nltc (s.busMap.ltcam.mask lt) s.ltcHitAt Winner.ternary := rfl

theorem noExact_of_exactHit (h : exactHit s lt = none) : noExact s lt :=
  lowestClaim_eq_none ((exactHit_eq s lt).symm.trans h)

theorem noTernary_of_ternaryHit (h : ternaryHit s lt = none) : noTernary s lt :=
  lowestClaim_eq_none ((ternaryHit_eq s lt).symm.trans h)

theorem exactClaim_of_exactHit (h : exactHit s lt = some w) : ∃ b rec, w = .exact b rec ∧ exactClaim s lt b rec :=
  lowestClaim_eq_some ((exactHit_eq s lt).symm.trans h)

theorem ternaryClaim_of_ternaryHit (h : ternaryHit s lt = some w) :
    ∃ l rec, w = .ternary l rec ∧ ternaryClaim s lt l rec :=
  lowestClaim_eq_some ((ternaryHit_eq s lt).symm.trans h)

end

/-- Settles O48: by which of the two paths have a claim, and by the table's priority when both have one. -/
theorem arbitrationPicksTheTablesHit : Obligations.ArbitrationPicksTheTablesHit := by
  intro lt s ha
  refine ⟨arbitrate s lt, exec_rbArbitrate_of_accepts ha, ?_⟩
  unfold arbitrate
  cases hex : exactHit s lt with
  | none =>
    have hnoExact := noExact_of_exactHit hex
    cases htn : ternaryHit s lt with
    | none => exact ⟨hnoExact, noTernary_of_ternaryHit htn⟩
    | some tn =>
      obtain ⟨l, rec, rfl, hternary⟩ := ternaryClaim_of_ternaryHit htn
      exact ⟨hternary, .inl hnoExact⟩
  | some ex =>
    obtain ⟨b, rec, rfl, hexact⟩ := exactClaim_of_exactHit hex
    cases htn : ternaryHit s lt with
    | none => exact ⟨hexact, .inl (noTernary_of_ternaryHit htn)⟩
    | some tn =>
      obtain ⟨l, rec', rfl, hternary⟩ := ternaryClaim_of_ternaryHit htn
      cases hprio : priorityOf s.params lt with
      | exact => exact ⟨hexact, .inr rfl⟩
      | ternary => exact ⟨hternary, .inr rfl⟩

end Sys2Proof.Machine
end

section
/-! PROOFS. Predication (R260 to R277). An accepted command is its body without the checks. PRED_FIRST and PRED_NEXT
are each a walk of one thread whose outcome they answer: `RunsWalk` says that once, and what the statements ask of
either command follows from it. -/

namespace Sys2Proof.Machine

/-! ## The commands, once accepted (R345) -/

section
variable {s : State} {flags lt inhibit nextValid th : Nat} {next : Byte}

/-- A command that needs a started pass, once accepted, passes the check of it. -/
theorem requirePass_of_accepts {i : Instr} (ha : accepts s i = true)
    (hi : protocolOk s i = decide (s.pred.pass = .started)) (cause : Cause) : requirePass s cause = .ok () := by
  obtain ⟨_, _, hstarted, _⟩ := accepts_spec ha
  rw [hi] at hstarted
  rw [requirePass, hstarted]
  rfl

theorem exec_predStart_of_accepts (ha : accepts s (.predStart flags) = true) :
    exec (.predStart flags) s = .next ((s.startPass flags).answering .empty) := by
  obtain ⟨hrun, _, hpass, _, hops⟩ := accepts_spec ha
  have hnotStarted : decide (s.pred.pass ≠ .started) = true := hpass
  have hflags : checkWidth .flags 3 flags = .ok () := checkWidth_ok_iff.mpr (hops ⟨.flags, 8, flags⟩ (.head _))
  refine runCommand_ok hrun ?_
  rw [require_bind_of_true hnotStarted, hflags, ok_bind]

theorem exec_predGw_of_accepts (ha : accepts s (.predGw lt inhibit nextValid next) = true) :
    exec (.predGw lt inhibit nextValid next) s = .next ((s.putGw lt
      ⟨decide (inhibit = 1), if nextValid = 1 then some next else none⟩).answering .empty) := by
  obtain ⟨hrun, _, _, _, hops⟩ := accepts_spec ha
  have hlt : checkTable lt = .ok () := checkIndex_index16 (hops (index16 .lt 16 lt) (.head _))
  have hinhibit : checkWidth .inhibit 1 inhibit = .ok () :=
    checkWidth_ok_iff.mpr (hops ⟨.inhibit, 2, inhibit⟩ (.tail _ (.head _)))
  have hvalid : checkWidth .nextValid 1 nextValid = .ok () :=
    checkWidth_ok_iff.mpr (hops ⟨.nextValid, 2, nextValid⟩ (.tail _ (.tail _ (.head _))))
  refine runCommand_ok hrun ?_
  rw [requirePass_of_accepts ha rfl, ok_bind, hlt, ok_bind, hinhibit, ok_bind, hvalid, ok_bind]

theorem exec_predEnd_of_accepts (ha : accepts s .predEnd = true) :
    exec .predEnd s = .next ((s.setPass .ended).answering .empty) := by
  obtain ⟨hrun, -⟩ := accepts_spec ha
  refine runCommand_ok hrun ?_
  rw [requirePass_of_accepts ha rfl, ok_bind]

/-- What PRED_GET answers outside a pass: the low four bits as they are, a free value in the others (R276). -/
def unpassedBits (s : State) (lt th : Nat) : Byte :=
  (s.predBitsAt lt th &&& ~~~activeMask) ||| (Config.freeByte s.freeCount &&& activeMask)

theorem exec_predGet_of_accepts (ha : accepts s (.predGet lt th) = true) :
    exec (.predGet lt th) s = runCommand (.predGet lt th) s
      (if s.pred.pass = .started then .ok (s, .predBits (s.predBitsAt lt th))
        else .ok (s.draw, .predBits (unpassedBits s lt th))) := by
  obtain ⟨_, _, _, _, hops⟩ := accepts_spec ha
  have hlt : checkTable lt = .ok () := checkIndex_index16 (hops (index16 .lt 16 lt) (.head _))
  have hth : checkThread th = .ok () := checkIndex_index16 (hops (index16 .th 3 th) (.tail _ (.head _)))
  refine congrArg (runCommand _ s) ?_
  rw [hlt, ok_bind, hth, ok_bind]
  rfl

/-- The free value stays off the static bits: the active mask has no bit among the low four (R276). -/
theorem unpassedBits_low (s : State) (lt th : Nat) : unpassedBits s lt th &&& 0x0F = s.predBitsAt lt th &&& 0x0F := by
  have hlow : ~~~activeMask &&& 0x0F = (0x0F : Byte) := by decide
  have hhigh : activeMask &&& 0x0F = 0#8 := by decide
  calc unpassedBits s lt th &&& 0x0F
      = (s.predBitsAt lt th &&& (~~~activeMask &&& 0x0F))
          ||| (Config.freeByte s.freeCount &&& (activeMask &&& 0x0F)) := by
        rw [unpassedBits, BitVec.and_or_distrib_right, BitVec.and_assoc, BitVec.and_assoc]
    _ = s.predBitsAt lt th &&& 0x0F := by rw [hlow, hhigh, BitVec.and_zero, BitVec.or_zero]

end

/-- Settles O49: the bits of a started pass are the static ones, and the rest of it is as `startPass_spec` says. -/
theorem predStartBeginsPass : Obligations.PredStartBeginsPass := by
  intro flags s ha
  have hframe := answering_pred (r := .empty) (startPass_keeps s flags)
  have hexec := exec_predStart_of_accepts ha
  obtain ⟨hbits, hthreads, hgw, hpass⟩ := startPass_spec s flags
  generalize s.startPass flags = t at hframe hexec hbits hthreads hgw hpass
  refine ⟨t.answering .empty, hexec, rfl, fun lt hlt th hth => ?bits, hthreads, fun lt _ => hgw lt, hpass, hframe⟩
  case bits =>
    have hstatic := staticBits_spec s.params s.mem.regs lt th
    rw [← hbits lt hlt th hth] at hstatic
    exact hstatic

/-- Settles O50: one gateway is written, the pass is closed, or the bits are read. -/
theorem predicationPlainCommands : Obligations.PredicationPlainCommands := by
  refine ⟨fun lt inhibit nextValid next s ha => ?gw, fun s ha => exec_predEnd_of_accepts ha,
    fun lt th s ha => ⟨fun hstarted => ?inside, fun hstarted => ?outside⟩⟩
  case gw =>
    have hread := fun lt' => gwAt_putGw s lt ⟨decide (inhibit = 1), if nextValid = 1 then some next else none⟩ lt'
    exact ⟨_, exec_predGw_of_accepts ha, (hread lt).trans (if_pos rfl),
      fun lt' hne => (hread lt').trans (if_neg hne), rfl⟩
  case inside =>
    obtain ⟨hrun, -⟩ := accepts_spec ha
    rw [exec_predGet_of_accepts ha, if_pos hstarted]
    exact runCommand_ok hrun rfl
  case outside =>
    obtain ⟨hrun, -⟩ := accepts_spec ha
    rw [exec_predGet_of_accepts ha, if_neg hstarted]
    exact ⟨_, _, runCommand_ok hrun rfl, rfl, unpassedBits_low s lt th, rfl⟩

/-! ## PRED_FIRST and PRED_NEXT are walks (R272, R273) -/

/-- The answer of a command that walks: the table of the walk's outcome, or what the walk raises. -/
def walkAnswer (w : Op (Option Nat × State)) : Op (State × Response) := do
  let (r, t) ← w
  .ok (t, .table (tableByte r))

/-- Command i, in state s, answers the walk w of thread th from position p with target tgt: w ends as `walked` says, or
raises F08 at the first gateway that redirects the thread backward (R266, R271). -/
structure RunsWalk (i : Instr) (s : State) (th p : Nat) (tgt : Option Nat) (w : Op (Option Nat × State)) : Prop where
  running : s.running = true
  exec_eq : exec i s = runCommand i s (walkAnswer w)
  forward : walkForward s th p tgt → ∃ r t, w = .ok (r, t) ∧ walked s t th p tgt (tableByte r) ∧ walkKeeps s t th
    ∧ t = { s with pred := t.pred }
  backward : ∀ q, reached s th p tgt q → redirectsAt s th q (targetOn s th p tgt q) = true →
    (gatewayNext s q).toNat < 16 → posOf s.params (gatewayNext s q).toNat ≤ q →
      w = .error ⟨.nextTableOrder, .order (gatewayNext s q).toNat q⟩

section
variable {i : Instr} {s : State} {th p : Nat} {tgt : Option Nat} {w : Op (Option Nat × State)}

/-- Without a backward gateway the command answers the walk. -/
theorem RunsWalk.completes (h : RunsWalk i s th p tgt w) (hf : walkForward s th p tgt) :
    ∃ t x, exec i s = .next t ∧ t.response = some (.table x) ∧ walked s t th p tgt x ∧ walkKeeps s t th
      ∧ t = { s with pred := t.pred, response := t.response } := by
  obtain ⟨r, t, hw, hwalked, hkeeps, hpred⟩ := h.forward hf
  refine ⟨t.answering (.table (tableByte r)), tableByte r, ?_, rfl, hwalked, hkeeps, answering_pred hpred⟩
  rw [h.exec_eq]
  exact runCommand_ok h.running (by rw [hw]; rfl)

/-- R265, R266, R351: what a gateway that redirects does to the command. -/
theorem RunsWalk.gatewayRedirects (h : RunsWalk i s th p tgt w) : gatewayRedirects i s th p tgt := by
  intro q hr hd
  refine ⟨fun ⟨hlt, hpos⟩ => ?backward, fun hfwd hlast => ?forward⟩
  case backward =>
    rw [h.exec_eq]
    exact runCommand_error h.running (by rw [h.backward q hr hd hlt hpos]; rfl)
  case forward =>
    have hf := walkForward_of hr hfwd hlast
    obtain ⟨t, x, hexec, -, hwalked, -⟩ := h.completes hf
    exact ⟨t, hexec, walked_redirect hwalked hr hd hf hlast⟩

/-- Where no gateway redirects the thread, the walk leaves its target. -/
theorem RunsWalk.keeps_target (h : RunsWalk i s th p tgt w)
    (hn : ∀ q, reached s th p tgt q → redirectsAt s th q (targetOn s th p tgt q) = false) :
    ∃ t, exec i s = .next t ∧ t.targetAt th = tgt := by
  have hf : walkForward s th p tgt := fun q hr hd => absurd hd (by rw [hn q hr]; nofun)
  obtain ⟨t, x, hexec, -, hwalked, -⟩ := h.completes hf
  exact ⟨t, hexec, walked_target hwalked hn⟩

end

section
variable {s : State} {th c : Nat} {nt : Byte}

/-- A command whose operand names a thread, once accepted, passes the check of it. -/
theorem checkThread_of_accepts {i : Instr} (ha : accepts s i = true)
    (hi : operandTable s.params i = [index16 .th 3 th]) : checkThread th = .ok () ∧ th < 3 := by
  obtain ⟨_, _, _, _, hops⟩ := accepts_spec ha
  rw [hi] at hops
  have hth : th < min (2 ^ 16) 3 := hops (index16 .th 3 th) (.head _)
  exact ⟨checkIndex_index16 hth, lt_of_lt_of_le hth (min_le_right _ _)⟩

theorem runsWalk_predFirst (ha : accepts s (.predFirst th) = true) (ho : orderOk s.params)
    (hc : s.cursorAt th = .before) :
    RunsWalk (.predFirst th) s th 0 (s.targetAt th) (walk th s (positionsFrom 0)) := by
  obtain ⟨hrun, -⟩ := accepts_spec ha
  obtain ⟨hcheck, hth⟩ := checkThread_of_accepts ha rfl
  refine ⟨hrun, congrArg (runCommand _ s) ?body, walk_spec hth 16 0 s rfl ho,
    fun q => walk_error hth q 0 s (Nat.zero_add q)⟩
  case body =>
    rw [requirePass_of_accepts ha rfl, ok_bind, hcheck, ok_bind, require_bind_of_true (decide_eq_true hc)]
    rfl

/-- Behind a finished walk PRED_NEXT answers END (R273). -/
theorem exec_predNext_of_done (ha : accepts s (.predNext th nt) = true) (hc : s.cursorAt th = .done) :
    exec (.predNext th nt) s = .next (s.answering (.table 0xFF)) := by
  obtain ⟨hrun, -⟩ := accepts_spec ha
  obtain ⟨hcheck, -⟩ := checkThread_of_accepts ha rfl
  refine runCommand_ok hrun ?_
  rw [requirePass_of_accepts ha rfl, ok_bind, hcheck, ok_bind, hc]
  rfl

/-- At a position PRED_NEXT retargets the thread and walks on (R273). -/
theorem exec_predNext_of_pos (ha : accepts s (.predNext th nt) = true) (hc : s.cursorAt th = .pos c) :
    exec (.predNext th nt) s = runCommand (.predNext th nt) s
      (retarget s th c nt >>= fun u => walkAnswer (walk th u (positionsFrom (c + 1)))) := by
  obtain ⟨hcheck, -⟩ := checkThread_of_accepts ha rfl
  refine congrArg (runCommand _ s) ?_
  rw [requirePass_of_accepts ha rfl, ok_bind, hcheck, ok_bind, hc]
  rfl

/-- A runnable table's next table that points backward raises F08 (R266, R351). -/
theorem retarget_error (hr : predRunBit (s.predBitsAt (tableAt s.params c) th) = true)
    (h1 : ((s.gwAt (tableAt s.params c)).next.getD nt).toNat < 16)
    (h2 : posOf s.params ((s.gwAt (tableAt s.params c)).next.getD nt).toNat ≤ c) : retarget s th c nt
      = .error ⟨.nextTableOrder, .order ((s.gwAt (tableAt s.params c)).next.getD nt).toNat c⟩ := by
  rw [retarget, if_pos hr, resolve_backward h1 h2, error_bind]

theorem runsWalk_predNext (ha : accepts s (.predNext th nt) = true) (ho : orderOk s.params) (hc16 : c < 16)
    (hc : s.cursorAt th = .pos c) (hfwd : predRunBit (s.predBitsAt (tableAt s.params c) th) = true →
      pointsForward s.params ((s.gwAt (tableAt s.params c)).next.getD nt) c) :
    RunsWalk (.predNext th nt) s th (c + 1) (nextTgt s th c nt)
      (walk th (s.retargeted th c nt) (positionsFrom (c + 1))) := by
  obtain ⟨hrun, -⟩ := accepts_spec ha
  obtain ⟨-, hth⟩ := checkThread_of_accepts ha rfl
  refine ⟨hrun, ?_, nextWalk_spec hth hc16 ho, fun q => nextWalk_error hth⟩
  rw [exec_predNext_of_pos ha hc, retarget_ok hfwd, ok_bind]

end

/-- Settles O51: PRED_FIRST runs the walk from position 0. -/
theorem predFirstWalksFromStart : Obligations.PredFirstWalksFromStart :=
  fun _ _ ha ho hc hf => (runsWalk_predFirst ha ho hc).completes hf

/-- Settles O52: the retarget does not change what the walk behind it reads. -/
theorem predNextWalksOn : Obligations.PredNextWalksOn :=
  fun _ _ _ ha ho => ⟨exec_predNext_of_done ha, fun _ hc16 hc hfwd hf =>
    (runsWalk_predNext ha ho hc16 hc hfwd).completes hf⟩

/-- Settles O53: PRED_NEXT's own value is resolved before its walk, every other one by a gateway of a walk. -/
theorem backwardNextTableRaisesOrder : Obligations.BackwardNextTableRaisesOrder := by
  refine ⟨fun th c nt s ha hc => ?own, fun th s ha ho hc => (runsWalk_predFirst ha ho hc).gatewayRedirects,
    fun th c nt s ha ho hc16 hc => ?walks⟩
  case own =>
    intro lt n hrunnable hlt hpos
    obtain ⟨hrun, -⟩ := accepts_spec ha
    rw [exec_predNext_of_pos ha hc]
    exact runCommand_error hrun (by rw [retarget_error hrunnable hlt hpos, error_bind])
  case walks =>
    intro lt run n tgt hfwd
    have hwalk := runsWalk_predNext ha ho hc16 hc hfwd
    exact ⟨hwalk.gatewayRedirects, hwalk.keeps_target⟩

end Sys2Proof.Machine
end

section
/-! PROOFS. The color switchbox (R290 to R295). COLOR_SET_RIGHT and OVF_SET_RIGHT are one contribution to one bus of a
row, each past its own operand checks; what a contribution does is said once, for either bus. -/

namespace Sys2Proof.Machine

/-! ## A contribution to a row bus (R291) -/

section
variable {i : Instr} {s : State} {bus : RowBus} {r v : Nat} {pair first : Nat × Nat}

theorem contribute_of_agreeing (h : (s.colorAt r).who bus = none ∨ (s.colorAt r).who bus = some pair) :
    contribute i s bus r pair v = .ok (s.putColor r ((s.colorAt r).contribute bus pair v)) := by
  rcases h with hfree | hsame
  · simp [contribute, hfree]
  · simp [contribute, hsame]

theorem contribute_of_other (hwho : (s.colorAt r).who bus = some first) (hne : first ≠ pair) :
    contribute i s bus r pair v
      = if s.params.relaxColorBus then
          .ok ((s.warn ⟨.colorBusMix, .mix r bus first pair⟩ i).putColor r ((s.colorAt r).contribute bus pair v))
        else .error ⟨.colorBusMix, .mix r bus first pair⟩ := by
  simp [contribute, hwho, hne]

/-- The color bus of a row takes the value; it keeps its first contributor, and the overflow bus. -/
theorem contribute_color (x : ColorRow) (pair : Nat × Nat) (v : Nat) :
    x.contribute .color pair v = { x with acc := x.acc ||| v, whoC := some (x.whoC.getD pair) } := rfl

theorem contribute_overflow (x : ColorRow) (pair : Nat × Nat) (v : Nat) :
    x.contribute .overflow pair v = { x with ovf := x.ovf ||| v, whoO := some (x.whoO.getD pair) } := rfl

theorem getD_of_agreeing {α : Type} {who : Option α} {x : α} (h : who = none ∨ who = some x) : who.getD x = x := by
  rcases h with rfl | rfl <;> rfl

theorem putColor_changesOneRow (s : State) (r : Nat) (x : ColorRow) :
    (s.putColor r x).colorAt r = x ∧ ∀ r', r' ≠ r → (s.putColor r x).colorAt r' = s.colorAt r' :=
  ⟨by rw [colorAt_putColor, if_pos rfl], fun r' hne => by rw [colorAt_putColor, if_neg hne]⟩

/-- Command i, in state s, is the contribution of `pair` to a bus of row r: what COLOR_SET_RIGHT and OVF_SET_RIGHT are,
once accepted. -/
structure Contributes (i : Instr) (s : State) (bus : RowBus) (r : Nat) (pair : Nat × Nat) (v : Nat) : Prop where
  running : s.running = true
  exec_eq : exec i s = runCommand i s (contribute i s bus r pair v >>= fun t => .ok (t, .empty))

/-- A free bus, or one of the same pair, takes the value. -/
theorem Contributes.completes (h : Contributes i s bus r pair v)
    (hwho : (s.colorAt r).who bus = none ∨ (s.colorAt r).who bus = some pair) :
    ∃ t, exec i s = .next t ∧ t.colorAt r = (s.colorAt r).contribute bus pair v
      ∧ (∀ r', r' ≠ r → t.colorAt r' = s.colorAt r') ∧ t = { s with color := t.color, response := some .empty } := by
  obtain ⟨hrow, hothers⟩ := putColor_changesOneRow s r ((s.colorAt r).contribute bus pair v)
  exact ⟨_, h.exec_eq.trans (runCommand_bind_ok h.running (contribute_of_agreeing hwho) rfl), hrow, hothers, rfl⟩

/-- A bus of another pair takes the value too under relaxColorBus, which logs W02. -/
theorem Contributes.completes_relaxed (h : Contributes i s bus r pair v) (hwho : (s.colorAt r).who bus = some first)
    (hne : first ≠ pair) (hrelax : s.params.relaxColorBus = true) :
    ∃ t, exec i s = .next t ∧ t.colorAt r = (s.colorAt r).contribute bus pair v
      ∧ (∀ r', r' ≠ r → t.colorAt r' = s.colorAt r')
      ∧ t.warnLog = s.warnLog ++ [⟨.colorBusMix, opcode i, operands i, .mix r bus first pair⟩]
      ∧ t = { s with color := t.color, warnLog := t.warnLog, response := some .empty } := by
  have hbody := contribute_of_other (i := i) (v := v) hwho hne
  rw [if_pos hrelax] at hbody
  obtain ⟨hrow, hothers⟩ := putColor_changesOneRow (s.warn ⟨.colorBusMix, .mix r bus first pair⟩ i) r
    ((s.colorAt r).contribute bus pair v)
  exact ⟨_, h.exec_eq.trans (runCommand_bind_ok h.running hbody rfl), hrow, hothers, rfl, rfl⟩

/-- Without relaxColorBus a bus of another pair raises F02. -/
theorem Contributes.raises (h : Contributes i s bus r pair v) (hwho : (s.colorAt r).who bus = some first)
    (hne : first ≠ pair) (hstrict : s.params.relaxColorBus = false) :
    exec i s = .next (s.faulted i .colorBusMix (.mix r bus first pair)) := by
  refine h.exec_eq.trans (runCommand_bind_error h.running ?_)
  rw [contribute_of_other hwho hne, hstrict]
  rfl

end

/-! ## COLOR_SET_RIGHT and OVF_SET_RIGHT (R292, R293) -/

section
variable {s : State} {r col alu v : Nat}

/-- The operands that name a contributor, at the head of an operand table, are in range. -/
theorem checkContributor_of_operands {p : Params} {xs : List Operand}
    (h : ∀ x ∈ index16 .r p.nr r :: index16 .col p.nmc col :: index16 .alu p.nalu alu :: xs, x.value < x.bound) :
    checkContributor p r col alu = .ok () ∧ ∀ x ∈ xs, x.value < x.bound := by
  obtain ⟨hr, h⟩ := List.forall_mem_cons.mp h
  obtain ⟨hcol, h⟩ := List.forall_mem_cons.mp h
  obtain ⟨halu, h⟩ := List.forall_mem_cons.mp h
  have hrow : checkRow p r = .ok () := checkIndex_index16 hr
  have hcolumn : checkIndex .col 16 p.nmc col = .ok () := checkIndex_index16 hcol
  refine ⟨?_, h⟩
  rw [checkContributor, hrow, ok_bind, hcolumn, ok_bind]
  exact checkIndex_index16 halu

theorem contributes_colorSetRight (ha : accepts s (.colorSetRight r col alu v) = true) :
    Contributes (.colorSetRight r col alu v) s .color r (col, alu) v := by
  obtain ⟨hrun, _, _, _, hops⟩ := accepts_spec ha
  obtain ⟨hpair, hv⟩ := checkContributor_of_operands hops
  have hwidth : checkWidth .v s.params.cw v = .ok () := checkWidth_ok_iff.mpr (hv _ (.head _))
  refine ⟨hrun, congrArg (runCommand _ s) ?_⟩
  rw [hpair, ok_bind, hwidth, ok_bind]

theorem contributes_ovfSetRight (ha : accepts s (.ovfSetRight r col alu v) = true) :
    Contributes (.ovfSetRight r col alu v) s .overflow r (col, alu) v := by
  obtain ⟨hrun, _, _, _, hops⟩ := accepts_spec ha
  obtain ⟨hpair, hv⟩ := checkContributor_of_operands hops
  have hwidth : checkWidth .v s.params.ovw v = .ok () := checkWidth_ok_iff.mpr (hv _ (.head _))
  refine ⟨hrun, congrArg (runCommand _ s) ?_⟩
  rw [hpair, ok_bind, hwidth, ok_bind]

end

/-- Settles O54: a contribution to the color bus, whose recorded pair is the contributor of a free bus and stays on one
that has it. -/
theorem colorContributionIsChecked : Obligations.ColorContributionIsChecked := by
  intro r col alu v s ha
  have hcon := contributes_colorSetRight ha
  refine ⟨fun hwho => ?agreeing, fun first hwho hne => ⟨fun hrelax => ?relaxed, hcon.raises hwho hne⟩⟩
  case agreeing =>
    have hdone := hcon.completes hwho
    rwa [contribute_color, getD_of_agreeing hwho] at hdone
  case relaxed =>
    have hdone := hcon.completes_relaxed hwho hne hrelax
    rwa [contribute_color, hwho, Option.getD_some, ← hwho] at hdone

/-- Settles O55: a contribution to the overflow bus, with the contributor recorded for that bus. -/
theorem overflowContributionIsChecked : Obligations.OverflowContributionIsChecked := by
  intro r col alu v s ha
  have hcon := contributes_ovfSetRight ha
  refine ⟨fun hwho => ?agreeing, fun first hwho hne => ⟨fun hrelax => ?relaxed, hcon.raises hwho hne⟩⟩
  case agreeing =>
    have hdone := hcon.completes hwho
    rwa [contribute_overflow, getD_of_agreeing hwho] at hdone
  case relaxed =>
    have hdone := hcon.completes_relaxed hwho hne hrelax
    rwa [contribute_overflow, hwho, Option.getD_some, ← hwho] at hdone

/-! ## COLOR_RESET and COLOR_READ (R290, R294) -/

/-- Settles O56: the cleared switchbox lists no row, and an unlisted row reads as clear. -/
theorem colorResetAndRead : Obligations.ColorResetAndRead := by
  refine ⟨fun s ha => ?reset, fun r s ha => ?read⟩
  case reset =>
    obtain ⟨hrun, -⟩ := accepts_spec ha
    exact ⟨_, runCommand_ok hrun rfl, fun _ => rfl, rfl⟩
  case read =>
    obtain ⟨hrun, _, _, _, hops⟩ := accepts_spec ha
    have hr : checkRow s.params r = .ok () := checkIndex_index16 (hops (index16 .r s.params.nr r) (.head _))
    exact runCommand_bind_ok hrun hr rfl

end Sys2Proof.Machine
end

section
/-! PROOFS. Register accesses and atomic windows (R310, R320 to R325). The gate in front of the register store is said
once, one equation for each of its ways; a window's batch of writes is an induction over the writes issued so far. -/

namespace Sys2Proof.Machine

/-! ## The gate (R321) -/

section
variable {s : State} {off : Nat} {data : Word}

theorem gatedWrite_of_not_begun (hstate : s.atomic.state ≠ .begun) :
    s.gatedWrite off data = s.regApply off data := by
  rw [State.gatedWrite, if_neg hstate]

theorem gatedWrite_of_unbuffered (hstate : s.atomic.state = .begun) (hbuf : s.atomic.buffering = false) :
    s.gatedWrite off data = s.countWrite.regApply off data := by
  simp [State.gatedWrite, hstate, hbuf]

theorem gatedWrite_of_room (hstate : s.atomic.state = .begun) (hbuf : s.atomic.buffering = true)
    (hroom : s.atomic.buf.length < 64) : s.gatedWrite off data = s.countWrite.bufferWrite off data := by
  rw [State.gatedWrite, if_pos hstate, if_pos hbuf, if_pos hroom]

theorem gatedWrite_of_full (hstate : s.atomic.state = .begun) (hbuf : s.atomic.buffering = true)
    (hfull : 64 ≤ s.atomic.buf.length) : s.gatedWrite off data = s.countWrite.overflowWrite off data := by
  rw [State.gatedWrite, if_pos hstate, if_pos hbuf, if_neg (Nat.not_lt.mpr hfull)]

theorem gatedWrite_of_discard (hstate : s.atomic.state = .begun) (hbuf : s.atomic.buffering = true)
    (hfull : 64 ≤ s.atomic.buf.length) (hpolicy : s.params.overflowPolicy = .discard) :
    s.gatedWrite off data = s.countWrite.countOverflow := by
  have hcounted : s.countWrite.params.overflowPolicy = .discard := hpolicy
  rw [gatedWrite_of_full hstate hbuf hfull, State.overflowWrite, hcounted]

theorem gatedWrite_of_applyImmediately (hstate : s.atomic.state = .begun) (hbuf : s.atomic.buffering = true)
    (hfull : 64 ≤ s.atomic.buf.length) (hpolicy : s.params.overflowPolicy = .applyImmediately) :
    s.gatedWrite off data = s.countWrite.countOverflow.regApply off data := by
  have hcounted : s.countWrite.params.overflowPolicy = .applyImmediately := hpolicy
  rw [gatedWrite_of_full hstate hbuf hfull, State.overflowWrite, hcounted]

end

/-! ## The commands of a running block (R320 to R324) -/

section
variable {s : State} {off buffering : Nat} {data : Word}

theorem exec_cfgWrite_of_running (hrun : s.running = true) (hwidth : off < 2 ^ 32) (hoff : off < s.params.regWords) :
    exec (.cfgWrite off data) s = .next ((s.gatedWrite off data).answering .empty) :=
  runCommand_bind_ok hrun (checkIndex_ok_iff.mpr ⟨hwidth, hoff⟩) rfl

theorem exec_atomicQuery_of_running (hrun : s.running = true) : exec .atomicQuery s
    = .next (s.answering (.atomic s.atomic.state.number s.atomic.nWrites s.atomic.buf.length s.atomic.overflowed
        s.atomic.ovfCount)) :=
  runCommand_ok hrun rfl

/-- ATOMIC_END replays the buffer; the state Ending is not seen outside the replay. -/
theorem exec_atomicEnd_of_running (hrun : s.running = true) (hbegun : s.atomic.state = .begun) :
    exec .atomicEnd s = .next (((s.replay s.atomic.buf).setAtomic .ended).answering .empty) := by
  refine runCommand_ok hrun ?_
  rw [require_bind_of_true (decide_eq_true hbegun), replay_setAtomic]

theorem exec_cfgRead_of_accepts (ha : accepts s (.cfgRead off) = true) :
    exec (.cfgRead off) s = .next (s.answering (.data (s.regRead off))) := by
  obtain ⟨hrun, _, _, _, hops⟩ := accepts_spec ha
  have hoff : off < min (2 ^ 32) s.params.regWords := hops ⟨.off, _, off⟩ (.head _)
  exact runCommand_bind_ok hrun (checkIndex_ok_iff.mpr (lt_min_iff.mp hoff)) rfl

theorem exec_cfgWrite_of_accepts (ha : accepts s (.cfgWrite off data) = true) :
    exec (.cfgWrite off data) s = .next ((s.gatedWrite off data).answering .empty) := by
  obtain ⟨hrun, _, _, _, hops⟩ := accepts_spec ha
  have hoff : off < min (2 ^ 32) s.params.regWords := hops ⟨.off, _, off⟩ (.head _)
  obtain ⟨hwidth, hbound⟩ := lt_min_iff.mp hoff
  exact exec_cfgWrite_of_running hrun hwidth hbound

theorem exec_atomicBegin_of_accepts (ha : accepts s (.atomicBegin buffering) = true) :
    exec (.atomicBegin buffering) s = .next (State.answering
      { s with atomic := ⟨.begun, decide (buffering = 1), [], 0, 0⟩ } .empty) := by
  obtain ⟨hrun, _, hproto, _, hops⟩ := accepts_spec ha
  have hclosed : decide (s.atomic.state ≠ .begun) = true := hproto
  have hwidth : checkWidth .buffering 1 buffering = .ok () :=
    checkWidth_ok_iff.mpr (hops ⟨.buffering, 2, buffering⟩ (.head _))
  refine runCommand_ok hrun ?_
  rw [require_bind_of_true hclosed, hwidth, ok_bind]

end

/-- Settles O58: an accepted CFG_WRITE is the gate's write, and the gate has one way for each case. -/
theorem cfgAccessesGoThroughTheGate : Obligations.CfgAccessesGoThroughTheGate := by
  refine ⟨fun off s ha => exec_cfgRead_of_accepts ha, fun off data s ha => ?_⟩
  have hexec {t : State} (hgate : s.gatedWrite off data = t) :
      exec (.cfgWrite off data) s = .next (t.answering .empty) := hgate ▸ exec_cfgWrite_of_accepts ha
  exact ⟨fun hstate => hexec (gatedWrite_of_not_begun hstate),
    fun hstate hbuf => hexec (gatedWrite_of_unbuffered hstate hbuf),
    fun hstate hbuf hroom => hexec (gatedWrite_of_room hstate hbuf hroom),
    fun hstate hbuf hfull => ⟨fun hpolicy => hexec (gatedWrite_of_discard hstate hbuf hfull hpolicy),
      fun hpolicy => hexec (gatedWrite_of_applyImmediately hstate hbuf hfull hpolicy)⟩⟩

/-! ## The replay (R323) -/

section
variable (s : State) (o : Nat) (old : Word)

theorem lastWritten_append (ws ws' : List (Nat × Word)) :
    lastWritten (ws ++ ws') o old = lastWritten ws' o (lastWritten ws o old) := by
  unfold lastWritten
  rw [List.reverse_append, List.find?_append]
  cases ws'.reverse.find? fun w => w.1 == o <;> rfl

theorem lastWritten_singleton (w : Nat × Word) : lastWritten [w] o old = if o = w.1 then w.2 else old := by
  by_cases h : o = w.1
  · simp [lastWritten, h]
  · simp [lastWritten, h, Ne.symm h]

/-- A replay leaves in each word what the last write to it put there. -/
theorem regRead_replay (ws : List (Nat × Word)) : (s.replay ws).regRead o = lastWritten ws o (s.regRead o) := by
  induction ws generalizing s with
  | nil => rfl
  | cons w ws ih =>
    calc ((s.regApply w.1 w.2).replay ws).regRead o
        = lastWritten ws o (lastWritten [w] o (s.regRead o)) := by
          rw [ih, regRead_regApply, lastWritten_singleton]
      _ = lastWritten (w :: ws) o (s.regRead o) := (lastWritten_append o _ [w] ws).symm

/-- A replay changes the registers and what their notifications recompute. -/
theorem replay_keeps (ws : List (Nat × Word)) : s.replay ws = { s with
    mem := { s.mem with regs := (s.replay ws).mem.regs }
    mapSeq := (s.replay ws).mapSeq, busMap := (s.replay ws).busMap } := by
  induction ws generalizing s with
  | nil => rfl
  | cons w ws ih => exact ih (s.regApply w.1 w.2)

end

/-- Settles O59: a window begins empty, ATOMIC_END is a replay of its buffer, and ATOMIC_QUERY reads. -/
theorem atomicWindowCommands : Obligations.AtomicWindowCommands := by
  refine ⟨fun buffering s ha => exec_atomicBegin_of_accepts ha, fun s ha => ?ends, fun s ha => ?query⟩
  case ends =>
    obtain ⟨hrun, _, hproto, _⟩ := accepts_spec ha
    have hbegun : s.atomic.state = .begun := of_decide_eq_true hproto
    have hframe := replay_keeps s s.atomic.buf
    have hread := fun o => regRead_replay s o s.atomic.buf
    refine ⟨_, exec_atomicEnd_of_running hrun hbegun, ?_, hread, ⟨rfl, rfl, rfl⟩, ?_⟩
    · show { (s.replay s.atomic.buf).atomic with state := .ended } = _
      rw [hframe]
    · rw [hframe]
      rfl
  case query =>
    obtain ⟨hrun, -⟩ := accepts_spec ha
    rw [exec_atomicQuery_of_running hrun]
    cases hstate : s.atomic.state <;> rfl

/-! ## A batch of writes in one window (R325) -/

theorem after_append (is js : List Instr) (s : State) : after (is ++ js) s = after js (after is s) :=
  List.foldl_append

theorem after_singleton {i : Instr} {s t : State} (he : exec i s = .next t) : after [i] s = t :=
  after_cons [] he

/-- The commands that write a list of words, in its order. -/
def cfgWrites (ws : List (Nat × Word)) : List Instr := ws.map fun w => .cfgWrite w.1 w.2

/-- In a buffering window that opened in s, the writes of ws have led to t: each is counted, the first 64 are in the
buffer, and the others are counted as overflow and, by the policy, dropped or applied (R321, R325). -/
structure Batched (s : State) (ws : List (Nat × Word)) (t : State) : Prop where
  fault : t.fault = none
  params : t.params = s.params
  atomic : t.atomic
    = ⟨.begun, true, ws.take 64, BitVec.ofNat 32 ws.length, BitVec.ofNat 32 (ws.length - 64)⟩
  dropped : s.params.overflowPolicy = .discard → t.mem = s.mem
  applied : s.params.overflowPolicy = .applyImmediately →
    ∀ o, t.regRead o = lastWritten (ws.drop 64) o (s.regRead o)

section
variable {s t : State} {ws : List (Nat × Word)}

theorem Batched.running (h : Batched s ws t) : t.running = true := by rw [State.running, h.fault]; rfl

theorem Batched.buf (h : Batched s ws t) : t.atomic.buf = ws.take 64 := by rw [h.atomic]

/-- The window has just opened. -/
theorem batched_begin (s : State) (hf : s.fault = none) :
    Batched s [] (State.answering { s with atomic := ⟨.begun, true, [], 0, 0⟩ } .empty) :=
  ⟨hf, rfl, rfl, fun _ => rfl, fun _ _ => rfl⟩

/-- A write while the buffer has room. -/
theorem Batched.buffer (h : Batched s ws t) (hroom : ws.length < 64) (w : Nat × Word) :
    Batched s (ws ++ [w]) (t.countWrite.bufferWrite w.1 w.2) := by
  refine ⟨h.fault, h.params, ?counted, h.dropped, fun hpolicy o => ?read⟩
  case counted =>
    have htake : (ws ++ [w]).take 64 = ws.take 64 ++ [w] := by
      rw [List.take_of_length_le (by simpa using hroom), List.take_of_length_le hroom.le]
    have hover : (ws ++ [w]).length - 64 = ws.length - 64 := by rw [List.length_append, List.length_singleton]; omega
    show { t.atomic with nWrites := t.atomic.nWrites + 1, buf := t.atomic.buf ++ [w] } = _
    rw [h.atomic, htake, hover, List.length_append, BitVec.ofNat_add]
    rfl
  case read =>
    have hdrop : (ws ++ [w]).drop 64 = ws.drop 64 := by
      rw [List.drop_of_length_le (by simpa using hroom), List.drop_of_length_le hroom.le]
    rw [hdrop]
    exact h.applied hpolicy o

/-- The window's bookkeeping of a write past the buffer's capacity. -/
theorem Batched.atomic_overflow (h : Batched s ws t) (hfull : 64 ≤ ws.length) (w : Nat × Word) :
    t.countWrite.countOverflow.atomic = ⟨.begun, true, (ws ++ [w]).take 64, BitVec.ofNat 32 (ws ++ [w]).length,
      BitVec.ofNat 32 ((ws ++ [w]).length - 64)⟩ := by
  have hover : (ws ++ [w]).length - 64 = ws.length - 64 + 1 := by rw [List.length_append, List.length_singleton]; omega
  show { t.atomic with nWrites := t.atomic.nWrites + 1, ovfCount := t.atomic.ovfCount + 1 } = _
  rw [h.atomic, hover, List.take_append_of_le_length hfull, List.length_append, BitVec.ofNat_add, BitVec.ofNat_add]
  rfl

theorem Batched.drop (h : Batched s ws t) (hfull : 64 ≤ ws.length) (hpolicy : s.params.overflowPolicy = .discard)
    (w : Nat × Word) : Batched s (ws ++ [w]) t.countWrite.countOverflow :=
  ⟨h.fault, h.params, h.atomic_overflow hfull w, h.dropped, fun hother => absurd (hpolicy.symm.trans hother) nofun⟩

theorem Batched.apply (h : Batched s ws t) (hfull : 64 ≤ ws.length)
    (hpolicy : s.params.overflowPolicy = .applyImmediately) (w : Nat × Word) :
    Batched s (ws ++ [w]) (t.countWrite.countOverflow.regApply w.1 w.2) := by
  refine ⟨h.fault, h.params, h.atomic_overflow hfull w, fun hother => absurd (hpolicy.symm.trans hother) nofun,
    fun _ o => ?_⟩
  rw [regRead_regApply, List.drop_append_of_le_length hfull, lastWritten_append, lastWritten_singleton,
    ← h.applied hpolicy o]
  rfl

/-- One more write, whichever way the gate takes it. -/
theorem Batched.gatedWrite (h : Batched s ws t) (w : Nat × Word) :
    Batched s (ws ++ [w]) (t.gatedWrite w.1 w.2) := by
  have hstate : t.atomic.state = .begun := by rw [h.atomic]
  have hbuf : t.atomic.buffering = true := by rw [h.atomic]
  have hlength : t.atomic.buf.length = min 64 ws.length := by rw [h.buf, List.length_take]
  rcases Nat.lt_or_ge ws.length 64 with hroom | hfull
  · rw [gatedWrite_of_room hstate hbuf (by omega)]
    exact h.buffer hroom w
  · cases hpolicy : s.params.overflowPolicy with
    | discard =>
      rw [gatedWrite_of_discard hstate hbuf (by omega) (h.params ▸ hpolicy)]
      exact h.drop hfull hpolicy w
    | applyImmediately =>
      rw [gatedWrite_of_applyImmediately hstate hbuf (by omega) (h.params ▸ hpolicy)]
      exact h.apply hfull hpolicy w

theorem Batched.answering (h : Batched s ws t) (r : Response) : Batched s ws (t.answering r) :=
  ⟨h.fault, h.params, h.atomic, h.dropped, h.applied⟩

/-- Writes in range, after the window opened. -/
theorem batched_cfgWrites (ht : Batched s [] t) (hws : ∀ w ∈ ws, w.1 < s.params.regWords ∧ w.1 < 2 ^ 32) :
    Batched s ws (after (cfgWrites ws) t) := by
  induction ws using List.reverseRecOn with
  | nil => exact ht
  | append_singleton ws w ih =>
    have h := ih fun x hx => hws x (List.mem_append_left _ hx)
    obtain ⟨hoff, hwidth⟩ := hws w (List.mem_append_right _ (.head _))
    have hexec := exec_cfgWrite_of_running (data := w.2) h.running hwidth (h.params ▸ hoff)
    have hstep : after [.cfgWrite w.1 w.2] (after (cfgWrites ws) t) = _ := after_singleton hexec
    rw [cfgWrites, List.map_append, after_append]
    show Batched s (ws ++ [w]) (after [.cfgWrite w.1 w.2] (after (cfgWrites ws) t))
    rw [hstep]
    exact (h.gatedWrite w).answering .empty

/-- ATOMIC_END writes the buffered words over what the window left. -/
theorem Batched.regRead_atomicEnd (h : Batched s ws t) (o : Nat) :
    (after [.atomicEnd] t).regRead o = lastWritten (ws.take 64) o (t.regRead o) := by
  have hbegun : t.atomic.state = .begun := by rw [h.atomic]
  rw [after_singleton (exec_atomicEnd_of_running h.running hbegun), ← h.buf]
  exact regRead_replay t o t.atomic.buf

/-- What ATOMIC_QUERY reports of the window. -/
theorem Batched.query (h : Batched s ws t) (hlt : ws.length < 2 ^ 32) :
    ∃ q, exec .atomicQuery t = .next q ∧ q.response = some (.atomic 1 t.atomic.nWrites (min ws.length 64)
      (decide (64 < ws.length)) t.atomic.ovfCount) := by
  have hover : t.atomic.overflowed = decide (64 < ws.length) := by
    rw [Atomic.overflowed, h.atomic, BitVec.toNat_ofNat, Nat.mod_eq_of_lt (by omega)]
    exact decide_eq_decide.mpr (by omega)
  have hlength : t.atomic.buf.length = min ws.length 64 := by rw [h.buf, List.length_take, Nat.min_comm]
  have hnumber : t.atomic.state.number = 1 := by rw [h.atomic]; rfl
  have hexec := exec_atomicQuery_of_running h.running
  rw [hnumber, hlength, hover] at hexec
  exact ⟨_, hexec, rfl⟩

end

/-- Settles O60: the batch is in the buffer up to its capacity and in the counters beyond it, by induction on the
writes; ATOMIC_END replays the buffer. -/
theorem batchOfWritesIsBounded : Obligations.BatchOfWritesIsBounded := by
  intro s ws ha hws hlt t u
  obtain ⟨hrun, -⟩ := accepts_spec ha
  have h : Batched s ws t := by
    have hbegin := exec_atomicBegin_of_accepts ha
    show Batched s ws (after (.atomicBegin 1 :: cfgWrites ws) s)
    rw [after_cons _ hbegin]
    exact batched_cfgWrites (batched_begin s (Option.isNone_iff_eq_none.mp hrun)) hws
  refine ⟨h.fault, ?counted, h.buf, ?overflow, h.query hlt, fun hpolicy => ⟨h.dropped hpolicy, fun o => ?discard⟩,
    fun hpolicy o => ?applyImmediately⟩
  case counted => rw [h.atomic, BitVec.toNat_ofNat, Nat.mod_eq_of_lt hlt]
  case overflow => rw [h.atomic, BitVec.toNat_ofNat, Nat.mod_eq_of_lt (by omega)]
  case discard =>
    have hkept : t.regRead o = s.regRead o := by rw [State.regRead, h.params, h.dropped hpolicy]; rfl
    exact hkept ▸ h.regRead_atomicEnd o
  case applyImmediately => exact h.applied hpolicy o ▸ h.regRead_atomicEnd o

end Sys2Proof.Machine
end

section
/-! PROOFS. Faults and warnings (R340 to R355), and reset (R380 to R383). What a command can do (`exec_cases`) and what
a step can do (`step_cases`) are taken apart case by case; that no lookup hits without a valid entry is one `Spec` of
each lookup's body. -/

namespace Sys2Proof.Machine

/-! ## Illegal codes (R108, R348) -/

theorem decode_unlisted {p : Params} {op : Byte} {tail : List Byte} (h : op.toNat ∉ listedCodes) :
    decode p (op :: tail) = .illegal op tail := by
  have hnone : operandWidths p op.toNat = none := (Laws.operandWidths_none p op.toNat).mpr h
  simp [decode, hnone]

theorem fetch_illegal {s : State} {op : Byte} {tail : List Byte} (hinbox : s.inbox = op :: tail)
    (h : op.toNat ∉ listedCodes) : fetch s = .illegal op (s.withInbox tail) := by
  simp only [fetch, hinbox, decode_unlisted h]

/-- Settles O5: an unlisted code has no row in the operand table, so the decoder answers it as illegal. -/
theorem unlistedCodeRaisesIllegalOp : Obligations.UnlistedCodeRaisesIllegalOp := by
  intro s op tail hrun hinbox hop
  have hnone : s.fault.isSome = false := by rw [Option.isNone_iff_eq_none.mp hrun]; rfl
  have htake : takeIllegal op (s.withInbox tail)
      = (s.withInbox tail).takeFault ⟨.illegalOp, .code op.toNat⟩ op.toNat [] := if_neg (by simp [hnone])
  refine ⟨[], tail, ?_⟩
  rw [step, fetch_illegal hinbox hop]
  exact congrArg Host.Outcome.next htake

/-! ## Completing, faulting, refusing (R340, R355) -/

theorem exec_of_stopped {i : Instr} {s : State} (hstopped : s.running = false) : exec i s = .next s.refused := by
  obtain ⟨body, hexec, -⟩ := exec_body i s
  exact hexec.trans (runCommand_stopped hstopped)

/-- Settles O8: the three cases of `exec_cases`; no operation body writes the fault record. -/
theorem commandCompletesOrFaultsPrecisely : Obligations.CommandCompletesOrFaultsPrecisely := by
  refine fun i s => ⟨fun hrun => ?running, exec_of_stopped, rfl⟩
  case running =>
    obtain ⟨t, he⟩ := exec_next i s
    rcases exec_cases he with ⟨hstopped, -⟩ | ⟨-, s', r, hc, rfl⟩ | ⟨-, v, -, rfl⟩
    · exact absurd (hrun.symm.trans hstopped) nofun
    · exact .inl ⟨_, r, he, (change_fault hc).trans (Option.isNone_iff_eq_none.mp hrun), rfl⟩
    · exact .inr ⟨v.code, v.info, he⟩

/-- Settles O9: a stopped block waits, or takes bytes and refuses what they hold. -/
theorem stoppedBlockStaysStopped : Obligations.StoppedBlockStaysStopped := by
  refine fun s hstopped => ⟨fun t hstep => ?stays, rfl, rfl⟩
  case stays =>
    rcases step_cases hstep with ⟨-, rfl⟩ | ⟨i, rest, -, he⟩ | ⟨op, rest, -, rfl⟩
    · rfl
    · have hrefused : exec i (s.withInbox rest) = .next (s.withInbox rest).refused := exec_of_stopped hstopped
      obtain rfl : (s.withInbox rest).refused = t := Host.Outcome.next.inj (hrefused.symm.trans he)
      rfl
    · have hsome : (s.withInbox rest).fault.isSome = true := by
        cases hf : s.fault with
        | none => simp [State.running, hf] at hstopped
        | some ev => simp [State.withInbox, hf]
      rw [takeIllegal, if_pos hsome]
      rfl

/-! ## The code table (R344) -/

/-- A fault on record after a command to a running block is the record of one that the command can raise. -/
theorem raises_of_exec_fault {i : Instr} {s t : State} {ev : EventRecord} (hrun : s.running = true)
    (he : exec i s = .next t) (hf : t.fault = some ev) :
    ∃ v, Raises i s v ∧ ev = ⟨v.code, opcode i, operands i, v.info⟩ := by
  rcases exec_cases he with ⟨hstopped, -⟩ | ⟨-, s', r, hc, rfl⟩ | ⟨-, v, hv, rfl⟩
  · exact absurd (hrun.symm.trans hstopped) nofun
  · have hnone : s'.fault = none := (change_fault hc).trans (Option.isNone_iff_eq_none.mp hrun)
    exact absurd (hnone.symm.trans hf) nofun
  · exact ⟨v, hv, (Option.some.inj hf).symm⟩

/-- Settles O10: the numbers by evaluation, the raisers and the flags by what each operation can raise. -/
theorem faultsFollowTheCodeTable : Obligations.FaultsFollowTheCodeTable := by
  refine ⟨rfl, fun i s t ev hrun he hf => ?_⟩
  obtain ⟨v, hv, rfl⟩ := raises_of_exec_fault hrun he hf
  exact hv

/-! ## Protocol faults (R346, R347) -/

section
variable {i : Instr} {s : State} {th : Nat} {nt : Byte}

/-- A body that begins with a failing check raises the check's violation. -/
theorem runCommand_require_false {c : Bool} {v : Violation} {f : Unit → Op (State × Response)}
    (hrun : s.running = true) (hc : c = false) :
    runCommand i s (require c v >>= f) = .next (s.faulted i v.code v.info) :=
  runCommand_error hrun (require_bind_of_false hc)

/-- PRED_FIRST on a thread whose walk has begun (R272). -/
theorem exec_predFirst_twice (ha : accepts s (.predFirst th) = true) (hc : s.cursorAt th ≠ .before) :
    exec (.predFirst th) s = .next (s.faulted (.predFirst th) .predBracket (.bracket .firstTwice (some th))) := by
  obtain ⟨hrun, -⟩ := accepts_spec ha
  obtain ⟨hth, -⟩ := checkThread_of_accepts ha rfl
  refine runCommand_error hrun ?_
  rw [requirePass_of_accepts ha rfl, ok_bind, hth, ok_bind, require_bind_of_false (decide_eq_false hc)]
  rfl

/-- PRED_NEXT on a thread whose walk has not begun (R273). -/
theorem exec_predNext_before (ha : accepts s (.predNext th nt) = true) (hc : s.cursorAt th = .before) :
    exec (.predNext th nt) s
      = .next (s.faulted (.predNext th nt) .predBracket (.bracket .nextBeforeFirst (some th))) := by
  obtain ⟨hrun, -⟩ := accepts_spec ha
  obtain ⟨hth, -⟩ := checkThread_of_accepts ha rfl
  refine runCommand_error hrun ?_
  rw [requirePass_of_accepts ha rfl, ok_bind, hth, ok_bind, hc]
  rfl

end

/-- Settles O13: the bracket is the first check of each command's body, the cursor is looked at behind the operands. -/
theorem predicationBracketIsEnforced : Obligations.PredicationBracketIsEnforced := by
  intro s hrun
  refine ⟨fun flags hpass => ⟨none, ?start⟩, fun lt inhibit nextValid next hpass => ⟨none, ?gw⟩,
    fun th hpass => ⟨none, ?first⟩, fun th nt hpass => ⟨none, ?next⟩, fun hpass => ⟨none, ?finish⟩,
    fun _ => exec_predFirst_twice, fun _ _ => exec_predNext_before⟩
  case start => exact runCommand_require_false hrun (decide_eq_false (not_not.mpr hpass))
  case gw => exact runCommand_require_false hrun (decide_eq_false hpass)
  case first => exact runCommand_require_false hrun (decide_eq_false hpass)
  case next => exact runCommand_require_false hrun (decide_eq_false hpass)
  case finish => exact runCommand_require_false hrun (decide_eq_false hpass)

/-- Settles O14: the window is the first check of either command's body. -/
theorem atomicProtocolIsEnforced : Obligations.AtomicProtocolIsEnforced :=
  fun _ hrun => ⟨fun _ hstate => runCommand_require_false hrun (decide_eq_false (not_not.mpr hstate)),
    fun hstate => runCommand_require_false hrun (decide_eq_false hstate)⟩

/-! ## The warning log (R343) -/

/-- W02 under relaxColorBus, or W07 under relaxMultiHit. -/
def allowedWarning (p : Params) (w : EventRecord) : Prop :=
  (w.code = .colorBusMix ∧ p.relaxColorBus = true) ∨ (w.code = .busContention ∧ p.relaxMultiHit = true)

/-- The log of t is that of s, with warnings that the flags allow behind it. -/
def LogGrows (s t : State) : Prop := ∃ more, t.warnLog = s.warnLog ++ more ∧ ∀ w ∈ more, allowedWarning s.params w

section
variable {i : Instr} {s t u : State}

theorem logGrows_of_eq (h : t.warnLog = s.warnLog) : LogGrows s t := ⟨[], by rw [h, List.append_nil], nofun⟩

theorem logGrows_warn {v : Violation} (h : allowedWarning s.params (eventOf v (opcode i) (operands i))) :
    LogGrows s (s.warn v i) :=
  ⟨[_], rfl, fun _ hw => List.mem_singleton.mp hw ▸ h⟩

theorem LogGrows.trans (hp : t.params = s.params) (h : LogGrows s t) (h' : LogGrows t u) : LogGrows s u := by
  obtain ⟨more, hlog, hmore⟩ := h
  obtain ⟨more', hlog', hmore'⟩ := h'
  refine ⟨more ++ more', by rw [hlog', hlog, List.append_assoc], fun w hw => ?_⟩
  rcases List.mem_append.mp hw with hw | hw
  · exact hmore w hw
  · exact hp ▸ hmore' w hw

theorem prim_logGrows (hp : Prim i s t) : LogGrows s t := by
  cases hp with
  | warnBus b x y _ hrelax => exact logGrows_warn (.inr ⟨rfl, hrelax⟩)
  | warnColor bus r x y _ hrelax => exact logGrows_warn (.inl ⟨rfl, hrelax⟩)
  | _ => exact logGrows_of_eq (by simp)

end

/-- Settles O15: two primitive changes write the log, each with one warning under its flag. -/
theorem warningsOnlyAccumulate : Obligations.WarningsOnlyAccumulate := by
  intro s t hstep
  have hgrows : t.params = s.params ∧ LogGrows s t :=
    step_keeps (Inv := fun u => u.params = s.params ∧ LogGrows s u) (fun _ _ _ _ h => h)
      (fun _ _ _ ⟨hparams, hlog⟩ hp => ⟨(prim_params hp).trans hparams, hlog.trans hparams (prim_logGrows hp)⟩)
      ⟨rfl, logGrows_of_eq rfl⟩ hstep
  exact hgrows.2

/-! ## Reset (R380) -/

/-- Settles O6: after a host reset every sparse array is empty and reads as its default, and the maps are those of the
reset configuration. -/
theorem resetGivesStatedValues : Obligations.ResetGivesStatedValues := by
  intro s
  refine ⟨rfl, fun o w hw => ?word, fun _ _ _ _ => rfl, fun _ _ => rfl, fun _ _ => ⟨rfl, rfl⟩, fun _ _ => rfl, rfl,
    fun _ => rfl, ofConfig_fresh s.params, ofConfig_consistent s.params, fun _ _ => rfl, rfl,
    fun _ => ⟨rfl, rfl, rfl⟩, fun _ => rfl, fun _ => rfl, rfl, rfl, fun _ => rfl, fun _ => rfl, rfl, rfl⟩
  case word =>
    show s.params.regReset.getD o 0 = w
    rw [List.getD_eq_getElem?_getD, hw, Option.getD_some]

/-- Settles O25: the maps are recomputed from the registers, and every other array is empty. -/
theorem invariantsHoldAtReset : Obligations.InvariantsHoldAtReset := by
  intro p s
  refine ⟨ofConfig_consistent p, ofConfig_fresh p, fun _ _ => nofun, fun _ _ _ _ => ?bits, ⟨nofun, nofun, nofun⟩,
    ⟨nofun, nofun⟩, ⟨List.length_replicate, Nat.two_pow_pos _, Nat.two_pow_pos _, Nat.two_pow_pos _⟩,
    ⟨Nat.zero_le _, nofun⟩, memory_wf_resetWith p, ofConfig_fits p, contributorsFit_of_color_nil rfl,
    fun _ _ => ⟨nofun, nofun⟩⟩
  case bits =>
    show predImplied 0
    decide

/-! ## Lookups without a valid entry (R383) -/

section
variable {s t : State}

theorem noValidEntry_congr (hm : t.mem = s.mem) (h : s.noValidEntry) : t.noValidEntry := by
  rw [State.noValidEntry, hm]; exact h

/-- Neither a listed nor an unlisted entry is valid. -/
theorem sramAt_invalid (h : s.noValidEntry) (r c a e : Nat) : (s.sramAt r c a e).valid = false := by
  obtain ⟨hsram, -, -⟩ := h
  rcases Cells.read_mem (dflt := sramDefault s.params) (k := sramKey s.params r c a e) s.mem.sram with hlisted | hdflt
  · exact hsram _ hlisted
  · rw [State.sramAt, hdflt]; rfl

theorem tcamAt_invalid (h : s.noValidEntry) (u idx : Nat) : (s.tcamAt u idx).valid = false := by
  obtain ⟨-, htcam, -⟩ := h
  rcases Cells.read_mem (dflt := tcamDefault s.params) (k := tcamKey s.params u idx) s.mem.tcam with hlisted | hdflt
  · exact htcam _ hlisted
  · rw [State.tcamAt, hdflt]; rfl

theorem stashAt_invalid (h : s.noValidEntry) (r w : Nat) : (s.stashAt r w).valid = false := by
  obtain ⟨-, -, hstash⟩ := h
  rcases Cells.read_mem (dflt := stashDefault s.params) (k := stashKey r w) s.mem.stash with hlisted | hdflt
  · exact hstash _ hlisted
  · rw [State.stashAt, hdflt]; rfl

theorem slotHits_eq_nil (h : s.noValidEntry) (r c a key ver : Nat) : slotHits s r c a key ver = [] := by
  have hmiss : ∀ e ∈ List.range s.params.ne,
      ¬ entryHit s.params s.mem.regs (s.sramAt r c a e) key ver r c e = true := by
    intro e _
    simp [entryHit, sramAt_invalid h]
  rw [slotHits, List.filter_eq_nil_iff.mpr hmiss, List.map_nil]

theorem tcamMatch_eq_false (h : s.noValidEntry) (tw u idx s1 s0 : Nat) :
    tcamMatch tw (s.tcamAt u idx) s1 s0 = false := by
  simp [tcamMatch, tcamAt_invalid h]

theorem stashHits_eq_false (h : s.noValidEntry) (r key ver w : Nat) : stashHits s r key ver w = false := by
  simp [stashHits, stashRaw, stashAt_invalid h]

/-! In what follows a body may raise any violation: the statement is about lookups that complete. -/

/-- A command answers r whenever it completes. -/
theorem response_of_spec {i : Instr} {body : Op (State × Response)} {r r' : Response}
    (hexec : exec i s = runCommand i s body) (hbody : Spec (fun _ => True) (fun x => x.2 = r) body)
    (he : exec i s = .next t) (hr : t.response = some r') : r' = r := by
  rw [hexec] at he
  rcases runCommand_cases he with ⟨-, rfl⟩ | ⟨-, s', x, rfl, rfl⟩ | ⟨-, v, -, rfl⟩
  · cases hr
  · exact (Option.some.inj hr).symm.trans hbody
  · cases hr

theorem spec_any {α : Type} (x : Op α) : Spec (fun _ => True) (fun _ => True) x := by
  cases x <;> trivial

/-- A part of a body whose result does not enter what is claimed, such as a check. -/
theorem spec_skip {α β : Type} {P : β → Prop} {x : Op α} {f : α → Op β}
    (hf : ∀ a, Spec (fun _ => True) P (f a)) : Spec (fun _ => True) P (x >>= f) :=
  spec_bind (spec_mono (spec_any x) fun a _ => hf a)

theorem spec_tcamScan_misses (h : s.noValidEntry) (u s1 s0 : Nat) :
    Spec (fun _ => True) (fun hit => hit = none) (tcamScan s u s1 s0) := by
  unfold tcamScan
  dsimp only
  split
  · exact List.find?_eq_none.mpr fun idx _ => by rw [tcamMatch_eq_false h]; nofun
  · trivial

theorem spec_tcamXbarScan_misses (h : s.noValidEntry) (u : Nat) :
    Spec (fun _ => True) (fun hit => hit = none) (tcamXbarScan s u) :=
  spec_skip fun _ => spec_tcamScan_misses h u _ _

theorem spec_ltcamStep_misses (h : s.noValidEntry) (l u : Nat) :
    Spec (fun _ => True) (fun hit => hit = none) (ltcamStep s l none u) := by
  unfold ltcamStep
  dsimp only
  split
  · trivial
  · split
    · exact spec_bind (spec_mono (spec_tcamXbarScan_misses h u) fun hit hnone => by rw [hnone]; rfl)
    · rfl

theorem spec_sramAddress_mem (r c : Nat) :
    Spec (fun _ => True) (fun x : Nat × State => x.2.mem = s.mem) (sramAddress s r c) := by
  unfold sramAddress
  dsimp only
  split
  · split
    · refine spec_bind (spec_mono (spec_hashValue fun _ _ => trivial) fun x hx => ?_)
      show x.2.mem = s.mem
      rw [hx, State.fill_mem]
    · trivial
  · trivial

/-- Row after row, a lookup finds no hit and leaves the memory. -/
theorem spec_lookupRow_misses (h : s.noValidEntry) (c ver r : Nat) :
    Spec (fun _ => True) (fun x : List RawHit × State => x.1 = [] ∧ x.2.noValidEntry) (lookupRow c ver ([], s) r) := by
  refine spec_bind (spec_mono (spec_matchXbar fun _ _ => trivial) fun key hkey => ?_)
  obtain ⟨gs, hgs⟩ := hkey
  have hentries : key.2.noValidEntry := noValidEntry_congr (by rw [hgs, State.fills_mem]) h
  refine spec_bind (spec_mono (spec_sramAddress_mem r c) fun addr haddr => ?_)
  have hentries' : addr.2.noValidEntry := noValidEntry_congr haddr hentries
  exact ⟨by rw [slotHits_eq_nil hentries']; rfl, hentries'⟩

theorem exec_sramLookup_misses (h : s.noValidEntry) (c lt vs : Nat) : ∃ body,
    exec (.sramLookup c lt vs) s = runCommand (.sramLookup c lt vs) s body
      ∧ Spec (fun _ => True) (fun x => x.2 = .sramHits false []) body := by
  have hrefreshed : (s.refreshRows c).noValidEntry := noValidEntry_congr (State.refreshRows_mem s c) h
  refine ⟨_, rfl, spec_skip fun _ => spec_skip fun _ => spec_skip fun _ => spec_skip fun _ => ?_⟩
  refine spec_bind (spec_mono (spec_foldOp
    (fun x : List RawHit × State => x.1 = [] ∧ x.2.noValidEntry) ⟨rfl, hrefreshed⟩ ?row) ?reports)
  case row =>
    rintro ⟨hits, u⟩ r ⟨rfl, hu⟩ -
    exact spec_lookupRow_misses hu c _ r
  case reports =>
    rintro ⟨hits, u⟩ ⟨rfl, -⟩
    have hnone : reportedHits s.params [] = [] := by unfold reportedHits; split <;> rfl
    show Spec _ _ (foldOp _ _ (reportedHits s.params []) >>= _)
    rw [hnone]
    rfl

end

/-- Settles O7: the check of `valid` is the first of every match, so a lookup that completes has found nothing. -/
theorem lookupsMissWithoutValidEntries : Obligations.LookupsMissWithoutValidEntries := by
  refine ⟨fun p => ⟨nofun, nofun, nofun⟩, fun s h => ⟨fun c lt vs t r => ?sram, fun u t r => ?tcam,
    fun u s1 s0 t r => ?tcamRaw, fun l t r => ?ltcam, fun q vs t r => ?stash⟩⟩
  case sram =>
    obtain ⟨body, hexec, hbody⟩ := exec_sramLookup_misses h c lt vs
    exact response_of_spec hexec hbody
  case tcam =>
    exact response_of_spec rfl (spec_skip fun _ => spec_skip fun _ =>
      spec_bind (spec_mono (spec_tcamXbarScan_misses h u) fun hit hnone => congrArg Response.tcamIndex hnone))
  case tcamRaw =>
    exact response_of_spec rfl (spec_skip fun _ => spec_skip fun _ => spec_skip fun _ =>
      spec_bind (spec_mono (spec_tcamScan_misses h u s1 s0) fun hit hnone => congrArg Response.tcamIndex hnone))
  case ltcam =>
    refine response_of_spec rfl (spec_skip fun _ => spec_skip fun _ => spec_bind (spec_mono
      (spec_foldOp (fun hit : Option LtcHit => hit = none) rfl fun hit u hnone _ => ?_)
      fun hit hnone => congrArg Response.ltcamHit hnone))
    rw [hnone]
    exact spec_ltcamStep_misses h l u
  case stash =>
    refine response_of_spec rfl (spec_skip fun _ => spec_skip fun _ => spec_skip fun _ =>
      spec_bind (spec_mono (spec_matchXbar fun _ _ => trivial) fun key hkey => ?_))
    obtain ⟨gs, hgs⟩ := hkey
    have hentries : key.2.noValidEntry := noValidEntry_congr (by rw [hgs, State.fills_mem]) h
    have hmiss : (List.range ns).find? (stashHits key.2 q key.1 (phvVersion s.ctx.phv vs)) = none :=
      List.find?_eq_none.mpr fun w _ => by rw [stashHits_eq_false hentries]; nofun
    show Response.stashHit (((List.range ns).find? _).map _) = _
    rw [hmiss]
    rfl

end Sys2Proof.Machine
end
